-- ==== Sys2Proof/Word.lean ====
section
/-!
DEFINITION. The word types of the Forwyn 9 and their plainest arithmetic: bytes, 32-bit registers and parcels, 64-bit
scalars and addresses, and the reading of bit ranges `[hi:lo]` as the manual writes them (00_scope, Conventions).
-/
namespace Sys2Proof

/-- One byte of memory. -/
abbrev Byte := BitVec 8
/-- A vector register of one lane, and one instruction parcel (R54, R60). -/
abbrev W32 := BitVec 32
/-- A slice scalar register, an address, a ticket (R60, R104, R237). -/
abbrev W64 := BitVec 64

/-- Bits `hi` down to `lo` of a natural number, as a natural number. -/
def bitsOf (x hi lo : Nat) : Nat := (x >>> lo) % 2 ^ (hi + 1 - lo)

/-- `zext64` of R30. -/
def zext64 {w : Nat} (x : BitVec w) : W64 := x.setWidth 64
/-- `sext64` of R30, for a value of `w` bits. -/
def sext64 {w : Nat} (x : BitVec w) : W64 := x.signExtend 64

/-- The low half of a 64-bit value: register n of a pair (R30). -/
def lo32 (x : W64) : W32 := x.setWidth 32
/-- The high half of a 64-bit value: register n + 1 of a pair (R30). -/
def hi32 (x : W64) : W32 := (x >>> 32).setWidth 32
/-- The 64-bit value of a pair, the low half in register n (R30). -/
def pair64 (lo hi : W32) : W64 := hi ++ lo

/-- A number as a mask of `w` bits with bit `i` set. -/
def bit1 (w i : Nat) : BitVec w := BitVec.ofNat w (2 ^ i)

end Sys2Proof
end

