-- ==== Sys2Proof/Syntax.lean ====
section
/-!
DEFINITION. The instructions and events of the Forwyn 9: one constructor of `Instr` for each of the 252 rows of
spec/opcode_table.json, in the table's order. 146 are gang instructions (R72), 24 are batten instructions (R339), 82 are
events: steps of an engine, of the front end, of firmware, of the fabric, of the supply or of the host, which have no word.
An event carries as arguments what comes from outside the machine (a packet, a measurement, a time) or names what it is about.
-/
namespace Sys2Proof

/-- A vector register number (R60). -/
abbrev VReg := BitVec 8
/-- A slice scalar register number, 0 to 63 (R60). -/
abbrev SReg := BitVec 6
/-- A predicate number, 0 to 7 (R60). -/
abbrev PReg := BitVec 3

/-- The type codes of R62; code 15 is reserved. -/
inductive Ty where
  | n32 | s32 | n64 | s64 | f32 | f64 | f16 | bf16 | n16 | s16 | n8 | s8 | f16x2 | bf16x2 | b32
  deriving DecidableEq, Repr

/-- An SA operand: a vector register, or a scalar register when XFSA is 1 (R60). -/
inductive Src where
  | v (r : VReg) | s (r : SReg)
  deriving DecidableEq, Repr

/-- An SB operand: a vector register, a scalar register with XFSB, or IMM32 with XFIB (R60, R61). -/
inductive SrcB where
  | v (r : VReg) | s (r : SReg) | imm (x : W32)
  deriving DecidableEq, Repr

/-- A third source: a vector register, a scalar register, or the 8-bit immediate of XFI (R60, R61). -/
inductive SrcC where
  | v (r : VReg) | s (r : SReg) | imm (x : Byte)
  deriving DecidableEq, Repr

/-- A destination: a vector register (SC 0) or a scalar register (SC 1) (R60). -/
inductive Dst where
  | v (r : VReg) | s (r : SReg)
  deriving DecidableEq, Repr

/-- The order codes of R63. -/
inductive Order where
  | rlx | acq | rel | ar
  deriving DecidableEq, Repr

/-- The scope codes of R63 and R156. -/
inductive Scope where
  | group | die | dev | sys
  deriving DecidableEq, Repr

/-- The rounding codes of R64 and R113. -/
inductive Rm where
  | rne | rz | rp | rm | rna
  deriving DecidableEq, Repr

/-- The conditions of `brs` and `cmp` (R74). -/
inductive Cond where
  | eq | ne | lt | le | gt | ge
  deriving DecidableEq, Repr

/-- The conditions of `cmpf` (R74). -/
inductive FCond where
  | eq | ne | lt | le | gt | ge | un | ord
  deriving DecidableEq, Repr

/-- The minors of `vote` (R97). -/
inductive Vote where
  | all | any | uni | ballot
  deriving DecidableEq, Repr

/-- The combinations of `redg`, `scang` and the collectives (R74, R123). -/
inductive Comb where
  | add | min | max | and | or | xor
  deriving DecidableEq, Repr

/-- The minors of `atom`, `red` and `natm` (R74, R172). -/
inductive Amo where
  | add | min | max | and | or | xor | exch | cas | mxi
  deriving DecidableEq, Repr

/-- The minors of `pvop` (R178). -/
inductive PvOp where
  | add | min | max | and | or | xor | mov | mul
  deriving DecidableEq, Repr

/-- The access paths of the in-flight counters (R74, R150). -/
inductive Path where
  | glob | scr | lst | atr | net
  deriving DecidableEq, Repr

/-- The kinds of `copy` (R240). -/
inductive CopyKind where
  | gg | gs | sg | ss
  deriving DecidableEq, Repr

/-- The kinds of `ncoll` (R200). -/
inductive CollKind where
  | ared | rscat | agath | bcst | pbar
  deriving DecidableEq, Repr

/-- The forms of `cvt8` (R137). -/
inductive Cvt8 where
  | sat | inf | dec
  deriving DecidableEq, Repr

/-- The forms of `cvt4` (R138): encode a pair, or decode element k. -/
inductive Cvt4 where
  | enc (b : SrcB) | dec (k : BitVec 3)
  deriving DecidableEq, Repr

/-- The forms of `pk` (R140). -/
inductive Pk where
  | cvt (m : Rm) (t : Ty) (b : SrcB) | h (b : SrcB) | b (b : SrcB) (c : SrcC)
  deriving DecidableEq, Repr

/-- The forms of `upk` (R141); `signed` is the s type of the pair the form lists. -/
inductive Upk where
  | cvt (m : Rm) (t : Ty) (k : BitVec 1) | b (signed : Bool) (k : BitVec 2) | h (signed : Bool) (k : BitVec 1)
  deriving DecidableEq, Repr

/-- The forms of `bscl` (R139). -/
inductive Bscl where
  | apply (m : Rm) (b : SrcB) | fit (k : BitVec 4) | inv (m : Rm) (b : SrcB)
  deriving DecidableEq, Repr

/-- The threshold of `waitc`: an immediate, or a scalar register (R170). -/
inductive Thr where
  | imm (x : Byte) | s (r : SReg)
  deriving DecidableEq, Repr

/-- The index part of a privileged register selector (R297): immediate, or bits [19:0] of a scalar register. -/
inductive PIdx where
  | imm (k : BitVec 20) | s (r : SReg)
  deriving DecidableEq, Repr

/-- A gang of a group, by the model's numbers. -/
structure GangRef where
  group : Nat
  gang : Nat
  deriving DecidableEq, Repr

/-- A stamp of the ordered class (R192): time, source, sequence. -/
structure Stamp where
  t : BitVec 48
  src : BitVec 19
  seq : BitVec 13
  deriving DecidableEq, Repr

/-- What a fabric packet asks of its target (R201). -/
inductive PktOp where
  | put (addr : W64) (data : List Byte)
  | get (addr : W64) (ty : Ty)
  | atom (op : Amo) (ty : Ty) (addr : W64) (c e : W64)
  deriving DecidableEq, Repr

/-- A packet of the fabric: the target package and partition (R199), where it came from, and what it asks. -/
structure Packet where
  stamp : Stamp
  pkg : BitVec 19
  part : BitVec 2
  src : BitVec 19
  ctx : Nat
  num : Nat
  op : PktOp
  deriving DecidableEq, Repr

/-- What the cells of a slice did to one product of a batch (R220, R221): the product, the slice, the value its columns took and the
carry out of them, and whether it fell in a repetition. -/
structure SliceObs where
  mmx : Nat
  row : Nat
  col : Nat
  k : Nat
  ridge : Bool
  course : Bool
  value : Nat
  carry : Nat
  inRepeat : Bool
  deriving DecidableEq, Repr

/-- What caused an activity that draws energy (R309): a gang's instructions and accesses, an engine operation of a context, register lines and
scratch written or read for a group squeezed on behalf of a context, static power, filler, and everything that no tenant causes. -/
inductive Cause where
  | gang (r : GangRef)
  | engine (ctx : Nat)
  | image (group ctx : Nat)
  | static
  | filler
  | other
  deriving DecidableEq, Repr

/-- An energy charge (R308): the unit that sums it (clusters 0 to 31, dies 32 to 35, the package base 36), its cause, and picojoules as the
calibration table gives them. -/
structure Charge where
  unit : Nat
  cause : Cause
  pj : Nat
  deriving DecidableEq, Repr

/-- A current in mA as a cluster's sensor gives it (R316). -/
structure Measured where
  cluster : Nat
  mA : Nat
  deriving DecidableEq, Repr

/-- A fallen current in mA, and how much of its fall a step of the cluster's point took (R316). -/
structure Fallen where
  mA : Nat
  byStep : Nat
  deriving DecidableEq, Repr

/-- A launch whose residency ends, and the areas set aside for its stacks: address and bytes (R325, R293). -/
structure Residency where
  grid : Nat
  stks : List (Nat × Nat)
  deriving DecidableEq, Repr

/-- The contribution to a collective of a member in another package, as the fabric brings it (R201). -/
structure Contrib where
  rank : Nat
  stamp : Stamp
  data : List Byte
  agrees : Bool
  deriving DecidableEq, Repr

/-- A register that a write names: by its offset in the host's control aperture, 8 bytes wide or 4 (R355), or by its privileged code
(R297). -/
inductive RegTarget where
  | control (off : BitVec 20) (wide : Bool)
  | priv (code : BitVec 12) (idx : Nat)
  deriving DecidableEq, Repr

/-- The rows of spec/opcode_table.json. -/
inductive Instr where
  -- control, 0x00 to 0x0F (R80)
  | nop
  | pb (p : PReg) (cnt : BitVec 3) (pat : Byte)
  | bra (ht : Bool) (off : W32)
  | brp (ht : Bool) (p : PReg) (off : W32)
  | brs (ht : Bool) (c : Cond) (t : Ty) (a b : SReg) (off : W32)
  | brsImm (ht : Bool) (c : Cond) (t : Ty) (a : SReg) (imm off : W32)
  | brx (ht : Bool) (a : Src)
  | call (off : W32)
  | callx (a : SReg)
  | ret
  | regang (m : SReg)
  | yield
  | exit
  | trap (k : Byte)
  | brk (k : Byte)
  | enter (n : Byte)
  | leave (n : Byte)
  -- integer, 0x10 to 0x1F (R87)
  | add (t : Ty) (d : Dst) (a : Src) (b : SrcB)
  | sub (t : Ty) (d : Dst) (a : Src) (b : SrcB)
  | mul (t : Ty) (d : Dst) (a : Src) (b : SrcB)
  | mulhi (t : Ty) (d : Dst) (a : Src) (b : SrcB)
  | mad (t : Ty) (d : Dst) (a : Src) (b : SrcB) (c : SrcC)
  | madw (t : Ty) (d : Dst) (a : Src) (b : SrcB) (c : SrcC)
  | div (la : BitVec 4) (t : Ty) (d : Dst) (a : Src) (b : SrcB)
  | rem (la : BitVec 4) (t : Ty) (d : Dst) (a : Src) (b : SrcB)
  | min (t : Ty) (d : Dst) (a : Src) (b : SrcB)
  | max (t : Ty) (d : Dst) (a : Src) (b : SrcB)
  | abs (t : Ty) (d : Dst) (a : Src)
  | neg (t : Ty) (d : Dst) (a : Src)
  | addc (t : Ty) (d : VReg) (a : Src) (b : SrcB) (p : PReg)
  | subb (t : Ty) (d : VReg) (a : Src) (b : SrcB) (p : PReg)
  | clz (t : Ty) (d : Dst) (a : Src)
  | popc (t : Ty) (d : Dst) (a : Src)
  -- logic, 0x20 to 0x2F (R88)
  | and (t : Ty) (d : Dst) (a : Src) (b : SrcB)
  | or (t : Ty) (d : Dst) (a : Src) (b : SrcB)
  | xor (t : Ty) (d : Dst) (a : Src) (b : SrcB)
  | not (t : Ty) (d : Dst) (a : Src)
  | andn (t : Ty) (d : Dst) (a : Src) (b : SrcB)
  | shl (t : Ty) (d : Dst) (a : Src) (b : SrcB)
  | shr (t : Ty) (d : Dst) (a : Src) (b : SrcB)
  | sar (t : Ty) (d : Dst) (a : Src) (b : SrcB)
  | rot (right : Bool) (t : Ty) (d : Dst) (a : Src) (b : SrcB)
  | bfx (t : Ty) (d : Dst) (a : Src) (b : SrcB) (c : SrcC)
  | bfi (t : Ty) (d : Dst) (a : Src) (b : SrcB) (c : SrcC)
  | brev (t : Ty) (d : Dst) (a : Src)
  | sel (t : Ty) (d : VReg) (a : Src) (b : SrcB) (p : PReg)
  | mov (t : Ty) (d : Dst) (a : Src)
  | movi (t : Ty) (d : Dst) (imm : W32)
  | moviWide (t : Ty) (d : Dst) (imm : W64)
  | lea (t : Ty) (d : Dst) (a : Src) (b : SrcB) (k : BitVec 3)
  -- comparisons, predicates, special registers, 0x30 to 0x3A (R95 to R99, R134)
  | cmp (c : Cond) (t : Ty) (p : PReg) (a : Src) (b : SrcB)
  | cmpf (c : FCond) (m : Rm) (t : Ty) (p : PReg) (a : Src) (b : SrcB)
  | pand (d a b : PReg)
  | por (d a b : PReg)
  | pxor (d a b : PReg)
  | pnot (d a : PReg)
  | ppack (d : VReg)
  | punpk (a : VReg)
  | vote (k : Vote) (d : Byte) (a : PReg)
  | gsr (t : Ty) (d : Dst) (code : Byte)
  | ssr (code : Byte) (a : Src)
  -- floating point, 0x40 to 0x52 (R128 to R134)
  | fadd (m : Rm) (t : Ty) (d : VReg) (a : Src) (b : SrcB)
  | fsub (m : Rm) (t : Ty) (d : VReg) (a : Src) (b : SrcB)
  | fmul (m : Rm) (t : Ty) (d : VReg) (a : Src) (b : SrcB)
  | fma (m : Rm) (t : Ty) (d : VReg) (a : Src) (b : SrcB) (c : VReg)
  | fmin (prop : Bool) (m : Rm) (t : Ty) (d : VReg) (a : Src) (b : SrcB)
  | fmax (prop : Bool) (m : Rm) (t : Ty) (d : VReg) (a : Src) (b : SrcB)
  | fabs (m : Rm) (t : Ty) (d : VReg) (a : Src)
  | fneg (m : Rm) (t : Ty) (d : VReg) (a : Src)
  | fdiv (la : BitVec 4) (m : Rm) (t : Ty) (d : VReg) (a : Src) (b : SrcB)
  | fsqrt (la : BitVec 4) (m : Rm) (t : Ty) (d : VReg) (a : Src)
  | frcp (la : BitVec 4) (m : Rm) (t : Ty) (d : VReg) (a : Src)
  | frsq (la : BitVec 4) (m : Rm) (t : Ty) (d : VReg) (a : Src)
  | fex2 (la : BitVec 4) (m : Rm) (t : Ty) (d : VReg) (a : Src)
  | flg2 (la : BitVec 4) (m : Rm) (t : Ty) (d : VReg) (a : Src)
  | frnd (m : Rm) (t : Ty) (d : VReg) (a : Src)
  | fclass (m : Rm) (t : Ty) (d : VReg) (a : Src)
  | fdot2 (m : Rm) (t : Ty) (d : VReg) (a : Src) (b : SrcB) (c : VReg)
  | fscale (m : Rm) (t : Ty) (d : VReg) (a : Src) (b : SrcB)
  | fsgn (m : Rm) (t : Ty) (d : VReg) (a : Src) (b : SrcB)
  -- conversions, 0x60 to 0x66 (R135 to R142)
  | cvt (m : Rm) (st dt : Ty) (d : VReg) (a : Src)
  | cvt8 (k : Cvt8) (m : Rm) (t : Ty) (d : VReg) (a : Src) (b : SrcB)
  | cvt4 (k : Cvt4) (m : Rm) (t : Ty) (d : VReg) (a : Src)
  | pk (k : Pk) (d : VReg) (a : Src)
  | upk (k : Upk) (d : VReg) (a : Src)
  | bscl (k : Bscl) (t : Ty) (d : VReg) (a : Src)
  | sext (t : Ty) (d : VReg) (a : Src) (b : SrcB)
  -- shuffles and cross-lane, 0x70 to 0x79 (R101 to R103, R143 to R147)
  | shfl (t : Ty) (d a : VReg) (b : SrcB)
  | shup (t : Ty) (d a : VReg) (k : SrcB)
  | shdn (t : Ty) (d a : VReg) (k : SrcB)
  | shxor (t : Ty) (d a : VReg) (k : SrcB)
  | bcast (t : Ty) (d a : VReg) (k : SrcB)
  | redg (la : BitVec 4) (op : Comb) (m : Rm) (t : Ty) (d a : VReg)
  | scang (la : BitVec 4) (excl : Bool) (op : Comb) (m : Rm) (t : Ty) (d a : VReg)
  | mxix (la : BitVec 4) (t : Ty) (d a : VReg) (b : SrcB)
  | sieve (la : BitVec 4) (d : VReg) (p : PReg)
  | elect (p : PReg)
  -- memory, 0x80 to 0x8D (R104 to R108, R164 to R170, R248 to R250)
  | ld (la : BitVec 4) (o : Order) (sc : Scope) (t : Ty) (d : VReg) (base : Src) (off : SrcB)
  | st (o : Order) (sc : Scope) (t : Ty) (base : Src) (off : SrcB) (c : SrcC)
  | lds (la : BitVec 4) (o : Order) (sc : Scope) (t : Ty) (d : VReg) (base : Src) (off : SrcB)
  | sts (o : Order) (sc : Scope) (t : Ty) (base : Src) (off : SrcB) (c : SrcC)
  | ldl (la : BitVec 4) (o : Order) (sc : Scope) (t : Ty) (d : VReg) (base : Src) (off : SrcB)
  | stl (o : Order) (sc : Scope) (t : Ty) (base : Src) (off : SrcB) (c : SrcC)
  | sld (la : BitVec 4) (o : Order) (sc : Scope) (t : Ty) (d base : SReg) (off : SrcB)
  | sst (o : Order) (sc : Scope) (t : Ty) (base : SReg) (off : SrcB) (c : SrcC)
  | pf (sc : Scope) (base : Src) (off : SrcB)
  | ldm (la : BitVec 4) (o : Order) (sc : Scope) (d : VReg) (base : Src) (off : SrcB) (n : Byte)
  | stm (o : Order) (sc : Scope) (base : Src) (off : SrcB) (c : VReg) (n : Byte)
  | sti (o : Order) (sc : Scope) (d : BitVec 2) (i : Src) (j : SrcB) (x : VReg)
  | fence (o : Order) (sc : Scope)
  | waitc (p : Path) (t : Thr)
  | atom (la : BitVec 4) (op : Amo) (o : Order) (sc : Scope) (t : Ty) (d : Dst) (base : Src) (off : SrcB) (c : SrcC)
  | red (perSlice : Bool) (op : Amo) (o : Order) (sc : Scope) (t : Ty) (base : Src) (off : SrcB) (c : SrcC)
  | pvop (op : PvOp) (o : Order) (sc : Scope) (t : Ty) (d a : SReg) (b : SrcB) (n : SrcC)
  -- barriers, copies and tickets, 0xB0 to 0xB7 (R237 to R254)
  | bar (k : BitVec 4) (cnt : Option SReg)
  | arrive (d : SReg) (k : BitVec 4) (cnt : Option SReg)
  | bwait (k : BitVec 4) (p : SReg)
  | copy (k : CopyKind) (d dst src : SReg) (n : SrcC)
  | wtl (p : PReg) (t : SReg)
  | tst (p : PReg) (t : SReg)
  | cancel (p : PReg) (t : SReg)
  | trig
  -- matrix, 0xC0 to 0xC4 (R242 to R247)
  | mmx (t : Ty) (c a : VReg)
  | mmxNar (c a : VReg) (f : SReg)
  | bpub (la : BitVec 4) (q : BitVec 2) (a : VReg) (o : Byte)
  | mfence (d : SReg)
  | mzero (d : VReg)
  | mtr (t : Ty) (d a : VReg)
  -- launches and network, 0xD0 to 0xD6 (R335, R200)
  | launch (d a : SReg)
  | gwait (p : PReg) (h : SReg)
  | gcond (p : PReg) (n v : SReg)
  | nput (ordered : Bool) (o : Order) (sc : Scope) (d t r l : SReg) (n : BitVec 24)
  | nget (la : BitVec 4) (o : Order) (sc : Scope) (t : Ty) (d tg r : SReg)
  | natm (la : BitVec 4) (op : Amo) (o : Order) (sc : Scope) (t : Ty) (d tg r : SReg) (c : SrcC)
  | ncoll (k : CollKind) (o : Order) (sc : Scope) (t : Ty) (d a : SReg)
  -- privileged, 0xE0 to 0xE9 (R295)
  | rft
  | psr (t : Ty) (d : Dst) (code : BitVec 12) (k : PIdx)
  | pwr (code : BitVec 12) (k : PIdx) (v : SReg)
  | tlbgen (d c : SReg)
  | sqz (a : SReg)
  | xpand (a : SReg)
  | imgsv (d c : SReg)
  | imgld (d c : SReg)
  | digcGang (d a b : SReg)
  | digcTask (d a : SReg)
  | wfe (d t : SReg)
  -- events: firmware register writes with a behaviour of their own (R196, R299, R308)
  | clkctlTargetWrite (cluster : Nat) (x : W64)
  | portFence (port : Nat)
  | portReadmit (port : Nat)
  | energyCounterWrite (ctx : Nat) (x : W64)
  -- events: traps and completions
  | trapEntry (g : GangRef)
  | noticeDelivery (g : GangRef)
  | longLatencyCompletion (g : GangRef) (entry : Nat)
  | accessApplied (g : GangRef) (entry idx : Nat)
  | bpubCompletion (g : GangRef) (entry : Nat)
  | batchExecution (ctx num : Nat) (errs : List SliceObs)
  | copyCompletion (ctx num : Nat)
  | pvopCompletion (ctx num : Nat)
  -- events: the squeeze controller
  | squeezeRequest (grid : Nat)
  | requestTaken (core : Nat)
  | fold (group : Nat)
  | imageWriteFault (group : Nat) (addr : W64)
  | suspension (core : Nat)
  | resumption (group core : Nat)
  | expansion (core : Nat)
  -- events: the front end
  | taskEnd (code : Byte) (g : GangRef) (fa : W64)
  | launchAcceptance
  | residencyComplete (r : Residency)
  | groupDispatch (grid core : Nat) (slices : List (List Nat)) (img stk : W64)
  | groupEnd (group : Nat)
  | completionEvent (grid : Nat)
  | patienceExpiry (graph : Nat)
  -- events: fabric time and ports
  | tsync
  | tsyncReceive (t1 : BitVec 48)
  | treq (port : Nat) (t3 : BitVec 48)
  | tresp (t4 : BitVec 48)
  | holdover
  | orderedPacketArrival (port : Nat) (pkt : Packet) (w : Stamp)
  | beacon (port : Nat) (w : Stamp)
  | beaconTimer (port : Nat)
  | orderedDelivery
  | watermarkStall (port : Nat)
  | laneShedding (port lanes : Nat)
  | unorderedPacketArrival (pkt : Packet)
  | packetRefusal (ctx num : Nat)
  | networkAck (ctx num : Nat) (value : W64)
  | networkTimeout (ctx num : Nat)
  | collectiveCompletion (ctx num : Nat) (cs : List Contrib)
  | collectiveTimeout (ctx num : Nat)
  -- events: supply and clocks
  | frequencyChange (cluster : Nat)
  | ratioSwitch (cluster : Nat)
  | powerWindow (watts : Nat)
  | boardPowerLimitInput (watts : BitVec 16)
  | stallSample (cluster num den : Nat)
  | energyTick (charges : List Charge)
  | fillerStart (cluster before : Nat) (after : Fallen) (drops : List (Nat × Nat))
  | fillerEnd (real : Measured)
  | gateIntent (cluster : Nat)
  | gated (cluster : Nat)
  | gatectlWrite (cluster : Nat) (x : W64)
  | wakingComplete (cluster : Nat)
  -- events: queues and standard packets
  | kickRegisterWrite (part q : Nat) (w : W32)
  | nopPacket
  | launchPacket (serial : Bool) (desc : W64)
  | graph (mode : BitVec 2) (table log snap bytes : W64)
  | signal (irq : Bool) (addr x : W64)
  | waitv (addr x : W64)
  | fencePacket
  -- batten instructions (R339)
  | battenHalt (i : BitVec 17)
  | battenDone
  | battenLi (d : BitVec 3) (i : BitVec 17)
  | battenLdp (d : BitVec 3) (i : BitVec 17)
  | battenLdq (d : BitVec 3) (i : BitVec 17)
  | battenStq (a : BitVec 3) (i : BitVec 17)
  | battenLdw (d a : BitVec 3) (w : BitVec 1) (o : BitVec 16)
  | battenStw (a b : BitVec 3) (w : BitVec 1) (o : BitVec 16)
  | battenAdd (d a b : BitVec 3)
  | battenSub (d a b : BitVec 3)
  | battenAnd (d a b : BitVec 3)
  | battenOr (d a b : BitVec 3)
  | battenXor (d a b : BitVec 3)
  | battenShl (d a b : BitVec 3)
  | battenShr (d a b : BitVec 3)
  | battenAddi (d a : BitVec 3) (i : BitVec 17)
  | battenBeq (a b : BitVec 3) (i : BitVec 17)
  | battenBne (a b : BitVec 3) (i : BitVec 17)
  | battenRpt (t n : BitVec 6)
  | battenSubm (a : BitVec 3)
  | battenSgr (a b : BitVec 3)
  | battenWgeq (a b : BitVec 3)
  | battenFnc
  | battenSig (a b : BitVec 3) (i : BitVec 1)
  -- events: the host link and bring-up
  | hostWindowAccess (ctl : Bool) (off : W64) (wide : Bool) (write : Option W64)
  | registerWrite (r : RegTarget) (x : W64)
  | dmaTailWrite (ch : Nat) (x : W32)
  | dmaDescriptorCompletion (ch : Nat)
  | dlen (x : W32)
  | wfeTimeout (g : GangRef)
  | serialReExecutionResult (graph : Nat) (ok : Bool)
  | ctxasgWrite (ctx : Nat) (x : W64)
  | battenPacketStart (part q : Nat)
  | m3Extend (data : List Byte)
  -- events without operands
  | powerUp
  | linkTrained
  | bootVerification
  | linkFailure
  | setMode
  | assignContext
  | enableQueue
  | disableQueue
  | errorLog
  | unknownCommand
  deriving DecidableEq, Repr

/-- Whose turn it is (log entry 2): a quadrant's issue (R41), a queue's interpreter (R338), an engine starting or advancing
an operation (R238), an event, time passing, firmware exporting a window to the fabric (R199; log entry 89), firmware giving a run its
pool, and taking it away (R10; log entry 123), or the write of a line that has been chosen to go (R14). Plain data: a run's schedule is data. -/
inductive Turn where
  | issue (core quad : Nat)
  | queue (part q : Nat)
  | engine (ctx key amount : Nat)
  | event (e : Instr)
  | elapse (ns : Nat)
  | window (part ctx first bytes : Nat)
  | pool (ctx core quads sl ln scr : Nat)
  | noPool
  | evict (r : GangRef) (key : Nat)
  deriving DecidableEq, Repr

end Sys2Proof
end

