-- ==== Sys2Proof/WellFormed.lean ====
section
/-!
DEFINITION. Which terms of `Instr` stand for an encodable instruction: the type lists of the entries, scalar forms (R60), even
pairs (R60), legal orders (R63), register ranges, listed register codes (R99, R298). `W` is the gang's width in lanes, on
which the range of `mtr` depends (R242). Events have no word; they are well formed whatever they carry.
-/
namespace Sys2Proof

/-- The code of a type (R62). -/
def Ty.code : Ty → Nat
  | .n32 => 0 | .s32 => 1 | .n64 => 2 | .s64 => 3 | .f32 => 4 | .f64 => 5 | .f16 => 6 | .bf16 => 7
  | .n16 => 8 | .s16 => 9 | .n8 => 10 | .s8 => 11 | .f16x2 => 12 | .bf16x2 => 13 | .b32 => 14

/-- The type of a code; 15 is reserved (R62). -/
def Ty.ofCode (n : Nat) : Option Ty :=
  match n with
  | 0 => some .n32 | 1 => some .s32 | 2 => some .n64 | 3 => some .s64 | 4 => some .f32 | 5 => some .f64
  | 6 => some .f16 | 7 => some .bf16 | 8 => some .n16 | 9 => some .s16 | 10 => some .n8 | 11 => some .s8
  | 12 => some .f16x2 | 13 => some .bf16x2 | 14 => some .b32 | _ => none

/-- Width in bits of a value of the type (R62, R105). -/
def Ty.width : Ty → Nat
  | .n64 | .s64 | .f64 => 64
  | .n16 | .s16 | .f16 | .bf16 => 16
  | .n8 | .s8 => 8
  | _ => 32

/-- Whether a destination is scalar (R60). -/
def Dst.scalar : Dst → Bool
  | .s _ => true
  | .v _ => false

/-- A type whose operands are pairs of vector registers (R60). -/
def Ty.is64 : Ty → Bool
  | .n64 | .s64 | .f64 => true
  | _ => false

/-- A signed integer type (R79). -/
def Ty.signed : Ty → Bool
  | .s32 | .s64 | .s16 | .s8 => true
  | _ => false

/-- A floating type, paired types included (R110, R111). -/
def Ty.floating : Ty → Bool
  | .f32 | .f64 | .f16 | .bf16 | .f16x2 | .bf16x2 => true
  | _ => false

/-- `int` of 05_instructions_integer_control.md. -/
def Ty.ints : List Ty := [.n32, .s32, .n64, .s64, .n16, .s16, .n8, .s8]
/-- `bits` of 05_instructions_integer_control.md. -/
def Ty.bitss : List Ty := [.n32, .n64, .b32]
/-- The four full-width integer types of `mulhi`, `bfx`, `brs`, plain `red` (R87, R92). -/
def Ty.wide : List Ty := [.n32, .s32, .n64, .s64]
/-- The floating types of R128. -/
def Ty.floats : List Ty := [.f32, .f64, .f16, .bf16, .f16x2, .bf16x2]
/-- The scalar floating types of `cmpf`, `redg`, `scang` (R134, R143). -/
def Ty.floats1 : List Ty := [.f32, .f64, .f16, .bf16]
/-- The narrow conversions' floating types (R137 to R139). -/
def Ty.floatsN : List Ty := [.f32, .f16, .bf16]
/-- All fifteen (R105). -/
def Ty.all : List Ty :=
  [.n32, .s32, .n64, .s64, .f32, .f64, .f16, .bf16, .n16, .s16, .n8, .s8, .f16x2, .bf16x2, .b32]
/-- TY 0 only. -/
def Ty.zero : List Ty := [.n32]

/-- The types of each minor of `atom` and `red` (R172). -/
def Amo.types : Amo → List Ty
  | .add | .min | .max => [.n32, .s32, .n64, .s64, .f32, .f64, .f16x2, .bf16x2]
  | .and | .or | .xor | .exch | .cas => [.n32, .n64, .b32]
  | .mxi => [.n64]

/-- The types of each minor of `natm` (R200): R172's integer types, `f32`, `f64`, `b32`. -/
def Amo.netTypes (o : Amo) : List Ty := o.types.filter fun t => !(t == .f16x2 || t == .bf16x2)

/-- The types of each minor of `pvop` (R178). -/
def PvOp.types : PvOp → List Ty
  | .add | .min | .max | .mul => [.n32, .s32, .n64, .s64, .f32, .f64, .f16x2, .bf16x2]
  | .and | .or | .xor | .mov => [.n32, .n64, .b32]

/-- The types of `redg` and `scang` (R143). -/
def Comb.types : Comb → List Ty
  | .add | .min | .max => Ty.ints ++ Ty.floats1
  | .and | .or | .xor => Ty.ints ++ Ty.floats1 ++ [.b32]

/-- The special registers of R99. -/
def sprCodes : List Nat :=
  [0x00, 0x01, 0x02, 0x03, 0x04, 0x05, 0x06, 0x07, 0x08, 0x09, 0x0A, 0x0B, 0x10, 0x18, 0x19, 0x1A, 0x1B, 0x1C,
   0x20, 0x21, 0x22, 0x23, 0x24, 0x28]

/-- A privileged register's index range, if it has an index, and whether it may be written (R298). -/
structure PrivInfo where
  range : Option (Nat × Nat)
  writable : Bool
  deriving DecidableEq, Repr

/-- The privileged map of R298. -/
def privInfo (code : Nat) : Option PrivInfo :=
  if code ≤ 0x004 then some ⟨some (0, 63), true⟩
  else if code = 0x005 then some ⟨some (1, 63), true⟩
  else if code = 0x006 then some ⟨none, true⟩
  else if code = 0x007 ∨ code = 0x008 then some ⟨none, false⟩
  else if code = 0x009 then some ⟨none, true⟩
  else if 0x010 ≤ code ∧ code ≤ 0x017 then some ⟨some (0, 63), true⟩
  else if 0x020 ≤ code ∧ code ≤ 0x022 then some ⟨some (0, 255), true⟩
  else if code = 0x030 then some ⟨some (0, 31), true⟩
  else if code = 0x031 then some ⟨some (0, 31), false⟩
  else if code = 0x032 then some ⟨some (0, 31), true⟩
  else if code = 0x038 then some ⟨none, true⟩
  else if 0x040 ≤ code ∧ code ≤ 0x044 then some ⟨none, true⟩
  else if code = 0x048 then some ⟨some (0, 11), true⟩
  else none

/-- A selector that names a listed register, with an index where it has one and in range (R297). -/
def selectorOk (code : Nat) (k : PIdx) (write : Bool) : Bool :=
  match privInfo code with
  | none => false
  | some p =>
    (p.writable || !write) &&
    (match p.range, k with
     | some (lo, hi), .imm n => decide (lo ≤ n.toNat) && decide (n.toNat ≤ hi)
     | some _, .s _ => true
     | none, .imm n => n == 0
     | none, .s _ => false)

/-- An even vector register where the operand carries a 64-bit value (R60). -/
def evenV (wide : Bool) (r : VReg) : Bool := !wide || r.toNat % 2 == 0
def Src.even (wide : Bool) : Src → Bool
  | .v r => evenV wide r | .s _ => true
def SrcB.even (wide : Bool) : SrcB → Bool
  | .v r => evenV wide r | _ => true
def SrcC.even (wide : Bool) : SrcC → Bool
  | .v r => evenV wide r | _ => true
def Dst.even (wide : Bool) : Dst → Bool
  | .v r => evenV wide r | .s _ => true

/-- A scalar destination takes scalar or immediate sources only (R60, R89). -/
def Dst.isS : Dst → Bool
  | .s _ => true | .v _ => false
def Src.isS : Src → Bool
  | .s _ => true | .v _ => false
def SrcB.notV : SrcB → Bool
  | .v _ => false | _ => true
def SrcC.notV : SrcC → Bool
  | .v _ => false | _ => true
def SrcC.notS : SrcC → Bool
  | .s _ => false | _ => true
def SrcC.notImm : SrcC → Bool
  | .imm _ => false | _ => true

/-- The third source of a form of the given kind: scalar in a scalar form, vector in a vector form (R60). -/
def SrcC.fits (scalar : Bool) (c : SrcC) : Bool := if scalar then c.notV else c.notS

/-- Two-source integer shape (R87 to R89). -/
def wf2 (ts : List Ty) (t : Ty) (d : Dst) (a : Src) (b : SrcB) (bWide : Bool) : Bool :=
  ts.contains t && d.even t.is64 && a.even t.is64 && b.even (t.is64 && bWide) &&
  (!d.isS || (a.isS && b.notV))

/-- One-source integer shape; `dWide` is false where the result is a count (R87). -/
def wf1 (ts : List Ty) (t : Ty) (d : Dst) (a : Src) (dWide : Bool) : Bool :=
  ts.contains t && d.even (t.is64 && dWide) && a.even t.is64 && (!d.isS || a.isS)

/-- Floating shapes (R128): vector destination, any register source. -/
def wfF1 (ts : List Ty) (t : Ty) (d : VReg) (a : Src) : Bool :=
  ts.contains t && evenV t.is64 d && a.even t.is64
def wfF2 (ts : List Ty) (t : Ty) (d : VReg) (a : Src) (b : SrcB) : Bool :=
  wfF1 ts t d a && b.even t.is64

/-- A branch offset is a multiple of 4 (R57). -/
def off4 (x : W32) : Bool := x.toNat % 4 == 0

/-- The order of a load, or of a store or reduction (R63). -/
def Order.load : Order → Bool
  | .rlx | .acq => true | _ => false
def Order.store : Order → Bool
  | .rlx | .rel => true | _ => false

/-- A vector base of a global address is an even pair (R104). -/
def Src.baseOk (b : Src) : Bool := b.even true

/-- A register range that stays within v0 to v255. -/
def rangeOk (r : VReg) (n : Nat) : Bool := decide (r.toNat + n ≤ 256)

/-- How many registers an A fragment spans (R205), and whether bases must be even (R206). -/
def fragLen (t : Ty) : Nat := if t == .f64 then 8 else 16

/-- Two register ranges meet. -/
def overlaps (a n b m : Nat) : Bool := decide (a < b + m) && decide (b < a + n)

/-- The condition of `cas`: a register compare value with a register after it for the swap value (R171). -/
def casOk (op : Amo) (t : Ty) (c : SrcC) : Bool :=
  if op == .cas then
    match c with
    | .v r => decide (r.toNat + (if t.is64 then 4 else 2) ≤ 256)
    | .s r => decide (r.toNat + 1 ≤ 63)
    | .imm _ => false
  else true

/-- Rounding other than `rne` is legal only where MO is a rounding field (R64, R136, R143). -/
def rmOk (rounds : Bool) (m : Rm) : Bool := rounds || m == .rne

/-- Well-formedness of an instruction for a gang of `W` lanes. -/
def WellFormed (W : Nat) (i : Instr) : Bool :=
  match i with
  | .bra _ o | .brp _ _ o | .call o => off4 o
  | .brs _ _ t _ _ o | .brsImm _ _ t _ _ o => Ty.wide.contains t && off4 o
  | .pb _ n pat => decide (pat.toNat < 2 ^ (n.toNat + 1))
  | .add t d a b | .sub t d a b | .mul t d a b | .min t d a b | .max t d a b => wf2 Ty.ints t d a b true
  | .div _ t d a b | .rem _ t d a b => wf2 Ty.ints t d a b true
  | .mulhi t d a b => wf2 Ty.wide t d a b true
  | .mad t d a b c => wf2 Ty.ints t d a b true && c.even t.is64 && c.fits d.isS
  | .madw t d a b c => wf2 [.n32, .s32] t d a b true && d.even true && c.even true && c.fits d.isS
  | .abs t d a => wf1 [.s32, .s64, .s16, .s8] t d a true
  | .neg t d a => wf1 Ty.ints t d a true
  | .addc t d a b _ | .subb t d a b _ => wf2 [.n32, .n64] t (.v d) a b true
  | .clz t d a | .popc t d a => wf1 Ty.bitss t d a false
  | .and t d a b | .or t d a b | .xor t d a b | .andn t d a b => wf2 Ty.bitss t d a b true
  | .not t d a | .brev t d a | .mov t d a => wf1 Ty.bitss t d a true
  | .shl t d a b | .shr t d a b | .sar t d a b => wf2 Ty.ints t d a b false
  | .rot _ t d a b => wf2 Ty.bitss t d a b false
  | .bfx t d a b c => wf2 Ty.wide t d a b false && c.fits d.isS
  | .bfi t d a b c => wf2 Ty.bitss t d a b false && c.fits d.isS
  | .sel t d a b _ => wf2 Ty.bitss t (.v d) a b true
  | .movi t d _ => [Ty.n32, .s32, .n64, .s64, .b32, .f32].contains t && d.even t.is64
  | .moviWide t d _ => [Ty.n64, .s64, .f64].contains t && d.even true
  | .lea t d a b _ => wf2 [.n64, .n32] t d a b false
  | .cmp _ t _ a b => Ty.ints.contains t && a.even t.is64 && b.even t.is64
  | .cmpf _ _ t _ a b => Ty.floats1.contains t && a.even t.is64 && b.even t.is64
  | .vote k d _ => k == .ballot || decide (d.toNat < 8)
  | .gsr t d c => [Ty.n32, .n64].contains t && d.even t.is64 && sprCodes.contains c.toNat
  | .ssr c _ => sprCodes.contains c.toNat
  | .fadd _ t d a b | .fsub _ t d a b | .fmul _ t d a b | .fmin _ _ t d a b | .fmax _ _ t d a b
  | .fdiv _ _ t d a b | .fsgn _ t d a b => wfF2 Ty.floats t d a b
  | .fma _ t d a b c => wfF2 Ty.floats t d a b && evenV t.is64 c
  | .fabs _ t d a | .fneg _ t d a | .fsqrt _ _ t d a | .frcp _ _ t d a | .frsq _ _ t d a | .fex2 _ _ t d a
  | .flg2 _ _ t d a | .frnd _ t d a => wfF1 Ty.floats t d a
  | .fclass _ t _ a => Ty.floats.contains t && a.even t.is64
  | .fdot2 _ t _ _ _ _ => [Ty.f16x2, .bf16x2].contains t
  | .fscale _ t d a _ => wfF1 Ty.floats t d a
  | .cvt m st dt d a =>
    decide (st.code ≤ 11) && decide (dt.code ≤ 11) && st != dt && evenV dt.is64 d && a.even st.is64 &&
    rmOk (st.floating || dt.floating) m
  | .cvt8 _ _ t _ _ _ => Ty.floatsN.contains t
  | .cvt4 _ _ t _ _ => Ty.floatsN.contains t
  | .pk (.cvt _ t _) _ _ => [Ty.f16x2, .bf16x2].contains t
  | .pk (.b _ c) _ _ => c.notS
  | .upk (.cvt _ t _) _ _ => [Ty.f16x2, .bf16x2].contains t
  | .bscl _ t _ _ => Ty.floatsN.contains t
  | .sext t d a _ => [Ty.s32, .s64].contains t && evenV t.is64 d && a.even t.is64
  | .shfl t d a _ => Ty.bitss.contains t && evenV t.is64 d && evenV t.is64 a
  | .shup t d a k | .shdn t d a k | .shxor t d a k | .bcast t d a k =>
    Ty.bitss.contains t && evenV t.is64 d && evenV t.is64 a && k.notV
  | .redg _ op m t d a | .scang _ _ op m t d a =>
    op.types.contains t && evenV t.is64 d && evenV t.is64 a && rmOk t.floating m
  | .mxix _ t d _ _ => [Ty.f16, .bf16].contains t && evenV true d
  | .ld _ o _ t d b _ => o.load && evenV t.is64 d && b.baseOk
  | .st o _ t b _ c => o.store && b.baseOk && c.even t.is64 && c.notS
  | .lds _ o _ t d _ _ | .ldl _ o _ t d _ _ => o.load && evenV t.is64 d
  | .sts o _ t _ _ c | .stl o _ t _ _ c => o.store && c.even t.is64 && c.notS
  | .sld _ o _ _ _ _ off => o.load && off.notV
  | .sst o _ _ _ off c => o.store && off.notV && c.notV
  | .pf _ b _ => b.baseOk
  | .ldm _ o _ d b _ n => o.load && b.baseOk && decide (1 ≤ n.toNat) && decide (n.toNat ≤ 32) && rangeOk d n.toNat
  | .stm o _ b _ c n => o.store && b.baseOk && decide (1 ≤ n.toNat) && decide (n.toNat ≤ 32) && rangeOk c n.toNat
  | .sti o _ _ _ _ _ => o.store
  | .fence o _ => o != .rlx
  | .atom _ op _ _ t d b off c =>
    op.types.contains t && d.even t.is64 && b.baseOk && c.even t.is64 && c.fits d.isS && casOk op t c &&
    (!d.isS || (b.isS && off.notV))
  | .red perSlice op o _ t b off c =>
    o.store && op.types.contains t && b.baseOk && c.even t.is64 && casOk op t c &&
    (if perSlice then b.isS && off.notV && c.notV else c.notS)
  | .pvop op o _ t _ _ b n => o.store && op.types.contains t && b.notV && n.notV
  | .copy _ _ _ _ n => n.notV
  | .mmx t c a =>
    [Ty.f16, .bf16, .f64].contains t && rangeOk c 32 && rangeOk a (fragLen t) && evenV t.is64 c && evenV t.is64 a &&
    !overlaps c.toNat 32 a.toNat (fragLen t)
  | .mmxNar c a _ => rangeOk c 32 && rangeOk a 16 && !overlaps c.toNat 32 a.toNat 16
  | .bpub _ _ a _ => rangeOk a 4
  | .mzero d => rangeOk d 32
  | .mtr t d a => [Ty.n32, .b32].contains t && rangeOk d W && rangeOk a W
  | .nput _ o _ _ _ _ _ _ => o.store
  | .nget _ o _ t d _ _ => o.load && [Ty.n32, .n64].contains t && decide (d.toNat ≤ 62)
  | .natm _ op _ _ t d _ _ c =>
    op.netTypes.contains t && c.notV && casOk op t c && decide (d.toNat ≤ 62)
  | .ncoll k _ _ t _ _ => if k == .pbar then t == .n32 else (Ty.ints ++ Ty.floats1 ++ [Ty.b32]).contains t
  | .psr t d c k =>
    (if d.isS then t == .n64 else [Ty.n32, .n64].contains t) && d.even t.is64 && selectorOk c.toNat k false
  | .pwr c k _ => selectorOk c.toNat k true
  | .digcGang d _ _ | .digcTask d _ => decide (d.toNat ≤ 62)
  | .wfe d _ => decide (d.toNat ≤ 61)
  | .battenHalt i => decide (0x80 ≤ i.toNat) && decide (i.toNat ≤ 0xFF)
  | .battenLdq _ i => decide (i.toNat ≤ 31)
  | .battenStq _ i => decide (i.toNat ≤ 2)
  | .battenBeq _ _ i | .battenBne _ _ i => decide (1 ≤ i.toNat) && decide (i.toNat ≤ 1023)
  | _ => true

end Sys2Proof
end

