-- ==== Sys2Proof/Decode.lean ====
section
/-!
DEFINITION. The encoding of R54 to R76 and of the instruction chapters, read in both directions: parcels to fields, fields to an
instruction or the lowest subcause of R76, and back. Batten instruction words (R339) stand at the end.
-/
namespace Sys2Proof

/-- The fields of R58. `len` is the number of parcels: 2, 3 or 4 (R54). -/
structure Fields where
  len : Nat := 2
  op : BitVec 8
  la : BitVec 4 := 0
  sc : Bool := false
  ht : Bool := false
  dst : BitVec 8 := 0
  sa : BitVec 8 := 0
  sb : BitVec 8 := 0
  scf : BitVec 8 := 0
  ty : BitVec 4 := 0
  fn : BitVec 4 := 0
  mo : BitVec 4 := 0
  xfsa : Bool := false
  xfsb : Bool := false
  xfib : Bool := false
  xfi : Bool := false
  imm : W32 := 0
  immb : W32 := 0
  deriving DecidableEq, Repr

/-- Why a word is no instruction: the subcauses of R76. -/
inductive DecodeError where
  | reservedOp | badPad | badValue | notZero | badRegister | inBlock | badOffset
  deriving DecidableEq, Repr

/-- The subcause codes of R76. -/
def DecodeError.subcause : DecodeError → Nat
  | .reservedOp => 1 | .badPad => 2 | .badValue => 3 | .notZero => 4 | .badRegister => 5 | .inBlock => 6 | .badOffset => 7

/-! ### Fields and parcels (R54, R58) -/

/-- The LEN code of a length in parcels (R54). -/
def lenCode (n : Nat) : Nat := if n = 3 then 1 else if n = 4 then 2 else 0

/-- A flag as a number. -/
def flag (b : Bool) : Nat := if b then 1 else 0

/-- The first parcel: bits [31:0] (R58). -/
def Fields.parcel0 (f : Fields) : W32 :=
  BitVec.ofNat 32 (lenCode f.len + 4 * f.op.toNat + 0x400 * f.la.toNat + 0x4000 * flag f.sc + 0x8000 * flag f.ht +
    0x10000 * f.dst.toNat + 0x1000000 * f.sa.toNat)
/-- The second parcel: bits [63:32] (R58). -/
def Fields.parcel1 (f : Fields) : W32 :=
  BitVec.ofNat 32 (f.sb.toNat + 0x100 * f.scf.toNat + 0x10000 * f.ty.toNat + 0x100000 * f.fn.toNat +
    0x1000000 * f.mo.toNat + 0x10000000 * flag f.xfsa + 0x20000000 * flag f.xfsb + 0x40000000 * flag f.xfib +
    0x80000000 * flag f.xfi)

/-- All parcels of the word, the first at the lowest address (R54). -/
def Fields.parcels (f : Fields) : List W32 :=
  [f.parcel0, f.parcel1] ++ (if f.len = 3 then [f.imm] else if f.len = 4 then [f.imm, f.immb] else [])

/-- A bit of a parcel. -/
def bitAt (x : W32) (i : Nat) : Bool := x.getLsbD i

/-- The fields of a word of two to four parcels; absent parcels read 0. -/
def Fields.ofParcels (p0 p1 p2 p3 : W32) : Fields :=
  { len := if bitsOf p0.toNat 1 0 = 1 then 3 else if bitsOf p0.toNat 1 0 = 2 then 4 else 2
    op := BitVec.ofNat 8 (bitsOf p0.toNat 9 2)
    la := BitVec.ofNat 4 (bitsOf p0.toNat 13 10)
    sc := bitAt p0 14
    ht := bitAt p0 15
    dst := BitVec.ofNat 8 (bitsOf p0.toNat 23 16)
    sa := BitVec.ofNat 8 (bitsOf p0.toNat 31 24)
    sb := BitVec.ofNat 8 (bitsOf p1.toNat 7 0)
    scf := BitVec.ofNat 8 (bitsOf p1.toNat 15 8)
    ty := BitVec.ofNat 4 (bitsOf p1.toNat 19 16)
    fn := BitVec.ofNat 4 (bitsOf p1.toNat 23 20)
    mo := BitVec.ofNat 4 (bitsOf p1.toNat 27 24)
    xfsa := bitAt p1 28
    xfsb := bitAt p1 29
    xfib := bitAt p1 30
    xfi := bitAt p1 31
    imm := if bitsOf p0.toNat 1 0 = 1 ∨ bitsOf p0.toNat 1 0 = 2 then p2 else 0
    immb := if bitsOf p0.toNat 1 0 = 2 then p3 else 0 }

/-! ### Legality: the rules a word breaks -/

/-- Rule `e` is broken unless `ok`. -/
def need (e : DecodeError) (ok : Bool) : List DecodeError := if ok then [] else [e]

/-- Code in a list. -/
def codeIn (c : BitVec 4) (l : List Nat) : Bool := l.contains c.toNat

/-- TY is one of the listed types (R62); every other code is subcause 3. -/
def tyIn (l : List Ty) (f : Fields) : List DecodeError := need .badValue (codeIn f.ty (l.map Ty.code))
/-- TY is unused: it must be 0 (R59), and 15 is illegal everywhere (R62). -/
def tyNone (f : Fields) : List DecodeError := need .badValue (f.ty != 15) ++ need .notZero (f.ty == 0)
/-- FN is a listed minor (R74). -/
def fnIn (l : List Nat) (f : Fields) : List DecodeError := need .badValue (codeIn f.fn l)
/-- The opcode carries no minor (R74, R59). -/
def fnNone (f : Fields) : List DecodeError := need .notZero (f.fn == 0)
/-- MO class none (R64, R59). -/
def moNone (f : Fields) : List DecodeError := need .notZero (f.mo == 0)
/-- MO class zero (R135), and the entry-listed MO of the privileged opcodes. -/
def moZero (f : Fields) : List DecodeError := need .badValue (f.mo == 0)
/-- MO class rounding, or ignored (R64, R135). -/
def moRound (f : Fields) : List DecodeError := need .badValue (decide (f.mo.toNat ≤ 4))
/-- MO class order, with the legal order codes (R63). -/
def moOrder (l : List Nat) (f : Fields) : List DecodeError := need .badValue (l.contains (f.mo.toNat % 4))

/-- LA is zero outside the long-latency class (R58, R68). -/
def laNone (f : Fields) : List DecodeError := need .badValue (f.la == 0)
/-- The SC bit the entry requires (R60). -/
def scIs (b : Bool) (f : Fields) : List DecodeError := need .badValue (f.sc == b)

/-- 64-bit form only. -/
def len2 (f : Fields) : List DecodeError := need .badValue (f.len == 2 && !f.xfib)
/-- 64-bit form, or 96-bit with the immediate replacing SB (R61). -/
def len23 (f : Fields) : List DecodeError :=
  need .badValue ((f.len == 2 && !f.xfib) || (f.len == 3 && f.xfib)) ++
  (if f.xfib then need .notZero (f.sb == 0) ++ need .badValue (!f.xfsb) else [])
/-- 96-bit form whose third parcel is an offset or length, SB not replaced. -/
def len3 (f : Fields) : List DecodeError := need .badValue (f.len == 3 && !f.xfib)
/-- 96-bit form with XFIB set. -/
def len3i (f : Fields) : List DecodeError :=
  need .badValue (f.len == 3 && f.xfib) ++ need .notZero (f.sb == 0) ++ need .badValue (!f.xfsb)

/-- Register numbers (R60): a vector register, even where it carries 64 bits, whose range of `n` stays below 256. -/
def okV (wide : Bool) (n : Nat) (r : BitVec 8) : Bool := (!wide || r.toNat % 2 == 0) && decide (r.toNat + n ≤ 256)
def okS (r : BitVec 8) : Bool := decide (r.toNat ≤ 63)
def okP (r : BitVec 8) : Bool := decide (r.toNat ≤ 7)

def dNone (f : Fields) : List DecodeError := need .notZero (f.dst == 0)
def dV (wide : Bool) (n : Nat) (f : Fields) : List DecodeError := need .badRegister (okV wide n f.dst)
def dS (f : Fields) : List DecodeError := need .badRegister (okS f.dst)
def dSMax (m : Nat) (f : Fields) : List DecodeError := need .badRegister (decide (f.dst.toNat ≤ m))
def dP (f : Fields) : List DecodeError := need .badRegister (okP f.dst)
/-- The destination by SC (R60). -/
def dSC (wide : Bool) (f : Fields) : List DecodeError := if f.sc then dS f else dV wide 1 f
/-- A field that uses only its low bits; the others are unused (R59, R65, R242, R248). -/
def lowBits (k : Nat) (r : BitVec 8) : List DecodeError := need .notZero (decide (r.toNat < 2 ^ k))

def aNone (f : Fields) : List DecodeError := need .badValue (!f.xfsa) ++ need .notZero (f.sa == 0)
/-- Vector only (XFSA set is subcause 3). -/
def aV (wide : Bool) (n : Nat) (f : Fields) : List DecodeError :=
  need .badValue (!f.xfsa) ++ need .badRegister (okV wide n f.sa)
/-- Scalar only, XFSA set. -/
def aS (f : Fields) : List DecodeError := need .badValue f.xfsa ++ need .badRegister (okS f.sa)
def aVS (wide : Bool) (f : Fields) : List DecodeError := if f.xfsa then aS f else aV wide 1 f
/-- By SC: scalar in a scalar form (R60). -/
def aSC (wide : Bool) (f : Fields) : List DecodeError := if f.sc then aS f else aVS wide f
def aP (f : Fields) : List DecodeError := need .badValue (!f.xfsa) ++ need .badRegister (okP f.sa)

def bNone (f : Fields) : List DecodeError := need .badValue (!f.xfsb && !f.xfib) ++ need .notZero (f.sb == 0)
def bS (f : Fields) : List DecodeError := need .badValue f.xfsb ++ need .badRegister (okS f.sb)
/-- Vector, scalar or immediate. -/
def bVSI (wide : Bool) (f : Fields) : List DecodeError :=
  if f.xfib then [] else if f.xfsb then bS f else need .badRegister (okV wide 1 f.sb)
/-- Scalar or immediate. -/
def bSI (f : Fields) : List DecodeError := if f.xfib then [] else bS f
def bSC (wide : Bool) (f : Fields) : List DecodeError := if f.sc then bSI f else bVSI wide f
def bP (f : Fields) : List DecodeError := need .badValue (!f.xfsb) ++ need .badRegister (okP f.sb)

def cNone (f : Fields) : List DecodeError := need .badValue (!f.xfi) ++ need .notZero (f.scf == 0)
def cP (f : Fields) : List DecodeError := need .badValue (!f.xfi) ++ need .badRegister (okP f.scf)
def cV (wide : Bool) (n : Nat) (f : Fields) : List DecodeError :=
  need .badValue (!f.xfi) ++ need .badRegister (okV wide n f.scf)
/-- An immediate no greater than `m`. -/
def cI (m : Nat) (f : Fields) : List DecodeError := need .badValue (f.xfi && decide (f.scf.toNat ≤ m))
/-- Vector or immediate. -/
def cVI (wide : Bool) (f : Fields) : List DecodeError :=
  if f.xfi then [] else need .badRegister (okV wide 1 f.scf)
/-- Scalar or immediate. -/
def cSI (f : Fields) : List DecodeError := if f.xfi then [] else need .badRegister (okS f.scf)
def cSC (wide : Bool) (f : Fields) : List DecodeError := if f.sc then cSI f else cVI wide f

/-- TY names a 64-bit type (R60, R62). -/
def Fields.wide (f : Fields) : Bool := codeIn f.ty [2, 3, 5]

/-- No SA, SB, SCF. -/
def noABC (f : Fields) : List DecodeError := aNone f ++ bNone f ++ cNone f

/-- Shapes shared by several opcodes. -/
def shapeOff (off : W32) : List DecodeError := need .badOffset (off.toNat % 4 == 0)

/-- 0x10 to 0x2F with two sources (R87 to R89). `bw`: the second source is a pair under a 64-bit type. -/
def int2 (ts : List Ty) (bw : Bool) (f : Fields) : List DecodeError :=
  tyIn ts f ++ moNone f ++ len23 f ++ dSC f.wide f ++ aSC f.wide f ++ bSC (f.wide && bw) f
/-- With one source; `dw`: the destination is a pair under a 64-bit type. -/
def int1 (ts : List Ty) (dw : Bool) (f : Fields) : List DecodeError :=
  tyIn ts f ++ fnNone f ++ moNone f ++ len2 f ++ dSC (f.wide && dw) f ++ aSC f.wide f ++ bNone f ++ cNone f
/-- Floating, two sources (R128). -/
def flt2 (f : Fields) : List DecodeError :=
  tyIn Ty.floats f ++ moRound f ++ len23 f ++ scIs false f ++ dV f.wide 1 f ++ aVS f.wide f ++ bVSI f.wide f
/-- Floating, one source (R128). -/
def flt1 (f : Fields) : List DecodeError :=
  tyIn Ty.floats f ++ fnNone f ++ moRound f ++ len2 f ++ scIs false f ++ dV f.wide 1 f ++ aVS f.wide f ++ bNone f ++ cNone f
/-- Loads of R164. -/
def loadShape (f : Fields) : List DecodeError :=
  tyIn Ty.all f ++ fnNone f ++ moOrder [0, 1] f ++ len23 f ++ scIs false f ++ dV f.wide 1 f ++ bVSI false f ++ cNone f
/-- Stores of R164. -/
def storeShape (f : Fields) : List DecodeError :=
  tyIn Ty.all f ++ fnNone f ++ moOrder [0, 2] f ++ len23 f ++ scIs false f ++ dNone f ++ bVSI false f ++ cVI f.wide f

/-- Types of an `atom`, `red` or `natm` minor by FN code (R172). -/
def amoOf (c : Nat) : Option Amo :=
  match c with
  | 0 => some .add | 1 => some .min | 2 => some .max | 3 => some .and | 4 => some .or | 5 => some .xor
  | 6 => some .exch | 7 => some .cas | 8 => some .mxi | _ => none
def Amo.code : Amo → Nat
  | .add => 0 | .min => 1 | .max => 2 | .and => 3 | .or => 4 | .xor => 5 | .exch => 6 | .cas => 7 | .mxi => 8

def amoTypes (net : Bool) (f : Fields) : List Ty :=
  match amoOf f.fn.toNat with
  | some o => if net then o.netTypes else o.types
  | none => Ty.all

/-- The rules for the swap value of `cas` (R171). -/
def casShape (f : Fields) : List DecodeError :=
  if f.fn == 7 then
    need .badValue (!f.xfi) ++
    need .badRegister (if f.sc then decide (f.scf.toNat + 1 ≤ 63)
      else decide (f.scf.toNat + (if f.wide then 4 else 2) ≤ 256))
  else []

def pvopOf (c : Nat) : Option PvOp :=
  match c with
  | 0 => some .add | 1 => some .min | 2 => some .max | 3 => some .and | 4 => some .or | 5 => some .xor
  | 6 => some .mov | 7 => some .mul | _ => none
def PvOp.code : PvOp → Nat
  | .add => 0 | .min => 1 | .max => 2 | .and => 3 | .or => 4 | .xor => 5 | .mov => 6 | .mul => 7

def combOf (c : Nat) : Option Comb :=
  match c with
  | 0 => some .add | 1 => some .min | 2 => some .max | 3 => some .and | 4 => some .or | 5 => some .xor | _ => none
def Comb.code : Comb → Nat
  | .add => 0 | .min => 1 | .max => 2 | .and => 3 | .or => 4 | .xor => 5

/-- The selector of a privileged register (R297). -/
def selectorShape (write : Bool) (f : Fields) : List DecodeError :=
  let code := bitsOf f.imm.toNat 11 0
  let idx := bitsOf f.imm.toNat 31 12
  (match privInfo code with
   | none => [.badValue]
   | some p =>
     need .badValue (p.writable || !write) ++
     (match p.range with
      | some (lo, hi) => if f.fn == 0 then need .badValue (decide (lo ≤ idx) && decide (idx ≤ hi)) else []
      | none => need .badValue (f.fn == 0 && idx == 0))) ++
  (if f.fn == 1 then need .notZero (idx == 0) else [])

/-- `redg` and `scang` (R143): the combination of an FN code, types and rounding class. An MO that a type other than a floating one carries is of
class zero, as R143 says, and not unused, as R73 says: the model's choice (log entry 149). -/
def redShape (fns : List Nat) (f : Fields) : List DecodeError :=
  fnIn fns f ++
  tyIn (match combOf (f.fn.toNat % 8) with | some c => c.types | none => Ty.all) f ++
  (if codeIn f.ty [4, 5, 6, 7] then moRound f else moZero f) ++
  len2 f ++ scIs false f ++ dV f.wide 1 f ++ aV f.wide 1 f ++ bNone f ++ cNone f

/-- A privileged opcode's shared rules (R295). -/
def privShape (fns : List Nat) (f : Fields) : List DecodeError := fnIn fns f ++ moZero f

/-- The rules of R58 to R64 and of the opcode's entry that a word breaks; `none` for a reserved opcode (R72). `W` is the gang's
width, on which the register ranges of `mtr` depend (R242). Long-latency opcodes leave LA out of their list. -/
def broken (W : Nat) (f : Fields) : Option (List DecodeError) :=
  let ht0 := need .badValue (!f.ht)
  let la0 := laNone f
  let ctl (l : List DecodeError) := some (la0 ++ tyNone f ++ fnNone f ++ moNone f ++ scIs false f ++ l)
  let plain (l : List DecodeError) := some (ht0 ++ la0 ++ l)
  let long (l : List DecodeError) := some (ht0 ++ l)
  match f.op.toNat with
  | 0x00 => ctl (ht0 ++ len2 f ++ dNone f ++ noABC f)
  | 0x01 => ctl (ht0 ++ len2 f ++ lowBits 3 f.dst ++ need .badValue (!f.xfsa) ++ lowBits 3 f.sa ++
      need .badValue (!f.xfsb) ++ lowBits (f.sa.toNat % 8 + 1) f.sb ++ cNone f)
  | 0x02 => ctl (len3 f ++ dNone f ++ noABC f ++ shapeOff f.imm)
  | 0x03 => ctl (len3 f ++ dNone f ++ aP f ++ bNone f ++ cNone f ++ shapeOff f.imm)
  | 0x04 =>
    some (la0 ++ tyIn Ty.wide f ++ fnIn [0, 1, 2, 3, 4, 5] f ++ moNone f ++ scIs true f ++ dNone f ++ aS f ++ cNone f ++
      need .badValue ((f.len == 3 && !f.xfib && f.xfsb) || (f.len == 4 && f.xfib && !f.xfsb)) ++
      (if f.xfib then need .notZero (f.sb == 0) else need .badRegister (okS f.sb)) ++
      shapeOff (if f.len == 4 then f.immb else f.imm))
  | 0x05 => ctl (len2 f ++ dNone f ++ aVS false f ++ bNone f ++ cNone f)
  | 0x06 => ctl (ht0 ++ len3 f ++ dNone f ++ noABC f ++ shapeOff f.imm)
  | 0x07 => ctl (ht0 ++ len2 f ++ dNone f ++ aS f ++ bNone f ++ cNone f)
  | 0x08 => ctl (ht0 ++ len2 f ++ dNone f ++ noABC f)
  | 0x09 => ctl (ht0 ++ len2 f ++ dNone f ++ aS f ++ bNone f ++ cNone f)
  | 0x0A | 0x0B => ctl (ht0 ++ len2 f ++ dNone f ++ noABC f)
  | 0x0C | 0x0D | 0x0E | 0x0F => ctl (ht0 ++ len2 f ++ dNone f ++ aNone f ++ bNone f ++ cI 255 f)
  | 0x10 | 0x11 | 0x12 | 0x18 | 0x19 => plain (fnNone f ++ int2 Ty.ints true f ++ cNone f)
  | 0x16 | 0x17 => long (fnNone f ++ int2 Ty.ints true f ++ cNone f)
  | 0x13 => plain (fnNone f ++ int2 Ty.wide true f ++ cNone f)
  | 0x14 => plain (fnNone f ++ int2 Ty.ints true f ++ cSC f.wide f)
  | 0x15 => plain (fnNone f ++ tyIn [.n32, .s32] f ++ moNone f ++ len23 f ++ dSC true f ++ aSC false f ++ bSC false f ++
      cSC true f)
  | 0x1A => plain (int1 [.s32, .s64, .s16, .s8] true f)
  | 0x1B => plain (int1 Ty.ints true f)
  | 0x1C | 0x1D => plain (fnNone f ++ int2 [.n32, .n64] true f ++ scIs false f ++ cP f)
  | 0x1E | 0x1F => plain (int1 Ty.bitss false f)
  | 0x20 | 0x21 | 0x22 | 0x24 => plain (fnNone f ++ int2 Ty.bitss true f ++ cNone f)
  | 0x23 | 0x2B | 0x2D => plain (int1 Ty.bitss true f)
  | 0x25 | 0x26 | 0x27 => plain (fnNone f ++ int2 Ty.ints false f ++ cNone f)
  | 0x28 => plain (fnIn [0, 1] f ++ int2 Ty.bitss false f ++ cNone f)
  | 0x29 => plain (fnNone f ++ int2 Ty.wide false f ++ cSC false f)
  | 0x2A => plain (fnNone f ++ int2 Ty.bitss false f ++ cSC false f)
  | 0x2C => plain (fnNone f ++ int2 Ty.bitss true f ++ scIs false f ++ cP f)
  | 0x2E =>
    plain (fnNone f ++ moNone f ++ dSC f.wide f ++ aNone f ++ cNone f ++ need .badValue (!f.xfsb) ++ need .notZero (f.sb == 0) ++
      need .badValue (f.xfib && (f.len == 3 || f.len == 4)) ++
      tyIn (if f.len == 4 then [.n64, .s64, .f64] else [.n32, .s32, .n64, .s64, .b32, .f32]) f)
  | 0x2F => plain (fnNone f ++ int2 [.n64, .n32] false f ++ cI 7 f)
  | 0x30 => plain (tyIn Ty.ints f ++ fnIn [0, 1, 2, 3, 4, 5] f ++ moNone f ++ len23 f ++ scIs false f ++ dP f ++
      aVS f.wide f ++ bVSI f.wide f ++ cNone f)
  | 0x31 => plain (tyIn Ty.floats1 f ++ fnIn [0, 1, 2, 3, 4, 5, 6, 7] f ++ moRound f ++ len23 f ++ scIs false f ++ dP f ++
      aVS f.wide f ++ bVSI f.wide f ++ cNone f)
  | 0x32 | 0x33 | 0x34 => ctl (ht0 ++ len2 f ++ dP f ++ aP f ++ bP f ++ cNone f)
  | 0x35 => ctl (ht0 ++ len2 f ++ dP f ++ aP f ++ bNone f ++ cNone f)
  | 0x36 => ctl (ht0 ++ len2 f ++ dV false 1 f ++ noABC f)
  | 0x37 => ctl (ht0 ++ len2 f ++ dNone f ++ aV false 1 f ++ bNone f ++ cNone f)
  | 0x38 => plain (tyNone f ++ fnIn [0, 1, 2, 3] f ++ moNone f ++ len2 f ++ scIs false f ++
      (if f.fn == 3 then dV false 1 f else dP f) ++ aP f ++ bNone f ++ cNone f)
  | 0x39 => plain (tyIn [.n32, .n64] f ++ fnNone f ++ moNone f ++ len2 f ++ dSC f.wide f ++ aNone f ++ bNone f ++
      need .badValue (f.xfi && sprCodes.contains f.scf.toNat))
  | 0x3A => plain (tyIn [.n32] f ++ fnNone f ++ moNone f ++ len2 f ++ dNone f ++ need .badValue (f.sc == f.xfsa) ++
      aVS false f ++ bNone f ++ need .badValue (f.xfi && sprCodes.contains f.scf.toNat))
  | 0x40 | 0x41 | 0x42 | 0x52 => plain (fnNone f ++ flt2 f ++ cNone f)
  | 0x43 => plain (fnNone f ++ flt2 f ++ cV f.wide 1 f)
  | 0x44 | 0x45 => plain (fnIn [0, 1] f ++ flt2 f ++ cNone f)
  | 0x46 | 0x47 | 0x4E => plain (flt1 f)
  | 0x48 => long (fnNone f ++ flt2 f ++ cNone f)
  | 0x49 | 0x4A | 0x4B | 0x4C | 0x4D => long (flt1 f)
  | 0x4F => plain (tyIn Ty.floats f ++ fnNone f ++ moRound f ++ len2 f ++ scIs false f ++ dV false 1 f ++ aVS f.wide f ++
      bNone f ++ cNone f)
  | 0x50 => plain (tyIn [.f16x2, .bf16x2] f ++ fnNone f ++ moRound f ++ len23 f ++ scIs false f ++ dV false 1 f ++
      aVS false f ++ bVSI false f ++ cV false 1 f)
  | 0x51 => plain (tyIn Ty.floats f ++ fnNone f ++ moRound f ++ len23 f ++ scIs false f ++ dV f.wide 1 f ++ aVS f.wide f ++
      bVSI false f ++ cNone f)
  | 0x60 =>
    plain (need .badValue (decide (f.ty.toNat ≤ 11) && decide (f.fn.toNat ≤ 11) && f.ty != f.fn) ++
      (if codeIn f.ty [4, 5, 6, 7] || codeIn f.fn [4, 5, 6, 7] then moRound f else moZero f) ++ len2 f ++ scIs false f ++
      dV f.wide 1 f ++ aVS (codeIn f.fn [2, 3, 5]) f ++ bNone f ++ cNone f)
  | 0x61 => plain (tyIn Ty.floatsN f ++ fnIn [0, 1, 2] f ++ moRound f ++ len23 f ++ scIs false f ++ dV false 1 f ++
      aVS false f ++ bVSI false f ++ cNone f)
  | 0x62 => plain (tyIn Ty.floatsN f ++ fnIn [0, 1] f ++ moRound f ++ scIs false f ++ dV false 1 f ++ aVS false f ++
      (if f.fn == 1 then len2 f ++ bNone f ++ cI 7 f else len23 f ++ bVSI false f ++ cNone f))
  | 0x63 => plain (fnIn [0, 1, 2] f ++ tyIn (if f.fn == 0 then [.f16x2, .bf16x2] else [.b32]) f ++
      (if f.fn == 0 then moRound f else moZero f) ++ len23 f ++ scIs false f ++ dV false 1 f ++ aVS false f ++ bVSI false f ++
      (if f.fn == 2 then cVI false f else cNone f))
  | 0x64 => plain (fnIn [0, 1, 2] f ++
      tyIn (if f.fn == 0 then [.f16x2, .bf16x2] else if f.fn == 1 then [.n8, .s8] else [.n16, .s16]) f ++
      (if f.fn == 0 then moRound f else moZero f) ++ len2 f ++ scIs false f ++ dV false 1 f ++ aVS false f ++ bNone f ++
      cI (if f.fn == 1 then 3 else 1) f)
  | 0x65 => plain (tyIn Ty.floatsN f ++ fnIn [0, 1, 2] f ++ (if f.fn == 1 then moZero f else moRound f) ++ scIs false f ++
      dV false 1 f ++ aVS false f ++
      (if f.fn == 1 then len2 f ++ bNone f ++ cI 15 f else len23 f ++ bVSI false f ++ cNone f))
  | 0x66 => plain (tyIn [.s32, .s64] f ++ fnIn [0] f ++ moZero f ++ len23 f ++ scIs false f ++ dV f.wide 1 f ++
      aVS f.wide f ++ bVSI false f ++ cNone f)
  | 0x70 => plain (tyIn Ty.bitss f ++ fnNone f ++ moNone f ++ len23 f ++ scIs false f ++ dV f.wide 1 f ++ aV f.wide 1 f ++
      bVSI false f ++ cNone f)
  | 0x71 | 0x72 | 0x73 | 0x74 => plain (tyIn Ty.bitss f ++ fnNone f ++ moNone f ++ len23 f ++ scIs false f ++
      dV f.wide 1 f ++ aV f.wide 1 f ++ bSI f ++ cNone f)
  | 0x75 => long (redShape [0, 1, 2, 3, 4, 5] f)
  | 0x76 => long (redShape [0, 1, 2, 3, 4, 5, 8, 9, 10, 11, 12, 13] f)
  | 0x77 => long (tyIn [.f16, .bf16] f ++ fnNone f ++ moNone f ++ len23 f ++ scIs false f ++ dV true 1 f ++ aV false 1 f ++
      bVSI false f ++ cNone f)
  | 0x78 => long (tyIn [.n32] f ++ fnNone f ++ moNone f ++ len2 f ++ scIs false f ++ dV false 1 f ++ aP f ++ bNone f ++ cNone f)
  | 0x79 => plain (tyNone f ++ fnNone f ++ moNone f ++ len2 f ++ scIs false f ++ dP f ++ noABC f)
  | 0x80 => long (loadShape f ++ aVS true f)
  | 0x81 => plain (storeShape f ++ aVS true f)
  | 0x82 | 0x84 => long (loadShape f ++ aVS false f)
  | 0x83 | 0x85 => plain (storeShape f ++ aVS false f)
  | 0x86 => long (tyIn Ty.all f ++ fnNone f ++ moOrder [0, 1] f ++ len23 f ++ scIs true f ++ dS f ++ aS f ++ bSI f ++ cNone f)
  | 0x87 => plain (tyIn Ty.all f ++ fnNone f ++ moOrder [0, 2] f ++ len23 f ++ scIs true f ++ dNone f ++ aS f ++ bSI f ++ cSI f)
  | 0x88 => plain (need .badValue (f.ty == 0) ++ fnNone f ++ moOrder [0] f ++ len23 f ++ scIs false f ++ dNone f ++ aVS true f ++
      bVSI false f ++ cNone f)
  | 0x89 => long (tyIn [.n32] f ++ fnNone f ++ moOrder [0, 1] f ++ len23 f ++ scIs false f ++ aVS true f ++ bVSI false f ++
      need .badValue (f.xfi && decide (1 ≤ f.scf.toNat) && decide (f.scf.toNat ≤ 32)) ++
      dV false (if f.scf.toNat ≤ 32 then f.scf.toNat else 1) f)
  | 0x8A => plain (tyIn [.n32] f ++ fnNone f ++ moOrder [0, 2] f ++ len23 f ++ scIs false f ++ aVS true f ++ bVSI false f ++
      need .badValue (decide (1 ≤ f.dst.toNat) && decide (f.dst.toNat ≤ 32)) ++
      cV false (if f.dst.toNat ≤ 32 then f.dst.toNat else 1) f)
  | 0x8B => plain (tyNone f ++ fnNone f ++ moOrder [0, 2] f ++ len23 f ++ scIs false f ++ lowBits 2 f.dst ++
      aVS false f ++ bVSI false f ++ cV false 1 f)
  | 0x8C => plain (tyNone f ++ fnNone f ++ moOrder [1, 2, 3] f ++ len2 f ++ scIs false f ++ dNone f ++ noABC f)
  | 0x8D => plain (tyNone f ++ fnIn [0, 1, 2, 3, 4] f ++ moNone f ++ len2 f ++ scIs true f ++ dNone f ++ bNone f ++
      need .badValue (f.xfi != f.xfsa) ++ need .badRegister (!f.xfsa || okS f.sa) ++
      need .notZero (f.xfsa || f.sa == 0) ++ need .notZero (f.xfi || f.scf == 0))
  | 0xA0 => long (fnIn [0, 1, 2, 3, 4, 5, 6, 7, 8] f ++ tyIn (amoTypes false f) f ++ len23 f ++ dSC f.wide f ++ aSC true f ++
      bSC false f ++ cSC f.wide f ++ casShape f)
  | 0xA1 => plain (fnIn [0, 1, 2, 3, 4, 5, 6, 7, 8] f ++ tyIn (amoTypes false f) f ++ moOrder [0, 2] f ++ len23 f ++ dNone f ++
      aSC true f ++ bSC false f ++ cSC f.wide f ++ casShape f)
  | 0xA2 => plain (fnIn [0, 1, 2, 3, 4, 5, 6, 7] f ++
      tyIn (match pvopOf f.fn.toNat with | some o => o.types | none => Ty.all) f ++ moOrder [0, 2] f ++ len23 f ++
      scIs true f ++ dS f ++ aS f ++ bSI f ++ cSI f)
  | 0xB0 => plain (tyNone f ++ fnIn [0, 1] f ++ moNone f ++ len2 f ++ scIs false f ++ dNone f ++ aNone f ++
      (if f.fn == 1 then bS f else bNone f) ++ cI 15 f)
  | 0xB1 => plain (tyNone f ++ fnIn [0, 1] f ++ moNone f ++ len2 f ++ scIs true f ++ dS f ++ aNone f ++
      (if f.fn == 1 then bS f else bNone f) ++ cI 15 f)
  | 0xB2 => plain (tyNone f ++ fnNone f ++ moNone f ++ len2 f ++ scIs false f ++ dNone f ++ aS f ++ bNone f ++ cI 15 f)
  | 0xB3 => plain (tyNone f ++ fnIn [0, 1, 2, 3] f ++ moNone f ++ len2 f ++ scIs true f ++ dS f ++ aS f ++ bS f ++ cSI f)
  | 0xB4 | 0xB5 | 0xB6 => plain (tyNone f ++ fnNone f ++ moNone f ++ len2 f ++ scIs false f ++ dP f ++ aS f ++
      bNone f ++ cNone f)
  | 0xB7 => plain (tyNone f ++ fnNone f ++ moNone f ++ len2 f ++ scIs false f ++ dNone f ++ noABC f)
  | 0xC0 => plain (fnIn [0, 1] f ++ tyIn (if f.fn == 1 then Ty.zero else [.f16, .bf16, .f64]) f ++ moNone f ++ len2 f ++
      scIs false f ++ dV (f.ty == 5) 32 f ++ aV (f.ty == 5) (if f.ty == 5 then 8 else 16) f ++
      need .badValue (!overlaps f.dst.toNat 32 f.sa.toNat (if f.ty == 5 then 8 else 16)) ++
      (if f.fn == 1 then bS f else bNone f) ++ cNone f)
  | 0xC1 => long (tyNone f ++ fnNone f ++ moNone f ++ len2 f ++ scIs false f ++ lowBits 2 f.dst ++ aV false 4 f ++
      bNone f ++ cI 255 f)
  | 0xC2 => plain (tyNone f ++ fnNone f ++ moNone f ++ len2 f ++ scIs false f ++ dS f ++ noABC f)
  | 0xC3 => plain (tyNone f ++ fnNone f ++ moNone f ++ len2 f ++ scIs false f ++ dV false 32 f ++ noABC f)
  | 0xC4 => plain (tyIn [.n32, .b32] f ++ fnNone f ++ moNone f ++ len2 f ++ scIs false f ++ dV false W f ++ aV false W f ++
      bNone f ++ cNone f)
  | 0xD0 => plain (tyNone f ++ fnNone f ++ moNone f ++ len2 f ++ scIs true f ++ dS f ++ aS f ++ bNone f ++ cNone f)
  | 0xD1 => plain (tyNone f ++ fnNone f ++ moNone f ++ len2 f ++ scIs false f ++ dP f ++ aS f ++ bNone f ++ cNone f)
  | 0xD2 => plain (tyNone f ++ fnNone f ++ moNone f ++ len2 f ++ scIs false f ++ dP f ++ aS f ++ bS f ++ cNone f)
  | 0xD3 => plain (tyNone f ++ fnNone f ++ moOrder [0, 2] f ++ len3 f ++ scIs true f ++ dS f ++ aS f ++ bS f ++
      need .badValue (!f.xfi) ++ need .badRegister (okS f.scf) ++ need .badValue (bitsOf f.imm.toNat 30 24 == 0))
  | 0xD4 => long (tyIn [.n32, .n64] f ++ fnNone f ++ moOrder [0, 1] f ++ len2 f ++ scIs true f ++ dSMax 62 f ++ aS f ++ bS f ++
      cNone f)
  | 0xD5 => long (fnIn [0, 1, 2, 3, 4, 5, 6, 7, 8] f ++ tyIn (amoTypes true f) f ++ len2 f ++ scIs true f ++ dSMax 62 f ++
      aS f ++ bS f ++ cSI f ++ casShape f)
  | 0xD6 => plain (fnIn [0, 1, 2, 3, 4] f ++
      tyIn (if f.fn == 4 then Ty.zero else Ty.ints ++ Ty.floats1 ++ [.b32]) f ++ len2 f ++ scIs true f ++ dS f ++ aS f ++
      bNone f ++ cNone f)
  | 0xE0 => plain (privShape [0] f ++ tyIn Ty.zero f ++ len2 f ++ scIs false f ++ dNone f ++ noABC f)
  | 0xE1 => plain (privShape [0, 1] f ++ len3i f ++ tyIn (if f.sc then [.n64] else [.n32, .n64]) f ++ dSC f.wide f ++
      (if f.fn == 1 then aS f else aNone f) ++ cNone f ++ selectorShape false f)
  | 0xE2 => plain (privShape [0, 1] f ++ len3i f ++ tyIn [.n64] f ++ scIs true f ++ dNone f ++ aS f ++
      need .badValue (!f.xfi) ++ (if f.fn == 1 then need .badRegister (okS f.scf) else need .notZero (f.scf == 0)) ++
      selectorShape true f)
  | 0xE3 | 0xE6 | 0xE7 => plain (privShape [0] f ++ tyIn Ty.zero f ++ len2 f ++ scIs true f ++ dS f ++ aS f ++ bNone f ++ cNone f)
  | 0xE4 | 0xE5 => plain (privShape [0] f ++ tyIn Ty.zero f ++ len2 f ++ scIs true f ++ dNone f ++ aS f ++ bNone f ++ cNone f)
  | 0xE8 => plain (privShape [0, 1] f ++ tyIn Ty.zero f ++ len2 f ++ scIs true f ++ dSMax 62 f ++ aS f ++
      (if f.fn == 0 then bS f else bNone f) ++ cNone f)
  | 0xE9 => plain (privShape [0] f ++ tyIn Ty.zero f ++ len2 f ++ scIs true f ++ dSMax 61 f ++ aS f ++ bNone f ++ cNone f)
  | _ => none

/-- Opcodes that may not stand in a predicate-block slot (R66). -/
def notInBlock (op : Nat) : Bool :=
  (decide (1 ≤ op) && decide (op ≤ 8)) || op == 0x0C || op == 0x0D || (decide (0xE0 ≤ op) && decide (op ≤ 0xE9))

/-! ### Fields to instruction -/

def Fields.srcA (f : Fields) : Src := if f.xfsa then .s (f.sa.setWidth 6) else .v f.sa
def Fields.srcB (f : Fields) : SrcB :=
  if f.xfib then .imm f.imm else if f.xfsb then .s (f.sb.setWidth 6) else .v f.sb
def Fields.srcC (f : Fields) : SrcC :=
  if f.xfi then .imm f.scf else if f.sc then .s (f.scf.setWidth 6) else .v f.scf
def Fields.dest (f : Fields) : Dst := if f.sc then .s (f.dst.setWidth 6) else .v f.dst
def Fields.sD (f : Fields) : SReg := f.dst.setWidth 6
def Fields.sA (f : Fields) : SReg := f.sa.setWidth 6
def Fields.sB (f : Fields) : SReg := f.sb.setWidth 6
def Fields.sC (f : Fields) : SReg := f.scf.setWidth 6
def Fields.pD (f : Fields) : PReg := f.dst.setWidth 3
def Fields.pA (f : Fields) : PReg := f.sa.setWidth 3
def Fields.pB (f : Fields) : PReg := f.sb.setWidth 3
def Fields.pC (f : Fields) : PReg := f.scf.setWidth 3

def condOf (n : Nat) : Cond :=
  match n with | 0 => .eq | 1 => .ne | 2 => .lt | 3 => .le | 4 => .gt | _ => .ge
def Cond.code : Cond → Nat
  | .eq => 0 | .ne => 1 | .lt => 2 | .le => 3 | .gt => 4 | .ge => 5
def fcondOf (n : Nat) : FCond :=
  match n with | 0 => .eq | 1 => .ne | 2 => .lt | 3 => .le | 4 => .gt | 5 => .ge | 6 => .un | _ => .ord
def FCond.code : FCond → Nat
  | .eq => 0 | .ne => 1 | .lt => 2 | .le => 3 | .gt => 4 | .ge => 5 | .un => 6 | .ord => 7
def rmOf (n : Nat) : Rm :=
  match n with | 0 => .rne | 1 => .rz | 2 => .rp | 3 => .rm | _ => .rna
def Rm.code : Rm → Nat
  | .rne => 0 | .rz => 1 | .rp => 2 | .rm => 3 | .rna => 4
def orderOf (n : Nat) : Order :=
  match n with | 0 => .rlx | 1 => .acq | 2 => .rel | _ => .ar
def Order.code : Order → Nat
  | .rlx => 0 | .acq => 1 | .rel => 2 | .ar => 3
def scopeOf (n : Nat) : Scope :=
  match n with | 0 => .group | 1 => .die | 2 => .dev | _ => .sys
def Scope.code : Scope → Nat
  | .group => 0 | .die => 1 | .dev => 2 | .sys => 3
def voteOf (n : Nat) : Vote :=
  match n with | 0 => .all | 1 => .any | 2 => .uni | _ => .ballot
def Vote.code : Vote → Nat
  | .all => 0 | .any => 1 | .uni => 2 | .ballot => 3
def pathOf (n : Nat) : Path :=
  match n with | 0 => .glob | 1 => .scr | 2 => .lst | 3 => .atr | _ => .net
def Path.code : Path → Nat
  | .glob => 0 | .scr => 1 | .lst => 2 | .atr => 3 | .net => 4
def copyOf (n : Nat) : CopyKind :=
  match n with | 0 => .gg | 1 => .gs | 2 => .sg | _ => .ss
def CopyKind.code : CopyKind → Nat
  | .gg => 0 | .gs => 1 | .sg => 2 | .ss => 3
def collOf (n : Nat) : CollKind :=
  match n with | 0 => .ared | 1 => .rscat | 2 => .agath | 3 => .bcst | _ => .pbar
def CollKind.code : CollKind → Nat
  | .ared => 0 | .rscat => 1 | .agath => 2 | .bcst => 3 | .pbar => 4

def Fields.order (f : Fields) : Order := orderOf (f.mo.toNat % 4)
def Fields.scope (f : Fields) : Scope := scopeOf (f.mo.toNat / 4)
def Fields.rm (f : Fields) : Rm := rmOf f.mo.toNat

/-- The index part of a selector (R297). -/
def Fields.pidx (f : Fields) (r : SReg) : PIdx :=
  if f.fn == 1 then .s r else .imm (BitVec.ofNat 20 (bitsOf f.imm.toNat 31 12))
def Fields.pcode (f : Fields) : BitVec 12 := BitVec.ofNat 12 (bitsOf f.imm.toNat 11 0)

/-- The instruction of a legal word. -/
def Fields.instr (f : Fields) : Option Instr :=
  let d := f.dest; let a := f.srcA; let b := f.srcB; let c := f.srcC
  let o := f.order; let sc := f.scope; let m := f.rm
  match f.op.toNat with
  | 0x00 => some .nop
  | 0x01 => some (.pb f.pD (f.sa.setWidth 3) f.sb)
  | 0x02 => some (.bra f.ht f.imm)
  | 0x03 => some (.brp f.ht f.pA f.imm)
  | 0x05 => some (.brx f.ht a)
  | 0x06 => some (.call f.imm)
  | 0x07 => some (.callx f.sA)
  | 0x08 => some .ret
  | 0x09 => some (.regang f.sA)
  | 0x0A => some .yield
  | 0x0B => some .exit
  | 0x0C => some (.trap f.scf)
  | 0x0D => some (.brk f.scf)
  | 0x0E => some (.enter f.scf)
  | 0x0F => some (.leave f.scf)
  | 0x32 => some (.pand f.pD f.pA f.pB)
  | 0x33 => some (.por f.pD f.pA f.pB)
  | 0x34 => some (.pxor f.pD f.pA f.pB)
  | 0x35 => some (.pnot f.pD f.pA)
  | 0x36 => some (.ppack f.dst)
  | 0x37 => some (.punpk f.sa)
  | 0x38 => some (.vote (voteOf f.fn.toNat) f.dst f.pA)
  | 0x78 => some (.sieve f.la f.dst f.pA)
  | 0x79 => some (.elect f.pD)
  | 0x88 => some (.pf sc a b)
  | 0x89 => some (.ldm f.la o sc f.dst a b f.scf)
  | 0x8A => some (.stm o sc a b f.scf f.dst)
  | 0x8B => some (.sti o sc (f.dst.setWidth 2) a b f.scf)
  | 0x8C => some (.fence o sc)
  | 0x8D => some (.waitc (pathOf f.fn.toNat) (if f.xfi then .imm f.scf else .s f.sA))
  | 0xB0 => some (.bar (f.scf.setWidth 4) (if f.fn == 1 then some f.sB else none))
  | 0xB1 => some (.arrive f.sD (f.scf.setWidth 4) (if f.fn == 1 then some f.sB else none))
  | 0xB2 => some (.bwait (f.scf.setWidth 4) f.sA)
  | 0xB3 => some (.copy (copyOf f.fn.toNat) f.sD f.sA f.sB c)
  | 0xB4 => some (.wtl f.pD f.sA)
  | 0xB5 => some (.tst f.pD f.sA)
  | 0xB6 => some (.cancel f.pD f.sA)
  | 0xB7 => some .trig
  | 0xC1 => some (.bpub f.la (f.dst.setWidth 2) f.sa f.scf)
  | 0xC2 => some (.mfence f.sD)
  | 0xC3 => some (.mzero f.dst)
  | 0xD0 => some (.launch f.sD f.sA)
  | 0xD1 => some (.gwait f.pD f.sA)
  | 0xD2 => some (.gcond f.pD f.sA f.sB)
  | 0xD3 => some (.nput (f.imm.getLsbD 31) o sc f.sD f.sA f.sB f.sC (f.imm.setWidth 24))
  | 0xE0 => some .rft
  | 0xE3 => some (.tlbgen f.sD f.sA)
  | 0xE4 => some (.sqz f.sA)
  | 0xE5 => some (.xpand f.sA)
  | 0xE6 => some (.imgsv f.sD f.sA)
  | 0xE7 => some (.imgld f.sD f.sA)
  | 0xE8 => some (if f.fn == 0 then .digcGang f.sD f.sA f.sB else .digcTask f.sD f.sA)
  | 0xE9 => some (.wfe f.sD f.sA)
  | op =>
    match Ty.ofCode f.ty.toNat with
    | none => none
    | some t =>
      match op with
      | 0x04 => some (if f.xfib then .brsImm f.ht (condOf f.fn.toNat) t f.sA f.imm f.immb
                      else .brs f.ht (condOf f.fn.toNat) t f.sA f.sB f.imm)
      | 0x10 => some (.add t d a b)
      | 0x11 => some (.sub t d a b)
      | 0x12 => some (.mul t d a b)
      | 0x13 => some (.mulhi t d a b)
      | 0x14 => some (.mad t d a b c)
      | 0x15 => some (.madw t d a b c)
      | 0x16 => some (.div f.la t d a b)
      | 0x17 => some (.rem f.la t d a b)
      | 0x18 => some (.min t d a b)
      | 0x19 => some (.max t d a b)
      | 0x1A => some (.abs t d a)
      | 0x1B => some (.neg t d a)
      | 0x1C => some (.addc t f.dst a b f.pC)
      | 0x1D => some (.subb t f.dst a b f.pC)
      | 0x1E => some (.clz t d a)
      | 0x1F => some (.popc t d a)
      | 0x20 => some (.and t d a b)
      | 0x21 => some (.or t d a b)
      | 0x22 => some (.xor t d a b)
      | 0x23 => some (.not t d a)
      | 0x24 => some (.andn t d a b)
      | 0x25 => some (.shl t d a b)
      | 0x26 => some (.shr t d a b)
      | 0x27 => some (.sar t d a b)
      | 0x28 => some (.rot (f.fn == 1) t d a b)
      | 0x29 => some (.bfx t d a b c)
      | 0x2A => some (.bfi t d a b c)
      | 0x2B => some (.brev t d a)
      | 0x2C => some (.sel t f.dst a b f.pC)
      | 0x2D => some (.mov t d a)
      | 0x2E => some (if f.len == 4 then .moviWide t d (f.immb ++ f.imm) else .movi t d f.imm)
      | 0x2F => some (.lea t d a b (f.scf.setWidth 3))
      | 0x30 => some (.cmp (condOf f.fn.toNat) t f.pD a b)
      | 0x31 => some (.cmpf (fcondOf f.fn.toNat) m t f.pD a b)
      | 0x39 => some (.gsr t d f.scf)
      | 0x3A => some (.ssr f.scf a)
      | 0x40 => some (.fadd m t f.dst a b)
      | 0x41 => some (.fsub m t f.dst a b)
      | 0x42 => some (.fmul m t f.dst a b)
      | 0x43 => some (.fma m t f.dst a b f.scf)
      | 0x44 => some (.fmin (f.fn == 1) m t f.dst a b)
      | 0x45 => some (.fmax (f.fn == 1) m t f.dst a b)
      | 0x46 => some (.fabs m t f.dst a)
      | 0x47 => some (.fneg m t f.dst a)
      | 0x48 => some (.fdiv f.la m t f.dst a b)
      | 0x49 => some (.fsqrt f.la m t f.dst a)
      | 0x4A => some (.frcp f.la m t f.dst a)
      | 0x4B => some (.frsq f.la m t f.dst a)
      | 0x4C => some (.fex2 f.la m t f.dst a)
      | 0x4D => some (.flg2 f.la m t f.dst a)
      | 0x4E => some (.frnd m t f.dst a)
      | 0x4F => some (.fclass m t f.dst a)
      | 0x50 => some (.fdot2 m t f.dst a b f.scf)
      | 0x51 => some (.fscale m t f.dst a b)
      | 0x52 => some (.fsgn m t f.dst a b)
      | 0x60 => (Ty.ofCode f.fn.toNat).map fun st => .cvt m st t f.dst a
      | 0x61 => some (.cvt8 (if f.fn == 0 then .sat else if f.fn == 1 then .inf else .dec) m t f.dst a b)
      | 0x62 => some (.cvt4 (if f.fn == 1 then .dec (f.scf.setWidth 3) else .enc b) m t f.dst a)
      | 0x63 => some (.pk (if f.fn == 0 then .cvt m t b else if f.fn == 1 then .h b else .b b c) f.dst a)
      | 0x64 => some (.upk (if f.fn == 0 then .cvt m t (f.scf.setWidth 1)
                            else if f.fn == 1 then .b (t == .s8) (f.scf.setWidth 2)
                            else .h (t == .s16) (f.scf.setWidth 1)) f.dst a)
      | 0x65 => some (.bscl (if f.fn == 0 then .apply m b else if f.fn == 1 then .fit (f.scf.setWidth 4) else .inv m b)
                        t f.dst a)
      | 0x66 => some (.sext t f.dst a b)
      | 0x70 => some (.shfl t f.dst f.sa b)
      | 0x71 => some (.shup t f.dst f.sa b)
      | 0x72 => some (.shdn t f.dst f.sa b)
      | 0x73 => some (.shxor t f.dst f.sa b)
      | 0x74 => some (.bcast t f.dst f.sa b)
      | 0x75 => (combOf f.fn.toNat).map fun k => .redg f.la k m t f.dst f.sa
      | 0x76 => (combOf (f.fn.toNat % 8)).map fun k => .scang f.la (decide (8 ≤ f.fn.toNat)) k m t f.dst f.sa
      | 0x77 => some (.mxix f.la t f.dst f.sa b)
      | 0x80 => some (.ld f.la o sc t f.dst a b)
      | 0x81 => some (.st o sc t a b c)
      | 0x82 => some (.lds f.la o sc t f.dst a b)
      | 0x83 => some (.sts o sc t a b c)
      | 0x84 => some (.ldl f.la o sc t f.dst a b)
      | 0x85 => some (.stl o sc t a b c)
      | 0x86 => some (.sld f.la o sc t f.sD f.sA b)
      | 0x87 => some (.sst o sc t f.sA b c)
      | 0xA0 => (amoOf f.fn.toNat).map fun k => .atom f.la k o sc t d a b c
      | 0xA1 => (amoOf f.fn.toNat).map fun k => .red f.sc k o sc t a b c
      | 0xA2 => (pvopOf f.fn.toNat).map fun k => .pvop k o sc t f.sD f.sA b c
      | 0xC0 => some (if f.fn == 1 then .mmxNar f.dst f.sa f.sB else .mmx t f.dst f.sa)
      | 0xC4 => some (.mtr t f.dst f.sa)
      | 0xD4 => some (.nget f.la o sc t f.sD f.sA f.sB)
      | 0xD5 => (amoOf f.fn.toNat).map fun k => .natm f.la k o sc t f.sD f.sA f.sB c
      | 0xD6 => some (.ncoll (collOf f.fn.toNat) o sc t f.sD f.sA)
      | 0xE1 => some (.psr t d f.pcode (f.pidx f.sA))
      | 0xE2 => some (.pwr f.pcode (f.pidx f.sC) f.sA)
      | _ => none

/-- The lowest subcause among the rules a word breaks (R76). -/
def lowest (l : List DecodeError) : Option DecodeError :=
  l.foldl (fun m e => match m with
    | none => some e
    | some x => if e.subcause < x.subcause then some e else some x) none

/-- A word's instruction, or the lowest subcause among the rules it breaks (R75 check 2, R76). -/
def decodeFields (W : Nat) (inBlock : Bool) (f : Fields) : Except DecodeError Instr :=
  match broken W f with
  | none => .error .reservedOp
  | some l =>
    match lowest (l ++ need .inBlock (!(inBlock && notInBlock f.op.toNat))) with
    | some e => .error e
    | none =>
      match f.instr with
      | some i => .ok i
      | none => .error .badValue

/-- What fetch finds at an address (R54, R55): a pad parcel, a malformed pad, or a word of some parcels. -/
inductive Word where
  | pad | badPad | word (f : Fields)
  deriving DecidableEq, Repr

/-- Reads a word from its first four parcels (R54, R55). -/
def readWord (p0 p1 p2 p3 : W32) : Word :=
  if p0 = 0xFFFFFFFF then .pad
  else if bitsOf p0.toNat 1 0 = 3 then .badPad
  else .word (Fields.ofParcels p0 p1 p2 p3)

/-- Decodes the parcels at the start of a list: the instruction and the parcels after it. -/
def decode (W : Nat) (inBlock : Bool) (ps : List W32) : Except DecodeError (Instr × List W32) :=
  match readWord (ps.getD 0 0) (ps.getD 1 0) (ps.getD 2 0) (ps.getD 3 0) with
  | .pad | .badPad => .error .badPad
  | .word f =>
    match decodeFields W inBlock f with
    | .ok i => .ok (i, ps.drop f.len)
    | .error e => .error e

/-! ### Instruction to fields: the encoder -/

def Fields.setD (f : Fields) : Dst → Fields
  | .v r => { f with dst := r, sc := false }
  | .s r => { f with dst := r.setWidth 8, sc := true }
def Fields.setA (f : Fields) : Src → Fields
  | .v r => { f with sa := r, xfsa := false }
  | .s r => { f with sa := r.setWidth 8, xfsa := true }
def Fields.setB (f : Fields) : SrcB → Fields
  | .v r => { f with sb := r }
  | .s r => { f with sb := r.setWidth 8, xfsb := true }
  | .imm x => { f with len := 3, xfib := true, imm := x }
def Fields.setC (f : Fields) : SrcC → Fields
  | .v r => { f with scf := r }
  | .s r => { f with scf := r.setWidth 8 }
  | .imm x => { f with scf := x, xfi := true }

/-- A word of opcode `op`. -/
def ofOp (op : BitVec 8) : Fields := { op := op }
/-- An opcode and a type. -/
def ofTy (op : BitVec 8) (t : Ty) : Fields := { op := op, ty := BitVec.ofNat 4 t.code }
/-- With an order and a scope (R63). -/
def Fields.mem (f : Fields) (o : Order) (s : Scope) : Fields := { f with mo := BitVec.ofNat 4 (o.code + 4 * s.code) }
def Fields.rnd (f : Fields) (m : Rm) : Fields := { f with mo := BitVec.ofNat 4 m.code }
def Fields.minor (f : Fields) (n : Nat) : Fields := { f with fn := BitVec.ofNat 4 n }
def Fields.look (f : Fields) (la : BitVec 4) : Fields := { f with la := la }
/-- Register numbers in fields. -/
def sr8 (r : SReg) : BitVec 8 := r.setWidth 8
def pr8 (r : PReg) : BitVec 8 := r.setWidth 8
/-- A scalar in SA, or in SB. -/
def Fields.saS (f : Fields) (r : SReg) : Fields := { f with sa := sr8 r, xfsa := true }
def Fields.sbS (f : Fields) (r : SReg) : Fields := { f with sb := sr8 r, xfsb := true }
def Fields.dV8 (f : Fields) (r : VReg) : Fields := { f with dst := r }
def Fields.dS8 (f : Fields) (r : SReg) : Fields := { f with dst := sr8 r, sc := true }
def Fields.dP8 (f : Fields) (r : PReg) : Fields := { f with dst := pr8 r }
def Fields.cI8 (f : Fields) (x : Byte) : Fields := { f with scf := x, xfi := true }
/-- The selector of a privileged register (R297); with a register index, FN is 1. -/
def Fields.selector (f : Fields) (code : BitVec 12) (k : PIdx) : Fields :=
  { f with
    len := 3, xfib := true
    fn := match k with | .imm _ => 0 | .s _ => 1
    imm := match k with
      | .imm n => BitVec.ofNat 32 (code.toNat + 4096 * n.toNat)
      | .s _ => BitVec.ofNat 32 code.toNat }

/-- The fields of an instruction; `none` for what has no gang-instruction word. -/
def fieldsOf (i : Instr) : Option Fields :=
  match i with
  | .nop => some (ofOp 0x00)
  | .pb p n pat => some { ofOp 0x01 with dst := pr8 p, sa := n.setWidth 8, sb := pat }
  | .bra ht o => some { ofOp 0x02 with ht := ht, len := 3, imm := o }
  | .brp ht p o => some { ofOp 0x03 with ht := ht, len := 3, sa := pr8 p, imm := o }
  | .brs ht c t a b o =>
    some { (((ofTy 0x04 t).minor c.code).saS a).sbS b with ht := ht, sc := true, len := 3, imm := o }
  | .brsImm ht c t a x o =>
    some { ((ofTy 0x04 t).minor c.code).saS a with ht := ht, sc := true, len := 4, xfib := true, imm := x, immb := o }
  | .brx ht a => some { (ofOp 0x05).setA a with ht := ht }
  | .call o => some { ofOp 0x06 with len := 3, imm := o }
  | .callx a => some ((ofOp 0x07).saS a)
  | .ret => some (ofOp 0x08)
  | .regang m => some ((ofOp 0x09).saS m)
  | .yield => some (ofOp 0x0A)
  | .exit => some (ofOp 0x0B)
  | .trap k => some ((ofOp 0x0C).cI8 k)
  | .brk k => some ((ofOp 0x0D).cI8 k)
  | .enter n => some ((ofOp 0x0E).cI8 n)
  | .leave n => some ((ofOp 0x0F).cI8 n)
  | .add t d a b => some ((((ofTy 0x10 t).setD d).setA a).setB b)
  | .sub t d a b => some ((((ofTy 0x11 t).setD d).setA a).setB b)
  | .mul t d a b => some ((((ofTy 0x12 t).setD d).setA a).setB b)
  | .mulhi t d a b => some ((((ofTy 0x13 t).setD d).setA a).setB b)
  | .mad t d a b c => some (((((ofTy 0x14 t).setD d).setA a).setB b).setC c)
  | .madw t d a b c => some (((((ofTy 0x15 t).setD d).setA a).setB b).setC c)
  | .div la t d a b => some (((((ofTy 0x16 t).setD d).setA a).setB b).look la)
  | .rem la t d a b => some (((((ofTy 0x17 t).setD d).setA a).setB b).look la)
  | .min t d a b => some ((((ofTy 0x18 t).setD d).setA a).setB b)
  | .max t d a b => some ((((ofTy 0x19 t).setD d).setA a).setB b)
  | .abs t d a => some (((ofTy 0x1A t).setD d).setA a)
  | .neg t d a => some (((ofTy 0x1B t).setD d).setA a)
  | .addc t d a b p => some { ((ofTy 0x1C t).setA a).setB b with dst := d, scf := pr8 p }
  | .subb t d a b p => some { ((ofTy 0x1D t).setA a).setB b with dst := d, scf := pr8 p }
  | .clz t d a => some (((ofTy 0x1E t).setD d).setA a)
  | .popc t d a => some (((ofTy 0x1F t).setD d).setA a)
  | .and t d a b => some ((((ofTy 0x20 t).setD d).setA a).setB b)
  | .or t d a b => some ((((ofTy 0x21 t).setD d).setA a).setB b)
  | .xor t d a b => some ((((ofTy 0x22 t).setD d).setA a).setB b)
  | .not t d a => some (((ofTy 0x23 t).setD d).setA a)
  | .andn t d a b => some ((((ofTy 0x24 t).setD d).setA a).setB b)
  | .shl t d a b => some ((((ofTy 0x25 t).setD d).setA a).setB b)
  | .shr t d a b => some ((((ofTy 0x26 t).setD d).setA a).setB b)
  | .sar t d a b => some ((((ofTy 0x27 t).setD d).setA a).setB b)
  | .rot r t d a b => some (((((ofTy 0x28 t).minor (flag r)).setD d).setA a).setB b)
  | .bfx t d a b c => some (((((ofTy 0x29 t).setD d).setA a).setB b).setC c)
  | .bfi t d a b c => some (((((ofTy 0x2A t).setD d).setA a).setB b).setC c)
  | .brev t d a => some (((ofTy 0x2B t).setD d).setA a)
  | .sel t d a b p => some { ((ofTy 0x2C t).setA a).setB b with dst := d, scf := pr8 p }
  | .mov t d a => some (((ofTy 0x2D t).setD d).setA a)
  | .movi t d x => some { (ofTy 0x2E t).setD d with len := 3, xfib := true, imm := x }
  | .moviWide t d x =>
    some { (ofTy 0x2E t).setD d with len := 4, xfib := true, imm := x.setWidth 32, immb := (x >>> 32).setWidth 32 }
  | .lea t d a b k => some (((((ofTy 0x2F t).setD d).setA a).setB b).cI8 (k.setWidth 8))
  | .cmp c t p a b => some (((((ofTy 0x30 t).minor c.code).setA a).setB b).dP8 p)
  | .cmpf c m t p a b => some ((((((ofTy 0x31 t).minor c.code).rnd m).setA a).setB b).dP8 p)
  | .pand d a b => some { ofOp 0x32 with dst := pr8 d, sa := pr8 a, sb := pr8 b }
  | .por d a b => some { ofOp 0x33 with dst := pr8 d, sa := pr8 a, sb := pr8 b }
  | .pxor d a b => some { ofOp 0x34 with dst := pr8 d, sa := pr8 a, sb := pr8 b }
  | .pnot d a => some { ofOp 0x35 with dst := pr8 d, sa := pr8 a }
  | .ppack d => some ((ofOp 0x36).dV8 d)
  | .punpk a => some { ofOp 0x37 with sa := a }
  | .vote k d a => some { (ofOp 0x38).minor k.code with dst := d, sa := pr8 a }
  | .gsr t d c => some (((ofTy 0x39 t).setD d).cI8 c)
  | .ssr c a => some { ((ofOp 0x3A).setA a).cI8 c with sc := a.isS }
  | .fadd m t d a b => some (((((ofTy 0x40 t).rnd m).setA a).setB b).dV8 d)
  | .fsub m t d a b => some (((((ofTy 0x41 t).rnd m).setA a).setB b).dV8 d)
  | .fmul m t d a b => some (((((ofTy 0x42 t).rnd m).setA a).setB b).dV8 d)
  | .fma m t d a b c => some { ((((ofTy 0x43 t).rnd m).setA a).setB b).dV8 d with scf := c }
  | .fmin p m t d a b => some ((((((ofTy 0x44 t).minor (flag p)).rnd m).setA a).setB b).dV8 d)
  | .fmax p m t d a b => some ((((((ofTy 0x45 t).minor (flag p)).rnd m).setA a).setB b).dV8 d)
  | .fabs m t d a => some ((((ofTy 0x46 t).rnd m).setA a).dV8 d)
  | .fneg m t d a => some ((((ofTy 0x47 t).rnd m).setA a).dV8 d)
  | .fdiv la m t d a b => some ((((((ofTy 0x48 t).rnd m).setA a).setB b).dV8 d).look la)
  | .fsqrt la m t d a => some (((((ofTy 0x49 t).rnd m).setA a).dV8 d).look la)
  | .frcp la m t d a => some (((((ofTy 0x4A t).rnd m).setA a).dV8 d).look la)
  | .frsq la m t d a => some (((((ofTy 0x4B t).rnd m).setA a).dV8 d).look la)
  | .fex2 la m t d a => some (((((ofTy 0x4C t).rnd m).setA a).dV8 d).look la)
  | .flg2 la m t d a => some (((((ofTy 0x4D t).rnd m).setA a).dV8 d).look la)
  | .frnd m t d a => some ((((ofTy 0x4E t).rnd m).setA a).dV8 d)
  | .fclass m t d a => some ((((ofTy 0x4F t).rnd m).setA a).dV8 d)
  | .fdot2 m t d a b c => some { ((((ofTy 0x50 t).rnd m).setA a).setB b).dV8 d with scf := c }
  | .fscale m t d a b => some (((((ofTy 0x51 t).rnd m).setA a).setB b).dV8 d)
  | .fsgn m t d a b => some (((((ofTy 0x52 t).rnd m).setA a).setB b).dV8 d)
  | .cvt m st t d a => some (((((ofTy 0x60 t).minor st.code).rnd m).setA a).dV8 d)
  | .cvt8 k m t d a b =>
    some ((((((ofTy 0x61 t).minor (match k with | .sat => 0 | .inf => 1 | .dec => 2)).rnd m).setA a).setB b).dV8 d)
  | .cvt4 (.enc b) m t d a => some (((((ofTy 0x62 t).rnd m).setA a).setB b).dV8 d)
  | .cvt4 (.dec k) m t d a => some ((((((ofTy 0x62 t).minor 1).rnd m).setA a).dV8 d).cI8 (k.setWidth 8))
  | .pk (.cvt m t b) d a => some (((((ofTy 0x63 t).rnd m).setA a).setB b).dV8 d)
  | .pk (.h b) d a => some (((((ofTy 0x63 .b32).minor 1).setA a).setB b).dV8 d)
  | .pk (.b b c) d a => some ((((((ofTy 0x63 .b32).minor 2).setA a).setB b).setC c).dV8 d)
  | .upk (.cvt m t k) d a => some (((((ofTy 0x64 t).rnd m).setA a).dV8 d).cI8 (k.setWidth 8))
  | .upk (.b s k) d a => some (((((ofTy 0x64 (if s then .s8 else .n8)).minor 1).setA a).dV8 d).cI8 (k.setWidth 8))
  | .upk (.h s k) d a => some (((((ofTy 0x64 (if s then .s16 else .n16)).minor 2).setA a).dV8 d).cI8 (k.setWidth 8))
  | .bscl (.apply m b) t d a => some (((((ofTy 0x65 t).rnd m).setA a).setB b).dV8 d)
  | .bscl (.fit k) t d a => some (((((ofTy 0x65 t).minor 1).setA a).dV8 d).cI8 (k.setWidth 8))
  | .bscl (.inv m b) t d a => some ((((((ofTy 0x65 t).minor 2).rnd m).setA a).setB b).dV8 d)
  | .sext t d a b => some ((((ofTy 0x66 t).setA a).setB b).dV8 d)
  | .shfl t d a b => some { ((ofTy 0x70 t).setB b).dV8 d with sa := a }
  | .shup t d a b => some { ((ofTy 0x71 t).setB b).dV8 d with sa := a }
  | .shdn t d a b => some { ((ofTy 0x72 t).setB b).dV8 d with sa := a }
  | .shxor t d a b => some { ((ofTy 0x73 t).setB b).dV8 d with sa := a }
  | .bcast t d a b => some { ((ofTy 0x74 t).setB b).dV8 d with sa := a }
  | .redg la k m t d a => some { ((((ofTy 0x75 t).minor k.code).rnd m).dV8 d).look la with sa := a }
  | .scang la x k m t d a => some { ((((ofTy 0x76 t).minor (k.code + 8 * flag x)).rnd m).dV8 d).look la with sa := a }
  | .mxix la t d a b => some { (((ofTy 0x77 t).setB b).dV8 d).look la with sa := a }
  | .sieve la d p => some { ((ofOp 0x78).dV8 d).look la with sa := pr8 p }
  | .elect p => some ((ofOp 0x79).dP8 p)
  | .ld la o s t d a b => some ((((((ofTy 0x80 t).mem o s).setA a).setB b).dV8 d).look la)
  | .st o s t a b c => some (((((ofTy 0x81 t).mem o s).setA a).setB b).setC c)
  | .lds la o s t d a b => some ((((((ofTy 0x82 t).mem o s).setA a).setB b).dV8 d).look la)
  | .sts o s t a b c => some (((((ofTy 0x83 t).mem o s).setA a).setB b).setC c)
  | .ldl la o s t d a b => some ((((((ofTy 0x84 t).mem o s).setA a).setB b).dV8 d).look la)
  | .stl o s t a b c => some (((((ofTy 0x85 t).mem o s).setA a).setB b).setC c)
  | .sld la o s t d a b => some ((((((ofTy 0x86 t).mem o s).saS a).setB b).dS8 d).look la)
  | .sst o s t a b c => some { ((((ofTy 0x87 t).mem o s).saS a).setB b).setC c with sc := true }
  | .pf s a b => some ((((ofOp 0x88).mem .rlx s).setA a).setB b)
  | .ldm la o s d a b n => some (((((((ofOp 0x89).mem o s).setA a).setB b).dV8 d).cI8 n).look la)
  | .stm o s a b c n => some { (((ofOp 0x8A).mem o s).setA a).setB b with scf := c, dst := n }
  | .sti o s d i j x => some { (((ofOp 0x8B).mem o s).setA i).setB j with scf := x, dst := d.setWidth 8 }
  | .fence o s => some ((ofOp 0x8C).mem o s)
  | .waitc p (.imm x) => some { ((ofOp 0x8D).minor p.code).cI8 x with sc := true }
  | .waitc p (.s r) => some { ((ofOp 0x8D).minor p.code).saS r with sc := true }
  | .atom la k o s t d a b c => some ((((((((ofTy 0xA0 t).minor k.code).mem o s).setD d).setA a).setB b).setC c).look la)
  | .red x k o s t a b c => some { (((((ofTy 0xA1 t).minor k.code).mem o s).setA a).setB b).setC c with sc := x }
  | .pvop k o s t d a b n => some ((((((ofTy 0xA2 t).minor k.code).mem o s).saS a).setB b).setC n |>.dS8 d)
  | .bar k none => some ((ofOp 0xB0).cI8 (k.setWidth 8))
  | .bar k (some n) => some ((((ofOp 0xB0).minor 1).sbS n).cI8 (k.setWidth 8))
  | .arrive d k none => some (((ofOp 0xB1).dS8 d).cI8 (k.setWidth 8))
  | .arrive d k (some n) => some (((((ofOp 0xB1).minor 1).sbS n).dS8 d).cI8 (k.setWidth 8))
  | .bwait k p => some (((ofOp 0xB2).saS p).cI8 (k.setWidth 8))
  | .copy k d x y n => some ((((((ofOp 0xB3).minor k.code).saS x).sbS y).setC n).dS8 d)
  | .wtl p t => some (((ofOp 0xB4).saS t).dP8 p)
  | .tst p t => some (((ofOp 0xB5).saS t).dP8 p)
  | .cancel p t => some (((ofOp 0xB6).saS t).dP8 p)
  | .trig => some (ofOp 0xB7)
  | .mmx t c a => some { ofTy 0xC0 t with dst := c, sa := a }
  | .mmxNar c a f => some { ((ofOp 0xC0).minor 1).sbS f with dst := c, sa := a }
  | .bpub la q a o => some { ((ofOp 0xC1).cI8 o).look la with dst := q.setWidth 8, sa := a }
  | .mfence d => some { ofOp 0xC2 with dst := sr8 d }
  | .mzero d => some ((ofOp 0xC3).dV8 d)
  | .mtr t d a => some { ofTy 0xC4 t with dst := d, sa := a }
  | .launch d a => some (((ofOp 0xD0).saS a).dS8 d)
  | .gwait p h => some (((ofOp 0xD1).saS h).dP8 p)
  | .gcond p n v => some ((((ofOp 0xD2).saS n).sbS v).dP8 p)
  | .nput x o s d t r l n =>
    some { ((((ofOp 0xD3).mem o s).saS t).sbS r).dS8 d with
      scf := sr8 l, len := 3, imm := BitVec.ofNat 32 (n.toNat + 0x80000000 * flag x) }
  | .nget la o s t d tg r => some ((((((ofTy 0xD4 t).mem o s).saS tg).sbS r).dS8 d).look la)
  | .natm la k o s t d tg r c =>
    some ((((((((ofTy 0xD5 t).minor k.code).mem o s).saS tg).sbS r).setC c).dS8 d).look la)
  | .ncoll k o s t d a => some (((((ofTy 0xD6 t).minor k.code).mem o s).saS a).dS8 d)
  | .rft => some (ofOp 0xE0)
  | .psr t d c k =>
    some (((match k with | .imm _ => ofTy 0xE1 t | .s r => (ofTy 0xE1 t).saS r).setD d).selector c k)
  | .pwr c k v =>
    some { ((ofTy 0xE2 .n64).saS v).selector c k with
      sc := true, scf := match k with | .imm _ => 0 | .s r => sr8 r }
  | .tlbgen d c => some (((ofOp 0xE3).saS c).dS8 d)
  | .sqz a => some { (ofOp 0xE4).saS a with sc := true }
  | .xpand a => some { (ofOp 0xE5).saS a with sc := true }
  | .imgsv d c => some (((ofOp 0xE6).saS c).dS8 d)
  | .imgld d c => some (((ofOp 0xE7).saS c).dS8 d)
  | .digcGang d a b => some ((((ofOp 0xE8).saS a).sbS b).dS8 d)
  | .digcTask d a => some ((((ofOp 0xE8).minor 1).saS a).dS8 d)
  | .wfe d t => some (((ofOp 0xE9).saS t).dS8 d)
  | _ => none

/-! ### Batten instructions (R339) -/

/-- A batten word from its fields: op [31:26], d [25:23], a [22:20], b [19:17], imm [16:0]. -/
def battenWord (op d a b imm : Nat) : W32 :=
  BitVec.ofNat 32 (0x4000000 * op + 0x800000 * d + 0x100000 * a + 0x20000 * b + imm)

/-- Reads a batten word; a reserved op or a nonzero unused field is no instruction (R340). -/
def decodeBatten (w : W32) : Option Instr :=
  let n := w.toNat
  let d : BitVec 3 := BitVec.ofNat 3 (bitsOf n 25 23)
  let a : BitVec 3 := BitVec.ofNat 3 (bitsOf n 22 20)
  let b : BitVec 3 := BitVec.ofNat 3 (bitsOf n 19 17)
  let i : BitVec 17 := BitVec.ofNat 17 (bitsOf n 16 0)
  let w1 : BitVec 1 := BitVec.ofNat 1 (bitsOf n 16 16)
  let o16 : BitVec 16 := BitVec.ofNat 16 (bitsOf n 15 0)
  let z (ok : Bool) (x : Instr) : Option Instr := if ok then some x else none
  match bitsOf n 31 26 with
  | 0x00 => z (d == 0 && a == 0 && b == 0) (.battenHalt i)
  | 0x01 => z (d == 0 && a == 0 && b == 0 && i == 0) .battenDone
  | 0x02 => z (a == 0 && b == 0) (.battenLi d i)
  | 0x03 => z (a == 0 && b == 0) (.battenLdp d i)
  | 0x04 => z (a == 0 && b == 0) (.battenLdq d i)
  | 0x05 => z (d == 0 && b == 0) (.battenStq a i)
  | 0x06 => z (b == 0) (.battenLdw d a w1 o16)
  | 0x07 => z (d == 0) (.battenStw a b w1 o16)
  | 0x08 => z (i == 0) (.battenAdd d a b)
  | 0x09 => z (i == 0) (.battenSub d a b)
  | 0x0A => z (i == 0) (.battenAnd d a b)
  | 0x0B => z (i == 0) (.battenOr d a b)
  | 0x0C => z (i == 0) (.battenXor d a b)
  | 0x0D => z (i == 0) (.battenShl d a b)
  | 0x0E => z (i == 0) (.battenShr d a b)
  | 0x0F => z (b == 0) (.battenAddi d a i)
  | 0x10 => z (d == 0) (.battenBeq a b i)
  | 0x11 => z (d == 0) (.battenBne a b i)
  | 0x12 => z (d == 0 && a == 0 && b == 0 && bitsOf n 16 12 == 0)
      (.battenRpt (BitVec.ofNat 6 (bitsOf n 11 6)) (BitVec.ofNat 6 (bitsOf n 5 0)))
  | 0x13 => z (d == 0 && b == 0 && i == 0) (.battenSubm a)
  | 0x14 => z (d == 0 && i == 0) (.battenSgr a b)
  | 0x15 => z (d == 0 && i == 0) (.battenWgeq a b)
  | 0x16 => z (d == 0 && a == 0 && b == 0 && i == 0) .battenFnc
  | 0x17 => z (d == 0 && bitsOf n 16 1 == 0) (.battenSig a b (BitVec.ofNat 1 (bitsOf n 0 0)))
  | _ => none

/-- The word of a batten instruction. -/
def encodeBatten (i : Instr) : Option W32 :=
  match i with
  | .battenHalt i => some (battenWord 0x00 0 0 0 i.toNat)
  | .battenDone => some (battenWord 0x01 0 0 0 0)
  | .battenLi d i => some (battenWord 0x02 d.toNat 0 0 i.toNat)
  | .battenLdp d i => some (battenWord 0x03 d.toNat 0 0 i.toNat)
  | .battenLdq d i => some (battenWord 0x04 d.toNat 0 0 i.toNat)
  | .battenStq a i => some (battenWord 0x05 0 a.toNat 0 i.toNat)
  | .battenLdw d a w o => some (battenWord 0x06 d.toNat a.toNat 0 (0x10000 * w.toNat + o.toNat))
  | .battenStw a b w o => some (battenWord 0x07 0 a.toNat b.toNat (0x10000 * w.toNat + o.toNat))
  | .battenAdd d a b => some (battenWord 0x08 d.toNat a.toNat b.toNat 0)
  | .battenSub d a b => some (battenWord 0x09 d.toNat a.toNat b.toNat 0)
  | .battenAnd d a b => some (battenWord 0x0A d.toNat a.toNat b.toNat 0)
  | .battenOr d a b => some (battenWord 0x0B d.toNat a.toNat b.toNat 0)
  | .battenXor d a b => some (battenWord 0x0C d.toNat a.toNat b.toNat 0)
  | .battenShl d a b => some (battenWord 0x0D d.toNat a.toNat b.toNat 0)
  | .battenShr d a b => some (battenWord 0x0E d.toNat a.toNat b.toNat 0)
  | .battenAddi d a i => some (battenWord 0x0F d.toNat a.toNat 0 i.toNat)
  | .battenBeq a b i => some (battenWord 0x10 0 a.toNat b.toNat i.toNat)
  | .battenBne a b i => some (battenWord 0x11 0 a.toNat b.toNat i.toNat)
  | .battenRpt t n => some (battenWord 0x12 0 0 0 (64 * t.toNat + n.toNat))
  | .battenSubm a => some (battenWord 0x13 0 a.toNat 0 0)
  | .battenSgr a b => some (battenWord 0x14 0 a.toNat b.toNat 0)
  | .battenWgeq a b => some (battenWord 0x15 0 a.toNat b.toNat 0)
  | .battenFnc => some (battenWord 0x16 0 0 0 0)
  | .battenSig a b i => some (battenWord 0x17 0 a.toNat b.toNat i.toNat)
  | _ => none

/-! ### The encoder of a whole instruction, and the host's table words -/

/-- The parcels of a gang instruction, or the one word of a batten instruction; an event has none. -/
def encode (i : Instr) : List W32 :=
  match fieldsOf i with
  | some f => f.parcels
  | none => match encodeBatten i with
    | some w => [w]
    | none => []

/-- Length of a gang instruction in bytes (R54). -/
def Instr.bytes (i : Instr) : Nat :=
  match fieldsOf i with
  | some f => 4 * f.len
  | none => 0

/-- Parcel k of a word of bits. -/
def parcelOf (w k : Nat) : W32 := BitVec.ofNat 32 (w / 2 ^ (32 * k))

/-- The instruction the decoder reads from a word of the opcode table: a 32-bit word is a batten instruction (R339), a longer
one a gang instruction (R54), read for a gang of 32 lanes outside any predicate block. -/
def decodeTableWord (nbits w : Nat) : Option Instr :=
  if nbits ≤ 32 then decodeBatten (parcelOf w 0)
  else
    match decode 32 false [parcelOf w 0, parcelOf w 1, parcelOf w 2, parcelOf w 3] with
    | .ok (i, _) => some i
    | .error _ => none

end Sys2Proof
end

