-- ==== Sys2Proof/Config.lean ====
section
/-!
DEFINITION. What the manual leaves to one implementation, or leaves open: constants with no body, so that no proof can see a
value (log entries 2, 11, 20, 25, 40, 42, 69, 89, 141, 145), and the fixed sizes of 00_scope.md.
-/
namespace Sys2Proof.Config

/-- Free values, numbered by the argument: which agent moves next when no turn is listed (`Machine.State.freeTurn`), and other choices by number. -/
opaque turnChoice : Nat → Nat
/-- After how many steps an access in flight goes before every other free turn (R155; log entry 2). -/
opaque accessBound : Nat
/-- A free bit for each number. -/
opaque freeBit : Nat → Bool
/-- A free byte for each number. -/
opaque freeByte : Nat → Byte
/-- A free 64-bit value for each number. -/
opaque freeWord : Nat → W64
/-- A free 32-bit value for each number. -/
opaque free32 : Nat → W32

/-- The choice of `rne` between 2^k and 2^(k+1) at their midpoint in a format of precision 1 (log entry 20). -/
opaque tieUp : Int → Bool

/-- Whether half a nanosecond of a time offset counts as a whole one (log entry 42). -/
opaque halfUp : Int → Bool
/-- The gang whose quadrant takes the lines that a level holds beyond every slice's entitlement, by their count (log entry 40). -/
opaque restGang : Nat → Nat

/-- Bytes of the ordered-update area that one entry takes (R176; log entry 25). -/
opaque ouaEntry : Nat

/-- The fused 256-bit key hash (R360). -/
opaque keyHash : BitVec 256
/-- The fused minimum security version (R360). -/
opaque minSvn : W32
/-- The boot ROM (R361). -/
opaque bootRom : List Byte

/-- Where the download buffer and context 0's firmware area lie in die 0's HBM (R360), as `Machine.bufferAt` and `Machine.firmwareAt` read
it. -/
opaque downloadBuffer : Nat
opaque firmwareArea : Nat

/-- Whether a queue of a partition is a tenant's (R336; log entry 141). -/
opaque tenantQueue : Nat → Nat → Bool

/-- Dies, clusters, cores, contexts, ports (R1, R6). -/
def dies : Nat := 4
def clusters : Nat := 32
def cores : Nat := 256
def contexts : Nat := 64
def ports : Nat := 12
/-- Bytes of HBM and of plate per die (R4, R5, R343). -/
def hbmBytes : Nat := 144 * 10 ^ 9
def plateBytes : Nat := 64 * 2 ^ 20
/-- Register lines per quadrant: 128 KiB of 64-byte lines (R4, R13). -/
def linesPerQuad : Nat := 2048
/-- Group scratch bytes per core (R4). -/
def scratchPerCore : Nat := 786432
/-- Resident gangs per quadrant (R33). -/
def gangsPerQuad : Nat := 16

/-- The port on which packets for a package leave (R199). -/
opaque route : BitVec 19 → Nat
/-- Where the r-th share of a reduction starts when M does not divide the element count (R201). -/
opaque shareStart : Nat → Nat → Nat → Nat

end Sys2Proof.Config
end

