-- ==== Sys2Proof/Machine/Sparse.lean ====
section
/-!
DEFINITION. Sparse tables: lists of (key, value) pairs. `set` keeps the one canonical form (keys strictly rising, no entry equal to
what an unlisted key reads as); `put` keeps the keys rising and is used for records. Equal cell tables are equal data.
-/
namespace Sys2Proof.Machine

/-- A table of values by number. -/
abbrev Sparse (α : Type) := List (Nat × α)

namespace Sparse
variable {α : Type}

/-- What key `k` reads as; `d` where nothing is listed. -/
def get (d : α) : Sparse α → Nat → α
  | [], _ => d
  | (j, v) :: t, k => if k = j then v else get d t k

/-- Whether key `k` is listed. -/
def has : Sparse α → Nat → Bool
  | [], _ => false
  | (j, _) :: t, k => k == j || has t k

/-- The entry of key `k` listed as `v`, in order. -/
def put : Sparse α → Nat → α → Sparse α
  | [], k, v => [(k, v)]
  | (j, w) :: t, k, v =>
    if k < j then (k, v) :: (j, w) :: t else if k = j then (k, v) :: t else (j, w) :: put t k v

/-- No entry for key `k`. -/
def erase : Sparse α → Nat → Sparse α
  | [], _ => []
  | (j, w) :: t, k => if k = j then erase t k else (j, w) :: erase t k

/-- Key `k` reads as `v` from now on; an entry equal to the default `d` is not listed. -/
def set [DecidableEq α] (d : α) (m : Sparse α) (k : Nat) (v : α) : Sparse α :=
  if v = d then erase m k else put m k v

/-- The keys listed, in order. -/
def keys (m : Sparse α) : List Nat := m.map Prod.fst

/-- Keys strictly rising above `lo`, no entry equal to `d`. -/
def wfFrom [DecidableEq α] (d : α) (lo : Nat) : Sparse α → Bool
  | [] => true
  | (j, v) :: t => decide (lo ≤ j) && decide (v ≠ d) && wfFrom d (j + 1) t

/-- The canonical form. -/
def wf [DecidableEq α] (d : α) (m : Sparse α) : Bool := wfFrom d 0 m

end Sparse

end Sys2Proof.Machine
end

