-- ==== Sys2Proof/Machine/State.lean ====
section
/-!
DEFINITION. The state of the machine: every piece of state the manual gives the package, as plain data, and the state after reset.
Tables are sparse: an unlisted key holds the record's field defaults, which are the reset values.
-/
namespace Sys2Proof.Machine

/-! ### Gangs -/

/-- A located byte: of the package, or of host memory across the Hexesh link (R343, R348). -/
structure Loc where
  host : Bool
  key : Nat
  deriving DecidableEq, Repr

/-- A register as instructions name it: by number, whatever the lane or slice (R69, R213). -/
inductive Reg where
  | v (n : Nat) | s (n : Nat) | p (n : Nat)
  deriving DecidableEq, Repr

/-- One register of one lane or slice, with the value an instruction writes there. -/
inductive RegWrite where
  | v (lane n : Nat) (x : W32)
  | s (slice n : Nat) (x : W64)
  | p (lane n : Nat) (x : Bool)
  deriving DecidableEq, Repr

/-- A predicate block (R65): sampled enables, pattern, slot count minus 1, the slot that issues next. -/
structure Blk where
  en : W32
  pat : Byte
  cnt : Nat
  slot : Nat
  deriving DecidableEq, Repr

/-- A lookahead window (R69): its owner's in-flight entry, the positions left, the pending set. -/
structure Window where
  owner : Nat
  left : Nat
  pend : List Reg
  deriving DecidableEq, Repr

/-- How far a waiting instruction of a split has come: an instruction that waits stays at its pc. -/
inductive Wait where
  | none                   -- not begun
  | phase (p : W32)        -- `bar`: arrived in phase p (R253)
  | count (n : Nat)        -- `launch`, `imgsv`: slices served or groups saved so far
  | req (id : Nat)         -- `sqz`: its request (R302)
  | deadline (since t : Nat)     -- `wfe`: its place among the waiting ones, and when it gives up (R306)
  | finished                   -- `wfe`: it has given up
  | nap (tick : Nat)       -- `yield`: not ready for one clock (R43)
  | gave                       -- `yield` in deterministic mode, chosen past: it gives way when its gang becomes current (R45)
  deriving DecidableEq, Repr

/-- Where a split-table entry spilled to a stack lies (R46): slice, address, order of spilling. -/
structure Spill where
  slice : Nat
  addr : Nat
  seq : Nat
  deriving DecidableEq, Repr

/-- Accesses of a gang that a release at a scope has let pass before they were applied, and that an agent which has read that release
must follow (R157, R158): the gang, the scope, its entries. -/
structure Seen where
  r : GangRef
  scope : Scope
  ids : List Nat
  deriving DecidableEq, Repr

/-- A split (R44): pc, lane mask, its cover mask while parked (R48), predicate block, windows, the in-flight entries that
precede it in program order (R152), what its reads have synchronized with (R158), creation order, and where it lies on a stack if it is
spilled (R46). -/
structure Split where
  pc : W64 := 0
  mask : W32 := 0
  cover : W32 := 0
  blk : Option Blk := none
  wins : List Window := []
  hist : List Nat := []
  seen : List Seen := []
  wait : Wait := .none
  born : Nat := 0
  spill : Option Spill := none
  deriving DecidableEq, Repr

/-- A trap raised and not yet taken (R70, R281). -/
structure TrapReq where
  cause : Nat
  sub : Nat
  pc : W64
  fa : W64
  mask : W32
  insn : List W32
  deriving DecidableEq, Repr

/-- The space of an access (R148). -/
inductive Space where
  | glob | scr | lst
  deriving DecidableEq, Repr

/-- What an access does at its location (R105, R106, R173). -/
inductive AccOp where
  | rd
  | wr (x : W64)
  | rmw (op : Amo) (t : Ty) (c e : W64)
  deriving DecidableEq, Repr

/-- Where a value read lands: a vector register of a lane, or a scalar register of a slice, extended by the type (R105, R167). -/
inductive Land where
  | none
  | v (lane n : Nat) (t : Ty)
  | s (slice n : Nat) (t : Ty)
  deriving DecidableEq, Repr

/-- One access of an instruction (R151): lane (or slice), space, address or offset, bytes, operation, landing, and once applied
the value read. `img`: a write of the counterproof unit's image set (R232), not of the issued element. `kick`: an access of `st`
or `sst`, which a kick word notices (R337). `own`: an ordinary load or store issued in trap mode, which may touch its gang's frame
(R258). -/
structure Access where
  lane : Nat
  space : Space
  addr : Nat
  bytes : Nat
  op : AccOp
  land : Land := .none
  done : Bool := false
  val : W64 := 0
  img : Bool := false
  kick : Bool := false
  own : Bool := false
  deriving DecidableEq, Repr

/-- What an in-flight entry is. -/
inductive EntryKind where
  | mem                                  -- accesses, landing registers at completion
  | fence                                -- R169: orders only
  | alu                                  -- a long-latency computation: `rw` and `sticky` land at completion
  | bpub (slot base off : Nat) (lanes : W32)     -- R244
  | ticket (ctx : Nat) (ops : List (Nat × Nat × Nat))   -- `nget`, `natm` (R201): number, slice, register of each operation
  | put (ctx : Nat) (ops : List Nat)              -- `nput` (R150): the numbers of its operations
  deriving DecidableEq, Repr

/-- An instruction in flight (R69, R150): its number, counter path, order and scope, the entries before it in program order, its
accesses, and the registers and sticky bits that land when it completes. -/
structure Entry where
  id : Nat
  kind : EntryKind := .mem
  path : Option Path := none
  ord : Order := .rlx
  scope : Scope := .group
  before : List Nat := []
  accs : List Access := []
  rw : List RegWrite := []
  sticky : BitVec 6 := 0
  long : Bool := false
  done : Bool := false
  /-- first D-range key of the instruction (R175) -/
  dq : Nat := 0
  /-- the step in which it was issued -/
  since : Nat := 0
  /-- of a fence: what the accesses after it must follow (R157 to R159) -/
  sync : List Seen := []
  deriving DecidableEq, Repr

/-- One tile product of a batch (R243): type or format block, accumulator base, A rows of the lanes, the four B slots as they
stood (4 × 32 cells of 4 words), and the accesses that precede it (R216). -/
structure Mmx where
  ty : Ty
  block : Option (List W64) := none
  c : Nat
  rows : List (Nat × List W32) := []
  b : List W32 := []
  before : List Nat := []
  deriving DecidableEq, Repr

/-- A closed batch whose lock has not ended (R213): its number and the register ranges. -/
structure Lock where
  num : Nat
  ranges : List (Nat × Nat)
  deriving DecidableEq, Repr

/-- A register line or scratch page (R13, R267): last access, last completion that wrote it (R264), whether it sits in the image only, and
whether it has been chosen to go there and is still held (R14). -/
structure Line where
  last : Nat := 0
  wr : Nat := 0
  out : Bool := false
  going : Bool := false
  deriving DecidableEq, Repr

/-- A gang (R31). -/
structure Gang where
  run : Option Split := none
  pend : List Split := []
  parked : List Split := []
  live : W32 := 0
  /-- v registers, key lane · 256 + n -/
  v : Sparse W32 := []
  /-- s registers, key slice · 64 + n -/
  s : Sparse W64 := []
  /-- predicates, key lane · 8 + n -/
  p : Sparse Bool := []
  /-- stack limit of each slice (R293) -/
  slim : Sparse W64 := []
  /-- lane store, key lane · 2048 + offset (R148) -/
  lst : Sparse Byte := []
  fstat : BitVec 6 := 0
  infl : List Entry := []
  trapMode : Bool := false
  trapReq : Option TrapReq := none
  /-- address of the trapped instruction of the frame held (R287) -/
  trapPc : W64 := 0
  /-- splits numbered from here on were made by the handler (R281) -/
  trapUid : Nat := 0
  due : List Nat := []
  /-- lanes that waited at a `bar`, `bwait`, `wtl` or `waitc` when a notice fell due: it is taken after that returns (R257) -/
  ntcHold : W32 := 0
  batch : List Mmx := []
  closed : List Lock := []
  dig : W64 := 0
  dcnt : Nat := 0
  /-- lanes marked (R254), and lanes whose mark waits for earlier accesses: (lanes, entries) -/
  trig : W32 := 0
  trigWait : List (W32 × List Nat) := []
  last : Nat := 0
  /-- instructions issued since time last passed -/
  issues : Nat := 0
  held : List Nat := []
  lines : Sparse Line := []
  /-- the splits in the entries of the split table as written at the latest suspension, by creation (R277) -/
  tab : List Nat := []
  deriving DecidableEq, Repr

/-! ### Groups and grids -/

/-- A barrier unit (R251, R364): phase, mode (0 unset, 1 default, 2 counted), arrivals, count. -/
structure Bar where
  phase : W32 := 0
  mode : Nat := 0
  arr : Nat := 0
  expct : Nat := 0
  deriving DecidableEq, Repr

/-- Where a group stands. One that is `landing` has been given its place on a core, and is held outside its cluster until that has woken
(R319). -/
inductive GroupSt where
  | absent | landing | resident | suspended | saved | ended
  deriving DecidableEq, Repr

/-- A group (R31). Levels and epoch are the fields of `rlvl` (R11). -/
structure Group where
  st : GroupSt := .absent
  grid : Nat := 0
  lin : Nat := 0
  core : Nat := 0
  /-- dispatch order (R41, R263) -/
  seq : Nat := 0
  /-- physical slices by gang are `Gang.held`; levels of R262 -/
  lanesLv : Nat := 4
  regsLv : Nat := 4
  scrLv : Nat := 4
  epoch : BitVec 16 := 0
  bars : Sparse Bar := []
  /-- B slots, key ((quartet · 4 + slot) · 32 + cell) · 4 + word (R208) -/
  bs : Sparse W32 := []
  /-- group scratch by offset (R148), and its pages (R267) -/
  scr : Sparse Byte := []
  pages : Sparse Line := []
  img : W64 := 0
  stk : W64 := 0
  sieve : Sparse Bool := []
  /-- the floor's lines as written at suspension (R272, R273): gang, line -/
  floor : List (Nat × Nat) := []
  /-- the context that pays for its image traffic: the one on whose behalf it was last squeezed; and those who paid before it since the
  latest charges (R309) -/
  payer : Nat := 0
  paid : List Nat := []
  /-- `imgld` has queued it (R273) -/
  queuedLd : Bool := false
  deriving DecidableEq, Repr

/-- A deferred reduction (R175): key (g, n, q, L), location, minor, type, operands. -/
structure DRed where
  g : Nat
  n : Nat
  q : Nat
  lane : Nat
  loc : Nat
  op : Amo
  t : Ty
  c : W64
  e : W64
  deriving DecidableEq, Repr

/-- An element of a launch's symmetry group (R226): π, σ (true for −1), o by axis, and the sign (true for −1). -/
structure SymEl where
  pi : List Nat := [0, 1, 2]
  sg : List Bool := [false, false, false]
  o : List Nat := [0, 0, 0]
  neg : Bool := false
  deriving DecidableEq, Repr

/-- A grid's state: waiting for residency 1, running 2, retired 3, refused 4, failed 5 (R323). -/
inductive GridSt where
  | waiting | running | retired | refused | failed
  deriving DecidableEq, Repr

/-- A segment or node reference of a running graph. -/
structure NodeRef where
  graph : Nat
  node : Nat
  deriving DecidableEq, Repr

/-- A grid (R31): the copy of its descriptor (R323) and what the front end keeps. -/
structure Grid where
  st : GridSt := .waiting
  /-- the 80 words of the descriptor as read at acceptance -/
  d : List W64 := []
  daddr : W64 := 0
  ctx : Nat := 0
  part : Nat := 0
  cls : Nat := 0
  det : Bool := false
  depth : Nat := 0
  parent : Option Nat := none
  /-- X extent after R327 -/
  nx : Nat := 0
  elems : List SymEl := []
  /-- next linear index to consider for dispatch (R38, R228) -/
  next : Nat := 0
  /-- groups dispatched, and ended: linear indices (R332) -/
  ended : List Nat := []
  dispatched : Nat := 0
  dred : List DRed := []
  tdig : W64 := 0
  handle : Option Nat := none
  node : Option NodeRef := none
  queue : Option (Nat × Nat) := none
  /-- acceptance order (R42) -/
  acc : Nat := 0
  code : Nat := 0
  /-- cause and subcause of a second trap (R288): cause + 2^16 · subcause -/
  trap2 : Nat := 0
  edge : Bool := false
  /-- lanes of ended groups marked (R254) -/
  marked : Nat := 0
  /-- survivor counts of ended groups (R328): (linear index, indices) -/
  surv : List (Nat × List Nat) := []
  /-- the scheduler's request for its next group: outstanding, or held until resources are freed (R365) -/
  req : Option Nat := none
  reqHold : Bool := false
  /-- the stack areas made resident for its groups (R325, R293): address and bytes -/
  stks : List (Nat × Nat) := []
  /-- firmware's serial re-execution of its node (R189) -/
  redo : Bool := false
  deriving DecidableEq, Repr

/-! ### Contexts, tickets, engines -/

/-- A final or passing state of an engine operation (R238). -/
inductive OpSt where
  | queued | running | completed | failed | cancelled
  deriving DecidableEq, Repr

/-- What an engine operation does. Addresses are virtual, or scratch offsets for a scratch side. -/
inductive OpKind where
  | none
  | copy (k : CopyKind) (dst src n : Nat)
  | pvop (op : PvOp) (o : Order) (t : Ty) (dst : Nat) (src : Option Nat) (const : W64) (n : Nat)
  | batch (ms : List Mmx)
  | put (ordered : Bool) (tgt : W64) (remote loc n : Nat)
  | get (tgt : W64) (remote : Nat) (t : Ty)
  | natm (op : Amo) (t : Ty) (tgt : W64) (remote : Nat) (c e : W64)
  | coll (k : CollKind) (t : Ty) (addr : Nat) (desc : List W64) (tbl : List W32) (snd : List Byte)
  deriving DecidableEq, Repr

/-- An engine operation (R238): state, work, its starter and grid, the starter's accesses it follows (R161), progress, the time it
began, the step in which it was issued, its (last) stamp, the bytes acknowledged, the value that came back, what has arrived, and what has been
moved. -/
structure Op where
  st : OpSt := .queued
  kind : OpKind := .none
  grid : Nat := 0
  by_ : GangRef := ⟨0, 0⟩
  before : List Nat := []
  pos : Nat := 0
  t0 : Nat := 0
  at_ : Nat := 0
  stamp : Option Stamp := none
  acked : Nat := 0
  val : W64 := 0
  /-- of a collective: the contributions of members in other packages that have arrived (R201) -/
  heard : List Contrib := []
  /-- bytes of a copy, or elements of a plate operation, already moved -/
  moved : List Nat := []
  deriving DecidableEq, Repr

/-- A hardware context (R6): the privileged registers of R298 indexed by context, its timelines, grid counter and energy. -/
structure Ctx where
  tvec : W64 := 0
  imgbase : W64 := 0
  imgsz : W64 := 0
  ouasz : W64 := 0
  noticeen : W32 := 0
  asg : Bool := false
  part : Nat := 0
  ecnt : W64 := 0
  /-- carried picojoules, by unit: clusters 0 to 31, dies 32 to 35, the package base 36 (R308) -/
  pj : Sparse Nat := []
  fidev : W64 := 0
  sqfold : W64 := 0
  sqexp : W64 := 0
  sqsusp : W64 := 0
  linewr : W64 := 0
  scrwr : W64 := 0
  imgflt : W64 := 0
  gen : W64 := 0
  /-- memory as it stood when the latest generation began: the page tables that cached translations come from (R349) -/
  tabs : List Host.Cell := []
  /-- timeline counters: key engine code (R237) -/
  tl : Sparse Nat := []
  /-- operations: key engine code · 2^64 + number -/
  ops : Sparse Op := []
  /-- grid handles issued (R335): number, grid or refusal -/
  handles : Nat := 0
  children : Sparse (Nat × GridSt) := []
  out : Bool := false
  /-- groups that an `imgsv` has saved so far, by its request (R304) -/
  saves : Sparse Nat := []
  deriving DecidableEq, Repr

/-! ### Squeeze controller -/

/-- Who asked (R261). -/
inductive ReqBy where
  | sched (grid : Nat) | sqz (key : W64) (ctxRpt : Nat) | save (ctx : Nat)
  deriving DecidableEq, Repr

/-- A request of the squeeze controller (R260), with its arrival. -/
structure Req where
  id : Nat
  by_ : ReqBy
  at_ : Nat
  cls : Nat := 0
  nsl : Nat := 0
  nln : Nat := 0
  nscr : Nat := 0
  qmask : Nat := 0
  susp : Bool := false
  rpt : W64 := 0
  valid : Bool := true
  deriving DecidableEq, Repr

/-- A line of a gang, or a page of scratch, that goes to the image. -/
inductive Pick where
  | line (r : GangRef) (key : Nat)
  | page (p : Nat)
  deriving DecidableEq, Repr

/-- What the controller decided for one victim (R263): its new levels, or that it is suspended; once its fold has begun, what it picked
and when each was written (R264); whether it has been handled. -/
structure Plan where
  group : Nat
  lanes : Nat := 0
  regs : Nat := 0
  scr : Nat := 0
  suspend : Bool := false
  picks : Option (List (Pick × Option Nat)) := none
  done : Bool := false
  deriving DecidableEq, Repr

/-- A request being handled (R263, R264): the victims' plans, what has been granted, and the reasons for a refusal. -/
structure Taken where
  req : Req
  plans : List Plan := []
  gsl : Nat := 0
  gln : Nat := 0
  gscr : Nat := 0
  nvic : Nat := 0
  img : Bool := false
  flr : Bool := false
  nov : Bool := false
  deriving DecidableEq, Repr

/-- Resources granted to a firmware request and held (R302): key, and physical slices, lines of each quadrant, scratch; and by context the
slices, lines and scratch that its groups gave up (R10, R256). -/
structure Grant where
  key : W64
  slices : List Nat := []
  lines : List Nat := [0, 0, 0, 0]
  scr : Nat := 0
  given : Sparse (Nat × Nat × Nat) := []
  deriving DecidableEq, Repr

/-- A core (R1). -/
structure Core where
  oeave : W64 := 0
  ocourse : W64 := 0
  orepeat : W64 := 0
  reqs : List Req := []
  taken : Option Taken := none
  grants : List Grant := []
  /-- resources freed and not yet given out (R274), and since when -/
  freed : Bool := false
  freedAt : Nat := 0
  /-- deterministic mode's current gang (R42), and the gang a `yield` excludes from the choice -/
  curGang : Option GangRef := none
  deriving DecidableEq, Repr

/-! ### Clusters -/

/-- Power gating (R319). -/
inductive Power where
  | powered | intent (since : Nat) | gated | waking (since : Nat)
  deriving DecidableEq, Repr

/-- A cluster (R298, R299, R310, R319). -/
structure Cluster where
  rt : Nat := 2
  fq : Nat := 8
  slope : Nat := 8
  st : Nat := 0
  busy : Bool := false
  /-- current point -/
  r : Nat := 2
  f : Nat := 8
  stall : BitVec 16 := 0
  gate : Bool := true
  pwr : Power := .powered
  /-- cluster clock in twentieths of a cycle (R99) -/
  clk20 : Nat := 0
  /-- filler's level in mA, while an episode runs, and the departing context of the latest one (R316, R317) -/
  filler : Option Nat := none
  dep : Nat := 0
  /-- when the latest frequency change or ratio switch was made (R316) -/
  stepAt : Option Nat := none
  /-- when the latest stall sample closed, and what its quadrants have counted since, in twentieths of a clock (R315) -/
  stallAt : Nat := 0
  stallNum : Nat := 0
  stallDen : Nat := 0
  /-- when it last had work (R319) -/
  idleAt : Nat := 0
  deriving DecidableEq, Repr

/-! ### Fabric -/

/-- A management flit sent on a port (R191). -/
inductive Flit where
  | tsync (t1 : BitVec 48) | treq (t3 : BitVec 48) | tresp (t4 : BitVec 48) | beacon (w : Stamp) | refusal (pkt : Packet)
  | ack (src : BitVec 19) (ctx num : Nat) (value : W64)
  deriving DecidableEq, Repr

/-- The zero stamp. -/
def Stamp.zero : Stamp := ⟨0, 0, 0⟩

/-- A Purlin port (R194 to R197). -/
structure Port where
  fenced : Bool := false
  enabled : Bool := false
  inq : List Packet := []
  wm : Stamp := ⟨0, 0, 0⟩
  /-- when the watermark last advanced -/
  wmAt : Nat := 0
  outq : List Packet := []
  outW : Stamp := ⟨0, 0, 0⟩
  /-- when it last sent an ordered packet or beacon -/
  sentAt : Nat := 0
  lanes : Nat := 4
  floorM : Option Stamp := none
  stalled : Bool := false
  /-- a change of width keeps it silent until then (R197) -/
  quietTo : Nat := 0
  msgs : List Flit := []
  deriving DecidableEq, Repr

/-- The follower's record of a time exchange (R191). -/
structure TimeSync where
  t1 : BitVec 48 := 0
  t2 : BitVec 48 := 0
  t3 : BitVec 48 := 0
  open_ : Bool := false
  deriving DecidableEq, Repr

/-! ### Submission: descriptors, graphs, queues -/

/-- A submitted descriptor waiting for acceptance (R323, R335, R338). -/
structure Sub where
  daddr : W64
  ctx : Nat
  part : Nat
  depth : Nat := 0
  parent : Option Nat := none
  handle : Option Nat := none
  node : Option NodeRef := none
  queue : Option (Nat × Nat) := none
  floor : Nat := 0
  /-- a `launch`'s gang and its earlier accesses, which precede the reading of the descriptor (R161, R335) -/
  by_ : GangRef := ⟨0, 0⟩
  before : List Nat := []
  deriving DecidableEq, Repr

/-- A node of a running graph (R329 to R334). -/
structure Node where
  cnt : Nat := 0
  gotDone : Bool := false
  st : Nat := 0
  set : Nat := 0
  /-- the greatest value that each launch node's gangs have posted: node and value (R334, R335) -/
  posts : List (Nat × Nat) := []
  decided : Bool := false
  reserved : Bool := false
  /-- the grid running for a launch node -/
  grid : Option Nat := none
  /-- released and held until an entry, a snapshot or a restrike check allows it -/
  held : Bool := false
  /-- its completion bitmap: offset and bytes in the work area, while in use (R332) -/
  bmp : Option (Nat × Nat) := none
  /-- D ranges of the snapshot held (R188): address, bytes -/
  snap : List (Nat × Nat) := []
  /-- its place in the snapshot area: offset and bytes -/
  snapOff : Option (Nat × Nat) := none
  digest : Option W64 := none
  deriving DecidableEq, Repr

/-- What a graph does about its log (R187 to R189). -/
inductive LogSt where
  | off | recording | waiting (since : Nat) | truncated | checking | halted | ended (code : Nat)
  deriving DecidableEq, Repr

/-- Firmware's serial re-execution after a mismatch (R189): the tasks still to run, the grid that runs, and the nodes done with their new
digests, `none` for one that a task-ending event ended. -/
structure Redo where
  todo : List Nat
  grid : Option Nat := none
  got : List (Nat × Option W64) := []
  deriving DecidableEq, Repr

/-- A running graph (R329). -/
structure Graph where
  table : W64 := 0
  /-- the table as read at its start -/
  t : List W64 := []
  ctx : Nat := 0
  part : Nat := 0
  mode : Nat := 0
  nn : Nat := 0
  nodes : Sparse Node := []
  queue : Option (Nat × Nat) := none
  floor : Nat := 0
  log0 : W64 := 0
  seg : W64 := 0
  reserved : Nat := 0
  ls : LogSt := .off
  /-- restrike: entries of the log consumed -/
  snapA : W64 := 0
  snapN : Nat := 0
  /-- the mismatch being resolved: node, and whether a digest or a decision -/
  bad : Option (Nat × Bool) := none
  redo : Option Redo := none
  failed : Bool := false
  finished : Bool := false
  deriving DecidableEq, Repr

/-- The batten interpreter's work on a packet (R339): packet, pc, registers, repeat stack, instructions left, wait progress. -/
structure Interp where
  slots : Nat := 1
  words : List W64 := []
  std : Bool := false
  pc : Nat := 0
  b : List W64 := [0, 0, 0, 0, 0, 0, 0, 0]
  rpt : List (Nat × Nat × Nat) := []
  left : Nat := 512
  deriving DecidableEq, Repr

/-- A queue (R336): the read-only half's words, the program, and the mutable half. -/
structure Queue where
  qst : Nat := 0
  cb : W64 := 0
  ro : List W64 := []
  table : List W64 := []
  prog : List W32 := []
  std : Bool := false
  rd : W32 := 0
  wr : W32 := 0
  cur : W32 := 0
  hrsn : Nat := 0
  hoff : W64 := 0
  ndone : W64 := 0
  bovr : W64 := 0
  pw : List W64 := [0, 0, 0]
  /-- physical address of the kick word (R337) -/
  kick : Option Nat := none
  /-- the packet at work, or the one that halted the queue -/
  it : Option Interp := none
  deriving DecidableEq, Repr

/-! ### Host side -/

/-- A window table entry's four words (R357). -/
structure WinEntry where
  hoff : W64 := 0
  vbase : W64 := 0
  len : W64 := 0
  ctl : W64 := 0
  deriving DecidableEq, Repr

/-- An interrupt table entry (R358): address, data, mask word. -/
structure IntEntry where
  addr : W64 := 0
  data : W32 := 0
  mask : W32 := 0
  deriving DecidableEq, Repr

/-- A DMA channel (R359). -/
structure Dma where
  ring : W64 := 0
  lsz : Nat := 0
  err : Nat := 0
  head : W32 := 0
  tail : W32 := 0
  deriving DecidableEq, Repr

/-- A partition's error ring (R362, R363): host address, log₂ size, vector, next slot, records dropped, host's progress. -/
structure ErrRing where
  set : Bool := false
  base : W64 := 0
  lsz : Nat := 4
  vec : Nat := 0
  wr : Nat := 0
  dropped : Nat := 0
  deriving DecidableEq, Repr

/-- A firmware event's three words (R307). -/
structure FwEvent where
  w0 : W64
  w1 : W64
  w2 : W64
  deriving DecidableEq, Repr

/-- The partition modes of R7. -/
inductive PartMode where
  | whole | halves | quarters
  deriving DecidableEq, Repr

/-- The Hexesh link (R355, R363). -/
inductive Link where
  | down | up | failed
  deriving DecidableEq, Repr

/-- The pool of `--pool` (R10): the context whose launches are the run's, the one core that they may use, its quadrants as a mask, and the
budget they share. -/
structure Pool where
  ctx : Nat
  core : Nat
  quads : Nat
  sl : Nat
  ln : Nat
  scr : Nat
  deriving DecidableEq, Repr

/-! ### The machine -/

/-- A release at a scope below system that was applied before accesses that precede it (R157, R158): the gang, the scope, its location
(`State.where_`, and the group for scratch), its bytes, the entries still to be applied, and whether the location's value belongs to its
release sequence; `fence`: the release is a fence's, which every read in its instance must follow (R169). -/
structure Rel where
  r : GangRef
  scope : Scope
  at_ : Nat × Nat × Nat
  bytes : Nat
  ids : List Nat
  live : Bool := true
  fence : Bool := false
  deriving DecidableEq, Repr

/-- The state of the package. Keys of `mem`: an HBM byte by its physical address (R343), a plate byte by `plateKey`. -/
structure State where
  mem : List Host.Cell := []
  hostMem : List Host.Cell := []
  /-- bytes whose latest write is the host's own, through a window or by DMA (R163): location and how many -/
  hostWr : List (Loc × Nat) := []
  /-- releases that accesses before them have yet to follow (R157, R158) -/
  rels : List Rel := []
  /-- regions of suspended groups that must not be written (R277, R364): group, location, virtual address; and the virtual addresses of
  those written since, by group -/
  watched : List (Nat × Loc × Nat) := []
  spoiled : List (Nat × Nat) := []
  mode : PartMode := .whole
  ctxs : Sparse Ctx := []
  cores : Sparse Core := []
  clusters : Sparse Cluster := []
  /-- gangs: key group · 32 + gang -/
  gangs : Sparse Gang := []
  groups : Sparse Group := []
  grids : Sparse Grid := []
  graphs : Sparse Graph := []
  /-- queues: key partition · 64 + queue -/
  queues : Sparse Queue := []
  ports : Sparse Port := []
  subs : List Sub := []
  pool : Option Pool := none
  /-- the queue of each partition that an interpreter took last (R338) -/
  rot : Sparse Nat := []
  stdProg : W64 := 0
  pwrlim : BitVec 16 := 4800
  board : BitVec 16 := 4800
  ceil : Nat := 34
  /-- the ceiling is being lowered (R314); when the latest window closed, and the latest charges were added (R308) -/
  lowering : Bool := false
  pwAt : Nat := 0
  energyAt : Nat := 0
  srcid : BitVec 19 := 0
  tsrc : BitVec 4 := 15
  fguard : W32 := 200
  fstall : W32 := 100
  ntmo : W32 := 10000
  ctmo : W32 := 1000000
  ftime : BitVec 48 := 0
  slew : Int := 0
  /-- nanoseconds since the slew was set or last corrected, below the 2,000 that correct one (R191) -/
  slewRem : Nat := 0
  tsync : TimeSync := {}
  /-- when a TSYNC last arrived, and when this package last sent one -/
  tsyncAt : Nat := 0
  tsyncTx : Nat := 0
  holdover : Bool := false
  stampT : BitVec 48 := 0
  stampSeq : Nat := 0
  localq : List Packet := []
  outbox : List Packet := []
  /-- the window that firmware exports to the fabric for a partition (R199): the context whose translation serves it, its first
  address and its bytes -/
  exported : Sparse (Nat × Nat × Nat) := []
  /-- the model's own: the stamp of the last ordered packet delivered -/
  lastDel : Option Stamp := none
  events : List FwEvent := []
  dropped : Nat := 0
  bst : Nat := 0
  brsn : Nat := 0
  dlen : W32 := 0
  m0 : BitVec 512 := 0
  m1 : BitVec 512 := 0
  m2 : BitVec 512 := 0
  m3 : BitVec 512 := 0
  mbCmd : W32 := 0
  mbSt : W32 := 0
  mbArg : Sparse W64 := []
  link : Link := .down
  linkLog : Bool := false
  /-- what the host's latest read across the link returned (R355, R357, R363) -/
  hostRd : W64 := 0
  win : Sparse WinEntry := []
  intr : Sparse IntEntry := []
  dma : Sparse Dma := []
  err : Sparse ErrRing := []
  /-- the model's own: steps so far, elapsed ns, next unique number, whose turn, the gang and queue at work -/
  tick : Nat := 0
  now : Nat := 0
  uid : Nat := 1
  agenda : List Turn := []
  cur : GangRef := ⟨0, 0⟩
  curQ : Nat × Nat := (0, 0)
  deriving DecidableEq, Repr

/-- The machine right after reset: every field at its default above, which is the value the manual gives (R298, R360) or the
value a log entry names (entries 1 to 8, 89 and 145). -/
def State.reset : State := {}

/-- Why a step stops. -/
inductive Fault where
  /-- Raised by `exec` of a gang instruction when the gang at work has no running split that may issue: the model's own guard, no
  behaviour of the machine (the issue turn never calls it so). Safe. -/
  | noGang
  /-- Raised by `exec` of a batten instruction when the queue at work has no interpreter on a packet. The model's own guard. Safe. -/
  | noInterpreter
  deriving DecidableEq, Repr

/-- Why an instruction has no meaning. -/
inductive Refusal where
  /-- Raised by an arm of `exec` whose instruction has no meaning yet. Safe. -/
  | notModelled (mnemonic : String)
  deriving DecidableEq, Repr

/-- What a step answers. -/
abbrev Out := Host.Outcome State Fault Refusal

end Sys2Proof.Machine
end

