-- ==== Sys2Proof/Machine/Ops.lean ====
section
/-!
DEFINITION. The named operations over the state: reading and writing each table, bytes of memory, address translation (R342 to
R349), leases (R350, R352), firmware events and error records (R306, R307, R363), interrupt messages (R358).
-/
namespace Sys2Proof.Machine

/-! ### Tables -/

/-- Key of a gang. -/
def gkey (r : GangRef) : Nat := r.group * 32 + r.gang

def State.gang (s : State) (r : GangRef) : Gang := Sparse.get {} s.gangs (gkey r)
def State.setGang (s : State) (r : GangRef) (g : Gang) : State := { s with gangs := Sparse.put s.gangs (gkey r) g }
def State.group (s : State) (k : Nat) : Group := Sparse.get {} s.groups k
def State.setGroup (s : State) (k : Nat) (g : Group) : State := { s with groups := Sparse.put s.groups k g }
def State.grid (s : State) (k : Nat) : Grid := Sparse.get {} s.grids k
def State.setGrid (s : State) (k : Nat) (g : Grid) : State := { s with grids := Sparse.put s.grids k g }
def State.ctx (s : State) (k : Nat) : Ctx := Sparse.get {} s.ctxs k
def State.setCtx (s : State) (k : Nat) (c : Ctx) : State := { s with ctxs := Sparse.put s.ctxs k c }
def State.core (s : State) (k : Nat) : Core := Sparse.get {} s.cores k
def State.setCore (s : State) (k : Nat) (c : Core) : State := { s with cores := Sparse.put s.cores k c }
def State.cluster (s : State) (k : Nat) : Cluster := Sparse.get {} s.clusters k
def State.setCluster (s : State) (k : Nat) (c : Cluster) : State := { s with clusters := Sparse.put s.clusters k c }
def State.port (s : State) (k : Nat) : Port := Sparse.get {} s.ports k
def State.setPort (s : State) (k : Nat) (p : Port) : State := { s with ports := Sparse.put s.ports k p }
def State.graph (s : State) (k : Nat) : Graph := Sparse.get {} s.graphs k
def State.setGraph (s : State) (k : Nat) (g : Graph) : State := { s with graphs := Sparse.put s.graphs k g }
/-- Whether a group in a state holds resources on a core: it is resident from its dispatch on (R51), even while it is held outside its
cluster. -/
def GroupSt.placed (x : GroupSt) : Bool := x == .resident || x == .landing
/-- Key of a queue of a partition (R336). -/
def qkey (part q : Nat) : Nat := part * 64 + q
def State.queue (s : State) (k : Nat) : Queue := Sparse.get {} s.queues k
def State.setQueue (s : State) (k : Nat) (q : Queue) : State := { s with queues := Sparse.put s.queues k q }

/-- The next unique number, and the state that has given it out. -/
def State.fresh (s : State) : Nat × State := (s.uid, { s with uid := s.uid + 1 })

/-! ### Bytes -/

/-- Canonical form of a byte memory: addresses strictly rising, no listed zero byte. -/
def memWf (m : List Host.Cell) : Bool := Sparse.wf (0 : Byte) m

/-- Byte `a` of a memory; what is not listed reads 0 (log entry 3). -/
def rdByte (m : List Host.Cell) (a : Nat) : Byte := Sparse.get 0 m a
/-- Byte `a` written. -/
def wrByte (m : List Host.Cell) (a : Nat) (x : Byte) : List Host.Cell := Sparse.set 0 m a x

/-- `n` bytes from `a`, little-endian, as a number (R54). -/
def rdLE (m : List Host.Cell) (a : Nat) : Nat → Nat
  | 0 => 0
  | n + 1 => (rdByte m a).toNat + 256 * rdLE m (a + 1) n

/-- `n` bytes from `a` written with a number, little-endian. -/
def wrLE (m : List Host.Cell) (a : Nat) (x : Nat) : Nat → List Host.Cell
  | 0 => m
  | n + 1 => wrLE (wrByte m a (BitVec.ofNat 8 x)) (a + 1) (x / 256) n

def State.rdLoc (s : State) (l : Loc) (n : Nat) : Nat :=
  if l.host then rdLE s.hostMem l.key n else rdLE s.mem l.key n

/-- The words that must not be written (R277, R364) which a write of n bytes at a location touches. -/
def State.hits (s : State) (l : Loc) (n : Nat) : List (Nat × Nat) :=
  s.watched.filterMap fun w =>
    if w.2.1.host = l.host ∧ w.2.1.key < l.key + n ∧ l.key < w.2.1.key + 8 then some (w.1, w.2.2) else none

/-- What is left of located bytes when n of them at a location are written. -/
def cutLoc (l : Loc) (n : Nat) (x : Loc × Nat) : List (Loc × Nat) :=
  let piece (a b : Nat) : List (Loc × Nat) := if a < b then [(⟨l.host, a⟩, b - a)] else []
  let e := x.1.key + x.2
  if x.1.host = l.host ∧ l.key < e ∧ x.1.key < l.key + n then piece x.1.key l.key ++ piece (l.key + n) e else [x]

def State.wrLoc (s : State) (l : Loc) (n x : Nat) : State :=
  let s1 := { s with spoiled := s.spoiled ++ s.hits l n, hostWr := s.hostWr.flatMap (cutLoc l n) }
  if l.host then { s1 with hostMem := wrLE s.hostMem l.key x n } else { s1 with mem := wrLE s.mem l.key x n }

/-- A write of the host's. -/
def State.wrHost (s : State) (l : Loc) (n x : Nat) : State :=
  let s1 := s.wrLoc l n x
  { s1 with hostWr := (l, n) :: s1.hostWr }

/-- Whether the latest write of each of n bytes is the host's. -/
def State.fromHost (s : State) (l : Loc) (n : Nat) : Bool :=
  (List.range n).all fun i => s.hostWr.any fun x => x.1.host == l.host && decide (x.1.key ≤ l.key + i) && decide (l.key + i < x.1.key + x.2)

/-! ### Partitions (R7, R8) -/

/-- Whether a die belongs to a partition. -/
def PartMode.hasDie (m : PartMode) (part die : Nat) : Bool :=
  match m with
  | .whole => part == 0 && decide (die < 4)
  | .halves => decide (part < 2) && die / 2 == part
  | .quarters => decide (part < 4) && die == part

/-- Whether a partition exists in the mode. -/
def PartMode.hasPart (m : PartMode) (part : Nat) : Bool :=
  match m with
  | .whole => part == 0
  | .halves => decide (part < 2)
  | .quarters => decide (part < 4)

/-- The partition that owns a die. -/
def PartMode.partOf (m : PartMode) (die : Nat) : Nat :=
  match m with
  | .whole => 0 | .halves => die / 2 | .quarters => die

/-- The die that owns a fabric port: die d owns ports 3d to 3d + 2 (R6). -/
def portDie (port : Nat) : Nat := port / 3

/-- Dies of a partition (R7). -/
def PartMode.dies : PartMode → Nat
  | .whole => 4 | .halves => 2 | .quarters => 1

/-- Whether a fabric port belongs to a partition (R7). -/
def PartMode.hasPort (m : PartMode) (part port : Nat) : Bool := m.hasDie part (portDie port)

/-- Context 0 runs across all dies (R8); another context reaches the dies of its partition. -/
def State.ctxDie (s : State) (ctx die : Nat) : Bool :=
  if ctx = 0 then decide (die < 4) else s.mode.hasDie (s.ctx ctx).part die

/-- Whether a context is a partition's: assigned to it, or context 0 (R8). While it is not, the partition's queues, launches and groups in that
context wait (log entry 146). -/
def State.ownsCtx (s : State) (part ctx : Nat) : Bool := ctx == 0 || ((s.ctx ctx).asg && (s.ctx ctx).part == part)

/-- A core's die, cluster and index, numbered as `physcore` reads it (R298). -/
def coreDie (core : Nat) : Nat := core / 64
def coreCluster (core : Nat) : Nat := core / 8

/-! ### Translation (R342 to R347, R349) -/

/-- Key of a plate byte: die and offset (R343). -/
def plateKey (die off : Nat) : Nat := 2 ^ 60 + die * 2 ^ 32 + off

/-- A present leaf, as an access uses it: location of the page's first byte, page size, and the permissions (R346). -/
structure Leaf where
  loc : Loc
  size : Nat
  m : Bool
  prv : Bool
  x : Bool
  w : Bool
  d : Bool
  deriving DecidableEq, Repr

/-- The address of a table of `n` bytes that a pointer entry names; `none` when the entry is not present (R346), or the table does not lie,
aligned, in the HBM of a die that the context may use (R8, R345; log entry 147). -/
def ptrOf (dies : Nat → Bool) (n e : Nat) : Option Nat :=
  let a := bitsOf e 51 12 * 4096
  if e % 2 = 1 ∧ bitsOf e 1 1 = 0 ∧ bitsOf e 10 2 = 0 ∧ bitsOf e 11 11 = 0 ∧ bitsOf e 63 52 = 0 ∧
      dies (a / 2 ^ 38) ∧ a % n = 0 ∧ a % 2 ^ 38 + n ≤ Config.hbmBytes
  then some a else none

/-- A leaf entry of a page of `size` bytes for die and region; `none` when it is not present (R346). An HBM page beyond the die's
144 GB names no memory and is not present (log entry 21). -/
def leafOf (e size die : Nat) (plate : Bool) : Option Leaf :=
  let pa := bitsOf e 51 12 * 4096
  let mt := bitsOf e 5 4
  let lf (l : Loc) : Leaf :=
    { loc := l, size := size, m := bitsOf e 10 10 = 1, prv := bitsOf e 9 9 = 1, x := bitsOf e 8 8 = 1,
      w := bitsOf e 7 7 = 1, d := bitsOf e 6 6 = 1 }
  if e % 2 = 1 ∧ bitsOf e 1 1 = 1 ∧ bitsOf e 3 2 = 0 ∧ bitsOf e 11 11 = 0 ∧ bitsOf e 63 52 = 0 ∧ pa % size = 0 then
    if plate then
      if mt = 0 ∧ pa < Config.plateBytes ∧ size ≠ 2 ^ 30 then some (lf ⟨false, plateKey die pa⟩) else none
    else if mt = 2 then
      if bitsOf e 6 6 = 0 then some (lf ⟨true, pa⟩) else none
    else if mt ≤ 1 ∧ pa / 2 ^ 38 = die ∧ pa % 2 ^ 38 + size ≤ Config.hbmBytes then some (lf ⟨false, pa⟩)
    else none
  else none

/-- A page-table entry in a memory: a 64-bit read of HBM. -/
def pte (m : List Host.Cell) (a : Nat) : Nat := rdLE m a 8

/-- The walk of R345 from a context's root, over tables as they stand in a memory on the dies given: at most three levels. -/
def walkIn (m : List Host.Cell) (dies : Nat → Bool) (ctx die off : Nat) (plate : Bool) : Option Leaf :=
  match ptrOf dies (2 ^ 18) (pte m (die * 2 ^ 38 + 8 * (2 * ctx + flag plate))) with
  | none => none
  | some t2 =>
    let e2 := pte m (t2 + 8 * bitsOf off 44 30)
    if bitsOf e2 1 1 = 1 then leafOf e2 (2 ^ 30) die plate
    else match ptrOf dies 4096 e2 with
      | none => none
      | some t1 =>
        let e1 := pte m (t1 + 8 * bitsOf off 29 21)
        if bitsOf e1 1 1 = 1 then leafOf e1 (2 ^ 21) die plate
        else match ptrOf dies 256 e1 with
          | none => none
          | some t0 => leafOf (pte m (t0 + 8 * bitsOf off 20 16)) (2 ^ 16) die plate

/-- The leaf that page tables in a memory give an address; `none`: no translation (R342, R347). -/
def State.leafIn (s : State) (m : List Host.Cell) (ctx : Nat) (va : Nat) : Option Leaf :=
  if va < 2 ^ 48 ∧ s.ctxDie ctx (bitsOf va 47 46) then
    let plate := bitsOf va 45 45 = 1
    let off := bitsOf va 44 0
    if plate ∧ Config.plateBytes ≤ off then none else walkIn m (s.ctxDie ctx) ctx (bitsOf va 47 46) off plate
  else none

/-- The leaf by the tables as they stand. -/
def State.newLeaf (s : State) (ctx : Nat) (va : Nat) : Option Leaf := s.leafIn s.mem ctx va

/-- The leaf by the tables as they stood when the context's latest generation began (R349). -/
def State.genLeaf (s : State) (ctx : Nat) (va : Nat) : Option Leaf := s.leafIn (s.ctx ctx).tabs ctx va

/-- The leaf an access uses: until a `tlbgen` on the context has completed, a changed entry's old or new form, each whole (R349); which of
the two is free. -/
def State.leaf (s : State) (ctx : Nat) (va : Nat) : Option Leaf :=
  if s.genLeaf ctx va = s.newLeaf ctx va then s.newLeaf ctx va
  else if Config.freeBit (s.tick + va / 65536) then s.genLeaf ctx va else s.newLeaf ctx va

/-- Where in its page an address lies. -/
def Leaf.at_ (l : Leaf) (va : Nat) : Loc := { l.loc with key := l.loc.key + va % l.size }

/-- What an access needs (R347). -/
inductive Need where
  | read | write | fetch
  deriving DecidableEq, Repr

/-- The outcome of R347: the location, or the code that ends the task. `prv`: the access may touch PRV pages. -/
def State.xlate (s : State) (ctx : Nat) (prv : Bool) (n : Need) (va : Nat) : Except Nat Loc :=
  match s.leaf ctx va with
  | none => .error 0x01
  | some l =>
    if l.prv && !prv then .error 0x08
    else if l.m then .error 0x01
    else match n with
      | .read => .ok (l.at_ va)
      | .write => if l.w then .ok (l.at_ va) else .error 0x01
      | .fetch => if l.x then .ok (l.at_ va) else .error 0x01

/-- Whether an address lies in a D range (R175, R181). -/
def State.inD (s : State) (ctx : Nat) (va : Nat) : Bool :=
  match s.leaf ctx va with
  | some l => l.d
  | none => false

/-! ### Reads and writes of virtual memory by the front end, and of images by the hardware

PRV pages are open to context 0 and to the hardware's own image and trap-frame accesses (R347). A byte that does not translate has no
value the manual states: it reads as a free value, and a write there is dropped (log entry 22). -/

/-- `n` bytes at a virtual address as a number; whole when the page translates. -/
def State.getAt (s : State) (ctx : Nat) (prv : Bool) (va n : Nat) : Nat :=
  match s.xlate ctx prv .read va with
  | .ok l => s.rdLoc l n
  | .error _ => (Config.freeWord (s.tick + va)).toNat % 2 ^ (8 * n)

/-- `n` bytes at a virtual address written with a number. -/
def State.putAt (s : State) (ctx : Nat) (prv : Bool) (va n x : Nat) : State :=
  match s.xlate ctx prv .write va with
  | .ok l => s.wrLoc l n x
  | .error _ => s

/-- The front end's own reads and writes. -/
def State.vaRead (s : State) (ctx : Nat) (va n : Nat) : Nat := s.getAt ctx (ctx == 0) va n
def State.vaWrite (s : State) (ctx : Nat) (va n x : Nat) : State := s.putAt ctx (ctx == 0) va n x
def State.vaByte (s : State) (ctx : Nat) (va : Nat) : Byte := BitVec.ofNat 8 (s.vaRead ctx va 1)

/-- The hardware's own reads and writes of images. -/
def State.imgRead (s : State) (ctx : Nat) (va n : Nat) : Nat := s.getAt ctx true va n
def State.imgWrite (s : State) (ctx : Nat) (va n x : Nat) : State := s.putAt ctx true va n x

/-- Whether the image can be read, or written, at an address (R271). A page with M set, and for a write a page without W, counts with those that do
not translate: the model's choice (log entry 155). -/
def State.imgReads (s : State) (ctx va : Nat) : Bool :=
  match s.xlate ctx true .read va with
  | .ok _ => true
  | .error _ => false
def State.imgWrites (s : State) (ctx va : Nat) : Bool :=
  match s.xlate ctx true .write va with
  | .ok _ => true
  | .error _ => false

/-- The first address of `n` bytes at which a test fails: a run shorter than a translation page meets two of them at most. -/
def badAddr (ok : Nat → Bool) (a n : Nat) : Option Nat := [a, (a + n - 1) / 65536 * 65536].find? fun x => decide (a ≤ x) && !ok x

/-- `n` 64-bit words from a virtual address. -/
def State.vaWords (s : State) (ctx : Nat) (va : Nat) : Nat → List W64
  | 0 => []
  | n + 1 => BitVec.ofNat 64 (s.vaRead ctx va 8) :: s.vaWords ctx (va + 8) n

/-! ### The launch descriptor's fields (R323), read from the 80 words -/

/-- Bits [hi:lo] of the word at byte offset `off`. -/
def dfield (d : List W64) (off hi lo : Nat) : Nat := bitsOf (d.getD (off / 8) 0).toNat hi lo

def Grid.entry (g : Grid) : W64 := g.d.getD 0 0
def dCap (d : List W64) : Nat := 8 * (dfield d 0x008 4 0 + 1)
def dW (d : List W64) : Nat := 4 * 2 ^ dfield d 0x008 8 7
def dG (d : List W64) : Nat := dfield d 0x008 15 11 + 1
def Grid.cap (g : Grid) : Nat := dCap g.d
def Grid.w (g : Grid) : Nat := dW g.d
def Grid.gangs (g : Grid) : Nat := dG g.d
/-- Slices of a gang, and of a group. -/
def Grid.sl (g : Grid) : Nat := g.w / 4
def Grid.slices (g : Grid) : Nat := g.gangs * g.sl
def Grid.fid (g : Grid) : Nat := dfield g.d 0x008 21 20
def Grid.lstBytes (g : Grid) : Nat := 16 * dfield g.d 0x008 47 40
def Grid.scrBytes (g : Grid) : Nat := dfield g.d 0x010 31 0
def Grid.stack (g : Grid) : Nat := dfield g.d 0x010 63 32
def Grid.ny (g : Grid) : Nat := dfield g.d 0x018 63 32
def Grid.nz (g : Grid) : Nat := dfield g.d 0x020 31 0
/-- Groups of the grid. -/
def Grid.count (g : Grid) : Nat := g.nx * g.ny * g.nz
def Grid.survArea (g : Grid) : Nat := (g.d.getD 6 0).toNat
def Grid.sinit (g : Grid) (n : Nat) : W64 := g.d.getD (16 + n) 0
def dNlease (d : List W64) : Nat := dfield d 0x0D8 4 0
/-- Lease k: start and bytes. -/
def dLease (d : List W64) (k : Nat) : Nat × Nat := ((d.getD (44 + 2 * k) 0).toNat, (d.getD (45 + 2 * k) 0).toNat)
def dLeases (d : List W64) : List (Nat × Nat) := (List.range (Nat.min 16 (dNlease d))).map (dLease d)
/-- Image descriptor k: base, rstride, cstride, control word (R230). -/
structure ImgDesc where
  base : W64
  rs : W64
  cs : W64
  ctl : W64
  deriving DecidableEq, Repr
def dImg (d : List W64) (k : Nat) : ImgDesc :=
  ⟨d.getD (28 + 4 * k) 0, d.getD (29 + 4 * k) 0, d.getD (30 + 4 * k) 0, d.getD (31 + 4 * k) 0⟩
def ImgDesc.present (x : ImgDesc) : Bool := x.ctl.getLsbD 0
def ImgDesc.size (x : ImgDesc) : Nat := 2 * 2 ^ bitsOf x.ctl.toNat 3 2
def ImgDesc.ma (x : ImgDesc) : Nat := bitsOf x.ctl.toNat 9 8
def ImgDesc.mb (x : ImgDesc) : Nat := bitsOf x.ctl.toNat 11 10
def ImgDesc.th (x : ImgDesc) : Nat := bitsOf x.ctl.toNat 25 16 + 1
def ImgDesc.tw (x : ImgDesc) : Nat := bitsOf x.ctl.toNat 35 26 + 1

/-- Coordinates of a linear group index (R34). -/
def Grid.coord (g : Grid) (lin : Nat) : List Nat := [lin % g.nx, lin / g.nx % g.ny, lin / g.nx / g.ny]
/-- Linear index of coordinates. -/
def Grid.linear (g : Grid) (x : List Nat) : Nat := x.getD 0 0 + g.nx * (x.getD 1 0 + g.ny * x.getD 2 0)
def Grid.extent (g : Grid) (m : Nat) : Nat := if m = 0 then g.nx else if m = 1 then g.ny else g.nz

/-! ### Image slots and stacks (R275 to R277, R293) -/

/-- Quartets of a group. -/
def Grid.quartets (g : Grid) : Nat := (g.gangs + 3) / 4
/-- Bytes of one image slot (R276), rounded up to 4 KiB (R275). -/
def Grid.slotBytes (g : Grid) : Nat :=
  let n := 256 + 2048 * g.quartets + 512 * g.gangs + 576 * g.slices + 16 * g.cap * g.slices + g.scrBytes
  (n + 4095) / 4096 * 4096
/-- Offsets in a slot (R276). -/
def Grid.gangOff (g : Grid) (n : Nat) : Nat := 256 + 2048 * g.quartets + 512 * n
def Grid.sliceOff (g : Grid) (j : Nat) : Nat := 256 + 2048 * g.quartets + 512 * g.gangs + 576 * j
def Grid.regOff (g : Grid) (j n q : Nat) : Nat :=
  256 + 2048 * g.quartets + 512 * g.gangs + 576 * g.slices + 16 * g.cap * j + 64 * (n / 4) + 16 * (n % 4) + 4 * q
def Grid.scrOff (g : Grid) (o : Nat) : Nat :=
  256 + 2048 * g.quartets + 512 * g.gangs + 576 * g.slices + 16 * g.cap * g.slices + o
/-- A gang's trap save slot (R281). -/
def saveSlot (grp : Group) (g : Grid) (n : Nat) : Nat := (grp.img.toNat + g.gangOff n + 0x100) % 2 ^ 64
/-- The stack base of slice j of a group (R293). -/
def stackBase (grp : Group) (g : Grid) (j : Nat) : Nat := grp.stk.toNat + (j + 1) * g.stack

/-! ### Leases (R350, R352) -/

/-- A grid with its ancestors, nearest first; `n` bounds the depth (R37: at most 10 above depth 0). -/
def State.lineage (s : State) (grid : Nat) : Nat → List Nat
  | 0 => [grid]
  | n + 1 => grid :: (match (s.grid grid).parent with
    | some p => s.lineage p n
    | none => [])

/-- The groups of a grid that exist. -/
def State.groupsOf (s : State) (grid : Nat) : List (Nat × Group) :=
  s.groups.filter fun x => x.2.grid == grid && x.2.st != .absent

/-- The ordered-update area: at the top of the context's image area (R298). -/
def Ctx.oua (c : Ctx) : Nat × Nat := (c.imgbase.toNat + (c.imgsz.toNat - c.ouasz.toNat), c.ouasz.toNat)

/-- A launch's lease set (R350): its own and its ancestors' ranges, image slots, stacks and the ordered-update area. -/
def State.leaseSet (s : State) (grid : Nat) : List (Nat × Nat) :=
  let g := s.grid grid
  (s.lineage grid 11).flatMap (fun k => dLeases (s.grid k).d) ++
  (s.groupsOf grid).flatMap (fun x =>
    if x.2.st = .ended then [] else [(x.2.img.toNat, g.slotBytes), (x.2.stk.toNat, g.slices * g.stack)]) ++
  [(s.ctx g.ctx).oua]

/-- Bytes [a, a + n) lie inside some range of the set, each byte in some range (R352). -/
def covered (rs : List (Nat × Nat)) (a : Nat) : Nat → Bool
  | 0 => true
  | n + 1 => (rs.any fun r => decide (r.1 ≤ a) && decide (a < r.1 + r.2)) && covered rs (a + 1) n

/-- A whole range at once: inside one range of the set, or byte by byte. -/
def inLease (rs : List (Nat × Nat)) (a n : Nat) : Bool :=
  (rs.any fun r => decide (r.1 ≤ a) && decide (a + n ≤ r.1 + r.2)) || covered rs a n

/-! ### Firmware events and error records (R306, R307, R363), interrupt messages (R358) -/

/-- Word 0 of an event (R307). -/
def eventWord (code detail ctx gang part : Nat) : W64 :=
  BitVec.ofNat 64 (code + 0x100 * detail + 0x10000 * ctx + 0x400000 * gang + 0x8000000 * part)

/-- An event joins the queue, or is dropped and counted when 1,024 stand there (R306). -/
def State.event (s : State) (e : FwEvent) : State :=
  if s.events.length < 1024 then { s with events := s.events ++ [e] } else { s with dropped := s.dropped + 1 }

/-- Sends interrupt vector v (R358): a 32-bit write to host memory; masked or beyond 255: nothing. -/
def State.sendInt (s : State) (v : Nat) : State :=
  if 256 ≤ v then s else
  let e := Sparse.get {} s.intr v
  if e.mask.getLsbD 0 then s else { s with hostMem := wrLE s.hostMem e.addr.toNat e.data.toNat 4 }

/-- One record written in a partition's error ring, and the partition's error vector (R363). -/
def State.errPut (s : State) (part : Nat) (a b c : W64) (d : W64 := 0) : State :=
  let r := Sparse.get {} s.err part
  let base := r.base.toNat + 32 * (r.wr % 2 ^ r.lsz)
  let m := wrLE (wrLE (wrLE (wrLE s.hostMem base a.toNat 8) (base + 8) b.toNat 8) (base + 16) c.toNat 8) (base + 24) d.toNat 8
  ({ s with hostMem := m, err := Sparse.put s.err part { r with wr := r.wr + 1 } }).sendInt r.vec

/-- Whether a partition's error ring is full: 2^lsz records stand unread, which the host's reading, by means of its own, empties (log
entry 30). -/
def State.errFull (s : State) (part : Nat) : Bool :=
  let r := Sparse.get {} s.err part
  decide (2 ^ r.lsz ≤ r.wr) && Config.freeBit (s.tick + r.wr)

/-- A record for a partition's error ring (R363): dropped and counted while the ring is full; the next that fits is preceded by one of kind
0x12 with the count. -/
def State.errRecord (s : State) (part : Nat) (w0 w1 w2 : W64) (w3 : W64 := 0) : State :=
  let drop (s : State) : State :=
    let r := Sparse.get {} s.err part
    { s with err := Sparse.put s.err part { r with dropped := r.dropped + 1 } }
  let r := Sparse.get {} s.err part
  if !r.set then s
  else if s.errFull part then drop s
  else if r.dropped = 0 then s.errPut part w0 w1 w2 w3
  else
    let s1 := ({ s with err := Sparse.put s.err part { r with dropped := 0 } } : State).errPut part 0x12 (BitVec.ofNat 64 r.dropped) 0
    if s1.errFull part then drop s1 else s1.errPut part w0 w1 w2 w3

/-- A firmware event with its error record (R307, R363); an event has three words, and the fourth of a record is given by the caller. -/
def State.report (s : State) (code detail ctx gang part : Nat) (w1 w2 : W64) (w3 : W64 := 0) : State :=
  let w0 := eventWord code detail ctx gang part
  (s.event ⟨w0, w1, w2⟩).errRecord part w0 w1 w2 w3

/-- An image write of a group has failed outside the squeeze controller's plans, or within one: `imgflt` counts it and firmware is told
(R271). -/
def State.imgFault (s : State) (grid lin addr : Nat) : State :=
  let d := s.grid grid
  let c := s.ctx d.ctx
  (s.setCtx d.ctx { c with imgflt := c.imgflt + 1 }).report 0x04 0 d.ctx 0 d.part (BitVec.ofNat 64 lin) (BitVec.ofNat 64 addr)

end Sys2Proof.Machine
end

