-- ==== Sys2Proof/Machine/Operands.lean ====
section
/-!
DEFINITION. Operand forms: which registers an instruction names (R69, R75 check 4, R213), the long-latency class (R68), the context in
which a split issues, and how operands are read and results written (R60, R61, R79).
-/
namespace Sys2Proof.Machine

/-! ### Registers named -/

/-- `n` vector registers from `r`. -/
def vRange (r : VReg) (n : Nat) : List Reg := (List.range n).map fun k => .v (r.toNat + k)
/-- A vector operand: a pair when it carries 64 bits (R60). -/
def vReg (wide : Bool) (r : VReg) : List Reg := vRange r (if wide then 2 else 1)
def Src.regs (wide : Bool) : Src → List Reg
  | .v r => vReg wide r
  | .s r => [.s r.toNat]
def SrcB.regs (wide : Bool) : SrcB → List Reg
  | .v r => vReg wide r
  | .s r => [.s r.toNat]
  | .imm _ => []
def SrcC.regs (wide : Bool) : SrcC → List Reg
  | .v r => vReg wide r
  | .s r => [.s r.toNat]
  | .imm _ => []
def Dst.regs (wide : Bool) : Dst → List Reg
  | .v r => vReg wide r
  | .s r => [.s r.toNat]
def sR (r : SReg) : List Reg := [.s r.toNat]
def pR (r : PReg) : List Reg := [.p r.toNat]
/-- The swap value of `cas` (R171). -/
def casRegs (op : Amo) (wide : Bool) : SrcC → List Reg
  | .v r => if op = .cas then (List.range (if wide then 2 else 1)).map fun k => .v (r.toNat + (if wide then 2 else 1) + k) else []
  | .s r => if op = .cas then [.s (r.toNat + 1)] else []
  | .imm _ => []
/-- Scalar registers from `r`. -/
def sRange (r : SReg) (n : Nat) : List Reg := (List.range n).map fun k => .s (r.toNat + k)
/-- All eight predicates. -/
def allP : List Reg := (List.range 8).map .p
def PIdx.regs : PIdx → List Reg
  | .imm _ => []
  | .s r => sR r

/-- Registers an instruction reads. `W` is the gang's width (for `mtr`). -/
def reads (W : Nat) : Instr → List Reg
  | .pb p _ _ | .brp _ p _ => pR p
  | .brs _ _ _ a b _ => sR a ++ sR b
  | .brsImm _ _ _ a _ _ => sR a
  | .brx _ a => Src.regs false a
  | .callx a | .regang a => sR a
  | .ret => [.s 61]
  | .enter _ | .leave _ => [.s 62]
  | .add t _ a b | .sub t _ a b | .mul t _ a b | .mulhi t _ a b | .div _ t _ a b | .rem _ t _ a b
  | .min t _ a b | .max t _ a b | .and t _ a b | .or t _ a b | .xor t _ a b | .andn t _ a b
  | .cmp _ t _ a b => Src.regs t.is64 a ++ SrcB.regs t.is64 b
  | .mad t _ a b c => Src.regs t.is64 a ++ SrcB.regs t.is64 b ++ SrcC.regs t.is64 c
  | .madw _ _ a b c => Src.regs false a ++ SrcB.regs false b ++ SrcC.regs true c
  | .abs t _ a | .neg t _ a | .clz t _ a | .popc t _ a | .not t _ a | .brev t _ a | .mov t _ a => Src.regs t.is64 a
  | .addc t _ a b p | .subb t _ a b p | .sel t _ a b p => Src.regs t.is64 a ++ SrcB.regs t.is64 b ++ pR p
  | .shl t _ a b | .shr t _ a b | .sar t _ a b | .rot _ t _ a b | .lea t _ a b _ =>
    Src.regs t.is64 a ++ SrcB.regs false b
  | .bfx t _ a b c => Src.regs t.is64 a ++ SrcB.regs false b ++ SrcC.regs false c
  | .bfi t d a b c => Src.regs t.is64 a ++ SrcB.regs false b ++ SrcC.regs false c ++ Dst.regs t.is64 d
  | .pand _ a b | .por _ a b | .pxor _ a b => pR a ++ pR b
  | .pnot _ a | .vote _ _ a => pR a
  | .ppack _ => allP
  | .punpk a => vReg false a
  | .ssr _ a => Src.regs false a
  | .cmpf _ _ t _ a b | .fadd _ t _ a b | .fsub _ t _ a b | .fmul _ t _ a b | .fmin _ _ t _ a b | .fmax _ _ t _ a b
  | .fdiv _ _ t _ a b | .fsgn _ t _ a b => Src.regs t.is64 a ++ SrcB.regs t.is64 b
  | .fma _ t _ a b c => Src.regs t.is64 a ++ SrcB.regs t.is64 b ++ vReg t.is64 c
  | .fabs _ t _ a | .fneg _ t _ a | .fsqrt _ _ t _ a | .frcp _ _ t _ a | .frsq _ _ t _ a | .fex2 _ _ t _ a
  | .flg2 _ _ t _ a | .frnd _ t _ a | .fclass _ t _ a => Src.regs t.is64 a
  | .fdot2 _ _ _ a b c => Src.regs false a ++ SrcB.regs false b ++ vReg false c
  | .fscale _ t _ a b => Src.regs t.is64 a ++ SrcB.regs false b
  | .cvt _ st _ _ a => Src.regs st.is64 a
  | .cvt8 _ _ _ _ a b => Src.regs false a ++ SrcB.regs false b
  | .cvt4 (.enc b) _ _ _ a => Src.regs false a ++ SrcB.regs false b
  | .cvt4 (.dec _) _ _ _ a => Src.regs false a
  | .pk (.cvt _ _ b) _ a | .pk (.h b) _ a => Src.regs false a ++ SrcB.regs false b
  | .pk (.b b c) _ a => Src.regs false a ++ SrcB.regs false b ++ SrcC.regs false c
  | .upk _ _ a => Src.regs false a
  | .bscl (.apply _ b) _ _ a | .bscl (.inv _ b) _ _ a => Src.regs false a ++ SrcB.regs false b
  | .bscl (.fit _) _ _ a => Src.regs false a
  | .sext t _ a b => Src.regs t.is64 a ++ SrcB.regs false b
  | .shfl t _ a b | .shup t _ a b | .shdn t _ a b | .shxor t _ a b | .bcast t _ a b => vReg t.is64 a ++ SrcB.regs false b
  | .redg _ _ _ t _ a | .scang _ _ _ _ t _ a => vReg t.is64 a
  | .mxix _ _ _ a b => vReg false a ++ SrcB.regs false b
  | .sieve _ _ p => pR p
  | .ld _ _ _ _ _ b o => Src.regs true b ++ SrcB.regs false o
  | .st _ _ t b o c => Src.regs true b ++ SrcB.regs false o ++ SrcC.regs t.is64 c
  | .lds _ _ _ _ _ b o | .ldl _ _ _ _ _ b o => Src.regs false b ++ SrcB.regs false o
  | .sts _ _ t b o c | .stl _ _ t b o c => Src.regs false b ++ SrcB.regs false o ++ SrcC.regs t.is64 c
  | .sld _ _ _ _ _ b o => sR b ++ SrcB.regs false o
  | .sst _ _ _ b o c => sR b ++ SrcB.regs false o ++ SrcC.regs false c
  | .pf _ b o | .ldm _ _ _ _ b o _ => Src.regs true b ++ SrcB.regs false o
  | .stm _ _ b o c n => Src.regs true b ++ SrcB.regs false o ++ vRange c n.toNat
  | .sti _ _ _ i j x => Src.regs false i ++ SrcB.regs false j ++ vReg false x
  | .waitc _ (.s r) => sR r
  | .atom _ op _ _ t _ b o c | .red _ op _ _ t b o c =>
    Src.regs true b ++ SrcB.regs false o ++ SrcC.regs t.is64 c ++ casRegs op t.is64 c
  | .pvop _ _ _ _ _ a b n => sR a ++ SrcB.regs false b ++ SrcC.regs false n
  | .bar _ (some n) | .arrive _ _ (some n) => sR n
  | .bwait _ p => sR p
  | .copy _ _ d x n => sR d ++ sR x ++ SrcC.regs false n
  | .wtl _ t | .tst _ t | .cancel _ t => sR t
  | .mmx t c a => vRange c 32 ++ vRange a (fragLen t)
  | .mmxNar c a f => vRange c 32 ++ vRange a 16 ++ sR f
  | .bpub _ _ a _ => vRange a 4
  | .mtr _ _ a => vRange a W
  | .launch _ a | .gwait _ a => sR a
  | .gcond _ n v => sR n ++ sR v
  | .nput _ _ _ _ t r l _ => sR t ++ sR r ++ sR l
  | .nget _ _ _ _ _ t r => sR t ++ sR r
  | .natm _ op _ _ _ _ t r c => sR t ++ sR r ++ SrcC.regs false c ++ casRegs op false c
  | .ncoll _ _ _ _ _ a => sR a
  | .psr _ _ _ k => PIdx.regs k
  | .pwr _ k v => PIdx.regs k ++ sR v
  | .tlbgen _ a | .sqz a | .xpand a | .imgsv _ a | .imgld _ a | .digcTask _ a | .wfe _ a => sR a
  | .digcGang _ a b => sR a ++ sR b
  | _ => []

/-- Registers an instruction writes. -/
def writes (W : Nat) : Instr → List Reg
  | .call _ | .callx _ => [.s 61]
  | .enter _ | .leave _ => [.s 62]
  | .add t d _ _ | .sub t d _ _ | .mul t d _ _ | .mulhi t d _ _ | .div _ t d _ _ | .rem _ t d _ _ | .min t d _ _
  | .max t d _ _ | .and t d _ _ | .or t d _ _ | .xor t d _ _ | .andn t d _ _ | .shl t d _ _ | .shr t d _ _
  | .sar t d _ _ | .rot _ t d _ _ | .lea t d _ _ _ | .mad t d _ _ _ | .bfx t d _ _ _ | .bfi t d _ _ _ => Dst.regs t.is64 d
  | .madw _ d _ _ _ | .moviWide _ d _ => Dst.regs true d
  | .abs t d _ | .neg t d _ | .not t d _ | .brev t d _ | .mov t d _ | .movi t d _ | .gsr t d _ => Dst.regs t.is64 d
  | .clz _ d _ | .popc _ d _ => Dst.regs false d
  | .addc t d _ _ p | .subb t d _ _ p => vReg t.is64 d ++ pR p
  | .sel t d _ _ _ => vReg t.is64 d
  | .cmp _ _ p _ _ | .cmpf _ _ _ p _ _ | .elect p | .wtl p _ | .tst p _ | .cancel p _ | .gwait p _ | .gcond p _ _ => pR p
  | .pand d _ _ | .por d _ _ | .pxor d _ _ | .pnot d _ => pR d
  | .ppack d => vReg false d
  | .punpk _ => allP
  | .vote k d _ => if k = .ballot then vReg false d else [.p (d.toNat % 8)]
  | .fadd _ t d _ _ | .fsub _ t d _ _ | .fmul _ t d _ _ | .fma _ t d _ _ _ | .fmin _ _ t d _ _ | .fmax _ _ t d _ _
  | .fabs _ t d _ | .fneg _ t d _ | .fdiv _ _ t d _ _ | .fsqrt _ _ t d _ | .frcp _ _ t d _ | .frsq _ _ t d _
  | .fex2 _ _ t d _ | .flg2 _ _ t d _ | .frnd _ t d _ | .fscale _ t d _ _ | .fsgn _ t d _ _ | .cvt _ _ t d _
  | .sext t d _ _ | .shfl t d _ _ | .shup t d _ _ | .shdn t d _ _ | .shxor t d _ _ | .bcast t d _ _
  | .redg _ _ _ t d _ | .scang _ _ _ _ t d _ | .ld _ _ _ t d _ _ | .lds _ _ _ t d _ _ | .ldl _ _ _ t d _ _ => vReg t.is64 d
  | .fclass _ _ d _ | .fdot2 _ _ d _ _ _ | .cvt8 _ _ _ d _ _ | .cvt4 _ _ _ d _ | .pk _ d _ | .upk _ d _ | .bscl _ _ d _
  | .sieve _ d _ => vReg false d
  | .mxix _ _ d _ _ => vReg true d
  | .sld _ _ _ _ d _ _ => sR d
  | .ldm _ _ _ d _ _ n => vRange d n.toNat
  | .atom _ _ _ _ t d _ _ _ => Dst.regs t.is64 d
  | .pvop _ _ _ _ d _ _ _ | .arrive d _ _ | .copy _ d _ _ _ | .mfence d | .launch d _ | .nput _ _ _ d _ _ _ _
  | .ncoll _ _ _ _ d _ | .tlbgen d _ | .imgsv d _ | .imgld d _ => sR d
  | .mmx _ c _ | .mmxNar c _ _ => vRange c 32
  | .mzero d => vRange d 32
  | .mtr _ d _ => vRange d W
  | .nget _ _ _ _ d _ _ | .natm _ _ _ _ _ d _ _ _ | .digcGang d _ _ | .digcTask d _ => sRange d 2
  | .psr t d _ _ => Dst.regs t.is64 d
  | .wfe d _ => sRange d 3
  | _ => []

/-- Every register an instruction names. -/
def named (W : Nat) (i : Instr) : List Reg := reads W i ++ writes W i

/-- The lookahead of a long-latency instruction (R68); `none` for every other. -/
def longLA : Instr → Option Nat
  | .ld la _ _ _ _ _ _ | .ldl la _ _ _ _ _ _ | .lds la _ _ _ _ _ _ | .sld la _ _ _ _ _ _ | .ldm la _ _ _ _ _ _
  | .atom la _ _ _ _ _ _ _ _ | .div la _ _ _ _ | .rem la _ _ _ _ | .fdiv la _ _ _ _ _ | .fsqrt la _ _ _ _
  | .frcp la _ _ _ _ | .frsq la _ _ _ _ | .fex2 la _ _ _ _ | .flg2 la _ _ _ _ | .redg la _ _ _ _ _
  | .scang la _ _ _ _ _ _ | .mxix la _ _ _ _ | .sieve la _ _ | .bpub la _ _ _ | .nget la _ _ _ _ _ _
  | .natm la _ _ _ _ _ _ _ _ => some la.toNat
  | _ => none

/-- The pending set of a long-latency instruction (R69): what it writes; for `bpub` what it still reads (R244). -/
def pendingOf (W : Nat) (i : Instr) : List Reg :=
  match i with
  | .bpub _ _ a _ => vRange a 4
  | i => writes W i

/-- The counter path of an instruction (R150). -/
def pathOfInstr : Instr → Option Path
  | .ld .. | .st .. | .red .. | .sld .. | .sst .. | .ldm .. | .stm .. | .sti .. => some .glob
  | .lds .. | .sts .. => some .scr
  | .ldl .. | .stl .. => some .lst
  | .atom .. => some .atr
  | .nput .. | .nget .. | .natm .. => some .net
  | _ => none

/-- The opcodes 0xE0 to 0xE9 (R72). -/
def privileged : Instr → Bool
  | .rft | .psr .. | .pwr .. | .tlbgen .. | .sqz .. | .xpand .. | .imgsv .. | .imgld .. | .digcGang .. | .digcTask ..
  | .wfe .. => true
  | _ => false

/-- Illegal in a predicate-block slot (R66). -/
def slotIllegal : Instr → Bool
  | .pb .. | .bra .. | .brp .. | .brs .. | .brsImm .. | .brx .. | .call .. | .callx .. | .ret | .trap .. | .brk .. => true
  | i => privileged i

/-! ### The issuing split -/

/-- What an issuing instruction sees: state, gang, split, group, grid. -/
structure Cx where
  s : State
  r : GangRef
  i : Instr
  g : Gang
  sp : Split
  grp : Group
  grd : Grid
  deriving DecidableEq, Repr

/-- The issuing context of the gang at work; `none` when it has no running split or its group is not resident. -/
def cxOf (i : Instr) (s : State) : Option Cx :=
  match (s.gang s.cur).run with
  | none => none
  | some sp =>
    if (s.group s.cur.group).st = .resident then
      some { s := s, r := s.cur, i := i, g := s.gang s.cur, sp := sp, grp := s.group s.cur.group,
             grd := s.grid (s.group s.cur.group).grid }
    else none

def Cx.W (c : Cx) : Nat := c.grd.w
def Cx.priv (c : Cx) : Bool := c.grd.ctx == 0

/-- The lane set of the slot at which a block stands (R65); every lane outside a block. -/
def enabledMask (b : Option Blk) : W32 :=
  match b with
  | none => BitVec.allOnes 32
  | some b => if b.pat.getLsbD b.slot then b.en else ~~~b.en

/-- Lanes below 32 of a mask, ascending. -/
def lanesOf (m : W32) : List Nat := (List.range 32).filter fun k => m.getLsbD k
/-- The mask of a list of lanes. -/
def maskOf (l : List Nat) : W32 := l.foldl (fun m k => m ||| bit1 32 k) 0

/-- The visited lanes (R30, R77): active, and enabled for the slot. -/
def Cx.visMask (c : Cx) : W32 := c.sp.mask &&& enabledMask c.sp.blk
def Cx.vis (c : Cx) : List Nat := lanesOf c.visMask
/-- Slices holding a lane of a mask, ascending. -/
def slicesOf (m : W32) : List Nat := (List.range 8).filter fun k => (m >>> (4 * k)).toNat % 16 ≠ 0
/-- The selected slices (R47). -/
def Cx.sls (c : Cx) : List Nat := slicesOf c.visMask
/-- Lanes of a slice within a mask. -/
def sliceLanes (m : W32) (sl : Nat) : List Nat := (lanesOf m).filter fun k => k / 4 == sl
/-- The lowest visited lane, and its slice. -/
def Cx.low (c : Cx) : Nat := c.vis.headD 0
def Cx.sl0 (c : Cx) : Nat := c.low / 4

/-! ### Reading registers -/

def Gang.vreg (g : Gang) (lane n : Nat) : W32 := Sparse.get 0 g.v (lane * 256 + n)
def Gang.sreg (g : Gang) (sl n : Nat) : W64 := Sparse.get 0 g.s (sl * 64 + n)
def Gang.preg (g : Gang) (lane n : Nat) : Bool := Sparse.get false g.p (lane * 8 + n)
/-- A pair, the low half in register n (R30). -/
def Gang.vpair (g : Gang) (lane n : Nat) : W64 := pair64 (g.vreg lane n) (g.vreg lane (n + 1))

/-- One register written. -/
def RegWrite.apply (g : Gang) : RegWrite → Gang
  | .v l n x => { g with v := Sparse.set 0 g.v (l * 256 + n) x }
  | .s l n x => { g with s := Sparse.set 0 g.s (l * 64 + n) x }
  | .p l n x => { g with p := Sparse.set false g.p (l * 8 + n) x }

/-- Registers written, in order. -/
def Gang.writeRegs (g : Gang) (ws : List RegWrite) : Gang := ws.foldl RegWrite.apply g

/-- Where an operand is read: at a lane, or in a slice for a scalar form. -/
inductive At where
  | lane (l : Nat) | slice (sl : Nat)
  deriving DecidableEq, Repr

def At.slice_ : At → Nat
  | .lane l => l / 4
  | .slice sl => sl

/-- A source as 64 bits: a vector register zero-extended, a pair, or the scalar register of the place's slice. -/
def Gang.src (g : Gang) (wide : Bool) (p : At) : Src → W64
  | .v r => match p with
    | .lane l => if wide then g.vpair l r.toNat else zext64 (g.vreg l r.toNat)
    | .slice _ => 0
  | .s r => g.sreg p.slice_ r.toNat

/-- The second source; the immediate is given by the caller (R61). -/
def Gang.srcB (g : Gang) (wide : Bool) (imm : W32 → W64) (p : At) : SrcB → W64
  | .v r => g.src wide p (.v r)
  | .s r => g.src wide p (.s r)
  | .imm x => imm x

/-- The third source; the immediate is given by the caller. -/
def Gang.srcC (g : Gang) (wide : Bool) (imm : Byte → W64) (p : At) : SrcC → W64
  | .v r => g.src wide p (.v r)
  | .s r => g.src wide p (.s r)
  | .imm x => imm x

/-! ### Integer operands and results (R61, R79) -/

/-- An operand value from its raw bits: the low w bits, read by the signedness of the type (R79). -/
def tyVal (t : Ty) (x : W64) : Int :=
  let u := x.toNat % 2 ^ t.width
  if t.signed && decide (2 ^ (t.width - 1) ≤ u) then (u : Int) - 2 ^ t.width else u

/-- IMM32 as an integer operand: sign-extended for 64-bit types, low bits otherwise (R61). -/
def immInt (t : Ty) (x : W32) : W64 := if t.is64 then sext64 x else zext64 x

/-- The low `w` bits of an exact integer. -/
def low (w : Nat) (x : Int) : Nat := (x % 2 ^ w).toNat

/-- A w-bit result extended to a vector register or pair (R79): to 32 bits, or the 64 bits of a pair. -/
def extV (t : Ty) (x : Int) : W64 :=
  let u := low t.width x
  if t.signed && decide (t.width < 32) && decide (2 ^ (t.width - 1) ≤ u) then BitVec.ofInt 64 ((u : Int) - 2 ^ t.width)
  else BitVec.ofNat 64 u

/-- A w-bit result extended to a scalar register (R79). The 32 bits of an `f32` immediate of `movi`, whose extension the manual does not give, are
extended with zeros: the model's choice (log entry 150). -/
def extS (t : Ty) (x : Int) : W64 :=
  let u := low t.width x
  if t.signed && decide (2 ^ (t.width - 1) ≤ u) then BitVec.ofInt 64 ((u : Int) - 2 ^ t.width) else BitVec.ofNat 64 u

/-- A value written to a vector register, or pair. -/
def wrV (wide : Bool) (lane : Nat) (r : VReg) (x : W64) : List RegWrite :=
  if wide then [.v lane r.toNat (lo32 x), .v lane (r.toNat + 1) (hi32 x)] else [.v lane r.toNat (lo32 x)]

/-- An integer result written to its destination (R79). -/
def wrInt (t : Ty) (p : At) (d : Dst) (x : Int) : List RegWrite :=
  match d, p with
  | .v r, .lane l => wrV t.is64 l r (extV t x)
  | .s r, p => [.s p.slice_ r.toNat (extS t x)]
  | .v _, .slice _ => []

/-- The places an instruction acts at: visited lanes, or selected slices for a scalar destination (R60, R89). -/
def Cx.places (c : Cx) (scalar : Bool) : List At :=
  if scalar then c.sls.map .slice else c.vis.map .lane

/-! ### In-flight entries and waiting -/

def Gang.entry? (g : Gang) (id : Nat) : Option Entry := g.infl.find? fun e => e.id == id
/-- Whether an entry has not completed. -/
def Gang.open_ (g : Gang) (id : Nat) : Bool :=
  match g.entry? id with
  | some e => !e.done
  | none => false

/-- The counter of a path (R150): instructions on it since its oldest incomplete one, counting that one. Entries are dropped when
everything before them on their path is complete, so the count is of the entries kept. -/
def Gang.counter (g : Gang) (p : Path) : Nat := (g.infl.filter fun e => e.path == some p).length

/-- An entry's completion: done, and every leading complete entry of its path falls out (R150). -/
def dropDone (es : List Entry) : List Entry :=
  (es.foldl (fun (acc : List Entry × List (Option Path)) e =>
    if e.done && (e.path.isNone || !acc.2.contains e.path) then acc
    else (e :: acc.1, if e.done then acc.2 else e.path :: acc.2)) ([], [])).1.reverse

/-- Windows of a split whose owner has not completed. -/
def Gang.openWins (g : Gang) (sp : Split) : Bool := sp.wins.any fun w => g.open_ w.owner

/-- A window that J follows and whose owner has not completed holds J (R69). -/
def Gang.winHolds (g : Gang) (sp : Split) : Bool := sp.wins.any fun w => w.left == 0 && g.open_ w.owner

/-- The splits of a gang other than the running one. -/
def Gang.others (g : Gang) : List Split := g.pend ++ g.parked
/-- The number of splits of a gang. -/
def Gang.nsplits (g : Gang) : Nat := (if g.run.isSome then 1 else 0) + g.pend.length + g.parked.length

/-- The deterministic flag of a gang's launch (R42). -/
def Cx.det (c : Cx) : Bool := c.grd.det

/-- `rlvl` (R11) with its `ntc` bit. -/
def rlvlOf (grp : Group) (ntc : Bool) : W32 :=
  BitVec.ofNat 32 (0x10000 * grp.epoch.toNat + 0x1000 * flag ntc + 0x100 * grp.scrLv + 0x10 * grp.regsLv + grp.lanesLv)

end Sys2Proof.Machine
end

