-- ==== Sys2Proof/Machine/Flags.lean ====
section
/-!
DEFINITION. Conditions (R74, R81) and the sticky bits of `fstat` (R100).
-/
namespace Sys2Proof.Machine

/-- A condition of `brs` and `cmp` on two operand values (R74). -/
def condHolds (c : Cond) (a b : Int) : Bool :=
  match c with
  | .eq => decide (a = b)
  | .ne => decide (a ≠ b)
  | .lt => decide (a < b)
  | .le => decide (a ≤ b)
  | .gt => decide (b < a)
  | .ge => decide (b ≤ a)

/-- `set_sticky`: ORs bits into the gang's `fstat` (R100). -/
def Gang.sticky (g : Gang) (b : BitVec 6) : Gang := { g with fstat := g.fstat ||| b }

/-- What a read of `fstat` gives: reserved bits read 0 (R100). -/
def Gang.fstatRead (g : Gang) : W32 := g.fstat.setWidth 32

/-- A write of `fstat`: reserved bits are ignored (R100). -/
def Gang.fstatWrite (g : Gang) (x : W32) : Gang := { g with fstat := x.setWidth 6 }

end Sys2Proof.Machine
end

