-- ==== Sys2Proof/Machine/Number.lean ====
section
/-!
DEFINITION. Number formats to the bit (07): values, exact arithmetic in Nat and Int, the one rounding function (R113, R114), the IEEE
formats (R110 to R112), binary8 (R116 to R118), E2M1 and E8M0 (R119, R120), the chunk sum (R121) and the key of R125.
-/
namespace Sys2Proof.Machine

/-! ### Sticky bits (R100) -/

def nvBit : BitVec 6 := 1
def dzBit : BitVec 6 := 2
def ofBit : BitVec 6 := 4
def ufBit : BitVec 6 := 8
def nxBit : BitVec 6 := 16
def idzBit : BitVec 6 := 32

/-- A sticky bit, when the condition holds. -/
def stickyIf (c : Bool) (b : BitVec 6) : BitVec 6 := if c then b else 0

/-! ### Values -/

/-- A value: a NaN (signalling or not), an infinity, or ± m · 2^e. -/
inductive FV where
  | nan (sig : Bool)
  | inf (neg : Bool)
  | num (neg : Bool) (m : Nat) (e : Int)
  deriving DecidableEq, Repr

/-- A nonzero magnitude: m · 2^e exactly, or strictly between m · 2^e and (m + 1) · 2^e when `st`. -/
structure Mag where
  m : Nat
  e : Int
  st : Bool := false
  deriving DecidableEq, Repr

/-- A format's numbers: fraction bits, least normal exponent, code of the greatest finite magnitude. A magnitude's code is the
exponent field and the fraction field read as one number. -/
structure Fmt where
  t : Nat
  emin : Int
  top : Nat
  deriving DecidableEq, Repr

def fmt64 : Fmt := ⟨52, -1022, 0x7FEFFFFFFFFFFFFF⟩
def fmt32 : Fmt := ⟨23, -126, 0x7F7FFFFF⟩
def fmt16 : Fmt := ⟨10, -14, 0x7BFF⟩
def fmtB16 : Fmt := ⟨7, -126, 0x7F7F⟩
def fmtE2m1 : Fmt := ⟨1, 0, 7⟩

/-- The IEEE format of a floating type, or of the elements of a paired one; FP32 for every other type (R110, R111). -/
def fmtOf : Ty → Fmt
  | .f64 => fmt64
  | .f16 | .f16x2 => fmt16
  | .bf16 | .bf16x2 => fmtB16
  | _ => fmt32

/-- Bits of one element of a floating type. -/
def fwidth : Ty → Nat
  | .f64 => 64
  | .f16 | .bf16 | .f16x2 | .bf16x2 => 16
  | _ => 32

/-- The canonical NaN of R112. -/
def canonNan (t : Ty) : Nat :=
  match t with
  | .f64 => 0x7FF8000000000000
  | .f16 | .f16x2 => 0x7E00
  | .bf16 | .bf16x2 => 0x7FC0
  | _ => 0x7FC00000

/-- The value of a magnitude code in a format without its special codes. -/
def codeVal (f : Fmt) (neg : Bool) (c : Nat) : FV :=
  let e := c / 2 ^ f.t
  let r := c % 2 ^ f.t
  if e = 0 then .num neg r (f.emin - f.t) else .num neg (r + 2 ^ f.t) (f.emin - f.t + (e - 1))

/-- The value of an IEEE pattern (R110). -/
def fval (t : Ty) (x : Nat) : FV :=
  let f := fmtOf t
  let w := fwidth t
  let neg := x / 2 ^ (w - 1) % 2 == 1
  let c := x % 2 ^ (w - 1)
  if c ≤ f.top then codeVal f neg c
  else if c = f.top + 1 then .inf neg
  else .nan (c / 2 ^ (f.t - 1) % 2 == 0)

/-! ### Rounding (R113, R114) -/

/-- floor(log₂ x) of a nonzero magnitude. -/
def Mag.log (x : Mag) : Int := (Nat.log2 x.m : Int) + x.e

/-- x in units of 2^k: the whole part, the comparison of the rest with one half (-1 below, 0 at, 1 above), and whether there is any
rest. -/
def Mag.split (x : Mag) (k : Int) : Nat × Int × Bool :=
  if k ≤ x.e then (x.m * 2 ^ (x.e - k).toNat, -1, false)
  else
    let d := (k - x.e).toNat
    let r := x.m % 2 ^ d
    let h := 2 ^ (d - 1)
    (x.m / 2 ^ d, if r < h then -1 else if h < r || x.st then 1 else 0, r != 0 || x.st)

/-- Whether a rest rounds up, by mode, sign, parity of the whole part and the comparison with one half (R113). `odd` is the parity at
a tie. -/
def roundsUp (m : Rm) (neg odd : Bool) (cmp : Int) (rest : Bool) : Bool :=
  match m with
  | .rne => decide (0 < cmp) || (rest && cmp == 0 && odd)
  | .rz => false
  | .rp => rest && !neg
  | .rm => rest && neg
  | .rna => rest && decide (0 ≤ cmp)

/-- x rounded to a whole number of units 2^k. With no fraction bit (t = 0) both candidates of a tie end in 1, so R113 names neither:
free (log entry 20). -/
def Mag.roundAt (x : Mag) (m : Rm) (neg : Bool) (t : Nat) (k : Int) : Nat × Bool :=
  let (n, c, rest) := x.split k
  let odd := if t = 0 && n != 0 then Config.tieUp k else n % 2 == 1
  (if roundsUp m neg odd c rest then n + 1 else n, rest)

/-- A rounded magnitude: its code, and whether R114 finds overflow, inexactness, tininess. -/
structure Rnd where
  code : Nat
  ovf : Bool
  nx : Bool
  uf : Bool
  deriving DecidableEq, Repr

/-- A magnitude far below the least quantum, brought near it: it rounds the same way. -/
def Mag.near (x : Mag) (f : Fmt) : Mag :=
  if x.log < f.emin - f.t - 4 then ⟨1, f.emin - f.t - 4, true⟩ else x

/-- R114 for a nonzero magnitude. -/
def roundMag (f : Fmt) (m : Rm) (neg : Bool) (x0 : Mag) : Rnd :=
  let x := x0.near f
  let l := x.log
  let kmin : Int := f.emin - f.t
  let k := max (l - f.t) kmin
  let (n, rest) := x.roundAt m neg f.t k
  let code := (k - kmin).toNat * 2 ^ f.t + n
  let (n', _) := x.roundAt m neg f.t (l - f.t)
  let tiny := decide (l < f.emin) && !(l == f.emin - 1 && n' == 2 ^ (f.t + 1))
  ⟨code, decide (f.top < code), rest, rest && tiny⟩

/-- R114's overflow table: whether the result is infinite. -/
def ovfInf (m : Rm) (neg : Bool) : Bool :=
  match m with
  | .rne | .rna => true
  | .rz => false
  | .rp => !neg
  | .rm => neg

/-- A pattern with its sign. -/
def signed (t : Ty) (neg : Bool) (c : Nat) : Nat := if neg then c + 2 ^ (fwidth t - 1) else c

/-- A nonzero magnitude rounded into an IEEE format, with its flags. -/
def fround (t : Ty) (m : Rm) (neg : Bool) (x : Mag) : Nat × BitVec 6 :=
  let f := fmtOf t
  let r := roundMag f m neg x
  if r.ovf then (signed t neg (if ovfInf m neg then f.top + 1 else f.top), ofBit ||| nxBit)
  else (signed t neg r.code, stickyIf r.nx nxBit ||| stickyIf r.uf ufBit)

def fzero (t : Ty) (neg : Bool) : Nat := signed t neg 0
def finf (t : Ty) (neg : Bool) : Nat := signed t neg ((fmtOf t).top + 1)

/-- A value written in a format, rounded. -/
def fput (t : Ty) (m : Rm) : FV → Nat × BitVec 6
  | .nan _ => (canonNan t, 0)
  | .inf n => (finf t n, 0)
  | .num n k e => if k = 0 then (fzero t n, 0) else fround t m n ⟨k, e, false⟩

/-! ### Exact arithmetic -/

/-- ± m · 2^e as an integer number of units 2^k, for k ≤ e. -/
def scaled (neg : Bool) (m : Nat) (e k : Int) : Int :=
  let x : Int := m * 2 ^ (e - k).toNat
  if neg then -x else x

/-- Sign of an exact zero sum: −0 when every term is −0, or in `rm` unless every term is +0 (R114). -/
def zeroSum (m : Rm) (negs : List Bool) : Bool :=
  if negs.all (· == true) then true else if negs.all (· == false) then false else m == .rm

/-- The exact sum of terms (neg, m, e), rounded once; `zeros` of the sign rule. -/
def fsum (t : Ty) (m : Rm) (ts : List (Bool × Nat × Int)) : Nat × BitVec 6 :=
  let k := ts.foldl (fun a x => if x.2.1 = 0 then a else min a x.2.2) ((ts.headD (false, 0, 0)).2.2)
  let s := ts.foldl (fun a x => if x.2.1 = 0 then a else a + scaled x.1 x.2.1 x.2.2 k) 0
  if s = 0 then
    let allZero := ts.all fun x => x.2.1 == 0
    (fzero t (if allZero then zeroSum m (ts.map (·.1)) else m == .rm), 0)
  else fround t m (decide (s < 0)) ⟨s.natAbs, k, false⟩

/-- An invalid operation (R127). -/
def finvalid (t : Ty) : Nat × BitVec 6 := (canonNan t, nvBit)

def FV.isNan : FV → Bool
  | .nan _ => true
  | _ => false
def FV.isSig : FV → Bool
  | .nan true => true
  | _ => false
def FV.isInf : FV → Bool
  | .inf _ => true
  | _ => false
def FV.neg : FV → Bool
  | .nan _ => false
  | .inf n => n
  | .num n _ _ => n
def FV.isZero : FV → Bool
  | .num _ 0 _ => true
  | _ => false
/-- The value with the opposite sign. -/
def FV.negate : FV → FV
  | .nan s => .nan s
  | .inf n => .inf (!n)
  | .num n m e => .num (!n) m e

/-- NaN operands: the canonical NaN, with nv for a signalling one (R129). -/
def fnan (t : Ty) (vs : List FV) : Nat × BitVec 6 := (canonNan t, stickyIf (vs.any FV.isSig) nvBit)

/-- The exact product of two values; `none` for ∞ × 0. NaN operands are dealt with before. -/
def fprod (a b : FV) : Option FV :=
  match a, b with
  | .num n m e, .num n' m' e' => some (.num (n != n') (m * m') (e + e'))
  | .nan s, _ => some (.nan s)
  | _, .nan s => some (.nan s)
  | a, b => if a.isZero || b.isZero then none else some (.inf (a.neg != b.neg))

/-- Sum of values that hold no NaN: opposite infinities are invalid. -/
def faddv (t : Ty) (m : Rm) (vs : List FV) : Nat × BitVec 6 :=
  let infs := vs.filter FV.isInf
  match infs with
  | [] => fsum t m (vs.filterMap fun v => match v with
      | .num n k e => some (n, k, e)
      | _ => none)
  | v :: rest => if rest.all fun w => w.neg == v.neg then (finf t v.neg, 0) else finvalid t

/-- The binary and ternary operations of R129. -/
def fadd2 (t : Ty) (m : Rm) (a b : Nat) : Nat × BitVec 6 :=
  let x := fval t a
  let y := fval t b
  if x.isNan || y.isNan then fnan t [x, y] else faddv t m [x, y]

def fsub2 (t : Ty) (m : Rm) (a b : Nat) : Nat × BitVec 6 :=
  let x := fval t a
  let y := fval t b
  if x.isNan || y.isNan then fnan t [x, y] else faddv t m [x, y.negate]

def fmul2 (t : Ty) (m : Rm) (a b : Nat) : Nat × BitVec 6 :=
  let x := fval t a
  let y := fval t b
  if x.isNan || y.isNan then fnan t [x, y] else
  match fprod x y with
  | none => finvalid t
  | some p => fput t m p

/-- `fma`: ∞ × 0 is invalid even when c is NaN (R129). -/
def fma3 (t : Ty) (m : Rm) (a b c : Nat) : Nat × BitVec 6 :=
  let x := fval t a
  let y := fval t b
  let z := fval t c
  if !x.isNan && !y.isNan && (fprod x y).isNone then finvalid t
  else if x.isNan || y.isNan || z.isNan then fnan t [x, y, z]
  else match fprod x y with
    | none => finvalid t
    | some p => faddv t m [p, z]

/-- The quotient of nonzero magnitudes with enough bits for a format of t fraction bits. -/
def quot (t m n : Nat) (e : Int) : Mag :=
  let s := t + 4 + Nat.log2 n
  ⟨m * 2 ^ s / n, e - s, m * 2 ^ s % n != 0⟩

def fdiv2 (t : Ty) (m : Rm) (a b : Nat) : Nat × BitVec 6 :=
  let x := fval t a
  let y := fval t b
  let n := x.neg != y.neg
  if x.isNan || y.isNan then fnan t [x, y] else
  match x, y with
  | .inf _, .inf _ => finvalid t
  | .inf _, _ => (finf t n, 0)
  | _, .inf _ => (fzero t n, 0)
  | .num _ p e, .num _ q e' =>
    if q = 0 then if p = 0 then finvalid t else (finf t n, dzBit)
    else if p = 0 then (fzero t n, 0)
    else fround t m n (quot (fmtOf t).t p q (e - e'))
  | _, _ => finvalid t

/-- floor(√n) by its bits from 2^i down. -/
def isqrtGo (n : Nat) : Nat → Nat → Nat
  | 0, r => if (r + 1) * (r + 1) ≤ n then r + 1 else r
  | i + 1, r => isqrtGo n i (if (r + 2 ^ (i + 1)) * (r + 2 ^ (i + 1)) ≤ n then r + 2 ^ (i + 1) else r)
def isqrt (n : Nat) : Nat := isqrtGo n (Nat.log2 n / 2 + 1) 0

/-- The square root of m · 2^e, m > 0. -/
def rootMag (t m : Nat) (e : Int) : Mag :=
  let m' := if e % 2 = 0 then m else 2 * m
  let e' := if e % 2 = 0 then e else e - 1
  let s := t + 4
  let n := m' * 2 ^ (2 * s)
  let r := isqrt n
  ⟨r, e' / 2 - s, r * r != n⟩

def fsqrt1 (t : Ty) (m : Rm) (a : Nat) : Nat × BitVec 6 :=
  match fval t a with
  | .nan s => fnan t [.nan s]
  | .inf n => if n then finvalid t else (finf t false, 0)
  | .num n p e => if p = 0 then (fzero t n, 0) else if n then finvalid t else fround t m false (rootMag (fmtOf t).t p e)

def frcp1 (t : Ty) (m : Rm) (a : Nat) : Nat × BitVec 6 :=
  match fval t a with
  | .nan s => fnan t [.nan s]
  | .inf n => (fzero t n, 0)
  | .num n p e => if p = 0 then (finf t n, dzBit) else fround t m n (quot (fmtOf t).t 1 p (-e))

/-- 1 / √(m · 2^e), m > 0. -/
def rsqMag (t m : Nat) (e : Int) : Mag :=
  let m' := if e % 2 = 0 then m else 2 * m
  let e' := if e % 2 = 0 then e else e - 1
  let s := t + 6 + Nat.log2 m'
  let r := isqrt (2 ^ (2 * s) / m')
  ⟨r, -(e' / 2) - s, r * r * m' != 2 ^ (2 * s)⟩

def frsq1 (t : Ty) (m : Rm) (a : Nat) : Nat × BitVec 6 :=
  match fval t a with
  | .nan s => fnan t [.nan s]
  | .inf n => if n then finvalid t else (fzero t false, 0)
  | .num n p e =>
    if p = 0 then (finf t n, dzBit) else if n then finvalid t else fround t m false (rsqMag (fmtOf t).t p e)

/-- Working precision of `fex2` (log entry 23). -/
def exBits : Nat := 320

/-- ∏ 2^(bit/2^i) over the bits of a fraction from the top: `r` is 2^(2^-i) and `acc` the product, both in units 2^-320. -/
def exGo (frac d : Nat) : Nat → Nat → Nat → Nat
  | 0, _, acc => acc
  | i + 1, r, acc =>
    let r' := isqrt (r * 2 ^ exBits)
    exGo frac d i r' (if frac / 2 ^ i % 2 = 1 then acc * r' / 2 ^ exBits else acc)

/-- 2^(± m · 2^e), not an integer power: an integer power times a root product; arguments near 0 lie just above or below 1. -/
def exMag (t : Nat) (neg : Bool) (m : Nat) (e : Int) : Mag :=
  if (Nat.log2 m : Int) + e < -(t + 8 : Int) then
    if neg then ⟨2 ^ (t + 6) - 1, -(t + 6 : Int), true⟩ else ⟨2 ^ (t + 6), -(t + 6 : Int), true⟩
  else
    let d := (-e).toNat
    let x : Int := if neg then -(m : Int) else m
    let whole := x / 2 ^ d
    let frac := (x % 2 ^ d).toNat
    ⟨exGo frac d d (2 ^ (exBits + 1)) (2 ^ exBits), whole - exBits, true⟩

def fex2v (t : Ty) (m : Rm) (a : Nat) : Nat × BitVec 6 :=
  match fval t a with
  | .nan s => fnan t [.nan s]
  | .inf n => if n then (fzero t false, 0) else (finf t false, 0)
  | .num n p e =>
    if p = 0 then fround t m false ⟨1, 0, false⟩
    else if (Nat.log2 p : Int) + e > 40 then fround t m false ⟨1, if n then -(2 ^ 40) else 2 ^ 40, false⟩
    else if 0 ≤ e || p % 2 ^ (-e).toNat = 0 then
      let k : Int := if 0 ≤ e then p * 2 ^ e.toNat else p / 2 ^ (-e).toNat
      fround t m false ⟨1, if n then -k else k, false⟩
    else fround t m false (exMag (fmtOf t).t n p e)

/-- Bits of log₂ of y ∈ [1, 2), y in units 2^-640: squaring (log entry 23). -/
def lgGo : Nat → Nat → Nat → Nat
  | 0, _, acc => acc
  | i + 1, y, acc =>
    let z := y * y / 2 ^ 640
    if 2 ^ 641 ≤ z then lgGo i (z / 2) (2 * acc + 1) else lgGo i z (2 * acc)

/-- log₂ of m · 2^e in units 2^-200, rounded down, for an m that is no power of 2. -/
def lgFloor (m : Nat) (e : Int) : Int :=
  let l := Nat.log2 m
  let y := if l ≤ 640 then m * 2 ^ (640 - l) else m / 2 ^ (l - 640)
  ((l : Int) + e) * 2 ^ 200 + lgGo 200 y 0

def flg2v (t : Ty) (m : Rm) (a : Nat) : Nat × BitVec 6 :=
  match fval t a with
  | .nan s => fnan t [.nan s]
  | .inf n => if n then finvalid t else (finf t false, 0)
  | .num n p e =>
    if p = 0 then (finf t true, dzBit)
    else if n then finvalid t
    else if p = 2 ^ Nat.log2 p then
      let k : Int := (Nat.log2 p : Int) + e
      if k = 0 then (fzero t false, 0) else fround t m (decide (k < 0)) ⟨k.natAbs, 0, false⟩
    else
      let v := lgFloor p e
      if 0 ≤ v then fround t m false ⟨v.toNat, -200, true⟩ else fround t m true ⟨(-v - 1).toNat, -200, true⟩

/-- A number rounded to an integer: its magnitude, and whether it changed. -/
def roundInt (m : Rm) (neg : Bool) (p : Nat) (e : Int) : Nat × Bool :=
  if p = 0 then (0, false)
  else (if (Nat.log2 p : Int) + e < -4 then (⟨1, -4, true⟩ : Mag) else ⟨p, e, false⟩).roundAt m neg 1 0

def frndv (t : Ty) (m : Rm) (a : Nat) : Nat × BitVec 6 :=
  match fval t a with
  | .nan s => fnan t [.nan s]
  | .inf n => (finf t n, 0)
  | .num n p e =>
    if 0 ≤ e then (a % 2 ^ fwidth t, 0) else
    let r := (roundInt m n p e).1
    if r = 0 then (fzero t n, 0) else ((fround t .rz n ⟨r, 0, false⟩).1, 0)

def fscalev (t : Ty) (m : Rm) (a : Nat) (k : Int) : Nat × BitVec 6 :=
  match fval t a with
  | .nan s => fnan t [.nan s]
  | .inf n => (finf t n, 0)
  | .num n p e => if p = 0 then (fzero t n, 0) else fround t m n ⟨p, e + k, false⟩

/-- Exact comparison of two values that are no NaN: -1, 0, 1; −0 equals +0. -/
def fcmpv (a b : FV) : Int :=
  match a, b with
  | .inf n, .inf n' => if n = n' then 0 else if n then -1 else 1
  | .inf n, _ => if n then -1 else 1
  | _, .inf n => if n then 1 else -1
  | .num n m e, .num n' m' e' =>
    let k := min e e'
    let d := scaled n m e k - scaled n' m' e' k
    if d < 0 then -1 else if d = 0 then 0 else 1
  | _, _ => 0

/-- Comparison with −0 < +0 (R131). -/
def fordv (a b : FV) : Int :=
  let c := fcmpv a b
  if c = 0 && a.isZero && b.isZero then (if a.neg && !b.neg then -1 else if !a.neg && b.neg then 1 else 0) else c

/-- `fmin` and `fmax` (R131). -/
def fminmax (isMax prop : Bool) (t : Ty) (a b : Nat) : Nat × BitVec 6 :=
  let x := fval t a
  let y := fval t b
  let fl := stickyIf (x.isSig || y.isSig) nvBit
  let w := 2 ^ fwidth t
  if x.isNan && y.isNan || prop && (x.isNan || y.isNan) then (canonNan t, fl)
  else if x.isNan then (b % w, fl)
  else if y.isNan then (a % w, fl)
  else
    let c := fordv x y
    (if (if isMax then decide (c < 0) else decide (0 < c)) then b % w else a % w, fl)

/-- The conditions of `cmpf` (R74, R134): the outcome, and nv. -/
def fcondv (c : FCond) (t : Ty) (a b : Nat) : Bool × BitVec 6 :=
  let x := fval t a
  let y := fval t b
  let un := x.isNan || y.isNan
  let d := fcmpv x y
  let quietBad := match c with
    | .lt | .le | .gt | .ge => true
    | _ => false
  let fl := stickyIf (x.isSig || y.isSig || (un && quietBad)) nvBit
  (match c with
    | .eq => !un && d == 0
    | .ne => un || d != 0
    | .lt => !un && decide (d < 0)
    | .le => !un && decide (d ≤ 0)
    | .gt => !un && decide (0 < d)
    | .ge => !un && decide (0 ≤ d)
    | .un => un
    | .ord => !un, fl)

/-- The class bit of R133. -/
def fclassv (t : Ty) (a : Nat) : Nat :=
  match fval t a with
  | .nan s => if s then 1 else 2
  | .inf n => if n then 4 else 512
  | .num n p _ =>
    if p = 0 then if n then 32 else 64
    else if a % 2 ^ (fwidth t - 1) < 2 ^ (fmtOf t).t then if n then 16 else 128
    else if n then 8 else 256

/-- `fsgn`: the magnitude of a with the sign bit of b (R132). -/
def fsgnv (t : Ty) (a b : Nat) : Nat :=
  if (fval t a).isNan then canonNan t
  else a % 2 ^ (fwidth t - 1) + b / 2 ^ (fwidth t - 1) % 2 * 2 ^ (fwidth t - 1)

/-- `fdot2` (R130). Its zero rule is its own: three +0 in `rm` give −0 (log entry 24). -/
def fdotv (t : Ty) (m : Rm) (a0 a1 b0 b1 c : Nat) : Nat × BitVec 6 :=
  let x0 := fval t a0
  let x1 := fval t a1
  let y0 := fval t b0
  let y1 := fval t b1
  let z := fval .f32 c
  let p0 := fprod x0 y0
  let p1 := fprod x1 y1
  match p0, p1 with
  | some p0, some p1 =>
    let vs := [p0, p1, z]
    let infs := vs.filter FV.isInf
    if infs.any (·.neg) && infs.any (fun v => !v.neg) then finvalid .f32
    else if vs.any FV.isNan then fnan .f32 [x0, x1, y0, y1, z]
    else if infs.isEmpty && (vs.all FV.isZero) then
      (fzero .f32 (if vs.all FV.neg then true else m == .rm), 0)
    else faddv .f32 m vs
  | _, _ => finvalid .f32

/-! ### Conversions (R115, R136) -/

/-- The range of an integer type. -/
def intMin (t : Ty) : Int := if t.signed then -(2 ^ (t.width - 1)) else 0
def intMax (t : Ty) : Int := if t.signed then 2 ^ (t.width - 1) - 1 else 2 ^ t.width - 1
/-- `sat_w` of R30. -/
def satInt (t : Ty) (x : Int) : Int := if x < intMin t then intMin t else if intMax t < x then intMax t else x

/-- An integer into a floating format. -/
def intToF (t : Ty) (m : Rm) (x : Int) : Nat × BitVec 6 :=
  if x = 0 then (fzero t false, 0) else fround t m (decide (x < 0)) ⟨x.natAbs, 0, false⟩

/-- A floating value into an integer type. -/
def fToInt (dt : Ty) (m : Rm) (v : FV) : Int × BitVec 6 :=
  match v with
  | .nan _ => (0, nvBit)
  | .inf n => (if n then intMin dt else intMax dt, nvBit)
  | .num n p e =>
    if decide (70 < (Nat.log2 p : Int) + e) && p != 0 then (if n then intMin dt else intMax dt, nvBit) else
    let (r, rest) := roundInt m n p e
    let x : Int := if n then -(r : Int) else r
    if x < intMin dt then (intMin dt, nvBit)
    else if intMax dt < x then (intMax dt, nvBit)
    else (x, stickyIf rest nxBit)

/-- Between floating formats (R115): exact when wider, rounded by R114 when narrower. -/
def fToF (st dt : Ty) (m : Rm) (a : Nat) : Nat × BitVec 6 :=
  match fval st a with
  | .nan s => fnan dt [.nan s]
  | v => fput dt m v

/-- An FP32 pattern widened exactly to FP64, NaN payload and kind kept (R61). -/
def widen32 (x : Nat) : Nat :=
  match fval .f32 x with
  | .nan _ => x / 2 ^ 31 % 2 * 2 ^ 63 + 0x7FF0000000000000 + x % 2 ^ 23 * 2 ^ 29
  | v => (fput .f64 .rne v).1

/-! ### binary8 (R116 to R118) -/

/-- A binary8 format of R117. -/
structure B8 where
  p : Nat
  uns : Bool
  inf : Bool
  deriving DecidableEq, Repr

/-- The format a code names; `none` for an invalid code. -/
def b8Of (c : Nat) : Option B8 :=
  if bitsOf c 7 5 ≠ 0 ∨ bitsOf c 2 0 = 0 then none else some ⟨bitsOf c 2 0, bitsOf c 3 3 == 1, bitsOf c 4 4 == 1⟩

def B8.fmt (f : B8) : Fmt :=
  let bias : Nat := if f.uns then 2 ^ (8 - f.p) else 2 ^ (7 - f.p)
  ⟨f.p - 1, 1 - (bias : Int), (if f.uns then 0xFE else 0x7F) - (if f.inf then 1 else 0)⟩
def B8.nan (f : B8) : Nat := if f.uns then 0xFF else 0x80

/-- The value of a binary8 code. -/
def B8.val (f : B8) (x : Nat) : FV :=
  if x = f.nan then .nan false
  else if f.uns then if f.inf && x == 0xFE then .inf false else codeVal f.fmt false x
  else if f.inf && x % 128 == 127 then .inf (x / 128 == 1)
  else codeVal f.fmt (x / 128 == 1) (x % 128)

/-- A signed code. -/
def B8.signed (f : B8) (neg : Bool) (c : Nat) : Nat := if neg && !f.uns && c != 0 then c + 128 else c

/-- R118. -/
def toB8 (f : B8) (sat : Bool) (m : Rm) (v : FV) : Nat × BitVec 6 :=
  let beyond (neg infSrc : Bool) : Nat × BitVec 6 :=
    if sat then (f.signed neg f.fmt.top, ofBit ||| nxBit)
    else if !f.inf then (f.nan, ofBit ||| nxBit)
    else if ovfInf m neg then (f.signed neg (f.fmt.top + 1), if infSrc then 0 else ofBit ||| nxBit)
    else (f.signed neg f.fmt.top, ofBit ||| nxBit)
  match v with
  | .nan s => (f.nan, stickyIf s nvBit)
  | .inf n => if n && f.uns then (0xFF, nvBit) else beyond n true
  | .num n p e =>
    if p = 0 then (0, 0) else
    let r := roundMag f.fmt m n ⟨p, e, false⟩
    if n && f.uns then
      if r.code = 0 then (0, stickyIf r.nx nxBit ||| stickyIf r.uf ufBit) else (0xFF, nvBit)
    else if r.ovf then beyond n false
    else (f.signed n r.code, stickyIf r.nx nxBit ||| stickyIf r.uf ufBit)

/-! ### E2M1 and E8M0 (R119, R120) -/

def e2m1Val (c : Nat) : FV := codeVal fmtE2m1 (c / 8 % 2 == 1) (c % 8)

/-- R119. -/
def toE2m1 (m : Rm) (v : FV) : Nat × BitVec 6 :=
  match v with
  | .nan _ => (0, nvBit)
  | .inf n => ((if n then 8 else 0) + 7, ofBit ||| nxBit)
  | .num n p e =>
    let s := if n then 8 else 0
    if p = 0 then (s, 0) else
    let r := roundMag fmtE2m1 m n ⟨p, e, false⟩
    if r.ovf then (s + 7, ofBit ||| nxBit) else (s + r.code, stickyIf r.nx nxBit ||| stickyIf r.uf ufBit)

/-- A value times an E8M0 scale; a NaN block reads as NaN. -/
def scale8 (c : Nat) (v : FV) : FV :=
  if c = 255 then .nan false else
  match v with
  | .num n m e => .num n m (e + (c : Int) - 127)
  | v => v

/-- `bscl.fit` (R139). -/
def bsclFit (t : Ty) (k a : Nat) : Nat :=
  match fval t a with
  | .nan _ | .inf _ => 0xFF
  | .num _ p e =>
    if p = 0 then 0 else
    let x : Int := (Nat.log2 p : Int) + e - k + 127
    if x < 0 then 0 else if 254 < x then 254 else x.toNat

/-! ### The matrix sums (R121, R122) -/

/-- Two values as the terms of one chunk: NaN, opposite infinities, an infinity, or finite terms. -/
def chunkSum (c : FV) (ps : List (Option FV)) : Nat :=
  let ts := c :: ps.filterMap id
  if ps.any (·.isNone) || ts.any FV.isNan || (ts.any fun v => v.isInf && v.neg) && (ts.any fun v => v.isInf && !v.neg) then
    0x7FC00000
  else if ts.any FV.isInf then finf .f32 (ts.any fun v => v.isInf && v.neg)
  else
    let nz := ts.filterMap fun v => match v with
      | .num n m e => if m = 0 then none else some (n, m, e)
      | _ => none
    match nz with
    | [] => fzero .f32 (ts.all FV.neg)
    | (_, m, e) :: _ =>
      let top := nz.foldl (fun a x => max a ((Nat.log2 x.2.1 : Int) + x.2.2)) ((Nat.log2 m : Int) + e)
      let u := top - 48
      let s := nz.foldl (fun a x =>
        a + (if u ≤ x.2.2 then scaled x.1 x.2.1 x.2.2 u
             else (if x.1 then -(x.2.1 : Int) else x.2.1) / 2 ^ (u - x.2.2).toNat)) (0 : Int)
      if s = 0 then 0 else (fround .f32 .rne (decide (s < 0)) ⟨s.natAbs, u, false⟩).1

/-- One fused step of an FP64 matrix sum (R122): NaN and ∞ by the branches of R121. -/
def step64 (p : Option FV) (c : Nat) : Nat :=
  let z := fval .f64 c
  match p with
  | none => canonNan .f64
  | some p =>
    if p.isNan || z.isNan then canonNan .f64 else (faddv .f64 .rne [p, z]).1

/-! ### The key of R125 -/

/-- The 16-bit key of an element pattern. -/
def mxKey (t : Ty) (b : Nat) : Nat :=
  let b := b % 65536
  if (fval t b).isNan then 0 else if b < 32768 then b + 32768 else 65535 - b

end Sys2Proof.Machine
end

