-- ==== Sys2Proof/Machine/Queues.lean ====
section
/-!
DEFINITION. Queues (R336, R337, R341): the control block's two halves, kick registers and kick words, halts.
-/
namespace Sys2Proof.Machine

/-! ### The control block (R336) -/

def Queue.ring (q : Queue) : Nat := (q.ro.getD 0 0).toNat
def Queue.lsz (q : Queue) : Nat := bitsOf (q.ro.getD 1 0).toNat 4 0
def Queue.ctx (q : Queue) : Nat := bitsOf (q.ro.getD 1 0).toNat 13 8
/-- The partition that the control block names. -/
def Queue.part (q : Queue) : Nat := bitsOf (q.ro.getD 1 0).toNat 15 14
def Queue.floor (q : Queue) : Nat := bitsOf (q.ro.getD 1 0).toNat 19 16
def Queue.retry (q : Queue) : Bool := (q.ro.getD 1 0).getLsbD 21
def Queue.progAt (q : Queue) : W64 := q.ro.getD 2 0
def Queue.evec (q : Queue) : Nat := bitsOf (q.ro.getD 3 0).toNat 15 0
def Queue.cvec (q : Queue) : Nat := bitsOf (q.ro.getD 3 0).toNat 31 16
/-- Window w: base and bytes. -/
def Queue.win (q : Queue) (w : Nat) : W64 × W64 := (q.ro.getD (4 + 2 * w) 0, q.ro.getD (5 + 2 * w) 0)
def Queue.kaddr (q : Queue) : Nat := (q.ro.getD 8 0).toNat

/-- The sixteen words of the mutable half. -/
def Queue.mutable (q : Queue) : List W64 :=
  [BitVec.ofNat 64 (q.rd.toNat + 2 ^ 32 * q.wr.toNat), BitVec.ofNat 64 (q.qst + 256 * q.hrsn), q.hoff, q.ndone, q.bovr,
   q.pw.getD 0 0, q.pw.getD 1 0, q.pw.getD 2 0, 0, 0, 0, 0, 0, 0, 0, 0]

/-- Words written one after another. -/
def State.vaStore (s : State) (ctx a : Nat) : List W64 → State
  | [] => s
  | w :: ws => (s.vaWrite ctx a 8 w.toNat).vaStore ctx (a + 8) ws

/-- A queue's record changed; a change of the mutable half is written in its control block, through context 0. -/
def State.setQ (s : State) (k : Nat) (q : Queue) : State :=
  let s1 := s.setQueue k q
  if q.mutable = (s.queue k).mutable then s1 else s1.vaStore 0 (q.cb.toNat + 0x80) q.mutable

/-! ### Halts (R341) -/

/-- Byte offset in the ring of the packet at `rd`. -/
def Queue.rdOff (q : Queue) : Nat := 64 * (q.rd.toNat % 2 ^ q.lsz)

/-- A queue halts with a reason: status, offset and reason are written, then `evec` is sent. -/
def State.haltQueue (s : State) (k reason : Nat) : State :=
  let q := s.queue k
  (s.setQ k { q with qst := 4, hrsn := reason, hoff := BitVec.ofNat 64 q.rdOff,
                     bovr := if reason = 6 then q.bovr + 1 else q.bovr }).sendInt q.evec

/-! ### Kicks (R337) -/

/-- Whether the write index is more than one ring ahead (R336). -/
def Queue.tooFar (q : Queue) : Bool := decide (2 ^ q.lsz < (q.wr - q.rd).toNat)

/-- Whether a queue takes kicks: it is enabled, halted included (R341, R356). -/
def Queue.enabled (q : Queue) : Bool := q.qst != 0 && q.qst != 5

/-- A write of w to a queue's kick register. -/
def Queue.kickWrite (q : Queue) (w : W32) : Queue :=
  let d := (w - q.cur).toNat
  if 1 ≤ d ∧ d ≤ 2 ^ 31 - 1 then
    { q with cur := w, wr := w, qst := if q.qst = 1 && w != q.rd then 2 else q.qst }
  else q

/-- A kick of a queue; between packets an index more than one ring ahead halts it. -/
def State.kickQueue (s : State) (k : Nat) (w : W32) : State :=
  let q := s.queue k
  if !q.enabled then s else
  let q1 := q.kickWrite w
  let s1 := s.setQ k q1
  if q1.it.isNone && q1.qst == 2 && q1.tooFar then s1.haltQueue k 7 else s1

/-- Every kick word that a 32-bit store at a physical address writes takes the value. -/
def State.kickAt (s : State) (l : Loc) (w : W32) : State :=
  if l.host then s else
  (s.queues.filter fun x => x.2.kick == some l.key).foldl (fun s x => s.kickQueue x.1 w) s

end Sys2Proof.Machine
end

