-- ==== Sys2Proof/Machine/Access.lean ====
section
/-!
DEFINITION. One access at its point of coherence (R107, R151, R160): when it may be applied (R153, R157 to R159), where it lands
(R148, R347, R352), what it reads and writes (R105, R106, R172, R173, R175, R176).
-/
namespace Sys2Proof.Machine

/-! ### Read-modify-write (R172, R178) -/

/-- A function of two patterns applied to both elements of a paired type (R111), or once. -/
def elemwise (t : Ty) (f : Nat → Nat → Nat) (a b : Nat) : Nat :=
  match t with
  | .f16x2 | .bf16x2 => f (a % 65536) (b % 65536) % 65536 + 65536 * (f (a / 65536 % 65536) (b / 65536 % 65536) % 65536)
  | _ => f a b

/-- Old and new data as integers of the type, combined exactly. -/
def intCombine (t : Ty) (f : Int → Int → Int) (m c : W64) : W64 :=
  BitVec.ofNat 64 (low t.width (f (tyVal t m) (tyVal t c)))

/-- The new value of a read-modify-write; `none` where it writes nothing (R172). -/
def amoNew (op : Amo) (t : Ty) (m c e : W64) : Option W64 :=
  match op with
  | .add =>
    if t.floating then some (BitVec.ofNat 64 (elemwise t (fun a b => (fadd2 t .rne a b).1) m.toNat c.toNat))
    else some (intCombine t (· + ·) m c)
  | .min =>
    if t.floating then some (BitVec.ofNat 64 (elemwise t (fun a b => (fminmax false false t a b).1) m.toNat c.toNat))
    else some (intCombine t (fun a b => if b < a then b else a) m c)
  | .max =>
    if t.floating then some (BitVec.ofNat 64 (elemwise t (fun a b => (fminmax true false t a b).1) m.toNat c.toNat))
    else some (intCombine t (fun a b => if a < b then b else a) m c)
  | .and => some (m &&& c)
  | .or => some (m ||| c)
  | .xor => some (m ^^^ c)
  | .exch => some c
  | .cas => if m = c then some e else none
  | .mxi => some (if m.toNat < c.toNat then c else m)

/-- The element result of `pvop` (R178). -/
def pvNew (op : PvOp) (t : Ty) (d x : W64) : W64 :=
  match op with
  | .add => (amoNew .add t d x 0).getD d
  | .min => (amoNew .min t d x 0).getD d
  | .max => (amoNew .max t d x 0).getD d
  | .and => d &&& x
  | .or => d ||| x
  | .xor => d ^^^ x
  | .mov => x
  | .mul =>
    if t.floating then BitVec.ofNat 64 (elemwise t (fun a b => (fmul2 t .rne a b).1) d.toNat x.toNat)
    else intCombine t (· * ·) d x

/-! ### Scratch pages (R267) -/

/-- Pages of 256 bytes that a scratch level holds (R262). -/
def pagesAt (d lv : Nat) : Nat :=
  if lv = 4 then d / 256 else if lv = 0 then 0 else d / 2 ^ (4 - lv) / 256

/-- The page among held ones with the oldest last access, ties to the higher offset; `keep` is left alone. -/
def oldestPage (g : Group) (n keep : Nat) : Option Nat :=
  (List.range n).foldl (fun b p =>
    let l := Sparse.get {} g.pages p
    if l.out || p == keep then b else
    match b with
    | none => some p
    | some q => if l.last ≤ (Sparse.get {} g.pages q : Line).last then some p else b) none

/-- Bytes of group scratch written to the scratch image. -/
def State.saveScr (s : State) (grp : Group) (g : Grid) (o : Nat) : Nat → State
  | 0 => s
  | n + 1 =>
    let s' := s.imgWrite g.ctx (grp.img.toNat + g.scrOff o) 1 (Sparse.get (0 : Byte) grp.scr o).toNat
    s'.saveScr grp g (o + 1) n

/-- Bytes of group scratch as the scratch image holds them. -/
def State.loadScr (s : State) (grp : Group) (g : Grid) (o : Nat) : Nat → Sparse Byte → Sparse Byte
  | 0, m => m
  | n + 1, m =>
    s.loadScr grp g (o + 1) n (Sparse.set 0 m o (BitVec.ofNat 8 (s.imgRead g.ctx (grp.img.toNat + g.scrOff o) 1)))

/-- The last access to a page of group scratch is now (R267). -/
def State.usePage (s : State) (k p : Nat) : State :=
  let g := s.group k
  let l : Line := Sparse.get {} g.pages p
  s.setGroup k { g with pages := Sparse.put g.pages p { l with last := s.tick } }

/-- Byte o of group scratch is accessed (`rd`: read): a page that is out comes back, and the oldest held page is written out in its place
(R267); at level 0, and for a group that is on no core, the access is made on the image (R259). An address: its image could not be read there
(R271). A page still present as an evictable line needs no read, which is free. A page whose image write fails stays held (R271). -/
def State.touchPage (s : State) (k o : Nat) (rd : Bool) : Except Nat State :=
  let p := o / 256
  let g := s.group k
  let d := s.grid g.grid
  let l : Line := Sparse.get {} g.pages p
  let n := d.scrBytes / 256
  let at_ (q : Nat) : Nat := g.img.toNat + d.scrOff (256 * q)
  let cached := Config.freeBit (s.tick + p)
  if !l.out then .ok (s.usePage k p)
  else if pagesAt d.scrBytes g.scrLv = 0 ∨ !g.st.placed then
    if rd && !s.imgReads d.ctx (g.img.toNat + d.scrOff o) then .error (g.img.toNat + d.scrOff o) else .ok s
  else match if cached then none else badAddr (s.imgReads d.ctx) (at_ p) 256 with
  | some a => .error a
  | none =>
    let g1 := { g with pages := Sparse.put g.pages p { l with last := s.tick, out := false },
                       scr := if cached then g.scr else s.loadScr g d (256 * p) 256 g.scr }
    let held := ((List.range n).filter fun q => !(Sparse.get {} g1.pages q : Line).out).length
    match if pagesAt d.scrBytes g.scrLv < held then oldestPage g1 n p else none with
    | none => .ok (s.setGroup k g1)
    | some q =>
      let s1 := s.setGroup k g1
      match badAddr (s.imgWrites d.ctx) (at_ q) 256 with
      | some a => .ok (s1.imgFault g.grid g.lin a)
      | none =>
      let s2 := s1.saveScr g1 d (256 * q) 256
      let c := s2.ctx d.ctx
      let s3 := s2.setCtx d.ctx { c with scrwr := c.scrwr + 256 }
      let lq : Line := Sparse.get {} g1.pages q
      .ok (s3.setGroup k { g1 with pages := Sparse.put g1.pages q { lq with out := true } })

/-! ### Where an access lands -/

/-- A place of an access: memory, a byte of group scratch, or a byte of a lane's store. -/
inductive Place where
  | mem (l : Loc) | scr (group o : Nat) | lst (r : GangRef) (o : Nat)
  deriving DecidableEq, Repr

/-- Whether the gang may touch PRV pages with an access: it is privileged, or an ordinary load or store that it issued in trap mode keeps
to its own trap frame (R149, R258, R279). -/
def State.prvAt (s : State) (r : GangRef) (a : Access) : Bool :=
  let grp := s.group r.group
  let d := s.grid grp.grid
  let f := saveSlot grp d r.gang
  d.ctx == 0 || (a.own && decide (f ≤ a.addr) && decide (a.addr + a.bytes ≤ f + 64))

/-- What an access needs before its value is known: a `cas` that fails is a read only (R173). -/
def AccOp.need : AccOp → Need
  | .rd | .rmw .cas _ _ _ => .read
  | _ => .write

/-- The place of an access, or the code that ends the task: the lease set is checked first, then translation (R347, R352). -/
def State.place (s : State) (r : GangRef) (a : Access) : Except Nat Place :=
  match a.space with
  | .scr => .ok (.scr r.group a.addr)
  | .lst => .ok (.lst r (a.lane * 2048 + a.addr))
  | .glob =>
    let grp := s.group r.group
    let d := s.grid grp.grid
    if inLease (s.leaseSet grp.grid) a.addr a.bytes then
      match s.xlate d.ctx (s.prvAt r a) a.op.need a.addr with
      | .ok l => .ok (.mem l)
      | .error c => .error c
    else .error 0x01

/-- Where a byte of group scratch lies in the scratch image. -/
def State.scrVa (s : State) (k o : Nat) : Nat := (s.group k).img.toNat + (s.grid (s.group k).grid).scrOff o

/-- Byte i of a place. A scratch byte whose page is out is read in the scratch image (R162, R241, R259). -/
def State.rdPlace (s : State) (p : Place) (i : Nat) : Byte :=
  match p with
  | .mem l => rdByte (if l.host then s.hostMem else s.mem) (l.key + i)
  | .scr k o =>
    let g := s.group k
    if (Sparse.get {} g.pages ((o + i) / 256) : Line).out then
      BitVec.ofNat 8 (s.imgRead (s.grid g.grid).ctx (s.scrVa k (o + i)) 1)
    else Sparse.get 0 g.scr (o + i)
  | .lst r o => Sparse.get 0 (s.gang r).lst (o + i)

/-- Byte o of group scratch written. A byte whose page is out is written in the scratch image, which counts (R162, R241, R259, R270); when
that write fails nothing is lost: the page is held again, and firmware is told (R271). -/
def State.wrScr (s : State) (k o : Nat) (x : Byte) : State :=
  let g := s.group k
  let d := s.grid g.grid
  let l : Line := Sparse.get {} g.pages (o / 256)
  let bad := l.out && !s.imgWrites d.ctx (s.scrVa k o)
  let s1 := s.setGroup k { g with scr := Sparse.set 0 g.scr o x,
                                  pages := Sparse.put g.pages (o / 256) { l with wr := s.tick, out := l.out && !bad } }
  if bad then s1.imgFault g.grid g.lin (s.scrVa k o)
  else if l.out then
    let s2 := s1.imgWrite d.ctx (s.scrVa k o) 1 x.toNat
    let c := s2.ctx d.ctx
    s2.setCtx d.ctx { c with scrwr := c.scrwr + 1 }
  else s1

/-- Byte i of a place written. -/
def State.wrPlace (s : State) (p : Place) (i : Nat) (x : Byte) : State :=
  match p with
  | .mem l => s.wrLoc { l with key := l.key + i } 1 x.toNat
  | .scr k o => s.wrScr k (o + i) x
  | .lst r o =>
    let g := s.gang r
    s.setGang r { g with lst := Sparse.set 0 g.lst (o + i) x }

/-- Byte i of a value. -/
def byteOf (x : W64) (i : Nat) : Byte := BitVec.ofNat 8 (x.toNat / 2 ^ (8 * i))

/-- Bytes at the positions of a list written with those of x. -/
def State.wrBytes (s : State) (p : Place) (x : W64) : List Nat → State
  | [] => s
  | i :: is => (s.wrPlace p i (byteOf x i)).wrBytes p x is

/-- A number from bytes, lowest first. -/
def leNat : List Byte → Nat
  | [] => 0
  | b :: bs => b.toNat + 256 * leNat bs

/-- The first byte of an access as a location that other accesses can be compared with: space, lane or group, and address, the physical
address for global memory. -/
def State.where_ (s : State) (r : GangRef) (a : Access) : Nat × Nat × Nat :=
  match a.space with
  | .scr => (1, r.group, a.addr)
  | .lst => (2, a.lane, a.addr)
  | .glob =>
    match s.leaf (s.grid (s.group r.group).grid).ctx a.addr with
    | some l => (if (l.at_ a.addr).host then 3 else 0, 0, (l.at_ a.addr).key)
    | none => (4, 0, a.addr)

/-- Whether two accesses of a gang share a byte. -/
def State.meets (s : State) (r : GangRef) (a b : Access) : Bool :=
  let x := s.where_ r a
  let y := s.where_ r b
  x.1 == y.1 && x.2.1 == y.2.1 && decide (x.2.2 < y.2.2 + b.bytes) && decide (y.2.2 < x.2.2 + a.bytes)

/-! ### When an access may be applied -/

def acqO : Order → Bool
  | .acq | .ar => true
  | _ => false
def relO : Order → Bool
  | .rel | .ar => true
  | _ => false

def Access.reads (a : Access) : Bool :=
  match a.op with
  | .wr _ => false
  | _ => true
def Access.writes (a : Access) : Bool :=
  match a.op with
  | .rd => false
  | _ => true

/-- Whether an entry still has an access to apply (`rd`: a read to apply). -/
def Entry.owes (e : Entry) (rdOnly : Bool) : Bool := e.accs.any fun a => !a.done && (!rdOnly || a.reads)

/-! ### Scopes (R156) -/

/-- Whether the instance of a scope, seen from gang r, holds gang q. -/
def State.inScope (s : State) (r : GangRef) (sc : Scope) (q : GangRef) : Bool :=
  match sc with
  | .group => r.group == q.group
  | .die => coreDie (s.group r.group).core == coreDie (s.group q.group).core
  | .dev => (s.grid (s.group r.group).grid).part == (s.grid (s.group q.group).grid).part
  | .sys => true

/-- Whether roles of two gangs match in scope. -/
def State.matches_ (s : State) (r : GangRef) (sc : Scope) (q : GangRef) (tc : Scope) : Bool := s.inScope r sc q && s.inScope q tc r

/-! ### Releases that went ahead (R157 to R159, R169)

A release at system scope is applied after every access that precedes it. At a narrower scope it may go ahead of them, which only agents
outside its instance can tell: an acquire that matches it in scope waits until they are applied, and so does whatever follows an acquiring
fence after a read that has seen it; where the release is a fence's, every read in its instance waits (log entry 72). -/

/-- Whether some of the accesses named are still to be applied. -/
def State.owed (s : State) (x : Seen) : Bool := x.ids.any fun id => match (s.gang x.r).entry? id with
  | some e => e.owes false
  | none => false

def Rel.seen (t : Rel) : Seen := ⟨t.r, t.scope, t.ids⟩

/-- Whether a release's location shares a byte with n bytes at another. -/
def Rel.touches (t : Rel) (w : Nat × Nat × Nat) (n : Nat) : Bool :=
  t.at_.1 == w.1 && t.at_.2.1 == w.2.1 && decide (t.at_.2.2 < w.2.2 + n) && decide (w.2.2 < t.at_.2.2 + t.bytes)

/-- The releases whose value, or a value of whose release sequence, a read of n bytes at a location returns now, and whose earlier accesses
are not all applied. -/
def State.relsAt (s : State) (w : Nat × Nat × Nat) (n : Nat) : List Rel :=
  s.rels.filter fun t => t.live && t.touches w n && s.owed t.seen

/-- Whether an acquire of the front end for a partition at device or system scope has to wait at a location (R327, R334, R337, R338). -/
def State.relHolds (s : State) (part : Nat) (l : Loc) (n : Nat) : Bool :=
  (s.relsAt (if l.host then 3 else 0, 0, l.key) n).any fun t =>
    t.scope == .dev && (s.grid (s.group t.r.group).grid).part == part

/-- Whether an acquire of the front end in a context may read n bytes at an address now. -/
def State.acquires (s : State) (part ctx va n : Nat) : Bool :=
  match s.xlate ctx (ctx == 0) .read va with
  | .ok l => !s.relHolds part l n
  | .error _ => true

/-- An entry whose effect on what follows it is not over: an access to apply, or a fence that waits for what its gang has seen. -/
def State.pendingEntry (s : State) (e : Entry) : Bool := e.owes false || (e.kind == .fence && e.sync.any s.owed)

/-- Whether what an acquiring fence has seen is still to be applied. -/
def State.syncOwed (s : State) (r : GangRef) (b : Entry) : Bool := b.sync.any fun x => s.matches_ r b.scope x.r x.scope && s.owed x

/-- Whether entry b of a gang is an acquire, or an acquiring fence, that is not over (R157, R169). -/
def State.acquiring (s : State) (r : GangRef) (g : Gang) (b : Entry) : Bool :=
  acqO b.ord && match b.kind with
    | .fence => (b.before.filterMap g.entry?).any (fun x => x.owes true) || s.syncOwed r b
    | .ticket .. => !b.done
    | _ => b.owes true

/-- Whether a plain load may be applied ahead of an acquire b: one at a scope below system orders no write of the host's for its gang (R163).
The load lands after the acquire, and is made again when that has read anything but such a write (log entry 72). -/
def State.mayPass (s : State) (r : GangRef) (e : Entry) (a : Access) (b : Entry) : Bool :=
  b.scope != .sys && a.op == .rd && e.long && !acqO e.ord && match b.kind with
    | .fence => !s.syncOwed r b
    | .ticket .. => false
    | _ => true

/-- Whether entry b, earlier in program order, holds back access a of entry e of gang r (R157 to R159, R169). -/
def State.heldBy (s : State) (r : GangRef) (g : Gang) (e : Entry) (a : Access) (b : Entry) : Bool :=
  (s.acquiring r g b && !s.mayPass r e a b) ||
  (b.kind == .fence && b.scope == .sys && (b.ord == .ar || (relO b.ord && a.writes)) &&
    (b.before.filterMap g.entry?).any fun x => x.owes false) ||
  (e.scope == .sys && relO e.ord && a.writes && b.owes false)

/-! ### Bytes that a gang's own stores will leave (R106, R153, R154) -/

/-- Whether an access covers byte i of a location, as a store. -/
def State.covers (s : State) (r : GangRef) (w : Nat × Nat × Nat) (i : Nat) (y : Access) : Bool :=
  let z := s.where_ r y
  (match y.op with
    | .wr _ => true
    | _ => false) && !y.img && z.1 == w.1 && z.2.1 == w.2.1 && decide (z.2.2 ≤ w.2.2 + i) && decide (w.2.2 + i < z.2.2 + y.bytes)

/-- The access with the highest lane. -/
def highest (l : List Access) : Option Access :=
  l.foldl (fun b y => match b with
    | none => some y
    | some x => if x.lane ≤ y.lane then some y else some x) none

/-- The byte that a store still to be applied will leave at byte i of a location: that of its highest lane, unless that one is applied. -/
def State.pendByte (s : State) (r : GangRef) (b : Entry) (w : Nat × Nat × Nat) (i : Nat) : Option Byte :=
  match highest (b.accs.filter (s.covers r w i)) with
  | none => none
  | some y => if y.done then none else match y.op with
    | .wr v => some (BitVec.ofNat 8 (v.toNat / 2 ^ (8 * (w.2.2 + i - (s.where_ r y).2.2))))
    | _ => none

/-- The earlier stores of a gang whose bytes a read would take, oldest first. -/
def State.sources (s : State) (r : GangRef) (e : Entry) (a : Access) : List Entry :=
  let w := s.where_ r a
  (s.gang r).infl.filter fun b => e.before.contains b.id && (List.range a.bytes).any fun i => (s.pendByte r b w i).isSome

/-- Whether each of a list of entries precedes the next in program order. -/
def inLine : List Entry → Bool
  | x :: y :: l => y.before.contains x.id && inLine (y :: l)
  | _ => true

/-- The releases that a write of entry e makes by going ahead of accesses before it: for its own order, and for each fence before it. -/
def State.newRels (s : State) (r : GangRef) (e : Entry) (a : Access) : List Rel :=
  let g := s.gang r
  let mk (fence : Bool) (o : Order) (sc : Scope) (ids : List Nat) : List Rel :=
    if !relO o || sc == .sys then [] else
    match ids.filter fun id => match g.entry? id with
        | some b => b.owes false
        | none => false with
    | [] => []
    | l => [{ r := r, scope := sc, at_ := s.where_ r a, bytes := a.bytes, ids := l, fence := fence }]
  mk false e.ord e.scope e.before ++ (e.before.filterMap g.entry?).flatMap fun b =>
    if b.kind == .fence then mk true b.ord b.scope b.before else []

/-- Whether an access may be applied as far as the accesses before it and what it reads say: coherence in program order (R153), acquires,
releases and fences (R157 to R159, R169). A plain read may pass plain stores of its own gang, whose bytes it takes (R154), if the order among
them is known; an image write has no byte to give (R234). -/
def State.mayGo (s : State) (r : GangRef) (e : Entry) (a : Access) : Bool :=
  let g := s.gang r
  let bs := e.before.filterMap g.entry?
  !a.done &&
  (bs.all fun b =>
    !s.heldBy r g e a b &&
    b.accs.all fun x =>
      x.done || !s.meets r a x ||
        (match a.op, x.op with
          | .rd, .rd => false
          | .rd, .wr _ => !x.img
          | _, _ => false)) &&
  (!a.reads || inLine (s.sources r e a)) &&
  (!a.reads ||
    !(s.relsAt (s.where_ r a) a.bytes).any fun t =>
      (t.fence && s.inScope t.r t.scope r) || (acqO e.ord && s.matches_ r e.scope t.r t.scope))

/-- Whether an access may be applied now. A write that would go ahead of accesses which it releases does so only while each of those could be
applied itself, so that whoever waits for them does not wait for ever (R155). -/
def State.mayApply (s : State) (r : GangRef) (e : Entry) (a : Access) : Bool :=
  s.mayGo r e a &&
  (!a.writes || (s.newRels r e a).all fun t => (t.ids.filterMap (s.gang r).entry?).all fun b => b.accs.all fun x => x.done || s.mayGo r b x)

/-- The byte i of a plain read: from the youngest earlier store of the gang that is not applied yet, else from its place. -/
def State.readByte (s : State) (r : GangRef) (e : Entry) (a : Access) (p : Place) (i : Nat) : Byte :=
  (((s.sources r e a).filterMap fun b => s.pendByte r b (s.where_ r a) i).getLast?).getD (s.rdPlace p i)

/-- What a fence of gang q has seen, as a full fence that follows it has to follow it too: whatever the releases' scopes are (R158, R159). -/
def State.handed (s : State) (q : GangRef) (sc : Scope) (l : List Seen) : List Seen :=
  (l.filter fun x => s.matches_ q sc x.r x.scope).map fun x => { x with scope := .sys }

/-- What a read has seen goes to the fences after it, to the full fences that follow one of those (R159), and to the splits that have issued it
(R157, R158). -/
def State.synced (s : State) (r : GangRef) (e : Entry) (a : Access) : State :=
  match (s.relsAt (s.where_ r a) a.bytes).map Rel.seen with
  | [] => s
  | xs =>
    let g := s.gang r
    let add (x : Split) : Split := if x.hist.contains e.id then { x with seen := x.seen.filter s.owed ++ xs } else x
    let s1 := s.setGang r { g with
      run := g.run.map add, pend := g.pend.map add, parked := g.parked.map add,
      infl := g.infl.map fun b => if b.kind == .fence && b.before.contains e.id then { b with sync := b.sync ++ xs } else b }
    let after := g.infl.filter fun b => b.kind == .fence && b.before.contains e.id
    let more (b : Entry) : List Seen := after.flatMap fun f =>
      if b.sync.any fun z => z.r == r && z.ids.contains f.id then s.handed r f.scope xs else []
    { s1 with gangs := s1.gangs.map fun y => (y.1, { y.2 with infl := y.2.infl.map fun b =>
        { b with sync := b.sync ++ more b } }) }

/-- A read has been applied: the loads that went ahead of it as an acquire are made again, unless it read what the host wrote (R163). -/
def State.reread (s : State) (r : GangRef) (e : Entry) (a : Access) : State :=
  let g := s.gang r
  let w := s.where_ r a
  let narrow (b : Entry) : Bool := acqO b.ord && b.scope != .sys
  let roles : List Nat := (if narrow e then [e.id] else []) ++
    (g.infl.filter fun b => b.kind == .fence && narrow b && b.before.contains e.id).map Entry.id
  if roles.isEmpty || ((w.1 == 0 || w.1 == 3) && s.fromHost ⟨w.1 == 3, w.2.2⟩ a.bytes) then s else
  s.setGang r { g with infl := g.infl.map fun b =>
    if b.kind == .mem && b.long && !b.done && b.before.any roles.contains then
      { b with accs := b.accs.map fun x => if x.op == .rd then { x with done := false } else x }
    else b }

/-- A mark when n bytes at a location have been written: of the bytes written the value belongs to the release sequence or not (`live`); the
others keep theirs. -/
def Rel.cut (w : Nat × Nat × Nat) (n : Nat) (live : Bool) (t : Rel) : List Rel :=
  let piece (a b : Nat) (live : Bool) : List Rel :=
    if a < b then [{ t with at_ := (t.at_.1, t.at_.2.1, a), bytes := b - a, live := live }] else []
  let a := t.at_.2.2
  let lo := Nat.max a w.2.2
  let hi := Nat.min (a + t.bytes) (w.2.2 + n)
  if t.touches w n then piece a lo t.live ++ piece lo hi live ++ piece hi (a + t.bytes) t.live else [t]

/-- A write has been applied: a read-modify-write continues the release sequences of its location, a plain one ends them (R157). -/
def State.written (s : State) (r : GangRef) (e : Entry) (a : Access) (rmw : Bool) : State :=
  let w := s.where_ r a
  { s with rels := (s.rels.filter fun t => s.owed t.seen).flatMap (Rel.cut w a.bytes rmw) ++ s.newRels r e a }

/-! ### Deferred reductions (R175, R176) -/

/-- Whether reductions of this kind share one entry. -/
def combines (op : Amo) (t : Ty) : Bool :=
  match op with
  | .exch | .cas => false
  | .add => !t.floating
  | _ => true

/-- Entries that deferred reductions take. -/
def ouaEntries : List DRed → Nat
  | [] => 0
  | d :: ds =>
    (if combines d.op d.t && ds.any (fun x => x.loc == d.loc && x.op == d.op && x.t == d.t) then 0 else 1) + ouaEntries ds

/-- Entries taken in a context's ordered-update area. -/
def State.ouaUsed (s : State) (ctx : Nat) : Nat :=
  s.grids.foldl (fun n x => if x.2.ctx = ctx then n + ouaEntries x.2.dred else n) 0

/-- A reduction recorded; `none`: the area is full. -/
def State.record (s : State) (grid : Nat) (d : DRed) : Option State :=
  let g := s.grid grid
  let s' := s.setGrid grid { g with dred := g.dred ++ [d] }
  if s'.ouaUsed g.ctx * (Config.ouaEntry + 1) ≤ (s.ctx g.ctx).ouasz.toNat || s'.ouaUsed g.ctx = s.ouaUsed g.ctx
  then some s' else none

/-! ### Application -/

/-- Positions of a store's bytes that no higher lane of its instruction has written already (R106); images obey no lane order
(R234). -/
def State.freshBytes (s : State) (r : GangRef) (e : Entry) (a : Access) : List Nat :=
  let x := s.where_ r a
  (List.range a.bytes).filter fun i => !(e.accs.any fun b =>
    b.done && decide (a.lane < b.lane) && !a.img && !b.img &&
    (let y := s.where_ r b
     y.1 == x.1 && y.2.1 == x.2.1 && decide (y.2.2 ≤ x.2.2 + i) && decide (x.2.2 + i < y.2.2 + b.bytes)))

/-- A store of x applied at a place; a 32-bit one that writes a kick word kicks its queue (R337). -/
def State.storeAt (s : State) (r : GangRef) (e : Entry) (a : Access) (p : Place) (x : W64) : State :=
  let fresh := s.freshBytes r e a
  let s1 := s.wrBytes p x fresh
  match p with
  | .mem l => if a.kick && a.bytes == 4 && !fresh.isEmpty then s1.kickAt l (x.setWidth 32) else s1
  | _ => s1

/-- A read-modify-write applied at a location: the value it read; a deferred one is recorded (R173, R175). -/
def State.rmwAt (s : State) (r : GangRef) (e : Entry) (a : Access) (l : Loc) (op : Amo) (t : Ty) (c x : W64) :
    Except (Nat × Nat) (State × W64) :=
  let grp := s.group r.group
  let d := s.grid grp.grid
  let m : W64 := BitVec.ofNat 64 (s.rdLoc l a.bytes)
  let wr (k : Except (Nat × Nat) (State × W64)) : Except (Nat × Nat) (State × W64) :=
    match s.xlate d.ctx (s.prvAt r a) .write a.addr with
    | .ok _ => k
    | .error z => .error (z, a.addr)
  if s.inD d.ctx a.addr && a.land == .none then
    wr (match s.record grp.grid ⟨grp.lin, r.gang, e.dq, a.lane, l.key, op, t, c, x⟩ with
      | some s1 => .ok (s1, 0)
      | none => .error (0x06, a.addr))
  else
    match amoNew op t m c x with
    | none => .ok (s, m)
    | some v => wr (.ok ((s.wrLoc l a.bytes v.toNat).written r e a true, m))

/-- Applies access k of an entry: the state after it with the value read; or the task-end code and the address (R289). -/
def State.applyAcc (s : State) (r : GangRef) (e : Entry) (a : Access) : Except (Nat × Nat) (State × W64) :=
  match s.place r a with
  | .error c => .error (c, a.addr)
  | .ok p =>
    match (match p with
      | .scr k o => s.touchPage k o a.reads
      | _ => .ok s) with
    | .error b => .error (0x03, b)
    | .ok s1 =>
      match a.op with
      | .rd => .ok ((s1.synced r e a).reread r e a, BitVec.ofNat 64 (leNat ((List.range a.bytes).map fun i => s1.readByte r e a p i)))
      | .wr x => .ok ((s1.storeAt r e a p x).written r e a false, 0)
      | .rmw op t c x =>
        match p with
        | .mem l =>
          match s1.rmwAt r e a l op t c x with
          | .ok (s2, m) => .ok ((s2.synced r e a).reread r e a, m)
          | .error z => .error z
        | _ => .ok (s1, 0)

/-- One access of an entry marked applied, with the value it read. -/
def Entry.applied (e : Entry) (k : Nat) (v : W64) : Entry :=
  { e with accs := e.accs.zipIdx.map fun x => if x.2 = k then { x.1 with done := true, val := v } else x.1 }

end Sys2Proof.Machine
end

