-- ==== Sys2Proof/Machine/Engines.lean ====
section
/-!
DEFINITION. Tickets and timelines (R237, R238): numbers, states, the resolved mark, starting and ending an operation.
-/
namespace Sys2Proof.Machine

/-- Engine codes (R237). -/
def engCopy : Nat := 1
def engMatrix : Nat := 3
def engPlate : Nat := 4
def engNet : Nat := 5
def engColl : Nat := 6

/-- Key of an operation: engine code and number. -/
def okey (eng num : Nat) : Nat := eng * 2 ^ 64 + num
def okeyEng (k : Nat) : Nat := k / 2 ^ 64
def okeyNum (k : Nat) : Nat := k % 2 ^ 64

def OpSt.final : OpSt → Bool
  | .completed | .failed | .cancelled => true
  | _ => false

/-- The latest number of a timeline. -/
def Ctx.latest (c : Ctx) (eng : Nat) : Nat := Sparse.get 0 c.tl eng
/-- An operation; a number never used reads as completed (number 0, R238). -/
def Ctx.op (c : Ctx) (eng num : Nat) : Op := Sparse.get { st := .completed } c.ops (okey eng num)
def Ctx.setOp (c : Ctx) (eng num : Nat) (o : Op) : Ctx := { c with ops := Sparse.put c.ops (okey eng num) o }

/-- A ticket (R237). -/
def ticketOf (eng num : Nat) : W64 := BitVec.ofNat 64 (eng * 2 ^ 56 + num % 2 ^ 56)

/-- Starts an operation: it takes the timeline's next number (R238). -/
def State.startOp (s : State) (ctx eng : Nat) (o : Op) : Nat × State :=
  let c := s.ctx ctx
  let n := c.latest eng + 1
  (n, s.setCtx ctx ({ c with tl := Sparse.put c.tl eng n }.setOp eng n o))

def State.op (s : State) (ctx eng num : Nat) : Op := (s.ctx ctx).op eng num
def State.setOpSt (s : State) (ctx eng num : Nat) (st : OpSt) : State :=
  let c := s.ctx ctx
  s.setCtx ctx (c.setOp eng num { c.op eng num with st := st })

/-- The full number of a ticket's 56 bits: the greatest number at or below the latest with these low bits (R238); `none` above the
timeline's latest number. -/
def fullNum (latest low : Nat) : Option Nat :=
  if low ≤ latest % 2 ^ 56 then some (latest - (latest % 2 ^ 56 - low))
  else if 2 ^ 56 ≤ latest then some (latest - latest % 2 ^ 56 - 2 ^ 56 + low) else none

/-- A ticket's engine and number; `none` for an unassigned code or number (R237). -/
def Ctx.ticket (c : Ctx) (t : W64) : Option (Nat × Nat) :=
  let eng := bitsOf t.toNat 63 56
  if [1, 3, 4, 5, 6].contains eng then
    match fullNum (c.latest eng) (bitsOf t.toNat 55 0) with
    | some n => some (eng, if bitsOf t.toNat 55 0 = 0 then 0 else n)
    | none => none
  else none

/-- The state of an operation as a ticket reads it: number 0, and a number older than the latest 65,536, read as completed (R238). -/
def Ctx.opSt (c : Ctx) (eng num : Nat) : OpSt :=
  if num = 0 ∨ num + 65536 ≤ c.latest eng then .completed else (c.op eng num).st

/-- The resolved mark reaches num: no operation numbered 1 to num is still queued or running (R238). -/
def Ctx.marked (c : Ctx) (eng num : Nat) : Bool :=
  c.ops.all fun x => okeyEng x.1 != eng || decide (num < okeyNum x.1) || x.2.st.final

/-- A ticket whose operation has completed and is resolved (R238, R239). -/
def Ctx.done (c : Ctx) (t : W64) : Bool :=
  match c.ticket t with
  | some (eng, n) => c.opSt eng n == .completed && c.marked eng n
  | none => false

/-- A ticket on which `wtl` waits no longer (R239). -/
def Ctx.ready (c : Ctx) (t : W64) : Bool :=
  match c.ticket t with
  | some (eng, n) =>
    let st := c.opSt eng n
    st == .failed || st == .cancelled || (st.final && c.marked eng n)
  | none => true

/-- Whether every entry that an operation follows is applied (R161): its start is ordered after its starter's earlier accesses. -/
def State.opMayStart (s : State) (o : Op) : Bool :=
  let g := s.gang o.by_
  o.before.all fun id => match g.entry? id with
    | some e => !s.pendingEntry e
    | none => true

/-- The operations of a context whose starter's grid satisfies a test. -/
def Ctx.mapOps (c : Ctx) (p : Op → Bool) (f : Nat → Op → Op) : Ctx :=
  { c with ops := c.ops.map fun x => if p x.2 then (x.1, f (okeyEng x.1) x.2) else x }

/-- Whether a group has engine work that has not reached a final state (R180, R241): copies, batches, plate operations. -/
def State.groupBusy (s : State) (group : Nat) : Bool :=
  (s.ctx (s.grid (s.group group).grid).ctx).ops.any fun x =>
    x.2.by_.group == group && !x.2.st.final && [1, 3, 4].contains (okeyEng x.1)

/-- Where an engine's access on a task's behalf lands, or the code that ends the task: leases first, then translation (R347, R352). -/
def State.engLoc (s : State) (grid : Nat) (need : Need) (a n : Nat) : Except Nat Loc :=
  if inLease (s.leaseSet grid) a n then s.xlate (s.grid grid).ctx ((s.grid grid).ctx == 0) need a else .error 0x01

/-- Bytes from `a` as an engine reads them, each checked: the address and code of the first that fails. -/
def State.engBytes (s : State) (grid a : Nat) : Nat → Except (Nat × Nat) (List Byte)
  | 0 => .ok []
  | n + 1 =>
    match s.engLoc grid .read a 1 with
    | .error c => .error (c, a)
    | .ok l =>
      match s.engBytes grid ((a + 1) % 2 ^ 64) n with
      | .error e => .error e
      | .ok bs => .ok (BitVec.ofNat 8 (s.rdLoc l 1) :: bs)

/-- The lowest aligned offset at which `n` bytes fit in an area of `size` bytes beside the ranges in use; `fuel` bounds the search by
the ranges. -/
def firstFit (used : List (Nat × Nat)) (align n size : Nat) : Nat → Nat → Option Nat
  | 0, _ => none
  | fuel + 1, o =>
    if size < o + n then none else
    match used.find? fun u => decide (o < u.1 + u.2) && decide (u.1 < o + n) with
    | none => some o
    | some u => firstFit used align n size fuel ((u.1 + u.2 + align - 1) / align * align)

end Sys2Proof.Machine
end

