-- ==== Sys2Proof/Machine/Front.lean ====
section
/-!
DEFINITION. The front end's shared operations: graph tables (R329 to R334), record logs and snapshots (R186 to R189), the status words
of descriptors and tables (R323, R329), resources freed (R274, R365), and the end of a task (R289).
-/
namespace Sys2Proof.Machine

/-! ### Status words -/

/-- `state` and `code` of a launch descriptor (R323). -/
def State.descState (s : State) (ctx : Nat) (daddr : W64) (st code : Nat) : State :=
  s.vaWrite ctx (daddr.toNat + 0x38) 8 (st + 256 * code)

/-! ### Graph tables (R329) -/

/-- The word at byte offset `off` of node k in a table's copy. -/
def nodeWord (t : List W64) (k off : Nat) : Nat := (t.getD (8 + 8 * k + off / 8) 0).toNat
def nodeKind (t : List W64) (k : Nat) : Nat := bitsOf (nodeWord t k 0) 1 0
def nodeNp (t : List W64) (k : Nat) : Nat := bitsOf (nodeWord t k 0) 15 8
def nodeNsu (t : List W64) (k : Nat) : Nat := bitsOf (nodeWord t k 0) 19 16
def nodeDm (t : List W64) (k : Nat) : Nat := bitsOf (nodeWord t k 0) 21 20
def nodeNs (t : List W64) (k : Nat) : Nat := bitsOf (nodeWord t k 0) 23 22
def nodeAddr (t : List W64) (k : Nat) : Nat := nodeWord t k 8

/-- An edge out of a node: successor, kind (0 full, 1 tile-mapped, 2 early), decision set. -/
structure Edge where
  dest : Nat
  kind : Nat
  set : Nat
  deriving DecidableEq, Repr

def nodeEdges (t : List W64) (k : Nat) : List Edge :=
  (List.range (Nat.min 8 (nodeNsu t k))).map fun i =>
    ⟨bitsOf (nodeWord t k 0x10) (8 * i + 7) (8 * i), bitsOf (nodeWord t k 0x18) (2 * i + 1) (2 * i),
     bitsOf (nodeWord t k 0x18) (32 + 2 * i + 1) (32 + 2 * i)⟩

/-- The value that a decision node uses in place of its word: the greatest posted (R334, R335). -/
def Node.posted (n : Node) : Option Nat :=
  match n.posts with
  | [] => none
  | l => some (l.foldl (fun m x => Nat.max m x.2) 0)

def Graph.node (g : Graph) (k : Nat) : Node := Sparse.get { cnt := nodeNp g.t k } g.nodes k
def Graph.setNode (g : Graph) (k : Nat) (n : Node) : Graph := { g with nodes := Sparse.put g.nodes k n }
def State.node (s : State) (gi k : Nat) : Node := (s.graph gi).node k
def State.setNode (s : State) (gi k : Nat) (n : Node) : State := s.setGraph gi ((s.graph gi).setNode k n)

/-- A node's status, also written in the table (R329). -/
def State.nodeSt (s : State) (gi k st : Nat) : State :=
  let g := s.graph gi
  let n := g.node k
  (s.setNode gi k { n with st := st }).vaWrite g.ctx (g.table.toNat + 64 + 64 * k + 0x30) 8 (st + 256 * n.set)

/-- `gst` and `fnode` (R329). -/
def State.graphSt (s : State) (gi st fnode : Nat) : State :=
  let g := s.graph gi
  s.vaWrite g.ctx (g.table.toNat + 8) 8 (st + 256 * fnode)

/-! ### Record logs (R186) -/

def State.segWord (s : State) (ctx : Nat) (seg : W64) (off n : Nat) : Nat := s.vaRead ctx (seg.toNat + off) n

/-- Entries that a chain of segments can still take, from a segment on. -/
def State.logRoom (s : State) (ctx : Nat) (seg : W64) : Nat → Nat
  | 0 => 0
  | f + 1 =>
    let next := s.segWord ctx seg 0x38 8
    (s.segWord ctx seg 0x18 4 - s.segWord ctx seg 0x10 4) +
      (if next = 0 ∨ next % 64 ≠ 0 then 0 else s.logRoom ctx (BitVec.ofNat 64 next) f)

/-- The first segment of a chain with room. -/
def State.logSeg (s : State) (ctx : Nat) (seg : W64) : Nat → W64
  | 0 => seg
  | f + 1 =>
    let next := s.segWord ctx seg 0x38 8
    if s.segWord ctx seg 0x10 4 < s.segWord ctx seg 0x18 4 ∨ next = 0 ∨ next % 64 ≠ 0 then seg
    else s.logSeg ctx (BitVec.ofNat 64 next) f

/-- Segments that a walk along a chain looks at. -/
def segFuel : Nat := 65536

/-- Writes one reserved entry; the first in a segment that firmware has linked comes with that segment's `graph` (R186, R187). -/
def State.logEntry (s : State) (gi kind node : Nat) (value : W64) : State :=
  let g := s.graph gi
  let seg := s.logSeg g.ctx g.seg segFuel
  let used := s.segWord g.ctx seg 0x10 4
  let at_ := seg.toNat + 64 + 16 * used
  let s0 := if seg = g.seg then s else s.vaWrite g.ctx (seg.toNat + 8) 8 g.table.toNat
  let s1 := s0.vaWrite g.ctx at_ 8 (node + kind * 2 ^ 56)
  let s2 := s1.vaWrite g.ctx (at_ + 8) 8 value.toNat
  let s3 := s2.vaWrite g.ctx (seg.toNat + 0x10) 8 (used + 1)
  let n := g.node node
  s3.setGraph gi ({ g with seg := seg, reserved := g.reserved - 1 }.setNode node { n with reserved := false })

/-- `state` of the first segment. -/
def State.logState (s : State) (gi st : Nat) : State :=
  let g := s.graph gi
  s.vaWrite g.ctx g.log0.toNat 1 st

/-- A counter of the first segment raised: `chk`, `mism`, `resolved`. -/
def State.logCount (s : State) (gi off : Nat) : State :=
  let g := s.graph gi
  s.vaWrite g.ctx (g.log0.toNat + off) 8 ((s.segWord g.ctx g.log0 off 8 + 1) % 2 ^ 64)

/-- What a restrike finds for a node and kind: an entry's value, none, or a kind that no log holds (R186). -/
inductive Found where
  | none | value (x : W64) | corrupt
  deriving DecidableEq, Repr

/-- Entries i, i+1, … of a segment, `n` of them. -/
def State.findIn (s : State) (ctx : Nat) (seg : W64) (kind node : Nat) : Nat → Nat → Found
  | _, 0 => .none
  | i, n + 1 =>
    let w := s.segWord ctx seg (64 + 16 * i) 8
    let k := bitsOf w 63 56
    if k = 0 ∨ 2 < k then .corrupt
    else if k = kind ∧ bitsOf w 31 0 = node then .value (BitVec.ofNat 64 (s.segWord ctx seg (72 + 16 * i) 8))
    else s.findIn ctx seg kind node (i + 1) n

def State.findEntry (s : State) (ctx : Nat) (kind node : Nat) (seg : W64) : Nat → Found
  | 0 => .none
  | f + 1 =>
    match s.findIn ctx seg kind node 0 (s.segWord ctx seg 0x10 4) with
    | .none =>
      let next := s.segWord ctx seg 0x38 8
      if next = 0 ∨ next % 64 ≠ 0 then .none else s.findEntry ctx kind node (BitVec.ofNat 64 next) f
    | r => r

/-! ### Snapshots (R188) -/

/-- The D ranges inside [a, a + n), by 64 KiB pages. -/
def State.dRanges (s : State) (ctx a n : Nat) : List (Nat × Nat) :=
  (List.range (n / 65536 + 2)).filterMap fun i =>
    let lo := Nat.max a ((a / 65536 + i) * 65536)
    let hi := Nat.min (a + n) ((a / 65536 + i + 1) * 65536)
    if lo < hi && s.inD ctx lo then some (lo, hi - lo) else none

/-- Bytes copied from one virtual range to another. -/
def State.vaCopy (s : State) (ctx src dst : Nat) : Nat → State
  | 0 => s
  | n + 1 => (s.vaWrite ctx dst 1 (s.vaByte ctx src).toNat).vaCopy ctx (src + 1) (dst + 1) n

def State.vaBytes (s : State) (ctx a : Nat) : Nat → List Byte
  | 0 => []
  | n + 1 => s.vaByte ctx a :: s.vaBytes ctx (a + 1) n

/-- Places of the snapshots that a graph holds. -/
def Graph.snapsHeld (g : Graph) : List (Nat × Nat) := g.nodes.filterMap fun x => x.2.snapOff

/-- Takes a node's snapshot: the state with it, or `none` while there is no room. Where a copy lies in the area the manual does not
say: at a free 64-byte aligned place if it fits there, else at the lowest (log entry 26). -/
def State.snapshot (s : State) (gi k : Nat) : Option State :=
  let g := s.graph gi
  let d := s.vaWords g.ctx (nodeAddr g.t k) 80
  let rs := (dLeases d).flatMap fun l => s.dRanges g.ctx l.1 l.2
  let size := rs.foldl (fun n r => n + r.2) 0
  let any_ := 64 * (Config.turnChoice s.tick % (g.snapN / 64 + 1))
  let fits := decide (any_ + size ≤ g.snapN) && g.snapsHeld.all fun u => decide (u.1 + u.2 ≤ any_) || decide (any_ + size ≤ u.1)
  match if fits then some any_ else firstFit g.snapsHeld 64 size g.snapN (g.nodes.length + 1) 0 with
  | none => none
  | some o =>
    let copied := rs.foldl (fun (acc : State × Nat) r =>
      (acc.1.vaCopy g.ctx r.1 (g.snapA.toNat + acc.2) r.2, acc.2 + r.2)) (s, o)
    let n := g.node k
    some (copied.1.setNode gi k
      { n with snapOff := some (o, size), snap := rs })

/-- A node's D ranges as its snapshot holds them (R189). -/
def State.restore (s : State) (gi k : Nat) : State :=
  let g := s.graph gi
  let n := g.node k
  match n.snapOff with
  | none => s
  | some o => (n.snap.foldl (fun (acc : State × Nat) r =>
      (acc.1.vaCopy g.ctx (g.snapA.toNat + acc.2) r.1 r.2, acc.2 + r.2)) (s, o.1)).1

/-- Bytes of a node's D ranges. -/
def State.snapSize (s : State) (gi k : Nat) : Nat :=
  let g := s.graph gi
  let d := s.vaWords g.ctx (nodeAddr g.t k) 80
  ((dLeases d).flatMap fun l => s.dRanges g.ctx l.1 l.2).foldl (fun n r => n + r.2) 0

/-- Snapshots no longer needed are dropped: the node is done and every decision node after it has decided (R188). -/
def Graph.prune (g : Graph) : Graph :=
  { g with nodes := g.nodes.map fun x =>
      if x.2.snapOff.isSome && decide (2 ≤ x.2.st) &&
        (nodeEdges g.t x.1).all fun e => nodeKind g.t e.dest != 1 || decide (2 ≤ (g.node e.dest).st)
      then (x.1, { x.2 with snapOff := none, snap := [] }) else x }

/-! ### Releasing nodes (R330 to R334) -/

/-- Whether the front end launches and decides nothing further for now. -/
def Graph.stopped (g : Graph) : Bool :=
  g.failed || match g.ls with
    | .waiting _ | .halted | .ended _ => true
    | _ => false

/-- Ends a graph's log with a state; the graph ends with it when it is a proof-run or restrike outcome (R187, R189, R333). -/
def State.endLog (s : State) (gi st : Nat) : State :=
  let s1 := s.logState gi st
  let g := s1.graph gi
  s1.setGraph gi { g with ls := .ended st }

/-- Reserves one log entry; when none is free the graph waits for a segment and firmware is told (R187). -/
def State.reserve (s : State) (gi k : Nat) : Bool × State :=
  let g := s.graph gi
  match g.ls with
  | .recording =>
    let n := g.node k
    if n.reserved then (true, s)
    else if g.reserved < s.logRoom g.ctx g.seg segFuel then
      (true, s.setGraph gi ({ g with reserved := g.reserved + 1 }.setNode k { n with reserved := true }))
    else
      (false, (s.setGraph gi { g with ls := .waiting s.now }).report 0x02 0 g.ctx 0 g.part g.table g.seg)
  | _ => (true, s)

/-- A node is held: released, and not yet acted on. -/
def State.hold (s : State) (gi k : Nat) : State :=
  let n := s.node gi k
  s.setNode gi k { n with held := true }

/-- The decision's outcome takes effect: `set` written, deliveries made (R330, R334). -/
def State.decided (s : State) (gi k set : Nat) : State × List (Nat × Bool) :=
  let g := s.graph gi
  let n := g.node k
  let s1 := (s.setNode gi k { n with decided := true, set := set, held := false }).nodeSt gi k 2
  (s1, (nodeEdges g.t k).map fun e => (e.dest, e.set == set))

/-- The set that a decision node chooses (R334): from the value posted, if any, else from its word. -/
def State.choice (s : State) (gi k : Nat) : Nat :=
  let g := s.graph gi
  let v := match (g.node k).posted with
    | some v => v
    | none => s.vaRead g.ctx (nodeAddr g.t k) 4
  if nodeDm g.t k = 0 then (if v = 0 then 0 else 1) else Nat.min v (nodeNs g.t k)

/-- Whether a decision node may read its word now: as an acquire at device scope (R334). -/
def State.mayDecide (s : State) (gi k : Nat) : Bool :=
  let g := s.graph gi
  (g.node k).posted.isSome || s.acquires g.part g.ctx (nodeAddr g.t k) 4

/-- A node whose counter has reached zero with a done delivery (R331). Deliveries it makes. -/
def State.release (s : State) (gi k : Nat) : State × List (Nat × Bool) :=
  let g := s.graph gi
  if g.stopped then (s.hold gi k, []) else
  match nodeKind g.t k with
  | 2 =>
    let n := g.node k
    ((s.setNode gi k { n with held := false }).nodeSt gi k 2, (nodeEdges g.t k).map fun e => (e.dest, true))
  | 1 =>
    if !s.mayDecide gi k then (s.hold gi k, []) else
    match s.reserve gi k with
    | (false, s1) => (s1.hold gi k, [])
    | (true, s1) =>
      let set := s1.choice gi k
      match g.ls with
      | .recording => (s1.logEntry gi 2 k (BitVec.ofNat 64 set)).decided gi k set
      | .checking =>
        match s1.findEntry g.ctx 2 k g.log0 segFuel with
        | .none => s1.decided gi k set
        | .corrupt => (s1.endLog gi 5, [])
        | .value x =>
          let s2 := s1.logCount gi 0x20
          if x.toNat = set then s2.decided gi k set
          else
            let s3 := s2.logCount gi 0x28
            let g3 := s3.graph gi
            ((s3.setGraph gi { g3 with ls := .halted, bad := some (k, true) }).report 0x03 2 g.ctx 0 g.part
              (BitVec.ofNat 64 k) g.log0, [])
      | _ => s1.decided gi k set
  | _ =>
    let det := bitsOf (s.vaRead g.ctx (nodeAddr g.t k + 8) 8) 22 22 = 1
    let submit (s : State) : State × List (Nat × Bool) :=
      let n := s.node gi k
      let s1 := s.setNode gi k { n with held := false }
      let sub : Sub := { daddr := BitVec.ofNat 64 (nodeAddr g.t k), ctx := g.ctx, part := g.part, node := some ⟨gi, k⟩,
                         queue := g.queue, floor := g.floor }
      ({ s1 with subs := s1.subs ++ [sub] }, [])
    if !det then submit s else
    match g.ls with
    | .recording =>
      match s.reserve gi k with
      | (false, s1) => (s1.hold gi k, [])
      | (true, s1) => submit s1
    | .checking =>
      if g.snapN < s.snapSize gi k then (s.endLog gi 6, [])
      else match s.snapshot gi k with
        | none => (s.hold gi k, [])
        | some s1 => submit s1
    | _ => submit s

/-- A node skipped (R331): status 3, its descriptor's `state` 6, every edge void. -/
def State.skip (s : State) (gi k : Nat) : State × List (Nat × Bool) :=
  let g := s.graph gi
  let s1 := s.nodeSt gi k 3
  let s2 := if nodeKind g.t k = 0 then s1.descState g.ctx (BitVec.ofNat 64 (nodeAddr g.t k)) 6 0 else s1
  (s2, (nodeEdges g.t k).map fun e => (e.dest, false))

/-- Deliveries, one at a time (R330, R331). A failed graph takes none (R333). -/
def State.deliver (s : State) (gi : Nat) : Nat → List (Nat × Bool) → State
  | 0, _ => s
  | _, [] => s
  | f + 1, (k, d) :: rest =>
    let g := s.graph gi
    if g.failed then s else
    let n := g.node k
    let n1 := { n with cnt := n.cnt - 1, gotDone := n.gotDone || d }
    let s1 := s.setNode gi k n1
    if n1.cnt = 0 then
      let (s2, more) := if n1.gotDone then s1.release gi k else s1.skip gi k
      s2.deliver gi f (rest ++ more)
    else s1.deliver gi f rest

/-- Deliveries a graph can ever make, bounded: 256 nodes of 8 edges. -/
def deliverFuel : Nat := 4096

/-- Nodes with a tile-mapped edge into a node. -/
def tileProducers (t : List W64) (nn k : Nat) : List Nat :=
  (List.range nn).filter fun p => (nodeEdges t p).any fun e => e.dest == k && e.kind == 1

/-! ### Symmetry elements (R226 to R229) -/

/-- The image of group coordinates under an element. -/
def SymEl.act (h : SymEl) (d : Grid) (x : List Nat) : List Nat :=
  (List.range 3).map fun m =>
    let e := d.extent m
    let v := x.getD (h.pi.getD m 0) 0
    (if h.sg.getD m false then h.o.getD m 0 + e - v % e else v + h.o.getD m 0) % e

/-- Whether the walker issues a group: it is the least of its orbit (R228). -/
def Grid.issues (d : Grid) (lin : Nat) : Bool :=
  d.elems.all fun h => decide (lin ≤ d.linear (h.act d (d.coord lin)))

/-- The orbit of a group: linear indices, each once. -/
def Grid.orbit (d : Grid) (lin : Nat) : List Nat := (d.elems.map fun h => d.linear (h.act d (d.coord lin))).eraseDups

/-- The stabilizer mask (R229). -/
def Grid.symself (d : Grid) (lin : Nat) : Nat :=
  if d.elems.isEmpty then 1 else
  ((List.range d.elems.length).filter fun j => d.linear ((d.elems.getD j {}).act d (d.coord lin)) == lin).foldl
    (fun m j => m + 2 ^ j) 0

/-- Groups that the walker issues, counted. -/
def Grid.issuedFrom (d : Grid) : Nat → Nat
  | 0 => 0
  | n + 1 => (if d.issues n then 1 else 0) + d.issuedFrom n
def Grid.issued (d : Grid) : Nat := if d.elems.length ≤ 1 then d.count else d.issuedFrom d.count

/-! ### Tile-mapped edges (R332) -/

/-- A tile map's box on axis m for coordinate c in a producer of extent E; an empty box is (1, 0) (R332). -/
def tileBox (tw tb m c E : Nat) : Nat × Nat :=
  let a := bitsOf tw (15 + 4 * m) (12 + 4 * m)
  let w := bitsOf tw (31 + 8 * m) (24 + 8 * m) + 1
  let b := (BitVec.ofNat 16 (bitsOf tb (15 + 16 * m) (16 * m))).toInt
  let lo : Int := (a * c : Nat) + b
  let hi : Int := lo + w - 1
  if hi < 0 ∨ (E : Int) ≤ lo then (1, 0) else ((max lo 0).toNat, (min hi ((E : Int) - 1)).toNat)

/-- The first index from `i` on that the walker issues; `n` bounds the search (R228). -/
def Grid.nextIssued (d : Grid) : Nat → Nat → Option Nat
  | 0, _ => none
  | n + 1, i => if d.count ≤ i then none else if d.issues i then some i else d.nextIssued n (i + 1)

/-- Whether a node has dispatched all its groups, or never will (R332). -/
def State.dispatchedAll (s : State) (g : Graph) (k : Nat) : Bool :=
  let n := g.node k
  decide (2 ≤ n.st) || (match n.grid with
    | none => false
    | some x => ((s.grid x).nextIssued ((s.grid x).count - (s.grid x).next) (s.grid x).next).isNone)

/-- Whether everything that group lin of a consumer's grid needs of producer p has ended (R332). -/
def State.boxDone (s : State) (g : Graph) (k p : Nat) (d : Grid) (lin : Nat) : Bool :=
  let n := g.node p
  n.st == 3 || match n.grid with
    | none => false
    | some x =>
      let P := s.grid x
      let box (m : Nat) : Nat × Nat := tileBox (nodeWord g.t k 0x20) (nodeWord g.t k 0x28) m ((d.coord lin).getD m 0) (P.extent m)
      let span (b : Nat × Nat) : List Nat := (List.range (b.2 + 1)).filter fun i => decide (b.1 ≤ i)
      (span (box 2)).all fun z => (span (box 1)).all fun y => (span (box 0)).all fun x => P.ended.contains (P.linear [x, y, z])

/-- Whether a producer of a node over a tile-mapped edge has failed: the node's waiting groups are never dispatched (R332). -/
def Graph.starved (g : Graph) (k : Nat) : Bool := (tileProducers g.t g.nn k).any fun p => (g.node p).st == 4 || (g.node p).st == 5

/-- Whether everything that a group of a tile-mapped consumer needs has ended in its producers, and none of them has failed (R332). -/
def State.boxReady (s : State) (d : Grid) (lin : Nat) : Bool :=
  match d.node with
  | none => true
  | some ref =>
    let g := s.graph ref.graph
    !g.starved ref.node && (tileProducers g.t g.nn ref.node).all fun p => s.boxDone g ref.node p d lin

/-- Whether something of a grid still runs: a group that is dispatched and has not ended, a child grid, or one submitted. -/
def State.gridLive (s : State) (grid : Nat) : Bool :=
  (s.groupsOf grid).any (fun x => x.2.st != .ended) ||
  s.grids.any (fun x => x.2.parent == some grid && (x.2.st == .waiting || x.2.st == .running)) ||
  s.subs.any fun u => u.parent == some grid

/-- Whether nothing of an accepted node runs, nor ever will: it has groups to dispatch, whose next one waits for a producer that has failed, or
for one that is in the same case (R332, R333). `n` bounds the chain of producers. -/
def State.stuck (s : State) (g : Graph) : Nat → Nat → Bool
  | 0, _ => false
  | n + 1, k =>
    let x := g.node k
    x.st == 1 && !s.dispatchedAll g k && !x.grid.any s.gridLive &&
      (g.starved k || match x.grid with
        | none => false
        | some y =>
          let d := s.grid y
          match d.nextIssued (d.count - d.next) d.next with
          | none => false
          | some lin => (tileProducers g.t g.nn k).any fun p => s.stuck g n p && !s.boxDone g k p d lin)

/-- Whether an accepted node still runs (R333). -/
def State.nodeRuns (s : State) (g : Graph) (k : Nat) : Bool := (g.node k).st == 1 && !s.stuck g g.nn k

/-! ### The end of a graph (R333) -/

/-- The end of a graph, when nothing of it runs any more: `gst` (R329, R333), the log's state (R187, R189). What a proof run's log says when
a node has failed or was refused the manual leaves open: `state` stays 0 (log entry 137). -/
def State.graphCheck (s : State) (gi : Nat) : State :=
  let g := s.graph gi
  let ns := (List.range g.nn).map fun k => (k, g.node k)
  if g.finished || (List.range g.nn).any (s.nodeRuns g) then s else
  let s1 (st fnode : Nat) : State :=
    let s' := s.graphSt gi st fnode
    let g' := s'.graph gi
    s'.setGraph gi { g' with finished := true }
  match g.ls with
  | .ended _ => s1 5 0
  | ls =>
    if g.failed then
      let bad := (ns.filter fun x => x.2.st == 4 || x.2.st == 5).map (·.1)
      let s2 := s1 3 (bad.foldl Nat.min (bad.headD 0))
      match ls with
      | .checking => s2.logState gi 3
      | _ => s2
    else if ns.all fun x => x.2.st == 2 || x.2.st == 3 then
      match ls with
      | .recording => (s1 2 0).logState gi 1
      | .checking => (s1 2 0).logState gi 3
      | _ => s1 2 0
    else s

/-- Nodes held are tried again, in index order. -/
def State.retry (s : State) (gi : Nat) : List Nat → State
  | [] => s
  | k :: ks =>
    let n := s.node gi k
    let s1 := if n.held && n.st == 0 && !(s.graph gi).stopped then
        let (s2, w) := s.release gi k
        s2.deliver gi deliverFuel w
      else s
    s1.retry gi ks

/-- Deliveries, what they let go on, and the graph's end. -/
def State.graphStep (s : State) (gi : Nat) (work : List (Nat × Bool)) : State :=
  let s1 := s.deliver gi deliverFuel work
  let s2 := s1.setGraph gi (s1.graph gi).prune
  (s2.retry gi (List.range (s2.graph gi).nn)).graphCheck gi

/-- A launch node's grid has retired with `state` 3 and, when deterministic, a task digest: the log (R187, R188), the status, the
edges not delivered before (R330). -/
def State.nodeDone (s : State) (gi k : Nat) (dig : Option W64) (early : Bool) : State :=
  let g := s.graph gi
  let finish (s : State) : State :=
    let n := s.node gi k
    let s1 := (s.setNode gi k { n with held := false }).nodeSt gi k 2
    s1.graphStep gi ((nodeEdges g.t k).filterMap fun e =>
      if e.kind = 0 ∨ (e.kind = 2 ∧ !early) then some (e.dest, true) else none)
  match dig with
  | none => finish s
  | some d =>
    match g.ls with
    | .recording | .waiting _ | .truncated =>
      if (g.node k).reserved then finish (s.logEntry gi 1 k d) else finish s
    | .halted =>
      let n := g.node k
      s.setNode gi k { n with held := true, digest := some d }
    | .checking =>
      match s.findEntry g.ctx 1 k g.log0 segFuel with
      | .none => finish s
      | .corrupt => (s.nodeSt gi k 2).endLog gi 5 |>.graphCheck gi
      | .value x =>
        let s1 := s.logCount gi 0x20
        if x = d then finish s1
        else
          let s2 := s1.logCount gi 0x28
          let g2 := s2.graph gi
          (s2.setGraph gi { g2 with ls := .halted, bad := some (k, false) }).report 0x03 1 g.ctx 0 g.part
            (BitVec.ofNat 64 k) g.log0
    | _ => finish s

/-- A node refused (5) or failed (4): the graph launches and decides nothing further; launches not yet accepted are withdrawn
(R333). -/
def State.nodeFail (s : State) (gi k st : Nat) : State :=
  let s1 := s.nodeSt gi k st
  let g := s1.graph gi
  let s2 := s1.setGraph gi { g with failed := true }
  ({ s2 with subs := s2.subs.filter fun x => !(x.node.map NodeRef.graph == some gi) }).graphCheck gi

/-- When a graph that waits for a segment since a moment runs out of patience (R187). -/
def Graph.patience (g : Graph) (since : Nat) : Nat := since + 1000 * bitsOf (g.t.getD 0 0).toNat 31 16

/-- Recording ends truncated, and the graph runs on (R187). -/
def State.truncate (s : State) (gi : Nat) : State :=
  let g := s.graph gi
  let s1 := (s.setGraph gi { g with ls := .truncated }).logState gi 2
  (s1.retry gi (List.range g.nn)).graphCheck gi

/-- What a graph waits for is looked at again, before time passes: a segment that firmware has linked within the patience interval (R187), a
misaligned link ending recording as truncated; and whatever holds a node. -/
def State.pollLog (s : State) (gi : Nat) : State :=
  let g := s.graph gi
  match g.ls with
  | .waiting since =>
    if g.patience since ≤ s.now then s else
    let seg := s.logSeg g.ctx g.seg segFuel
    let next := s.segWord g.ctx seg 0x38 8
    if next ≠ 0 ∧ next % 64 ≠ 0 then s.truncate gi
    else if g.reserved < s.logRoom g.ctx g.seg segFuel then
      let s1 := s.setGraph gi { g with ls := .recording }
      (s1.retry gi (List.range g.nn)).graphCheck gi
    else s
  | _ => if (List.range g.nn).any fun k => (g.node k).held then (s.retry gi (List.range g.nn)).graphCheck gi else s

def State.pollLogs (s : State) : State := s.graphs.foldl (fun s x => s.pollLog x.1) s

/-! ### Resources (R274, R365) -/

/-- The pool of the run whose launches a context holds (R10). -/
def State.poolOf (s : State) (ctx : Nat) : Option Pool := s.pool.filter fun p => p.ctx == ctx

/-- Whether the groups of a launch may use a core: every core of its partition, or the pool's (R365). -/
def State.mayUse (s : State) (d : Grid) (core : Nat) : Bool :=
  s.mode.hasDie d.part (coreDie core) && (s.poolOf d.ctx).all fun p => p.core == core

/-- Resources have been freed on a core: they are given out (R274), and a launch that waits and may use it may ask again (R365). -/
def State.freeOn (s : State) (core : Nat) : State :=
  let c := s.core core
  let s1 := s.setCore core { c with freed := true, freedAt := if c.freed then c.freedAt else s.tick }
  { s1 with grids := s1.grids.map fun x =>
      if s.mayUse x.2 core then (x.1, { x.2 with reqHold := false }) else x }

/-- Resources count as freed on every core of a die (R273). -/
def State.freeDie (s : State) (die : Nat) : State :=
  (List.range 64).foldl (fun s k => s.freeOn (64 * die + k)) s

/-! ### Serial re-execution (R189) -/

/-- The grid of a node as firmware runs it again: its launch as it was accepted, from its first group on. -/
def Grid.again (d : Grid) (acc : Nat) : Grid :=
  { d with st := .waiting, next := 0, ended := [], dispatched := 0, dred := [], tdig := 0, code := 0, edge := false, marked := 0,
           surv := [], req := none, reqHold := false, stks := [], queue := none, acc := acc, redo := true }

/-- The next task of a re-execution starts, when none runs: as a launch like any other, on one core (log entry 138). -/
def State.redoNext (s : State) (gi : Nat) : State :=
  let g := s.graph gi
  match g.redo with
  | none => s
  | some x =>
    match x.grid, x.todo with
    | none, p :: ps =>
      match (g.node p).grid with
      | none => s.setGraph gi { g with redo := some { x with todo := ps, got := x.got ++ [(p, none)] } }
      | some k =>
        let (u, s1) := s.fresh
        let d := (s.grid k).again u
        ((s1.setGrid u d).descState d.ctx d.daddr 1 0).setGraph gi { g with redo := some { x with todo := ps, grid := some u } }
    | _, _ => s

/-- A task of a re-execution has ended, with its digest. -/
def State.redone (s : State) (gi k : Nat) (dig : Option W64) : State :=
  let g := s.graph gi
  match g.redo with
  | none => s
  | some x => (s.setGraph gi { g with redo := some { x with grid := none, got := x.got ++ [(k, dig)] } }).redoNext gi

/-! ### Early edges (R254, R330) -/

/-- Lanes of a gang whose mark has taken effect. -/
def Gang.markedLanes (g : Gang) : Nat := (lanesOf g.trig).length

/-- Lanes marked in a grid: those of ended groups and those of its running gangs. -/
def State.marksOf (s : State) (grid : Nat) : Nat :=
  (s.grid grid).marked + (s.groupsOf grid).foldl (fun n x =>
    if x.2.st = .ended then n else
    n + (List.range (s.grid grid).gangs).foldl (fun m j => m + (s.gang ⟨x.1, j⟩).markedLanes) 0) 0

/-- Fires a grid's early edge when every lane of every issued group is marked; `issued` counts the groups its walker issues. -/
def State.earlyCheck (s : State) (grid issued : Nat) : State :=
  let d := s.grid grid
  if d.edge || d.st != .running || d.dispatched < issued || s.marksOf grid < issued * d.gangs * d.w then s else
  let s1 := s.setGrid grid { d with edge := true }
  match if d.redo then none else d.node with
  | none => s1
  | some r =>
    s1.graphStep r.graph ((nodeEdges (s1.graph r.graph).t r.node).filterMap fun e =>
      if e.kind = 2 then some (e.dest, true) else none)

/-! ### The end of a task (R289) -/

/-- A grid and its descendants that have not retired. -/
def State.task (s : State) (grid : Nat) : List Nat :=
  (s.grids.filter fun x => (x.2.st == .waiting || x.2.st == .running) && (s.lineage x.1 11).contains grid).map (·.1)

/-- A gang's stores that are issued and not applied are applied (R155); atomics, reductions and reads are dropped (R174). -/
def State.flush (s : State) (r : GangRef) : State :=
  (s.gang r).infl.foldl (fun s e => (e.accs.zipIdx.foldl (fun (x : State × Entry) k =>
    match k.1.op with
    | .wr v =>
      if k.1.done then x else
      match x.1.place r k.1 with
      | .ok p => (x.1.storeAt r x.2 k.1 p v, x.2.applied k.2 0)
      | .error _ => x
    | _ => x) (s, e)).1) s

/-- A group's gangs and state are gone; its core's resources are free. -/
def State.dropGroup (s : State) (k : Nat) : State :=
  let grp := s.group k
  let s1 := { s with gangs := s.gangs.filter fun x => x.1 / 32 != k }
  let s2 := s1.setGroup k { grp with st := .ended, bars := [], bs := [], scr := [], pages := [], sieve := [] }
  if grp.st.placed then s2.freeOn grp.core else s2

/-- One grid of a task stops (R174, R202, R241, R289): stores settle, engine work stops, deferred reductions are discarded, and the
grid fails with the code. -/
def State.failGrid (s : State) (grid code : Nat) : State :=
  let gs := (s.groupsOf grid).filter fun x => x.2.st != .ended
  let rs := gs.flatMap fun x => (List.range (s.grid grid).gangs).map fun j => (⟨x.1, j⟩ : GangRef)
  let s1 := rs.foldl (fun s r => s.flush r) s
  let d := s1.grid grid
  let c := s1.ctx d.ctx
  let c1 := c.mapOps (fun o => o.grid == grid && !o.st.final) fun eng o =>
    if o.st = .queued then { o with st := .cancelled }
    else if eng = engPlate then o
    else if eng = engCopy then { o with st := .cancelled }
    else if eng = engNet && o.stamp.isSome then o
    else { o with st := .failed }
  let c2 := match d.handle with
    | some h => { c1 with children := Sparse.put c1.children h (grid, .failed) }
    | none => c1
  let late := s1.subs.filterMap fun u => if u.parent == some grid then u.handle else none
  let c3 := { c2 with children := late.foldl (fun m h => Sparse.put m h (0, GridSt.failed)) c2.children }
  let s2 := s1.setCtx d.ctx c3
  let s3 := gs.foldl (fun s x => s.dropGroup x.1) s2
  let d3 := s3.grid grid
  let s4 := s3.setGrid grid { d3 with st := .failed, code := code, dred := [] }
  let s5 := { s4 with subs := s4.subs.filter fun x => x.parent != some grid,
                      outbox := s4.outbox.filter fun p => p.stamp != Stamp.zero || p.ctx != d.ctx ||
                        ((s4.ctx d.ctx).op engNet p.num).grid != grid }
  let s6 := s5.descState d.ctx d.daddr 5 code
  match d.node with
  | some r => if d.redo then s6.redone r.graph r.node none else s6.nodeFail r.graph r.node 4
  | none => s6

/-- A task-ending event (R289): the grid and its children stop, and firmware is told; the second trap's cause and subcause are the fourth word
of the record (R288; log entry 74). -/
def State.endTask (s : State) (grid code : Nat) (r : GangRef) (fa : Nat) : State :=
  let d := s.grid grid
  if !(d.st == .waiting || d.st == .running) then s else
  let lin := (s.group r.group).lin
  let s1 := (s.task grid).foldl (fun s k => s.failGrid k code) s
  s1.report 0x01 code d.ctx r.gang d.part (BitVec.ofNat 64 lin) (BitVec.ofNat 64 fa)
    (if code = 0x04 then BitVec.ofNat 64 d.trap2 else 0)

/-- The task of a gang. -/
def State.endTaskOf (s : State) (r : GangRef) (code fa : Nat) : State :=
  s.endTask (s.group r.group).grid code r fa

end Sys2Proof.Machine
end

