-- ==== Sys2Proof/Machine/Trap.lean ====
section
/-!
DEFINITION. Taking a trap (R280 to R284, R288) and returning from one (R287, R296): one shared operation each.
-/
namespace Sys2Proof.Machine

/-- The handler address of a context; `none`: it has no handler (R280). -/
def Ctx.handler (c : Ctx) : Option W64 :=
  if c.tvec = 0 ∨ c.tvec.toNat % 4 ≠ 0 then none else some c.tvec

/-- Whether notices of a subcause fall due in a context: the enable is set and there is a handler (R257, R280). -/
def Ctx.notices (c : Ctx) (sub : Nat) : Bool := c.handler.isSome && c.noticeen.getLsbD sub

/-- `ntc` of a gang (R11): a notice is due, and notices of its kind are enabled; one whose enable has been cleared is not due meanwhile (log
entry 125). -/
def State.ntc (s : State) (r : GangRef) : Bool := (s.gang r).due.any (s.ctx (s.grid (s.group r.group).grid).ctx).notices

/-- The lanes whose wait puts notices off, after an instruction of the split with these lanes has returned (R257). -/
def Gang.ntcAfter (g : Gang) (m : W32) : W32 := if m &&& g.ntcHold = 0 then g.ntcHold else 0

/-- The split/mode word (R283). -/
def smwOf (b : Option Blk) (npend : Nat) (det prv : Bool) : W64 :=
  let blk := match b with
    | none => 0
    | some b => b.en.toNat + 2 ^ 37 + 2 ^ 38 * (b.cnt % 8) + 2 ^ 41 * (b.slot % 8) + 2 ^ 44 * b.pat.toNat
  BitVec.ofNat 64 (blk + 2 ^ 52 * flag prv + 2 ^ 53 * flag det + 2 ^ 54 * Nat.min npend 31)

/-- Parcel k of an instruction, 0 where it has none (R282). -/
def parcelAt (ps : List W32) (k : Nat) : Nat := (ps.getD k 0).toNat

/-- The eight words of the frame (R282), for a split of gang `g`. -/
def frameWords (g : Gang) (grp : Group) (d : Grid) (sp : Split) (q : TrapReq) : List W64 :=
  let low := (lanesOf sp.mask).headD 0 / 4
  [BitVec.ofNat 64 (q.cause + 2 ^ 16 * q.sub + 2 ^ 32 * q.mask.toNat),
   q.pc,
   q.fa,
   BitVec.ofNat 64 (parcelAt q.insn 0 + 2 ^ 32 * parcelAt q.insn 1),
   BitVec.ofNat 64 (parcelAt q.insn 2 + 2 ^ 32 * parcelAt q.insn 3),
   g.sreg low 63,
   BitVec.ofNat 64 ((rlvlOf grp false).toNat + 2 ^ 32 * g.fstat.toNat),
   smwOf sp.blk (g.nsplits - 1) d.det (d.ctx == 0)]

/-- The frame as one number of 64 bytes. -/
def frameNat (ws : List W64) : Nat := ws.foldr (fun w n => w.toNat + 2 ^ 64 * n) 0

/-- s63 of every slice of a gang (R281, R296). -/
def setS63 (slices : Nat) (x : W64) : List RegWrite := (List.range slices).map fun k => .s k 63 x

/-- A gang after trap entry: s63 of every slice names the save slot, trap mode, the trapping split at the handler with every active
lane and no guard (R281). Windows that the split had, which are complete, are dropped, here and at the return, where the manual says nothing
of them (log entry 124). -/
def Gang.entered (g : Gang) (d : Grid) (sp : Split) (q : TrapReq) (slot : Nat) (handler : W64) (uid : Nat) : Gang :=
  let g1 := g.writeRegs (setS63 d.sl (BitVec.ofNat 64 slot))
  { g1 with trapMode := true, trapPc := q.pc, trapReq := none, trapUid := uid, ntcHold := g.ntcAfter sp.mask,
            run := some { sp with pc := handler, blk := none, wins := [], wait := .none } }

/-- TRAP ENTRY (R281), for the running split, whose windows have completed: the frame goes to the save slot, s63 of every slice
names it, and the gang continues at `tvec` in trap mode. With no handler the task ends, and a notice is no longer due (R280); an entry whose
frame write does not translate ends it as any access would (R347). -/
def State.takeTrap (s : State) (r : GangRef) (q : TrapReq) : State :=
  let g := s.gang r
  let grp := s.group r.group
  let d := s.grid grp.grid
  match g.run with
  | none => s
  | some sp =>
    match (s.ctx d.ctx).handler with
    | none => if q.cause = 0xC then s.setGang r { g with trapReq := none } else s.endTaskOf r 0x05 q.fa.toNat
    | some h =>
      let slot := saveSlot grp d r.gang
      match s.xlate d.ctx true .write slot with
      | .error _ => s.endTaskOf r 0x01 slot
      | .ok l =>
        let s1 := s.wrLoc l 64 (frameNat (frameWords g grp d sp q))
        s1.setGang r (g.entered d sp q slot h s.uid)

/-- Raises a trap other than a notice at the running split: it is taken once the split's windows have completed (R70, R281); in trap
mode it ends the task, and its cause goes into the report (R288). -/
def State.raise (s : State) (r : GangRef) (q : TrapReq) : State :=
  let g := s.gang r
  if g.trapMode then
    let k := (s.group r.group).grid
    let d := s.grid k
    (s.setGrid k { d with trap2 := q.cause + 2 ^ 16 * q.sub }).endTaskOf r 0x04 q.fa.toNat
  else match g.run with
    | none => s
    | some sp =>
      if g.openWins sp then s.setGang r { g with trapReq := some q } else s.takeTrap r q

/-- Delivers the oldest notice due at the running split, whose next instruction stands at pc (R257). -/
def State.takeNotice (s : State) (r : GangRef) (pc : W64) : State :=
  let g := s.gang r
  match g.due.find? (s.ctx (s.grid (s.group r.group).grid).ctx).notices, g.run with
  | some n, some sp =>
    let q : TrapReq := ⟨0xC, n, pc, 0, sp.mask, []⟩
    let g1 := { g with due := g.due.erase n }
    if g.openWins sp then s.setGang r { g1 with trapReq := some q } else (s.setGang r g1).takeTrap r q
  | _, _ => s

/-- What `rft` reads of the frame (R287). -/
structure Frame where
  pc : W64
  s63 : W64
  fstat : BitVec 6
  smw : W64
  deriving DecidableEq, Repr

/-- The frame in a gang's save slot; `none` where the slot cannot be read. -/
def State.frame (s : State) (r : GangRef) : Option Frame :=
  let grp := s.group r.group
  let d := s.grid grp.grid
  match s.xlate d.ctx true .read (saveSlot grp d r.gang) with
  | .error _ => none
  | .ok l =>
    let w (k : Nat) : Nat := s.rdLoc { l with key := l.key + 8 * k } 8
    some ⟨BitVec.ofNat 64 (w 1), BitVec.ofNat 64 (w 5), BitVec.ofNat 6 (bitsOf (w 6) 37 32), BitVec.ofNat 64 (w 7)⟩

/-- The block that a return resumes: only with `blk` 1, `slot` at most `cnt`, and `pc` the trapped slot (R287). -/
def Frame.block (f : Frame) (trapPc : W64) : Option Blk :=
  let w := f.smw.toNat
  if bitsOf w 37 37 = 1 ∧ bitsOf w 43 41 ≤ bitsOf w 40 38 ∧ f.pc = trapPc then
    some ⟨BitVec.ofNat 32 (bitsOf w 31 0), BitVec.ofNat 8 (bitsOf w 51 44), bitsOf w 40 38, bitsOf w 43 41⟩
  else none

/-- The gang after a return with frame f (R296): s63 of every slice, `fstat`, trap mode left, the split at the frame's pc. -/
def Gang.returned (g : Gang) (slices : Nat) (sp : Split) (f : Frame) : Gang :=
  let g1 := g.writeRegs (setS63 slices f.s63)
  { g1 with fstat := f.fstat, trapMode := false,
            run := some { sp with pc := f.pc, blk := f.block g.trapPc, wins := [], wait := .none } }

end Sys2Proof.Machine
end

