-- ==== Sys2Proof/Machine/Lines.lean ====
section
/-!
DEFINITION. Register lines (R13, R14, R262, R266): what a level holds, writing a line to the register image, and the lines that an
instruction touches.
-/
namespace Sys2Proof.Machine

/-- Register lines that a group of `n` slices with cap `cap` holds at a level (R262). -/
def linesAt (n cap lv : Nat) : Nat :=
  if lv = 4 then n * cap / 4
  else if lv = 3 then Nat.max (cap / 4) (n * cap / 8)
  else if lv = 2 then Nat.max (cap / 4) (n * cap / 16)
  else if lv = 1 then Nat.max (cap / 4) (n * cap / 32)
  else cap / 4

/-- Physical slices at a level (R262). -/
def slicesAt (n lv : Nat) : Nat :=
  if lv = 4 then n
  else if lv = 3 then Nat.max 1 ((n + 1) / 2)
  else if lv = 2 then Nat.max 1 ((n + 3) / 4)
  else if lv = 1 then Nat.max 1 ((n + 7) / 8)
  else 1

/-- Scratch bytes at a level (R262). -/
def scratchAt (d lv : Nat) : Nat := if lv = 4 then d else pagesAt d lv * 256

/-- A slice's line entitlement (R266). -/
def entitled (n cap lv : Nat) : Nat := linesAt n cap lv / n

/-- Key of a line in `Gang.lines`. -/
def lkey (sl line : Nat) : Nat := sl * 64 + line

/-- Whether a register of a gang waits for a result: it lies in a pending set, or in a range that a batch locks and has not written (R105,
R214). -/
def State.pins (s : State) (r : GangRef) (n : Nat) : Bool :=
  let g := s.gang r
  let c := s.ctx (s.grid (s.group r.group).grid).ctx
  (g.run.toList ++ g.pend ++ g.parked).any (fun sp => sp.wins.any fun w => g.open_ w.owner && w.pend.contains (.v n)) ||
  g.closed.any (fun l => !(c.op engMatrix l.num).st.final && l.ranges.any fun x => decide (x.1 ≤ n) && decide (n < x.1 + x.2)) ||
  g.batch.any fun m => decide (m.c ≤ n) && decide (n < m.c + 32)

/-- Whether a line holds such a register. -/
def State.pinned (s : State) (r : GangRef) (line : Nat) : Bool := (List.range 4).any fun k => s.pins r (4 * line + k)

/-- Where a line of a gang lies in the register image (R276). -/
def State.lineVa (s : State) (r : GangRef) (key : Nat) : Nat :=
  let grp := s.group r.group
  let d := s.grid grp.grid
  grp.img.toNat + d.regOff (r.gang * d.sl + key / 64) (4 * (key % 64)) 0

/-- The 64 bytes of a line in the register image. -/
def State.imageLine (s : State) (r : GangRef) (key : Nat) : State :=
  let g := s.gang r
  let ctx := (s.grid (s.group r.group).grid).ctx
  (List.range 16).foldl (fun s k =>
    s.imgWrite ctx (s.lineVa r key + 4 * k) 4 (g.vreg (4 * (key / 64) + k % 4) (4 * (key % 64) + k / 4)).toNat) s

/-- A line written to the register image by the squeeze controller or in exchange for another, counted in `linewr` (R270). -/
def State.writeLine (s : State) (r : GangRef) (key : Nat) : State :=
  let s1 := s.imageLine r key
  let d := s1.grid (s1.group r.group).grid
  let c := s1.ctx d.ctx
  s1.setCtx d.ctx { c with linewr := c.linewr + 1 }

/-- The registers of a line as the register image holds them. -/
def State.loadLine (s : State) (r : GangRef) (key : Nat) : Gang :=
  let ctx := (s.grid (s.group r.group).grid).ctx
  (s.gang r).writeRegs ((List.range 16).map fun k =>
    .v (4 * (key / 64) + k % 4) (4 * (key % 64) + k / 4) (BitVec.ofNat 32 (s.imgRead ctx (s.lineVa r key + 4 * k) 4)))

/-- Whether a line is in the image only. -/
def Gang.isOut (g : Gang) (key : Nat) : Bool := (Sparse.get {} g.lines key : Line).out

/-- A change of a line. -/
def Gang.setLine (g : Gang) (key : Nat) (f : Line → Line) : Gang :=
  { g with lines := Sparse.put g.lines key (f (Sparse.get {} g.lines key)) }

/-- One register that lands in a line which is in the image only (R162, R214): it is written there; when that fails nothing is lost: the line
is held again, and firmware is told (R271). -/
def State.landOut (s : State) (r : GangRef) (lane n : Nat) (x : W32) : State :=
  let key := lkey (lane / 4) (n / 4)
  let grp := s.group r.group
  let ctx := (s.grid grp.grid).ctx
  let va := s.lineVa r key + 16 * (n % 4) + 4 * (lane % 4)
  if s.imgWrites ctx va then s.imgWrite ctx va 4 x.toNat
  else (s.setGang r ((s.gang r).setLine key fun l => { l with out := false })).imgFault grp.grid grp.lin va

/-- Registers written by an operation that completes now, which is their lines' last access (R13): a register whose line is in the image
only is written there too. -/
def State.land (s : State) (r : GangRef) (ws : List RegWrite) : State :=
  let g := ws.foldl (fun g w => match w with
    | .v lane n _ => g.setLine (lkey (lane / 4) (n / 4)) fun l => { l with last := s.tick, wr := s.tick }
    | _ => g) ((s.gang r).writeRegs ws)
  ws.foldl (fun s w => match w with
    | .v lane n x => if (s.gang r).isOut (lkey (lane / 4) (n / 4)) then s.landOut r lane n x else s
    | _ => s) (s.setGang r g)

/-- The line among `ks` with the oldest last access, ties to the later key in the list (R13). -/
def Gang.oldestLine (g : Gang) (ks : List Nat) : Option Nat :=
  ks.foldl (fun b k => match b with
    | none => some k
    | some j => if (Sparse.get {} g.lines k : Line).last ≤ (Sparse.get {} g.lines j : Line).last then some k else some j) none

/-- Held lines of one slice. -/
def Gang.heldLines (g : Gang) (cap sl : Nat) : List Nat :=
  ((List.range (cap / 4)).map (lkey sl)).filter fun k => !g.isOut k

/-- Whether a line has been chosen to go and is still held (R14). -/
def Gang.isGoing (g : Gang) (key : Nat) : Bool := (Sparse.get {} g.lines key : Line).going

/-- Lines of a list that have not been chosen to go. -/
def Gang.staying (g : Gang) (ks : List Nat) : List Nat := ks.filter fun k => !g.isGoing k

/-- Held lines of a gang. -/
def Gang.linesHeld (g : Gang) (d : Grid) : List Nat := (List.range d.sl).flatMap fun sl => g.heldLines d.cap sl

/-- A line chosen to go in exchange for another is written to the image, and marked out. One whose write fails stays held, and firmware is
told (R14, R271). -/
def State.evictLine (s : State) (r : GangRef) (key : Nat) : State :=
  let grp := s.group r.group
  let d := s.grid grp.grid
  let va := s.lineVa r key
  if !s.imgWrites d.ctx va then
    (s.setGang r ((s.gang r).setLine key fun l => { l with going := false })).imgFault grp.grid grp.lin va
  else
  let s1 := s.writeLine r key
  s1.setGang r ((s1.gang r).setLine key fun l => { l with out := true, going := false })

/-- The line that makes room for line `key` of gang r in the pool of R266: of another gang, whose slices are entitled to none, else of this
one. -/
def State.poolVictim (s : State) (r : GangRef) (key : Nat) : Option (GangRef × Nat) :=
  let d := s.grid (s.group r.group).grid
  let cands (j : Nat) : List Nat := (s.gang ⟨r.group, j⟩).staying ((s.gang ⟨r.group, j⟩).linesHeld d)
  let others := ((List.range d.gangs).filter fun j => j != r.gang).findSome? fun j =>
    ((s.gang ⟨r.group, j⟩).oldestLine (cands j)).map fun k => ((⟨r.group, j⟩ : GangRef), k)
  match others with
  | some x => some x
  | none => ((s.gang r).oldestLine ((cands r.gang).filter fun k => k != key)).map fun k => (r, k)

/-- A line chosen to go does so: at once, or, when it waits for a result, once that has landed (R105, R174, R214). -/
def State.sendLine (s : State) (r : GangRef) (key : Nat) : State :=
  if s.pinned r (key % 64) then s.setGang r ((s.gang r).setLine key fun l => { l with going := true }) else s.evictLine r key

/-- The write of a line that has been chosen to go and waits for no result any more. -/
def State.evictDue (s : State) (r : GangRef) (key : Nat) : State :=
  if (s.gang r).isGoing key && !s.pinned r (key % 64) then s.evictLine r key else s

/-- In place of a line that has come back, the slice's held line with the oldest last access goes out, when the slice holds more than it is
entitled to, not counting those that have been chosen already (R14, R266). -/
def State.makeRoom (s : State) (r : GangRef) (key : Nat) : State :=
  let grp := s.group r.group
  let d := s.grid grp.grid
  let h := linesAt d.slices d.cap grp.regsLv
  let e := h / d.slices
  if e = 0 then
    let held := (List.range d.gangs).foldl (fun n j => n + ((s.gang ⟨r.group, j⟩).staying ((s.gang ⟨r.group, j⟩).linesHeld d)).length) 0
    match if h < held then s.poolVictim r key else none with
    | some x => s.sendLine x.1 x.2
    | none => s
  else
    let held := (s.gang r).staying ((s.gang r).heldLines d.cap (key / 64))
    match if e < held.length then (s.gang r).oldestLine (held.filter fun k => k != key) else none with
    | some k => s.sendLine r k
    | none => s

/-- A line that is not held comes back (R14). The address of its image, when that could not be read (R271); a line still present in the cache
needs no read, which is free. -/
def State.refill (s : State) (r : GangRef) (key : Nat) : Except Nat State :=
  let g := s.gang r
  if !g.isOut key then .ok s
  else
    let cached := Config.freeBit (s.tick + key)
    if !cached && !s.imgReads (s.grid (s.group r.group).grid).ctx (s.lineVa r key) then .error (s.lineVa r key)
    else .ok ((s.setGang r ((if cached then g else s.loadLine r key).setLine key fun l => { l with out := false })).makeRoom r key)

/-- The line of a gang that a register write touches. -/
def RegWrite.line : RegWrite → Option Nat
  | .v lane n _ => some (lkey (lane / 4) (n / 4))
  | _ => none

/-- Results of a long-latency instruction land, which is an access to their lines: one that is out comes back first, in turn (R13, R14). The
address of its image, when that could not be read (R271). -/
def State.landIn (s : State) (r : GangRef) (ws : List RegWrite) : Except Nat State :=
  let ks := (ws.map RegWrite.line).eraseDups
  if ks.all fun k => !k.any (s.gang r).isOut then .ok (s.land r ws) else
  ks.foldl (fun (o : Except Nat State) k => o.bind fun s =>
    (match k with
      | some k => s.refill r k
      | none => .ok s).map fun (s1 : State) => s1.land r (ws.filter fun w => w.line == k)) (.ok s)

/-- The index of R101 for a lane, clipped to the gang (R102). -/
def shufIndex (W : Nat) (j : Int) (lane : Nat) : Nat := if 0 ≤ j ∧ j < W then j.toNat else lane

/-- The source lane of a shuffle for lane L. -/
def Gang.shufLane (g : Gang) (W : Nat) (i : Instr) (L : Nat) : Nat :=
  let k (b : SrcB) : Int := ((g.srcB false zext64 (.lane L) b).toNat % 256 : Nat)
  match i with
  | .shfl _ _ _ b => shufIndex W (k b) L
  | .shup _ _ _ b => shufIndex W (L - k b) L
  | .shdn _ _ _ b => shufIndex W (L + k b) L
  | .shxor _ _ _ b => shufIndex W (L ^^^ (k b).toNat : Nat) L
  | .bcast _ _ _ b => shufIndex W (k b) L
  | _ => L

/-- Registers of one slice that an instruction reads through a lane of that slice. A shuffle or `mtr` reads another slice's register wherever
it sits (R266). -/
def Cx.readsIn (c : Cx) (sl : Nat) : List Reg :=
  let own (wide : Bool) (a : VReg) : List Reg :=
    if (sliceLanes c.visMask sl).any fun L => c.g.shufLane c.W c.i L / 4 == sl then vReg wide a else []
  match c.i with
  | .shfl t _ a b | .shup t _ a b | .shdn t _ a b | .shxor t _ a b | .bcast t _ a b => SrcB.regs false b ++ own t.is64 a
  | .mtr _ _ a => (sliceLanes c.visMask sl).map fun L => .v (a.toNat + L)
  | i => reads c.W i

/-- Registers that an instruction writes as it issues: not those of a long-latency instruction (R69), and not the accumulators of a batch
(R214). -/
def Cx.writesNow (c : Cx) : List Reg := match c.i with
  | .mmx .. | .mmxNar .. => []
  | i => if (longLA i).isSome then [] else writes c.W i

/-- Keys of the lines that registers of each selected slice lie in. -/
def Cx.keysOf (c : Cx) (regs : Nat → List Reg) : List Nat :=
  c.sls.flatMap fun sl => (regs sl).filterMap fun x => match x with
    | .v n => some (lkey sl (n / 4))
    | _ => none

/-- Keys of the lines an instruction writes as it issues, and of all it touches, each once. -/
def Cx.writeKeys (c : Cx) : List Nat := (c.keysOf fun _ => c.writesNow).eraseDups
def Cx.lineKeys (c : Cx) : List Nat := (c.keysOf c.readsIn ++ c.writeKeys).eraseDups

/-- Whether every line touched is held. -/
def Cx.linesIn (c : Cx) : Bool := c.lineKeys.all fun k => !c.g.isOut k

/-- The gang with the touched lines' last access set (R13). -/
def Cx.stamped (c : Cx) : Gang :=
  { c.g with lines := c.lineKeys.foldl (fun m k =>
      let l : Line := Sparse.get {} m k
      Sparse.put m k { l with last := c.s.tick, wr := if c.writeKeys.contains k then c.s.tick else l.wr }) c.g.lines }

/-- The instruction's access to its lines is now (R13), and those that are out come back in turn, the lines read first (R14); an address:
that line's image could not be read. -/
def Cx.touch (c : Cx) : Except Nat Cx :=
  let s := c.s.setGang c.r c.stamped
  if c.linesIn then .ok { c with g := c.stamped, s := s }
  else
    match c.lineKeys.foldl (fun (o : Except Nat State) k => match o with
      | .ok s => s.refill c.r k
      | .error a => .error a) (.ok s) with
    | .error a => .error a
    | .ok s => .ok { c with s := s, g := s.gang c.r, grp := s.group c.r.group }

/-- Lines just written that went out again while others came back are written in the image (R162). -/
def Cx.mirror (c : Cx) (s : State) : State :=
  if c.linesIn then s else
  c.writeKeys.foldl (fun s k =>
    if (s.gang c.r).isOut k then s.imageLine c.r k else s) s

end Sys2Proof.Machine
end

