-- ==== Sys2Proof/Machine/Splits.lean ====
section
/-!
DEFINITION. Splits (R44 to R50): division with the split table and its spills, parking and merging at a `regang`, the state in which
every split is parked, and the end of lanes.
-/
namespace Sys2Proof.Machine

/-- Entries of the split table (R46). -/
def tableSize : Nat := 16

/-- Entries that lie in the table, and those spilled to a stack. -/
def Gang.inTable (g : Gang) : List Split := g.others.filter fun x => x.spill.isNone
def Gang.spilled (g : Gang) : List Split := g.others.filter fun x => x.spill.isSome

/-- Entries that a slice's stack holds (R46, R84). -/
def Gang.spilledIn (g : Gang) (sl : Nat) : Nat :=
  (g.others.filter fun x => match x.spill with
    | some k => k.slice == sl
    | none => false).length

/-- The stack limit of a slice. -/
def Gang.slimOf (g : Gang) (sl : Nat) : W64 := Sparse.get 0 g.slim sl

/-- A change of the entry with a creation number. -/
def Gang.mapEntry (g : Gang) (born : Nat) (f : Split → Split) : Gang :=
  { g with pend := g.pend.map fun x => if x.born == born then f x else x,
           parked := g.parked.map fun x => if x.born == born then f x else x }

/-- The oldest entry by creation. -/
def oldestEntry (l : List Split) : Option Split :=
  l.foldl (fun b x => match b with
    | none => some x
    | some y => if x.born < y.born then some x else some y) none

/-- The most recently spilled entry. -/
def lastSpilled (l : List Split) : Option Split :=
  l.foldl (fun b x => match b with
    | none => some x
    | some y => if (y.spill.map Spill.seq).getD 0 < (x.spill.map Spill.seq).getD 0 then some x else some y) none

/-- A split-table entry as it lies on a stack (R46). -/
def entryNat (sp : Split) (parked : Bool) : Nat := sp.pc.toNat + 2 ^ 64 * sp.mask.toNat + 2 ^ 96 * flag parked

/-- Why a spill cannot be made: its entry does not fit below its slice's s62 (R46), or its stack's address fails, with the code that ends the
task (R347). -/
inductive SpillErr where
  | full (a : Nat)
  | bad (code a : Nat)
  deriving DecidableEq, Repr

/-- Spills entries until the table holds at most 16, or says why one cannot be. `n` bounds the entries. -/
def State.spillOver (s : State) (r : GangRef) : Nat → Except SpillErr State
  | 0 => .ok s
  | n + 1 =>
    let g := s.gang r
    if g.inTable.length ≤ tableSize then .ok s else
    match oldestEntry g.inTable with
    | none => .ok s
    | some x =>
      let sl := (lanesOf x.mask).headD 0 / 4
      let a := (g.slimOf sl).toNat + 16 * g.spilledIn sl
      if (g.sreg sl 62).toNat < a + 16 then .error (.full a) else
      let d := s.grid (s.group r.group).grid
      let parked := g.parked.any fun y => y.born == x.born
      match s.xlate d.ctx (d.ctx == 0) .write a with
      | .error c => .error (.bad c a)
      | .ok l =>
        let (u, s2) := (s.wrLoc l 16 (entryNat x parked)).fresh
        (s2.setGang r (g.mapEntry x.born fun y => { y with spill := some ⟨sl, a, u⟩ })).spillOver r n

/-- A spilled entry read back from its stack; an address that fails reads as log entry 22 says, and `unread` names it. -/
def State.readBack (s : State) (r : GangRef) (x : Split) : Split :=
  match x.spill with
  | none => x
  | some k =>
    let d := s.grid (s.group r.group).grid
    let m := BitVec.ofNat 32 (s.vaRead d.ctx (k.addr + 8) 4)
    { x with pc := BitVec.ofNat 64 (s.vaRead d.ctx k.addr 8), mask := m &&& (s.gang r).live, spill := none }

/-- The code and address with which reading an entry back from its stack fails (R347). -/
def State.unread (s : State) (r : GangRef) (x : Split) : Option (Nat × Nat) :=
  match x.spill with
  | none => none
  | some k =>
    let d := s.grid (s.group r.group).grid
    match s.xlate d.ctx (d.ctx == 0) .read k.addr with
    | .error c => some (c, k.addr)
    | .ok _ => none

/-- While the table has a free entry and entries are spilled, the most recently spilled one comes back (R46). -/
def State.reload (s : State) (r : GangRef) : Nat → State
  | 0 => s
  | n + 1 =>
    let g := s.gang r
    if tableSize ≤ g.inTable.length then s else
    match lastSpilled g.spilled with
    | none => s
    | some x =>
      match s.unread r x with
      | some z => s.endTaskOf r z.1 z.2
      | none =>
      let y := s.readBack r x
      let g1 := g.mapEntry x.born fun _ => y
      let g2 := { g1 with pend := g1.pend.filter (fun z => z.mask != 0), parked := g1.parked.filter (fun z => z.mask != 0) }
      (s.setGang r g2).reload r n

/-- One split for each target, in the order in which they run; the one that resumes first is the most recently created (R45). -/
def divide (uid : Nat) (sp : Split) (ts : List (W64 × W32)) : List Split :=
  let n := ts.length
  (List.range n).map fun k =>
    let t := ts.getD k (0, 0)
    { sp with pc := t.1, mask := t.2, cover := 0, blk := none, wait := .none, spill := none, born := uid + (n - 1 - k) }

/-- A split that moves (R44): whole to one target, or divided, the first target running and the others at the head of the pending
list, which may spill. -/
def State.goTo (s : State) (r : GangRef) (sp : Split) (ts : List (W64 × W32)) : Except SpillErr State :=
  let g := s.gang r
  match ts with
  | [] => .ok s
  | [t] => .ok (s.setGang r { g with run := some { sp with pc := t.1, mask := t.2 } })
  | _ =>
    match divide s.uid sp ts with
    | [] => .ok s
    | x :: xs =>
      let s1 := { s with uid := s.uid + ts.length }
      (s1.setGang r { g with run := some x, pend := xs ++ g.pend }).spillOver r (ts.length + 64)

/-! ### Parking and merging (R48, R49) -/

/-- Whether a mask contains another. -/
def contains (big small : W32) : Bool := small &&& ~~~big == 0

/-- The union of the masks of some splits. -/
def maskUnion (l : List Split) : W32 := l.foldl (fun m x => m ||| x.mask) 0

/-- The block of a merged split: a merge inside one common block goes on in it, at the next slot. -/
def mergedBlk (l : List Split) : Option Blk :=
  match l with
  | [] => none
  | x :: _ =>
    match x.blk with
    | none => none
    | some b =>
      if l.all fun y => match y.blk with
          | some c => c.pat == b.pat && c.cnt == b.cnt && c.slot == b.slot
          | none => false
      then
        let en := l.foldl (fun m y => m ||| ((y.blk.map Blk.en).getD 0 &&& y.mask)) 0
        if b.cnt ≤ b.slot then none else some { b with en := en, slot := b.slot + 1 }
      else none

/-- The merged split of some splits parked at one pc: it follows everything they issued (R152), and what their reads have seen. The windows
that the parked splits brought are dropped: each is complete, and the manual gives no window to the merged split (log entry 124). -/
def merged (uid : Nat) (l : List Split) : Split :=
  { pc := (l.headD {}).pc + 8, mask := maskUnion l, blk := mergedBlk l, hist := (l.flatMap fun x => x.hist).eraseDups,
    seen := l.flatMap fun x => x.seen, born := uid }

/-- Splits parked at a pc. -/
def Gang.parkedAt (g : Gang) (pc : W64) : List Split := g.parked.filter fun x => x.pc == pc

/-- Whether the splits parked at a pc merge. -/
def Gang.meets (g : Gang) (pc : W64) : Bool :=
  let l := g.parkedAt pc
  !l.isEmpty && l.all fun x => contains (maskUnion l) (x.cover &&& g.live)

/-- The first pc at which a merge is due. -/
def Gang.mergePc (g : Gang) : Option W64 := (g.parked.find? fun x => g.meets x.pc).map Split.pc

/-- Every merge that is due; a merged split runs, or joins the head of the pending list when another split is running. -/
def State.mergeAll (s : State) (r : GangRef) : Nat → State
  | 0 => s
  | n + 1 =>
    let g := s.gang r
    match g.mergePc with
    | none => s
    | some pc =>
      let m := merged s.uid (g.parkedAt pc)
      let rest := g.parked.filter fun x => x.pc != pc
      let g1 := if g.run.isNone then { g with run := some m, parked := rest }
        else { g with pend := m :: g.pend, parked := rest }
      ({ s with uid := s.uid + 1 }.setGang r g1).mergeAll r n

/-- The parcels of the `regang` at a pc, as they stand in memory. -/
def State.parcelsAt (s : State) (ctx : Nat) (pc : W64) : List W32 :=
  [BitVec.ofNat 32 (s.vaRead ctx pc.toNat 4), BitVec.ofNat 32 (s.vaRead ctx (pc.toNat + 4) 4)]

/-- Every split parked and no merge due: the trap of R49, at the split that holds the lowest live lane. -/
def State.allParked (s : State) (r : GangRef) : State :=
  let g := s.gang r
  if g.run.isSome || !g.pend.isEmpty || g.parked.isEmpty then s else
  let low := (lanesOf g.live).headD 0
  match g.parked.find? fun x => x.mask.getLsbD low with
  | none => s
  | some x0 =>
    match s.unread r x0 with
    | some z => s.endTaskOf r z.1 z.2
    | none =>
    let x := s.readBack r x0
    let d := s.grid (s.group r.group).grid
    let s1 := s.setGang r { g with run := some x, parked := g.parked.filter fun y => y.born != x.born }
    s1.raise r ⟨0xD, 1, x.pc, 0, x.mask, s.parcelsAt d.ctx x.pc⟩

/-- Merges, then the check of R49. -/
def State.regroup (s : State) (r : GangRef) : State := (s.mergeAll r 33).allParked r

/-! ### Lanes that end (R50) -/

/-- Lanes leave every mask and cover; a split left with no lane is deleted. -/
def Gang.endLanes (g : Gang) (m : W32) : Gang :=
  let cut (x : Split) : Split := { x with mask := x.mask &&& ~~~m, cover := x.cover &&& ~~~m }
  let keep (l : List Split) : List Split := (l.map cut).filter fun x => x.mask != 0
  { g with live := g.live &&& ~~~m,
           run := (g.run.map cut).filter fun x => x.mask != 0, pend := keep g.pend, parked := keep g.parked }

end Sys2Proof.Machine
end

