-- ==== Sys2Proof/Machine/Issuing.lean ====
section
/-!
DEFINITION. Issuing one instruction: the checks of R75 in their order, the waits (R45, R69, R70, R150 and the instructions' own), what
a slot with no enabled lane does (R67), and what every instruction that completes does to its split (R69). Every meaning goes
through `issue`.
-/
namespace Sys2Proof.Machine

/-- What an instruction's own effect comes to. -/
inductive Act where
  /-- a trap of check 7, or the software trap and breakpoint: cause, subcause, the frame's pc, fault address, lane mask -/
  | trap (cause sub : Nat) (pc : W64) (fa : Nat) (mask : W32)
  /-- the task ends: code and fault address -/
  | task (code fa : Nat)
  /-- the instruction waits, having come as far as this state says -/
  | stay (s : State)
  /-- complete; `own`: its in-flight entry, 0 for none -/
  | done (s : State) (own : Nat)
  /-- a control transfer: the targets, in the order in which their splits run -/
  | jump (s : State) (ts : List (W64 × W32))
  /-- complete, the split's own bookkeeping included -/
  | finished (s : State)

/-! ### Checks 2 to 6 (R75) -/

/-- Bytes of an instruction. -/
def Cx.len (c : Cx) : Nat := c.i.bytes

/-- Every register an instruction names, with the second half of a pair that only its image descriptor shows (R250): for an `sti` of
elements of 8 bytes the register after vX too. -/
def Cx.named (c : Cx) : List Reg :=
  Machine.named c.W c.i ++ match c.i with
    | .sti _ _ d _ _ x =>
      let m := dImg c.grd.d d.toNat
      if m.present && m.size == 8 then [.v (x.toNat + 1)] else []
    | _ => []

/-- Check 4: a vector register at or above the cap. -/
def Cx.capBad (c : Cx) : Bool :=
  c.named.any fun x => match x with
    | .v n => decide (c.grd.cap ≤ n)
    | _ => false

/-- Check 5: the instruction stands in a window whose pending set it meets (R69). Registers that it names only by what it does, s61 of a call
or s62 of `enter`, count (log entry 126). -/
def Cx.breach (c : Cx) : Bool :=
  c.sp.wins.any fun w => decide (0 < w.left) && c.named.any w.pend.contains

/-- Accumulator ranges locked: those of closed batches, and those of the open batch (R213). -/
def Gang.closedRanges (g : Gang) : List (Nat × Nat) := g.closed.flatMap Lock.ranges
def Gang.openRanges (g : Gang) : List (Nat × Nat) := g.batch.map fun m => (m.c, 32)

def inRange (x : Nat × Nat) : Reg → Bool
  | .v n => decide (x.1 ≤ n) && decide (n < x.1 + x.2)
  | _ => false

/-- Check 6 for an `mmx`: its A range against every lock, its accumulators against every lock but the same range of the open batch
(R213, R243). -/
def Gang.mmxLocked (g : Gang) (c a : VReg) (n : Nat) : Bool :=
  let acc := vRange c 32
  (vRange a n).any (fun x => (g.closedRanges ++ g.openRanges).any fun l => inRange l x) ||
  acc.any (fun x => (g.closedRanges ++ g.openRanges.filter fun l => l.1 != c.toNat).any fun l => inRange l x)

/-- Check 6 (R71, R213). -/
def Cx.locked (c : Cx) : Bool :=
  match c.i with
  | .mmx t d a => c.g.mmxLocked d a (fragLen t)
  | .mmxNar d a _ => c.g.mmxLocked d a 16
  | _ => c.named.any fun x => (c.g.closedRanges ++ c.g.openRanges).any fun l => inRange l x

/-- Checks 2 (in a block, R66), 3 (R72, R258) and 4: cause and subcause. -/
def Cx.check (c : Cx) : Option (Nat × Nat) :=
  if c.sp.blk.isSome && slotIllegal c.i then some (1, 6)
  else if privileged c.i && !c.priv && !(c.i == .rft && c.g.trapMode) then some (3, 0)
  else if c.capBad then some (4, 0)
  else none

/-! ### Waits -/

/-- Every access that the split has issued before is applied. -/
def Cx.settled (c : Cx) : Bool := c.sp.hist.all fun id => match c.g.entry? id with
  | some e => !c.s.pendingEntry e
  | none => true

/-- A `bpub` of the gang that has not completed (R209). -/
def Gang.publishing (g : Gang) : Bool := g.infl.any fun e => !e.done && match e.kind with
  | .bpub .. => true
  | _ => false

/-- Registers that an instruction reads in other lanes (R103, R247). -/
def crossReads (W : Nat) : Instr → List Reg
  | .shfl t _ a _ | .shup t _ a _ | .shdn t _ a _ | .shxor t _ a _ | .bcast t _ a _ => vReg t.is64 a
  | .mtr _ _ a => vRange a W
  | _ => []

/-- Another split's open window holds a register that the instruction reads in other lanes (R103). -/
def Cx.otherPending (c : Cx) : Bool :=
  c.g.others.any fun x => x.wins.any fun w => c.g.open_ w.owner && (crossReads c.W c.i).any w.pend.contains

/-- A barrier unit of the group (R251). -/
def Group.bar (g : Group) (k : Nat) : Bar := Sparse.get {} g.bars k

/-- The threshold of `waitc` (R170): from the slice of the split's lowest active lane. -/
def Cx.threshold (c : Cx) : Thr → Nat
  | .imm x => x.toNat
  | .s r => (c.g.sreg ((lanesOf c.sp.mask).headD 0 / 4) r.toNat).toNat

/-- The scalar register of the split's lowest active lane's slice (R295). -/
def Cx.sAct (c : Cx) (r : SReg) : W64 := c.g.sreg ((lanesOf c.sp.mask).headD 0 / 4) r.toNat
/-- The scalar register of the lowest visited lane's slice (R252). -/
def Cx.sVis (c : Cx) (r : SReg) : W64 := c.g.sreg c.sl0 r.toNat
/-- A scalar register of a slice. -/
def Cx.sIn (c : Cx) (sl : Nat) (r : SReg) : W64 := c.g.sreg sl r.toNat

/-- Whether `bwait` may go on: the phase has moved past the one named (R253). -/
def passed (phase : W32) (p : W64) : Bool :=
  let d := (phase - p.setWidth 32).toNat
  decide (1 ≤ d) && decide (d ≤ 2 ^ 31 - 1)

/-- The state of a grid by its handle (R335); `none` for a value that is no handle of the context. -/
def Ctx.child (x : Ctx) (h : W64) : Option GridSt :=
  let n := bitsOf h.toNat 55 0
  if bitsOf h.toNat 63 56 ≠ 8 ∨ n = 0 ∨ x.handles < n then none
  else if n + 65536 ≤ x.handles then some .retired
  else some (Sparse.get (0, GridSt.retired) x.children n).2

def GridSt.finished : GridSt → Bool
  | .retired | .refused | .failed => true
  | _ => false

/-- Child grids of a context that have not retired (R335). -/
def Ctx.unretired (x : Ctx) : Nat := (x.children.filter fun k => !k.2.2.finished).length

/-- Every split of the machine that waits at a `wfe`, by its place. -/
def State.wfeSince (s : State) : List Nat :=
  s.gangs.flatMap fun x => (x.2.run.toList ++ x.2.others).filterMap fun y => match y.wait with
    | .deadline since _ => some since
    | _ => none

/-- The index of the event that a `wfe` takes: as many stand before it as wait longer (R306). -/
def Cx.wfeRank (c : Cx) : Nat :=
  match c.sp.wait with
  | .deadline since _ => (c.s.wfeSince.filter fun x => decide (x < since)).length
  | _ => c.s.wfeSince.length

/-- A read of a format block that takes part in the gang's program order (R215). -/
def blockRead (hist : List Nat) (a : W64) : Entry × Access :=
  ({ id := 0, before := hist }, { lane := 0, space := .glob, addr := a.toNat, bytes := 32, op := .rd })

/-- Whether an `mmx` would open a fifth batch (R212). -/
def Cx.batchWait (c : Cx) : Bool := c.g.batch.isEmpty && decide (4 ≤ c.g.closed.length)

/-- Whether the in-flight counter of the instruction's path stands at 63 (R150). -/
def Cx.full (c : Cx) : Bool :=
  match pathOfInstr c.i with
  | some p => decide (63 ≤ c.g.counter p)
  | none => false

/-- The slices that a `launch` has yet to serve: those that it has served before it waited are not served again (R335). -/
def Cx.unserved (c : Cx) : List Nat := c.sls.drop (match c.sp.wait with
  | .count n => n
  | _ => 0)

/-- Whether the instruction itself must wait. A `launch` traps on a misaligned descriptor before it waits (R335). -/
def Cx.waits (c : Cx) : Bool :=
  c.full || match c.i with
  | .call _ | .callx _ | .ret | .regang _ | .yield | .exit | .rft => c.g.openWins c.sp
  | .gsr _ _ 0x20 | .ssr 0x20 _ => c.g.infl.any fun e => e.long && !e.done
  | .shfl .. | .shup .. | .shdn .. | .shxor .. | .bcast .. | .mtr .. => c.otherPending
  | .waitc p t => decide (c.threshold t < c.g.counter p)
  | .wtl _ t => c.sls.any fun sl => !(c.s.ctx c.grd.ctx).ready (c.sIn sl t)
  | .bar k _ => (match c.sp.wait with
    | .phase p => (c.grp.bar k.toNat).phase == p
    | _ => c.g.publishing || !c.settled)
  | .arrive .. => c.g.publishing || !c.settled
  | .bwait k p => !passed (c.grp.bar k.toNat).phase (c.sVis p)
  | .mmx .. => c.batchWait
  | .mmxNar _ _ f =>
    c.batchWait ||
      (let x := blockRead c.sp.hist (c.sVis f)
       !c.s.mayApply c.r x.1 x.2)
  | .launch _ a => decide (4096 ≤ (c.s.ctx c.grd.ctx).unretired) && c.unserved.all fun sl => (c.sIn sl a).toNat % 64 == 0
  | .gwait _ h => c.sls.any fun sl => match (c.s.ctx c.grd.ctx).child (c.sIn sl h) with
    | some st => !st.finished
    | none => false
  | .pwr .. | .tlbgen .. => !c.settled
  | .sqz .. => (match c.sp.wait with
    | .req id =>
      (List.range Config.cores).any fun k =>
        let x := c.s.core k
        x.reqs.any (fun q => q.id == id) || (x.taken.map fun t => t.req.id) == some id
    | _ => !c.settled)
  | .xpand _ => (match c.sp.wait with
    | .req k => (c.s.core (k - 1)).freed
    | _ => false)
  | .imgsv .. => (match c.sp.wait with
    | .req id =>
      (List.range Config.cores).any fun k =>
        let x := c.s.core k
        x.reqs.any (fun q => q.id == id) || (x.taken.map fun t => t.req.id) == some id
    | _ => false)
  | .wfe .. => (match c.sp.wait with
    | .deadline .. => decide (c.s.events.length ≤ c.wfeRank)
    | _ => false)
  | _ => false

/-- A window that the instruction follows holds it (R69), which is so once checks 2 to 4 have passed. -/
def Cx.held (c : Cx) : Bool := c.check.isNone && c.g.winHolds c.sp

/-- The instruction has passed checks 2 to 6 and waits. -/
def Cx.waiting (c : Cx) : Bool :=
  c.check.isNone && !c.g.winHolds c.sp && !c.breach && !c.locked && !c.vis.isEmpty && c.waits

/-- Whether issuing leaves the split where it is. -/
def Cx.stalls (c : Cx) : Bool := c.g.trapReq.isSome || c.held || c.waiting

/-- A `bar` or `arrive` that has not arrived and waits for a `bpub` of the gang (R209). -/
def Cx.forCells (c : Cx) : Bool := c.g.publishing && match c.sp.wait with
  | .phase _ => false
  | _ => true

/-- Whether the instruction waits at a point at which its split gives way (R45): for a long-latency result, a `waitc` or a `wtl`, and what the
manual calls such a wait (R150, R170, R212, R295). A barrier waits so only for a `bpub` before it; `launch` and `gwait`, and an instruction
that only waits for the gang's earlier accesses to be performed, `mmx.nar` with its format block among them, do not (log entry 120). -/
def Cx.longWait (c : Cx) : Bool :=
  c.g.trapReq.isNone && (c.held || (c.waiting && match c.i with
    | .bar .. | .arrive .. => c.forCells
    | .bwait .. | .launch .. | .gwait .. | .pwr .. => false
    | .mmxNar .. => c.batchWait
    | .sqz .. => (match c.sp.wait with
      | .req _ => true
      | _ => false)
    | _ => true))

/-- Whether the gang waits at the instruction for a long-latency result, a `waitc`, a `wtl` or an in-flight counter at 63 (R315): a trap that
waits for windows counts, the waits of the privileged instructions and of a fifth batch do not. -/
def Cx.memWait (c : Cx) : Bool :=
  (c.g.trapReq.isSome && c.g.openWins c.sp) || (c.longWait && (c.held || match c.i with
    | .sqz .. | .xpand _ | .imgsv .. | .wfe .. | .tlbgen .. | .mmx .. | .mmxNar .. => false
    | _ => true))

/-- Whether the instruction is a switch point of deterministic mode now (R42, R335). -/
def Cx.switches (c : Cx) : Bool :=
  c.longWait || (c.g.trapReq.isNone && c.waiting && match c.i with
    | .bar .. | .bwait .. | .launch .. | .gwait .. => true
    | _ => false)

/-! ### Completing -/

/-- Windows after one more position (R69). -/
def stepWins (l : List Window) : List Window :=
  l.filterMap fun w => if w.left = 0 then none else some { w with left := w.left - 1 }

/-- The windows after the instruction: counted down, and the one it opens (R68, R69). -/
def Cx.winsAfter (c : Cx) (own : Nat) : List Window :=
  stepWins c.sp.wins ++ match longLA c.i with
    | some la => [⟨own, la, pendingOf c.W c.i⟩]
    | none => []

/-- A block after one of its slots (R65). -/
def Blk.next (b : Blk) : Option Blk := if b.cnt ≤ b.slot then none else some { b with slot := b.slot + 1 }

/-- The entries in flight that precede the split's next instruction. -/
def Cx.histAfter (c : Cx) (g : Gang) (own : Nat) : List Nat :=
  (c.sp.hist.filter fun id => (g.entry? id).isSome) ++ (if own = 0 then [] else [own])

/-- The split after the instruction. -/
def Cx.stepped (c : Cx) (g : Gang) (sp : Split) (own : Nat) : Split :=
  { sp with pc := sp.pc + BitVec.ofNat 64 c.len, wins := c.winsAfter own,
            blk := (match c.sp.blk with
              | some b => b.next
              | none => sp.blk),
            wait := .none, hist := c.histAfter g own }

/-- A gang that has issued now: its turn, its count of instructions, and the notices that a wait of the running split had put off (R257). -/
def Gang.issuedAt (g : Gang) (now : Nat) : Gang :=
  { g with last := now, issues := g.issues + 1, ntcHold := g.ntcAfter ((g.run.map Split.mask).getD 0) }

/-- The instruction is complete: the split steps past it, and the gang has issued now. -/
def Cx.retire (c : Cx) (s : State) (own : Nat) : State :=
  let g := s.gang c.r
  match g.run with
  | none => s
  | some sp => s.setGang c.r { g.issuedAt s.tick with run := some (c.stepped g sp own) }

/-- The trap request of an instruction. -/
def Cx.req (c : Cx) (cause sub : Nat) (pc : W64) (fa : Nat) (mask : W32) : TrapReq :=
  ⟨cause, sub, pc, BitVec.ofNat 64 fa, mask, encode c.i⟩

/-- An entry of the split table that the instruction needs cannot be spilled: the stack-limit trap before any effect (R46), or the end of the
task (R347). -/
def Cx.noSpill (c : Cx) : SpillErr → State
  | .full a => c.s.raise c.r (c.req 8 1 c.sp.pc a c.sp.mask)
  | .bad k a => c.s.endTaskOf c.r k a

/-- A transfer of control: the split after the instruction moves or divides. -/
def Cx.transfer (c : Cx) (s : State) (ts : List (W64 × W32)) : State :=
  let s1 := c.retire s 0
  match (s1.gang c.r).run with
  | none => s1
  | some sp =>
    match s1.goTo c.r sp ts with
    | .ok s2 => s2
    | .error e => c.noSpill e

/-- What an instruction's own effect leads to. -/
def Cx.finish (c : Cx) (s0 : State) : Act → State
  | .trap cause sub pc fa mask => s0.raise c.r (c.req cause sub pc fa mask)
  | .task code fa => s0.endTaskOf c.r code fa
  | .stay s => s
  | .done s own => c.retire (c.mirror s) own
  | .jump s ts => c.transfer s ts
  | .finished s => s

/-- Issues instruction i for the gang at work. In order: a trap waiting for its windows holds everything; checks 2 to 4; the wait of the
instruction that follows a window; check 5; check 6; a slot with no enabled lane does nothing (R67); the instruction's own wait; the
lines it touches; its effect, which makes check 7 first. The manual does not say whether an instruction's own wait comes before check 7 of
another slice, as for a `wtl` with one bad ticket and one that is not resolved: it does here (log entry 127). -/
def issue (i : Instr) (s : State) (body : Cx → Act) : Out :=
  match cxOf i s with
  | none => .fault .noGang
  | some c =>
    if c.g.trapReq.isSome then .next s
    else match c.check with
    | some x => .next (s.raise c.r (c.req x.1 x.2 c.sp.pc 0 c.sp.mask))
    | none =>
      if c.g.winHolds c.sp then .next s
      else if c.breach then .next (s.raise c.r (c.req 5 0 c.sp.pc 0 c.sp.mask))
      else if c.locked then .next (s.raise c.r (c.req 6 0 c.sp.pc 0 c.sp.mask))
      else if c.vis.isEmpty then .next (c.retire s 0)
      else if c.waits then .next s
      else match c.touch with
      | .error a => .next (s.endTaskOf c.r 0x03 a)
      | .ok c1 => .next (c1.finish s (body c1))

/-! ### Common effects -/

/-- An instruction that only writes registers and sets sticky bits. -/
def Cx.writes (c : Cx) (ws : List RegWrite) (k : BitVec 6 := 0) : Act :=
  .done (c.s.setGang c.r ((c.g.writeRegs ws).sticky k)) 0

/-- The ordinary loads and stores (R258). -/
def ordinary : Instr → Bool
  | .ld .. | .st .. | .sld .. | .sst .. | .ldm .. | .stm .. => true
  | _ => false

/-- An entry as it goes into flight with number u: after what the split has issued; in trap mode the accesses of an ordinary load or store
may touch the gang's frame (R258). -/
def Cx.inFlight (c : Cx) (e : Entry) (u : Nat) : Entry :=
  { e with id := u, before := c.sp.hist, since := c.s.tick,
           accs := e.accs.map fun a => { a with own := c.g.trapMode && ordinary c.i } }

/-- The next entry, with an in-flight number of its own. -/
def Cx.enter (c : Cx) (e : Entry) : Act :=
  let (u, s1) := c.s.fresh
  let g := s1.gang c.r
  .done (s1.setGang c.r { g with infl := g.infl ++ [c.inFlight e u] }) u

/-- A long-latency computation: its results land when it completes (R68, R69). -/
def Cx.later (c : Cx) (ws : List RegWrite) (k : BitVec 6 := 0) : Act :=
  c.enter { id := 0, kind := .alu, rw := ws, sticky := k, long := true }

/-- A result for every visited lane, or selected slice for a scalar destination. -/
def Cx.each (c : Cx) (scalar : Bool) (f : At → List RegWrite) : List RegWrite := (c.places scalar).flatMap f

end Sys2Proof.Machine
end

