-- ==== Sys2Proof/Machine/Integer.lean ====
section
/-!
DEFINITION. Integer instructions, opcodes 0x10 to 0x1F (R79, R87, R89, R90, R93).
-/
namespace Sys2Proof.Machine

/-- An operand as an integer of the type (R79, R89). -/
def Cx.opA (c : Cx) (t : Ty) (p : At) (a : Src) : Int := tyVal t (c.g.src t.is64 p a)
def Cx.opB (c : Cx) (t : Ty) (p : At) (b : SrcB) : Int := tyVal t (c.g.srcB t.is64 (immInt t) p b)
def Cx.opC (c : Cx) (t : Ty) (p : At) (x : SrcC) : Int := tyVal t (c.g.srcC t.is64 sext64 p x)

/-- The common effect of R89 with one source, two sources, three sources. -/
def Cx.int1 (c : Cx) (t : Ty) (d : Dst) (a : Src) (f : Int → Int) : List RegWrite :=
  c.each d.scalar fun p => wrInt t p d (f (c.opA t p a))
def Cx.int2 (c : Cx) (t : Ty) (d : Dst) (a : Src) (b : SrcB) (f : Int → Int → Int) : List RegWrite :=
  c.each d.scalar fun p => wrInt t p d (f (c.opA t p a) (c.opB t p b))

/-- `add` (R87). -/
def execAdd (t : Ty) (d : Dst) (a : Src) (b : SrcB) (s : State) : Out :=
  issue (.add t d a b) s fun c => c.writes (c.int2 t d a b fun x y => x + y)

/-- `sub` (R87). -/
def execSub (t : Ty) (d : Dst) (a : Src) (b : SrcB) (s : State) : Out :=
  issue (.sub t d a b) s fun c => c.writes (c.int2 t d a b fun x y => x - y)

/-- `mul` (R87). -/
def execMul (t : Ty) (d : Dst) (a : Src) (b : SrcB) (s : State) : Out :=
  issue (.mul t d a b) s fun c => c.writes (c.int2 t d a b fun x y => x * y)

/-- `mulhi` (R87): the upper half of the exact product. -/
def execMulhi (t : Ty) (d : Dst) (a : Src) (b : SrcB) (s : State) : Out :=
  issue (.mulhi t d a b) s fun c => c.writes (c.int2 t d a b fun x y => x * y / 2 ^ t.width)

/-- `mad` (R87). -/
def execMad (t : Ty) (d : Dst) (a : Src) (b : SrcB) (e : SrcC) (s : State) : Out :=
  issue (.mad t d a b e) s fun c =>
    c.writes (c.each d.scalar fun p => wrInt t p d (c.opA t p a * c.opB t p b + c.opC t p e))

/-- `madw` (R87): a 64-bit result and third source. -/
def execMadw (t : Ty) (d : Dst) (a : Src) (b : SrcB) (e : SrcC) (s : State) : Out :=
  issue (.madw t d a b e) s fun c =>
    c.writes (c.each d.scalar fun p =>
      wrInt .n64 p d (c.opA t p a * c.opB t p b + (c.g.srcC true sext64 p e).toNat))

/-- Quotient, remainder and whether the divisor is 0 (R90). -/
def divRem (t : Ty) (a b : Int) : Int × Int × Bool :=
  if b = 0 then (2 ^ t.width - 1, a, true)
  else if t.signed && decide (a = -2 ^ (t.width - 1)) && decide (b = -1) then (a, 0, false)
  else (a.tdiv b, a.tmod b, false)

/-- Whether some visited lane or selected slice divides by zero. -/
def Cx.divsByZero (c : Cx) (t : Ty) (d : Dst) (b : SrcB) : Bool := (c.places d.scalar).any fun p => c.opB t p b == 0

/-- `div` (R90): `idz` is set when it completes. -/
def execDiv (la : BitVec 4) (t : Ty) (d : Dst) (a : Src) (b : SrcB) (s : State) : Out :=
  issue (.div la t d a b) s fun c =>
    c.later (c.int2 t d a b fun x y => (divRem t x y).1) (stickyIf (c.divsByZero t d b) idzBit)

/-- `rem` (R90). -/
def execRem (la : BitVec 4) (t : Ty) (d : Dst) (a : Src) (b : SrcB) (s : State) : Out :=
  issue (.rem la t d a b) s fun c =>
    c.later (c.int2 t d a b fun x y => (divRem t x y).2.1) (stickyIf (c.divsByZero t d b) idzBit)

/-- `min` (R87). -/
def execMin (t : Ty) (d : Dst) (a : Src) (b : SrcB) (s : State) : Out :=
  issue (.min t d a b) s fun c => c.writes (c.int2 t d a b fun x y => if y < x then y else x)

/-- `max` (R87). -/
def execMax (t : Ty) (d : Dst) (a : Src) (b : SrcB) (s : State) : Out :=
  issue (.max t d a b) s fun c => c.writes (c.int2 t d a b fun x y => if x < y then y else x)

/-- `abs` (R87): the most negative value stays. -/
def execAbs (t : Ty) (d : Dst) (a : Src) (s : State) : Out :=
  issue (.abs t d a) s fun c => c.writes (c.int1 t d a fun x => (x.natAbs : Int))

/-- `neg` (R87). -/
def execNeg (t : Ty) (d : Dst) (a : Src) (s : State) : Out :=
  issue (.neg t d a) s fun c => c.writes (c.int1 t d a fun x => 0 - x)

/-- A lane's predicate as 0 or 1. -/
def Cx.carry (c : Cx) (lane : Nat) (p : PReg) : Int := (flag (c.g.preg lane p.toNat) : Nat)

/-- `addc` (R93). -/
def execAddc (t : Ty) (d : VReg) (a : Src) (b : SrcB) (p : PReg) (s : State) : Out :=
  issue (.addc t d a b p) s fun c =>
    c.writes (c.vis.flatMap fun L =>
      let x := c.opA t (.lane L) a + c.opB t (.lane L) b + c.carry L p
      wrInt t (.lane L) (.v d) x ++ [.p L p.toNat (decide (2 ^ t.width ≤ x))])

/-- `subb` (R93). -/
def execSubb (t : Ty) (d : VReg) (a : Src) (b : SrcB) (p : PReg) (s : State) : Out :=
  issue (.subb t d a b p) s fun c =>
    c.writes (c.vis.flatMap fun L =>
      let x := c.opA t (.lane L) a - c.opB t (.lane L) b - c.carry L p
      wrInt t (.lane L) (.v d) x ++ [.p L p.toNat (decide (x < 0))])

/-- Leading zeros of a w-bit value (R87). -/
def leadingZeros (w x : Nat) : Nat := if x = 0 then w else w - 1 - Nat.log2 x

/-- One bits among the low w bits. -/
def oneBits (w x : Nat) : Nat := ((List.range w).filter fun i => x.testBit i).length

/-- `clz` (R87): always a 32-bit count. -/
def execClz (t : Ty) (d : Dst) (a : Src) (s : State) : Out :=
  issue (.clz t d a) s fun c =>
    c.writes (c.each d.scalar fun p => wrInt .n32 p d (leadingZeros t.width (c.opA t p a).toNat : Nat))

/-- `popc` (R87): always a 32-bit count. -/
def execPopc (t : Ty) (d : Dst) (a : Src) (s : State) : Out :=
  issue (.popc t d a) s fun c =>
    c.writes (c.each d.scalar fun p => wrInt .n32 p d (oneBits t.width (c.opA t p a).toNat : Nat))

end Sys2Proof.Machine
end

