-- ==== Sys2Proof/Machine/Predicate.lean ====
section
/-!
DEFINITION. Comparisons, predicates and special registers, opcodes 0x30 to 0x3A (R34, R74, R95 to R100, R134).
-/
namespace Sys2Proof.Machine

/-- A predicate for each visited lane. -/
def Cx.preds (c : Cx) (d : PReg) (f : Nat → Bool) : List RegWrite := c.vis.map fun L => .p L d.toNat (f L)

/-- `cmp` (R95). -/
def execCmp (cc : Cond) (t : Ty) (d : PReg) (a : Src) (b : SrcB) (s : State) : Out :=
  issue (.cmp cc t d a b) s fun c =>
    c.writes (c.preds d fun L => condHolds cc (c.opA t (.lane L) a) (c.opB t (.lane L) b))

/-- IMM32 as a floating operand (R61). -/
def immF (t : Ty) (x : W32) : W64 := if t == .f64 then BitVec.ofNat 64 (widen32 x.toNat) else zext64 x

/-- Floating operands as patterns. -/
def Cx.fa (c : Cx) (t : Ty) (L : Nat) (a : Src) : W64 := c.g.src t.is64 (.lane L) a
def Cx.fb (c : Cx) (t : Ty) (L : Nat) (b : SrcB) : W64 := c.g.srcB t.is64 (immF t) (.lane L) b

/-- The OR of sticky bits. -/
def orBits (l : List (BitVec 6)) : BitVec 6 := l.foldl (fun x y => x ||| y) 0

/-- `cmpf` (R134): MO selects nothing. -/
def execCmpf (cc : FCond) (m : Rm) (t : Ty) (d : PReg) (a : Src) (b : SrcB) (s : State) : Out :=
  issue (.cmpf cc m t d a b) s fun c =>
    let r (L : Nat) : Bool × BitVec 6 := fcondv cc t (c.fa t L a).toNat (c.fb t L b).toNat
    c.writes (c.preds d fun L => (r L).1) (orBits (c.vis.map fun L => (r L).2))

/-- `pand` (R96). -/
def execPand (d a b : PReg) (s : State) : Out :=
  issue (.pand d a b) s fun c => c.writes (c.preds d fun L => c.g.preg L a.toNat && c.g.preg L b.toNat)

/-- `por` (R96). -/
def execPor (d a b : PReg) (s : State) : Out :=
  issue (.por d a b) s fun c => c.writes (c.preds d fun L => c.g.preg L a.toNat || c.g.preg L b.toNat)

/-- `pxor` (R96). -/
def execPxor (d a b : PReg) (s : State) : Out :=
  issue (.pxor d a b) s fun c => c.writes (c.preds d fun L => c.g.preg L a.toNat != c.g.preg L b.toNat)

/-- `pnot` (R96). -/
def execPnot (d a : PReg) (s : State) : Out :=
  issue (.pnot d a) s fun c => c.writes (c.preds d fun L => !c.g.preg L a.toNat)

/-- The eight predicates of a lane as a number (R96). -/
def Gang.packed (g : Gang) (L : Nat) : Nat := (List.range 8).foldr (fun k n => flag (g.preg L k) + 2 * n) 0

/-- `ppack` (R96). -/
def execPpack (d : VReg) (s : State) : Out :=
  issue (.ppack d) s fun c => c.writes (c.vis.map fun L => .v L d.toNat (BitVec.ofNat 32 (c.g.packed L)))

/-- `punpk` (R96). -/
def execPunpk (a : VReg) (s : State) : Out :=
  issue (.punpk a) s fun c =>
    c.writes (c.vis.flatMap fun L => (List.range 8).map fun k => .p L k ((c.g.vreg L a.toNat).getLsbD k))

/-- What `vote` gives every voting lane (R97). -/
def Cx.voteWrites (c : Cx) (k : Vote) (d : Byte) (a : PReg) : List RegWrite :=
  let on := c.vis.filter fun L => c.g.preg L a.toNat
  let q : PReg := d.setWidth 3
  match k with
  | .all => c.preds q fun _ => on.length == c.vis.length
  | .any => c.preds q fun _ => !on.isEmpty
  | .uni => c.preds q fun _ => on.isEmpty || on.length == c.vis.length
  | .ballot => c.vis.map fun L => .v L d.toNat (maskOf on)

/-- `vote` (R97). -/
def execVote (k : Vote) (d : Byte) (a : PReg) (s : State) : Out :=
  issue (.vote k d a) s fun c => c.writes (c.voteWrites k d a)

/-- The value of a special register (R34, R99); `lane` for a slice is its lowest visited lane (R98). -/
def Cx.special (c : Cx) (p : At) (code : Byte) : Nat :=
  let d := c.grd
  let x := d.coord c.grp.lin
  let own := c.s.ctx d.ctx
  match code.toNat with
  | 0x00 => (match p with
    | .lane L => L
    | .slice sl => (sliceLanes c.visMask sl).headD 0)
  | 0x01 => p.slice_
  | 0x02 => c.r.gang
  | 0x03 => c.grp.lin
  | 0x04 => x.getD 0 0
  | 0x05 => x.getD 1 0
  | 0x06 => x.getD 2 0
  | 0x07 => d.nx
  | 0x08 => d.ny
  | 0x09 => d.nz
  | 0x0A => d.gangs
  | 0x0B => d.depth
  | 0x10 => (rlvlOf c.grp (c.s.ntc c.r)).toNat
  | 0x18 => d.fid
  | 0x19 => flag d.det
  | 0x1A => d.symself c.grp.lin
  | 0x1B => d.cls
  | 0x1C => d.ctx
  | 0x20 => c.g.fstatRead.toNat
  | 0x21 => own.ecnt.toNat
  | 0x22 => own.fidev.toNat
  | 0x23 => (c.s.cluster (coreCluster c.grp.core)).clk20 / 20 % 2 ^ 64
  | 0x24 => c.s.ftime.toNat
  | 0x28 => (c.g.slimOf p.slice_).toNat
  | _ => 0

/-- `gsr` (R98, R99). `gsr.n32` of `group` into a scalar register gives bits [31:0] zero-extended, as the type says (R79), where R34 speaks of
the whole value (log entry 130). -/
def execGsr (t : Ty) (d : Dst) (code : Byte) (s : State) : Out :=
  issue (.gsr t d code) s fun c => c.writes (c.each d.scalar fun p => wrInt t p d (c.special p code))

/-- `ssr` (R98): only `fstat` is writable; any other register is the illegal operand of R86. -/
def execSsr (code : Byte) (a : Src) (s : State) : Out :=
  issue (.ssr code a) s fun c =>
    if code.toNat = 0x20 then .done (c.s.setGang c.r (c.g.fstatWrite (lo32 (c.g.src false (.lane c.low) a)))) 0
    else .trap 0xD 3 c.sp.pc 0 c.visMask

end Sys2Proof.Machine
end

