-- ==== Sys2Proof/Machine/Float.lean ====
section
/-!
DEFINITION. Floating-point instructions, opcodes 0x40 to 0x52 (R110 to R114, R127 to R133).
-/
namespace Sys2Proof.Machine

/-- Elements of a source: one pattern, or the two of a paired type (R111, R128). -/
def elems (t : Ty) (x : W64) : List Nat :=
  match t with
  | .f16x2 | .bf16x2 => [x.toNat % 65536, x.toNat / 65536 % 65536]
  | t => [x.toNat % 2 ^ t.width]

/-- Elements packed again. -/
def packElems (l : List Nat) : W64 := BitVec.ofNat 64 (l.getD 0 0 + 65536 * l.getD 1 0)

/-- An operation on each element, and the OR of its sticky bits (R127). -/
def perElem (rs : List (Nat × BitVec 6)) : W64 × BitVec 6 := (packElems (rs.map Prod.fst), orBits (rs.map Prod.snd))

def elem1 (t : Ty) (f : Nat → Nat × BitVec 6) (a : W64) : W64 × BitVec 6 := perElem ((elems t a).map f)
def elem2 (t : Ty) (f : Nat → Nat → Nat × BitVec 6) (a b : W64) : W64 × BitVec 6 :=
  perElem (List.zipWith f (elems t a) (elems t b))

/-- Results for the visited lanes, written to vd, with the sticky bits. -/
def Cx.flt (c : Cx) (t : Ty) (d : VReg) (f : Nat → W64 × BitVec 6) : List RegWrite × BitVec 6 :=
  let rs := c.vis.map fun L => (L, f L)
  (rs.flatMap fun x => wrV t.is64 x.1 d x.2.1, orBits (rs.map fun x => x.2.2))

/-- A floating result written at once. -/
def Cx.fltNow (c : Cx) (t : Ty) (d : VReg) (f : Nat → W64 × BitVec 6) : Act :=
  let r := c.flt t d f
  c.writes r.1 r.2

/-- A floating result that lands when the instruction completes. -/
def Cx.fltLater (c : Cx) (t : Ty) (d : VReg) (f : Nat → W64 × BitVec 6) : Act :=
  let r := c.flt t d f
  c.later r.1 r.2

/-- `fadd` (R129). -/
def execFadd (m : Rm) (t : Ty) (d : VReg) (a : Src) (b : SrcB) (s : State) : Out :=
  issue (.fadd m t d a b) s fun c => c.fltNow t d fun L => elem2 t (fadd2 t m) (c.fa t L a) (c.fb t L b)

/-- `fsub` (R129). -/
def execFsub (m : Rm) (t : Ty) (d : VReg) (a : Src) (b : SrcB) (s : State) : Out :=
  issue (.fsub m t d a b) s fun c => c.fltNow t d fun L => elem2 t (fsub2 t m) (c.fa t L a) (c.fb t L b)

/-- `fmul` (R129). -/
def execFmul (m : Rm) (t : Ty) (d : VReg) (a : Src) (b : SrcB) (s : State) : Out :=
  issue (.fmul m t d a b) s fun c => c.fltNow t d fun L => elem2 t (fmul2 t m) (c.fa t L a) (c.fb t L b)

/-- `fma` (R129): one rounding. -/
def execFma (m : Rm) (t : Ty) (d : VReg) (a : Src) (b : SrcB) (e : VReg) (s : State) : Out :=
  issue (.fma m t d a b e) s fun c => c.fltNow t d fun L =>
    perElem (List.zipWith (fun f z => f z)
      (List.zipWith (fma3 t m) (elems t (c.fa t L a)) (elems t (c.fb t L b)))
      (elems t (c.fa t L (.v e))))

/-- `fmin` (R131). -/
def execFmin (prop : Bool) (m : Rm) (t : Ty) (d : VReg) (a : Src) (b : SrcB) (s : State) : Out :=
  issue (.fmin prop m t d a b) s fun c =>
    c.fltNow t d fun L => elem2 t (fminmax false prop t) (c.fa t L a) (c.fb t L b)

/-- `fmax` (R131). -/
def execFmax (prop : Bool) (m : Rm) (t : Ty) (d : VReg) (a : Src) (b : SrcB) (s : State) : Out :=
  issue (.fmax prop m t d a b) s fun c =>
    c.fltNow t d fun L => elem2 t (fminmax true prop t) (c.fa t L a) (c.fb t L b)

/-- `fabs` (R132): the sign bit cleared, whatever the pattern. -/
def execFabs (m : Rm) (t : Ty) (d : VReg) (a : Src) (s : State) : Out :=
  issue (.fabs m t d a) s fun c =>
    c.fltNow t d fun L => elem1 t (fun x => (x % 2 ^ (fwidth t - 1), 0)) (c.fa t L a)

/-- `fneg` (R132): the sign bit inverted, whatever the pattern. -/
def execFneg (m : Rm) (t : Ty) (d : VReg) (a : Src) (s : State) : Out :=
  issue (.fneg m t d a) s fun c =>
    c.fltNow t d fun L => elem1 t (fun x => (x ^^^ 2 ^ (fwidth t - 1), 0)) (c.fa t L a)

/-- `fdiv` (R129). -/
def execFdiv (la : BitVec 4) (m : Rm) (t : Ty) (d : VReg) (a : Src) (b : SrcB) (s : State) : Out :=
  issue (.fdiv la m t d a b) s fun c => c.fltLater t d fun L => elem2 t (fdiv2 t m) (c.fa t L a) (c.fb t L b)

/-- `fsqrt` (R129). -/
def execFsqrt (la : BitVec 4) (m : Rm) (t : Ty) (d : VReg) (a : Src) (s : State) : Out :=
  issue (.fsqrt la m t d a) s fun c => c.fltLater t d fun L => elem1 t (fsqrt1 t m) (c.fa t L a)

/-- `frcp` (R129). -/
def execFrcp (la : BitVec 4) (m : Rm) (t : Ty) (d : VReg) (a : Src) (s : State) : Out :=
  issue (.frcp la m t d a) s fun c => c.fltLater t d fun L => elem1 t (frcp1 t m) (c.fa t L a)

/-- `frsq` (R129). -/
def execFrsq (la : BitVec 4) (m : Rm) (t : Ty) (d : VReg) (a : Src) (s : State) : Out :=
  issue (.frsq la m t d a) s fun c => c.fltLater t d fun L => elem1 t (frsq1 t m) (c.fa t L a)

/-- `fex2` (R129). -/
def execFex2 (la : BitVec 4) (m : Rm) (t : Ty) (d : VReg) (a : Src) (s : State) : Out :=
  issue (.fex2 la m t d a) s fun c => c.fltLater t d fun L => elem1 t (fex2v t m) (c.fa t L a)

/-- `flg2` (R129). -/
def execFlg2 (la : BitVec 4) (m : Rm) (t : Ty) (d : VReg) (a : Src) (s : State) : Out :=
  issue (.flg2 la m t d a) s fun c => c.fltLater t d fun L => elem1 t (flg2v t m) (c.fa t L a)

/-- `frnd` (R129). -/
def execFrnd (m : Rm) (t : Ty) (d : VReg) (a : Src) (s : State) : Out :=
  issue (.frnd m t d a) s fun c => c.fltNow t d fun L => elem1 t (frndv t m) (c.fa t L a)

/-- `fclass` (R133): a class mask in a single register, element 1's from bit 16. -/
def execFclass (m : Rm) (t : Ty) (d : VReg) (a : Src) (s : State) : Out :=
  issue (.fclass m t d a) s fun c =>
    c.fltNow .n32 d fun L => elem1 t (fun x => (fclassv t x, 0)) (c.fa t L a)

/-- `fdot2` (R130). -/
def execFdot2 (m : Rm) (t : Ty) (d : VReg) (a : Src) (b : SrcB) (e : VReg) (s : State) : Out :=
  issue (.fdot2 m t d a b e) s fun c =>
    c.fltNow .f32 d fun L =>
      let x := elems t (c.fa t L a)
      let y := elems t (c.fb t L b)
      let r := fdotv t m (x.getD 0 0) (x.getD 1 0) (y.getD 0 0) (y.getD 1 0) (c.g.vreg L e.toNat).toNat
      (BitVec.ofNat 64 r.1, r.2)

/-- `fscale` (R129): b is a signed 32-bit integer, the same for both elements. -/
def execFscale (m : Rm) (t : Ty) (d : VReg) (a : Src) (b : SrcB) (s : State) : Out :=
  issue (.fscale m t d a b) s fun c =>
    c.fltNow t d fun L =>
      let k := (lo32 (c.g.srcB false zext64 (.lane L) b)).toInt
      elem1 t (fun x => fscalev t m x k) (c.fa t L a)

/-- `fsgn` (R132). -/
def execFsgn (m : Rm) (t : Ty) (d : VReg) (a : Src) (b : SrcB) (s : State) : Out :=
  issue (.fsgn m t d a b) s fun c =>
    c.fltNow t d fun L => elem2 t (fun x y => (fsgnv t x y, 0)) (c.fa t L a) (c.fb t L b)

end Sys2Proof.Machine
end

