-- ==== Sys2Proof/Machine/Convert.lean ====
section
/-!
DEFINITION. Conversions, opcodes 0x60 to 0x66 (R115 to R120, R135 to R142).
-/
namespace Sys2Proof.Machine

/-- One value converted: the destination's bits, and sticky bits (R115, R136). -/
def cvtValue (m : Rm) (st dt : Ty) (x : W64) : W64 × BitVec 6 :=
  let u := x.toNat % 2 ^ st.width
  if st.floating then
    if dt.floating then
      let r := fToF st dt m u
      (BitVec.ofNat 64 r.1, r.2)
    else
      let r := fToInt dt m (fval st u)
      (extV dt r.1, r.2)
  else if dt.floating then
    let r := intToF dt m (tyVal st x)
    (BitVec.ofNat 64 r.1, r.2)
  else (extV dt (satInt dt (tyVal st x)), 0)

/-- `cvt` (R136). -/
def execCvt (m : Rm) (st dt : Ty) (d : VReg) (a : Src) (s : State) : Out :=
  issue (.cvt m st dt d a) s fun c => c.fltNow dt d fun L => cvtValue m st dt (c.g.src st.is64 (.lane L) a)

/-- The low byte of a second source. -/
def Cx.byteB (c : Cx) (L : Nat) (b : SrcB) : Nat := (c.g.srcB false zext64 (.lane L) b).toNat % 256

/-- `cvt8` on one lane (R137). -/
def cvt8Value (k : Cvt8) (m : Rm) (t : Ty) (f : B8) (x : W64) : W64 × BitVec 6 :=
  let r : Nat × BitVec 6 := match k with
    | .sat => toB8 f true m (fval t (x.toNat % 2 ^ t.width))
    | .inf => toB8 f false m (fval t (x.toNat % 2 ^ t.width))
    | .dec => fput t m (f.val (x.toNat % 256))
  (BitVec.ofNat 64 r.1, r.2)

/-- `cvt8` (R137): an invalid format code in a visited lane is the illegal operand 0x0004. -/
def execCvt8 (k : Cvt8) (m : Rm) (t : Ty) (d : VReg) (a : Src) (b : SrcB) (s : State) : Out :=
  issue (.cvt8 k m t d a b) s fun c =>
    let bad := c.vis.filter fun L => (b8Of (c.byteB L b)).isNone
    if bad.isEmpty then
      c.fltNow .n32 d fun L =>
        cvt8Value k m t ((b8Of (c.byteB L b)).getD ⟨1, false, false⟩) (c.g.src false (.lane L) a)
    else .trap 0xD 4 c.sp.pc 0 (maskOf bad)

/-- `cvt4` (R138). -/
def execCvt4 (k : Cvt4) (m : Rm) (t : Ty) (d : VReg) (a : Src) (s : State) : Out :=
  issue (.cvt4 k m t d a) s fun c =>
    c.fltNow .n32 d fun L =>
      let x := (c.g.src false (.lane L) a).toNat
      match k with
      | .enc b =>
        let p := toE2m1 m (fval t (x % 2 ^ t.width))
        let q := toE2m1 m (fval t ((c.fb t L b).toNat % 2 ^ t.width))
        (BitVec.ofNat 64 (p.1 + 16 * q.1), p.2 ||| q.2)
      | .dec k => (BitVec.ofNat 64 (fput t .rne (e2m1Val (x / 16 ^ k.toNat % 16))).1, 0)

/-- `pk` on one lane (R140). -/
def Cx.pkValue (c : Cx) (k : Pk) (a : Src) (L : Nat) : W64 × BitVec 6 :=
  let x := (c.g.src false (.lane L) a).toNat
  let y (b : SrcB) : Nat := (c.g.srcB false zext64 (.lane L) b).toNat % 2 ^ 32
  match k with
  | .cvt m t b =>
    let h : Ty := if t == .f16x2 then .f16 else .bf16
    let p := fToF .f32 h m (x % 2 ^ 32)
    let q := fToF .f32 h m (y b)
    (BitVec.ofNat 64 (p.1 + 65536 * q.1), p.2 ||| q.2)
  | .h b => (BitVec.ofNat 64 (x % 65536 + 65536 * (y b % 65536)), 0)
  | .b b e =>
    let z := (c.g.srcC false zext64 (.lane L) e).toNat
    (BitVec.ofNat 64 (x % 256 + 256 * (y b % 256) + 65536 * (z % 65536)), 0)

/-- `pk` (R140). -/
def execPk (k : Pk) (d : VReg) (a : Src) (s : State) : Out :=
  issue (.pk k d a) s fun c => c.fltNow .n32 d (c.pkValue k a)

/-- `upk` on one value (R141). -/
def upkValue (k : Upk) (x : Nat) : W64 × BitVec 6 :=
  match k with
  | .cvt m t k =>
    let r := fToF (if t == .f16x2 then .f16 else .bf16) .f32 m (x / 65536 ^ k.toNat % 65536)
    (BitVec.ofNat 64 r.1, r.2)
  | .b sg k => (extV (if sg then .s8 else .n8) (x / 256 ^ k.toNat % 256 : Nat), 0)
  | .h sg k => (extV (if sg then .s16 else .n16) (x / 65536 ^ k.toNat % 65536 : Nat), 0)

/-- `upk` (R141). -/
def execUpk (k : Upk) (d : VReg) (a : Src) (s : State) : Out :=
  issue (.upk k d a) s fun c => c.fltNow .n32 d fun L => upkValue k (c.g.src false (.lane L) a).toNat

/-- A value times 2^k, where code 0xFF is a NaN scale (R139). -/
def bsclValue (m : Rm) (t : Ty) (inv : Bool) (code x : Nat) : Nat × BitVec 6 :=
  if code = 255 then (canonNan t, 0)
  else fscalev t m x (if inv then 127 - (code : Int) else (code : Int) - 127)

/-- `bscl` (R139). -/
def execBscl (k : Bscl) (t : Ty) (d : VReg) (a : Src) (s : State) : Out :=
  issue (.bscl k t d a) s fun c =>
    c.fltNow .n32 d fun L =>
      let x := (c.g.src false (.lane L) a).toNat % 2 ^ t.width
      let r : Nat × BitVec 6 := match k with
        | .apply m b => bsclValue m t false (c.byteB L b) x
        | .fit n => (bsclFit t n.toNat x, 0)
        | .inv m b => bsclValue m t true (c.byteB L b) x
      (BitVec.ofNat 64 r.1, r.2)

/-- `sext` on a w-bit pattern (R142). -/
def sextValue (w n x : Nat) : Int :=
  if n = 0 then 0 else if w ≤ n then x
  else
    let u := x % 2 ^ n
    if 2 ^ (n - 1) ≤ u then (u : Int) - 2 ^ n else u

/-- `sext` (R142). -/
def execSext (t : Ty) (d : VReg) (a : Src) (b : SrcB) (s : State) : Out :=
  issue (.sext t d a b) s fun c =>
    c.writes (c.vis.flatMap fun L =>
      wrInt t (.lane L) (.v d) (sextValue t.width (c.byteB L b) ((c.g.src t.is64 (.lane L) a).toNat % 2 ^ t.width)))

end Sys2Proof.Machine
end

