-- ==== Sys2Proof/Machine/CrossLane.lean ====
section
/-!
DEFINITION. Shuffles and cross-lane instructions, opcodes 0x70 to 0x79 (R101 to R103, R123 to R125, R143 to R147).
-/
namespace Sys2Proof.Machine

/-- Every visited lane receives the register of its source lane; every read precedes every write (R102). -/
def Cx.shuffle (c : Cx) (t : Ty) (d a : VReg) : Act :=
  c.writes (c.vis.flatMap fun L =>
    wrV t.is64 L d (c.g.src t.is64 (.lane (c.g.shufLane c.W c.i L)) (.v a)))

/-- `shfl` (R101). -/
def execShfl (t : Ty) (d a : VReg) (b : SrcB) (s : State) : Out :=
  issue (.shfl t d a b) s fun c => c.shuffle t d a

/-- `shup` (R101). -/
def execShup (t : Ty) (d a : VReg) (k : SrcB) (s : State) : Out :=
  issue (.shup t d a k) s fun c => c.shuffle t d a

/-- `shdn` (R101). -/
def execShdn (t : Ty) (d a : VReg) (k : SrcB) (s : State) : Out :=
  issue (.shdn t d a k) s fun c => c.shuffle t d a

/-- `shxor` (R101). -/
def execShxor (t : Ty) (d a : VReg) (k : SrcB) (s : State) : Out :=
  issue (.shxor t d a k) s fun c => c.shuffle t d a

/-- `bcast` (R101). -/
def execBcast (t : Ty) (d a : VReg) (k : SrcB) (s : State) : Out :=
  issue (.bcast t d a k) s fun c => c.shuffle t d a

/-- A combination of two patterns (R123). -/
def combine (op : Comb) (m : Rm) (t : Ty) (x y : Nat) : Nat × BitVec 6 :=
  match op with
  | .and => (x &&& y, 0)
  | .or => (x ||| y, 0)
  | .xor => (x ^^^ y, 0)
  | .add => if t.floating then fadd2 t m x y else ((x + y) % 2 ^ t.width, 0)
  | .min =>
    if t.floating then fminmax false false t x y
    else (if tyVal t (BitVec.ofNat 64 y) < tyVal t (BitVec.ofNat 64 x) then y else x, 0)
  | .max =>
    if t.floating then fminmax true false t x y
    else (if tyVal t (BitVec.ofNat 64 x) < tyVal t (BitVec.ofNat 64 y) then y else x, 0)

/-- Two slots; an empty one gives the other unchanged. -/
def combineSlots (f : Nat → Nat → Nat × BitVec 6) (x y : Option Nat) : Option Nat × BitVec 6 :=
  match x, y with
  | none, y => (y, 0)
  | x, none => (x, 0)
  | some x, some y =>
    let r := f x y
    (some r.1, r.2)

/-- The tree of R123 over a list of slots whose length is a power of two; `n` bounds its depth. -/
def redTree (f : Nat → Nat → Nat × BitVec 6) : Nat → List (Option Nat) → Option Nat × BitVec 6
  | 0, l => (l.headD none, 0)
  | n + 1, l =>
    if l.length ≤ 1 then (l.headD none, 0) else
    let d := l.length / 2
    let rs := List.zipWith (combineSlots f) (l.take d) (l.drop d)
    let up := redTree f n (rs.map Prod.fst)
    (up.1, orBits (rs.map Prod.snd) ||| up.2)

/-- The Kogge–Stone order of R124, from distance d on; `n` bounds its depth. -/
def scanTree (f : Nat → Nat → Nat × BitVec 6) : Nat → Nat → List (Option Nat) → List (Option Nat) × BitVec 6
  | 0, _, l => (l, 0)
  | n + 1, d, l =>
    if l.length ≤ d then (l, 0) else
    let rs := (List.range l.length).map fun i =>
      if d ≤ i then combineSlots f (l.getD (i - d) none) (l.getD i none) else (l.getD i none, 0)
    let up := scanTree f n (2 * d) (rs.map Prod.fst)
    (up.1, orBits (rs.map Prod.snd) ||| up.2)

/-- One slot for each logical lane; a lane that is not visited holds none. -/
def Cx.slots (c : Cx) (t : Ty) (a : VReg) : List (Option Nat) :=
  (List.range c.W).map fun L =>
    if c.visMask.getLsbD L then some ((c.g.src t.is64 (.lane L) (.v a)).toNat % 2 ^ t.width) else none

/-- A result pattern as it is written: narrow integers extended (R79). -/
def laneVal (t : Ty) (x : Nat) : W64 := if t.floating then BitVec.ofNat 64 x else extV t x

/-- `redg` (R123, R143). -/
def execRedg (la : BitVec 4) (op : Comb) (m : Rm) (t : Ty) (d a : VReg) (s : State) : Out :=
  issue (.redg la op m t d a) s fun c =>
    let r := redTree (combine op m t) 6 (c.slots t a)
    c.later (c.vis.flatMap fun L => wrV t.is64 L d (laneVal t (r.1.getD 0))) r.2

/-- The identity of R124. -/
def identity (op : Comb) (t : Ty) : Nat :=
  match op with
  | .and => 2 ^ t.width - 1
  | .or | .xor => 0
  | .add => 0
  | .min => if t.floating then finf t false else low t.width (intMax t)
  | .max => if t.floating then finf t true else low t.width (intMin t)

/-- The highest visited lane below L. -/
def Cx.below (c : Cx) (L : Nat) : Option Nat := (c.vis.filter fun j => decide (j < L)).getLast?

/-- `scang` (R124, R143). -/
def execScang (la : BitVec 4) (excl : Bool) (op : Comb) (m : Rm) (t : Ty) (d a : VReg) (s : State) : Out :=
  issue (.scang la excl op m t d a) s fun c =>
    let r := scanTree (combine op m t) 6 1 (c.slots t a)
    let out (L : Nat) : Nat :=
      if excl then match c.below L with
        | some j => (r.1.getD j none).getD 0
        | none => identity op t
      else (r.1.getD L none).getD 0
    c.later (c.vis.flatMap fun L => wrV t.is64 L d (laneVal t (out L))) r.2

/-- The packed key of R125. -/
def packedKey (t : Ty) (x i : Nat) : Nat := mxKey t x * 2 ^ 32 + (2 ^ 32 - 1 - i % 2 ^ 32)

/-- `mxix` (R144). -/
def execMxix (la : BitVec 4) (t : Ty) (d a : VReg) (b : SrcB) (s : State) : Out :=
  issue (.mxix la t d a b) s fun c =>
    let keys := c.vis.map fun L =>
      packedKey t (c.g.vreg L a.toNat).toNat (c.g.srcB false zext64 (.lane L) b).toNat
    let best := keys.foldl Nat.max 0
    c.later (c.vis.flatMap fun L => wrV true L d (BitVec.ofNat 64 best))

/-- The sieve unit's step (R145): the bitmap of the group with lanes recorded, and its count. -/
def Group.sieved (g : Group) (qs : List Nat) : Group :=
  { g with sieve := qs.foldl (fun m q => Sparse.set false m q true) g.sieve }

/-- `sieve` (R145): the step is applied when the instruction issues, and the count lands when it completes. -/
def execSieve (la : BitVec 4) (d : VReg) (p : PReg) (s : State) : Out :=
  issue (.sieve la d p) s fun c =>
    if c.grd.survArea = 0 then .trap 0xD 5 c.sp.pc 0 c.visMask
    else
      let grp := c.grp.sieved ((c.vis.filter fun L => c.g.preg L p.toNat).map fun L => c.r.gang * c.W + L)
      let c1 : Cx := { c with s := c.s.setGroup c.r.group grp }
      c1.later (c.vis.map fun L => .v L d.toNat (BitVec.ofNat 32 grp.sieve.length))

/-- `elect` (R147). -/
def execElect (p : PReg) (s : State) : Out :=
  issue (.elect p) s fun c => c.writes (c.preds p fun L => L == c.low)

end Sys2Proof.Machine
end

