-- ==== Sys2Proof/Machine/Memory.lean ====
section
/-!
DEFINITION. Loads, stores, fences and waits, opcodes 0x80 to 0x8D (R104 to R106, R148, R164 to R170, R248 to R250, R232), and what they share:
addresses, check 7, digests (R183, R184). Each access is applied later, at its point of coherence (Access.lean).
-/
namespace Sys2Proof.Machine

/-! ### Addresses -/

/-- An offset register or immediate, sign-extended to 64 bits (R104). -/
def Cx.offset (c : Cx) (p : At) (off : SrcB) : W64 :=
  match off with
  | .v r => sext64 (lo32 (c.g.src false p (.v r)))
  | .s r => c.g.sreg p.slice_ r.toNat
  | .imm x => sext64 x

/-- The address of a global operand (R104). -/
def Cx.gaddr (c : Cx) (p : At) (base : Src) (off : SrcB) : W64 := c.g.src true p base + c.offset p off

/-- The offset of a scratch or lane-store operand, exact (R165). -/
def Cx.oaddr (c : Cx) (p : At) (base : Src) (off : SrcB) : Int :=
  ((lo32 (c.g.src false p base)).toNat : Int) + (lo32 (c.offset p off)).toInt

/-! ### Check 7 -/

/-- A fault that lanes raise at check 7: their mask, cause, subcause, fault address. -/
structure Flaw where
  mask : W32
  cause : Nat
  sub : Nat
  fa : Nat
  deriving DecidableEq, Repr

/-- The flaw taken: the lowest cause; its mask holds exactly the lanes that raised that cause (R75). Of several subcauses of it the lowest
goes into the frame with the first fault address that it has, which the manual leaves open (log entry 129). The list is in lane order. -/
def takeFlaw (l : List Flaw) : Option Flaw :=
  match l with
  | [] => none
  | x :: xs =>
    let key (f : Flaw) : Nat := f.cause * 65536 + f.sub
    let k := xs.foldl (fun k f => Nat.min k (key f)) (key x)
    let same := (x :: xs).filter fun f => f.cause == k / 65536
    ((x :: xs).find? fun f => key f == k).map fun f => { f with mask := same.foldl (fun m y => m ||| y.mask) 0 }

/-- An effect that check 7 precedes. -/
def Cx.checked (c : Cx) (l : List Flaw) (k : Act) : Act :=
  match takeFlaw l with
  | some f => .trap f.cause f.sub c.sp.pc f.fa f.mask
  | none => k

/-- The lanes of a place: one lane, or the visited lanes of a slice. -/
def Cx.maskAt (c : Cx) : At → W32
  | .lane L => bit1 32 L
  | .slice sl => maskOf (sliceLanes c.visMask sl)

/-- A misaligned address (R104). -/
def Cx.misaligned (c : Cx) (bytes : Nat) (ps : List At) (addr : At → W64) : List Flaw :=
  ps.filterMap fun p =>
    if (addr p).toNat % bytes = 0 then none else some ⟨c.maskAt p, 7, 0, (addr p).toNat⟩

/-- Misaligned and out-of-bounds offsets (R148, R165): subcause 1 for scratch, 2 for the lane store. -/
def Cx.badOffsets (c : Cx) (sub bytes size : Nat) (ps : List At) (off : At → Int) : List Flaw :=
  ps.flatMap fun p =>
    let o := off p
    let fa := (o % 2 ^ 32).toNat
    (if o % bytes = 0 then [] else [⟨c.maskAt p, 7, 0, fa⟩]) ++
    (if 0 ≤ o ∧ o + bytes ≤ size then [] else [⟨c.maskAt p, 9, sub, fa⟩])

/-! ### Digests (R183, R184) -/

def digK1 : W64 := 0x9E3779B97F4A7C15
def digK2 : W64 := 0xC2B2AE3D27D4EB4F
def digK3 : W64 := 0x165667B19E3779F9

/-- One folded access. -/
def digStep (d : W64) (a x : W64) : W64 := ((d ^^^ (a * digK1) ^^^ (x * digK2)).rotateLeft 27) * digK3

/-- Accesses folded, in order, by a gang of a deterministic launch; only those in a D range count. -/
def Cx.fold (c : Cx) (l : List (W64 × W64)) : W64 :=
  if c.grd.det then
    l.foldl (fun d x => if c.s.inD c.grd.ctx x.1.toNat then digStep d x.1 x.2 else d) c.g.dig
  else c.g.dig

/-! ### Entries -/

/-- Low w bits of a value (R106). -/
def trunc (w : Nat) (x : W64) : W64 := BitVec.ofNat 64 (x.toNat % 2 ^ w)

/-- The lane that an access of a place carries: a slice's lowest lane for a scalar form (R175). -/
def At.lane_ : At → Nat
  | .lane L => L
  | .slice sl => 4 * sl

/-- Where a value lands: the destination of the place. -/
def landAt (d : Dst) (t : Ty) : At → Land
  | .lane L => match d with
    | .v r => .v L r.toNat t
    | .s r => .s (L / 4) r.toNat t
  | .slice sl => match d with
    | .s r => .s sl r.toNat t
    | .v _ => .none

/-- A memory instruction issued: its entry in flight, and the digest. -/
def Cx.access (c : Cx) (o : Order) (sc : Scope) (accs : List Access) (dig : List (W64 × W64)) : Act :=
  let c1 : Cx := { c with s := c.s.setGang c.r { c.g with dig := c.fold dig } }
  c1.enter { id := 0, kind := .mem, path := pathOfInstr c.i, ord := o, scope := sc, accs := accs, long := (longLA c.i).isSome,
             dq := c.g.dcnt }

/-- A global load (R105). -/
def Cx.load (c : Cx) (o : Order) (sc : Scope) (t : Ty) (d : Dst) (base : Src) (off : SrcB) : Act :=
  let ps := c.places d.scalar
  let a (p : At) : W64 := c.gaddr p base off
  c.checked (c.misaligned (t.width / 8) ps a)
    (c.access o sc (ps.map fun p =>
      { lane := p.lane_, space := .glob, addr := (a p).toNat, bytes := t.width / 8, op := .rd, land := landAt d t p }) [])

/-- Store data: a register, or the 8-bit immediate sign-extended (R106). -/
def Cx.storeData (c : Cx) (t : Ty) (p : At) (x : SrcC) : W64 := trunc t.width (c.g.srcC t.is64 sext64 p x)

/-- A global store (R106, R167). -/
def Cx.store (c : Cx) (scalar : Bool) (o : Order) (sc : Scope) (t : Ty) (base : Src) (off : SrcB) (x : SrcC) : Act :=
  let ps := c.places scalar
  let a (p : At) : W64 := c.gaddr p base off
  c.checked (c.misaligned (t.width / 8) ps a)
    (c.access o sc
      (ps.map fun p =>
        { lane := p.lane_, space := .glob, addr := (a p).toNat, bytes := t.width / 8, op := .wr (c.storeData t p x),
          kick := true })
      (ps.map fun p => (a p, c.storeData t p x)))

/-- A load or store of scratch or of the lane store (R165, R166). -/
def Cx.local_ (c : Cx) (sp : Space) (o : Order) (sc : Scope) (t : Ty) (base : Src) (off : SrcB) (op : At → AccOp)
    (land : At → Land) : Act :=
  let ps := c.places false
  let sub := if sp == .scr then 1 else 2
  let size := if sp == .scr then c.grd.scrBytes else c.grd.lstBytes
  c.checked (c.badOffsets sub (t.width / 8) size ps fun p => c.oaddr p base off)
    (c.access o sc (ps.map fun p =>
      { lane := p.lane_, space := sp, addr := (c.oaddr p base off).toNat, bytes := t.width / 8, op := op p, land := land p }) [])

/-! ### Instructions -/

/-- `ld` (R105). -/
def execLd (la : BitVec 4) (o : Order) (sc : Scope) (t : Ty) (d : VReg) (base : Src) (off : SrcB) (s : State) : Out :=
  issue (.ld la o sc t d base off) s fun c => c.load o sc t (.v d) base off

/-- `st` (R106). -/
def execSt (o : Order) (sc : Scope) (t : Ty) (base : Src) (off : SrcB) (x : SrcC) (s : State) : Out :=
  issue (.st o sc t base off x) s fun c => c.store false o sc t base off x

/-- `lds` (R166). -/
def execLds (la : BitVec 4) (o : Order) (sc : Scope) (t : Ty) (d : VReg) (base : Src) (off : SrcB) (s : State) : Out :=
  issue (.lds la o sc t d base off) s fun c => c.local_ .scr o sc t base off (fun _ => .rd) (landAt (.v d) t)

/-- `sts` (R166). -/
def execSts (o : Order) (sc : Scope) (t : Ty) (base : Src) (off : SrcB) (x : SrcC) (s : State) : Out :=
  issue (.sts o sc t base off x) s fun c =>
    c.local_ .scr o sc t base off (fun p => .wr (c.storeData t p x)) (fun _ => .none)

/-- `ldl` (R166). -/
def execLdl (la : BitVec 4) (o : Order) (sc : Scope) (t : Ty) (d : VReg) (base : Src) (off : SrcB) (s : State) : Out :=
  issue (.ldl la o sc t d base off) s fun c => c.local_ .lst o sc t base off (fun _ => .rd) (landAt (.v d) t)

/-- `stl` (R166). -/
def execStl (o : Order) (sc : Scope) (t : Ty) (base : Src) (off : SrcB) (x : SrcC) (s : State) : Out :=
  issue (.stl o sc t base off x) s fun c =>
    c.local_ .lst o sc t base off (fun p => .wr (c.storeData t p x)) (fun _ => .none)

/-- `sld` (R167): once for each selected slice. -/
def execSld (la : BitVec 4) (o : Order) (sc : Scope) (t : Ty) (d base : SReg) (off : SrcB) (s : State) : Out :=
  issue (.sld la o sc t d base off) s fun c => c.load o sc t (.s d) (.s base) off

/-- `sst` (R167). -/
def execSst (o : Order) (sc : Scope) (t : Ty) (base : SReg) (off : SrcB) (x : SrcC) (s : State) : Out :=
  issue (.sst o sc t base off x) s fun c => c.store true o sc t (.s base) off x

/-- `pf` (R168): asks for a line in a cache, which nothing reads; no trap, no order, no counter. -/
def execPf (sc : Scope) (base : Src) (off : SrcB) (s : State) : Out :=
  issue (.pf sc base off) s fun c => .done c.s 0

/-- `ldm` (R249): n accesses a lane. -/
def execLdm (la : BitVec 4) (o : Order) (sc : Scope) (d : VReg) (base : Src) (off : SrcB) (n : Byte) (s : State) : Out :=
  issue (.ldm la o sc d base off n) s fun c =>
    let ps := c.places false
    let a (p : At) : W64 := c.gaddr p base off
    c.checked (c.misaligned 4 ps a)
      (c.access o sc (ps.flatMap fun p => (List.range n.toNat).map fun j =>
        { lane := p.lane_, space := .glob, addr := (a p + BitVec.ofNat 64 (4 * j)).toNat, bytes := 4, op := .rd,
          land := .v p.lane_ (d.toNat + j) .n32 }) [])

/-- `stm` (R249). -/
def execStm (o : Order) (sc : Scope) (base : Src) (off : SrcB) (x : VReg) (n : Byte) (s : State) : Out :=
  issue (.stm o sc base off x n) s fun c =>
    let ps := c.places false
    let a (p : At) (j : Nat) : W64 := c.gaddr p base off + BitVec.ofNat 64 (4 * j)
    let v (p : At) (j : Nat) : W64 := zext64 (c.g.vreg p.lane_ (x.toNat + j))
    c.checked (c.misaligned 4 ps fun p => a p 0)
      (c.access o sc
        (ps.flatMap fun p => (List.range n.toNat).map fun j =>
          { lane := p.lane_, space := .glob, addr := (a p j).toNat, bytes := 4, op := .wr (v p j) })
        (ps.flatMap fun p => (List.range n.toNat).map fun j => (a p j, v p j)))

/-! ### Image stores (R203, R231, R232, R250) -/

/-- The address of fine coordinates under a descriptor. -/
def ImgDesc.addr (x : ImgDesc) (xa xb : Nat) : W64 := x.base + BitVec.ofNat 64 xa * x.rs + BitVec.ofNat 64 xb * x.cs

/-- Where an element sends a fine coordinate on mapped axis m (R231). -/
def SymEl.fine (h : SymEl) (d : Grid) (x : ImgDesc) (fine : Nat → Nat) (m : Nat) : Nat :=
  let n := h.pi.getD m 0
  let T := if m = x.ma then x.th else x.tw
  let o := h.o.getD m 0
  let E := d.extent m
  if h.sg.getD m false then (o * T + T - 1 + E * T - fine n % (E * T)) % (E * T) else (fine n + o * T) % (E * T)

/-- Data under an element: the sign bit inverted when its sign is −1. -/
def SymEl.data (h : SymEl) (size : Nat) (x : W64) : W64 := if h.neg then x ^^^ bit1 64 (8 * size - 1) else x

/-- The image set of R232: the issued address and element first, then the images. -/
def imageSet (d : Grid) (lin : Nat) (x : ImgDesc) (i j : Nat) (v : W64) : List (W64 × W64) :=
  let g := d.coord lin
  let fine (m : Nat) : Nat := if m = x.ma then g.getD m 0 * x.th + i else g.getD m 0 * x.tw + j
  let a0 := x.addr (fine x.ma) (fine x.mb)
  d.elems.foldl (fun acc h =>
    if d.linear (h.act d g) = lin then acc else
    let a := x.addr (h.fine d x fine x.ma) (h.fine d x fine x.mb)
    if acc.any fun y => y.1 == a then acc else acc ++ [(a, h.data x.size v)]) [(a0, v)]

/-- Insertion by increasing address. -/
def insertAddr (x : W64 × W64) : List (W64 × W64) → List (W64 × W64)
  | [] => [x]
  | y :: ys => if x.1.toNat < y.1.toNat then x :: y :: ys else y :: insertAddr x ys

/-- The order in which an image set is folded: the issued element, then the images by address (R184). -/
def foldOrder (l : List (W64 × W64)) : List (W64 × W64) :=
  match l with
  | [] => []
  | x :: xs => x :: xs.foldl (fun acc y => insertAddr y acc) []

/-- `sti` (R250): one element and its image set for each visited lane. -/
def execSti (o : Order) (sc : Scope) (d : BitVec 2) (i : Src) (j : SrcB) (x : VReg) (s : State) : Out :=
  issue (.sti o sc d i j x) s fun c =>
    let m := dImg c.grd.d d.toNat
    let row (L : Nat) : Nat := (lo32 (c.g.src false (.lane L) i)).toNat
    let col (L : Nat) : Nat := (lo32 (c.g.srcB false zext64 (.lane L) j)).toNat
    let bad (L : Nat) : Bool :=
      !m.present || decide (m.th ≤ row L) || decide (m.tw ≤ col L) || (m.size == 8 && x.toNat % 2 == 1)
    let sets := c.vis.map fun L =>
      (L, imageSet c.grd c.grp.lin m (row L) (col L) (trunc (8 * m.size) (c.g.vpair L x.toNat)))
    c.checked (c.vis.filterMap fun L => if bad L then some ⟨bit1 32 L, 0xD, 0xC, 0⟩ else none)
      (c.access o sc
        (sets.flatMap fun y => y.2.zipIdx.map fun z =>
          { lane := y.1, space := .glob, addr := z.1.1.toNat, bytes := m.size, op := .wr z.1.2, img := z.2 != 0 })
        (sets.flatMap fun y => foldOrder y.2))

/-- Accesses that precede the full fences at a scope before this one, of issuers in one instance with its own (R159), and what those accesses
have seen (R158): full fences take their places in the order in which they issue (log entry 72). -/
def State.fencesBefore (s : State) (r : GangRef) (sc : Scope) : List Seen :=
  s.gangs.flatMap fun x =>
    let q : GangRef := ⟨x.1 / 32, x.1 % 32⟩
    if !s.matches_ r sc q sc then [] else
    (x.2.infl.filter fun e => e.kind == .fence && e.ord == .ar && e.scope == sc && !e.done).flatMap fun e =>
      ⟨q, sc, e.id :: e.before⟩ :: (e :: (e.before.filterMap x.2.entry?).filter fun f => f.kind == .fence && acqO f.ord).flatMap fun f =>
        s.handed q f.scope f.sync

/-- What the accesses after a fence must follow besides those before it: what the split's reads have seen, and earlier full fences. -/
def Cx.fenceSync (c : Cx) (o : Order) (sc : Scope) : List Seen :=
  ((if acqO o then c.sp.seen else []) ++ (if o == .ar then c.s.fencesBefore c.r sc else [])).filter c.s.owed

/-- `fence` (R169): an entry that orders, and completes when nothing that it orders is outstanding. -/
def execFence (o : Order) (sc : Scope) (s : State) : Out :=
  issue (.fence o sc) s fun c =>
    let sync := c.fenceSync o sc
    if c.settled && sync.isEmpty then .done c.s 0 else c.enter { id := 0, kind := .fence, ord := o, scope := sc, sync := sync }

/-- `waitc` (R170): the wait is its whole effect. -/
def execWaitc (p : Path) (t : Thr) (s : State) : Out :=
  issue (.waitc p t) s fun c => .done c.s 0

end Sys2Proof.Machine
end

