-- ==== Sys2Proof/Machine/Fetch.lean ====
section
/-!
DEFINITION. Fetching a split's next instruction (R54 to R57, R75 checks 1 and 2, R347). Fetch reads memory as it stands.
-/
namespace Sys2Proof.Machine

/-- What fetch finds: an instruction at its address, pads only so far, a trap of checks 1 and 2, or the code that ends the task. -/
inductive Fetched where
  | ok (pc : W64) (i : Instr)
  | pads (pc : W64)
  | trap (pc : W64) (cause sub : Nat) (insn : List W32)
  | task (code : Nat) (pc : W64)
  deriving DecidableEq, Repr

/-- Parcels at a location, n of them. -/
def State.parcels (s : State) (l : Loc) (n : Nat) : List W32 :=
  (List.range n).map fun k => BitVec.ofNat 32 (s.rdLoc { l with key := l.key + 4 * k } 4)

/-- Parcels of an instruction by its LEN field (R54). -/
def parcelCount (p : W32) : Nat := bitsOf p.toNat 1 0 + 2

/-- Fetch at an address, following pad parcels to the next 32-byte boundary; `n` bounds the pads. -/
def State.fetchAt (s : State) (ctx W : Nat) (inBlock : Bool) : Nat → W64 → Fetched
  | 0, pc => .pads pc
  | n + 1, pc =>
    match s.xlate ctx (ctx == 0) .fetch pc.toNat with
    | .error c => .task c pc
    | .ok l =>
      let p0 := (s.parcels l 1).getD 0 0
      let room := 8 - pc.toNat % 32 / 4
      if p0 = 0xFFFFFFFF then s.fetchAt ctx W inBlock n (BitVec.ofNat 64 ((pc.toNat / 32 + 1) * 32))
      else if bitsOf p0.toNat 1 0 = 3 then .trap pc 1 2 [p0]
      else if room < parcelCount p0 then .trap pc 2 0 (s.parcels l room)
      else
        let ps := s.parcels l (parcelCount p0)
        match decode W inBlock ps with
        | .ok x => .ok pc x.1
        | .error e => .trap pc 1 e.subcause ps

/-- The next instruction of a gang's running split. -/
def State.nextInstr (s : State) (r : GangRef) (sp : Split) : Fetched :=
  let d := s.grid (s.group r.group).grid
  s.fetchAt d.ctx d.w sp.blk.isSome 1024 sp.pc

end Sys2Proof.Machine
end

