-- ==== Sys2Proof/Machine/Running.lean ====
section
/-!
DEFINITION. The running split (R41, R45, R46): whether a split can issue, which one runs, when a notice is delivered (R257).
-/
namespace Sys2Proof.Machine

/-! ### Readiness (R41) -/

/-- Gang r with x as its running split, at work. -/
def State.runAs (s : State) (r : GangRef) (x : Split) : State :=
  { s.setGang r { s.gang r with run := some x } with cur := r }

/-- The context in which a split's next instruction would issue; `none`: what its fetch finds is no instruction. -/
def State.nextCx (s : State) (r : GangRef) (x : Split) : Option Cx :=
  match s.nextInstr r x with
  | .ok pc i => cxOf i (s.runAs r { x with pc := pc })
  | _ => none

/-- Whether a split of a gang could issue at once. -/
def State.splitReady (s : State) (r : GangRef) (x : Split) : Bool :=
  match s.nextCx r x with
  | some c => !c.stalls
  | none => true

/-! ### The running split (R45, R46) -/

/-- Pending splits that may run: in trap mode only those the handler made (R281). -/
def Gang.mayRun (g : Gang) (x : Split) : Bool := !g.trapMode || decide (g.trapUid ≤ x.born)

/-- The place in the pending list of the split that runs next: the first that is ready. -/
def State.nextPending (s : State) (r : GangRef) : Option Nat :=
  let g := s.gang r
  ((g.pend.zipIdx.filter fun x => g.mayRun x.1).find? fun x => s.splitReady r (s.readBack r x.1)).map Prod.snd

/-- Whether a split has yielded and not issued since (R43). -/
def Split.yielded (x : Split) : Bool := match x.wait with
  | .nap _ | .gave => true
  | _ => false

/-- Pending split k runs; a running split joins the head of the list, and a `yield` of its has had its effect. A swap whose spill does not
fit on its stack is not made (log entry 84); one whose stack fails ends the task (R347). -/
def State.swapIn (s : State) (r : GangRef) (k : Nat) : State :=
  let g := s.gang r
  match g.pend[k]? with
  | none => s
  | some x =>
    match s.unread r x with
    | some z => s.endTaskOf r z.1 z.2
    | none =>
    let y := s.readBack r x
    let rest := g.pend.eraseIdx k
    match g.run with
    | none => s.setGang r { g with run := some y, pend := rest }
    | some z =>
      let (u, s1) := s.fresh
      match (s1.setGang r { g with run := some y, pend := { z with born := u, wait := if z.yielded then .none else z.wait } :: rest }).spillOver r 64 with
      | .ok s2 => s2
      | .error (.full _) => s
      | .error (.bad c a) => s.endTaskOf r c a

/-- Whether the running split gives way: none runs, or it waits where R45 lets it give way, in deterministic mode at a switch point, of which
a `yield` is one (R42). -/
def State.givesWay (s : State) (r : GangRef) : Bool :=
  match (s.gang r).run with
  | none => true
  | some x => (x.yielded && (s.grid (s.group r.group).grid).det) || match s.nextCx r x with
    | some c => if c.det then c.switches else c.longWait
    | none => false

/-- The gang's running split chosen: on giving way, the first pending split that is ready. -/
def State.chooseSplit (s : State) (r : GangRef) : State :=
  if !s.givesWay r then s else
  match s.nextPending r with
  | some k => s.swapIn r k
  | none => s

/-- The running split chosen, and spilled entries read back while the table has room. -/
def State.settle (s : State) (r : GangRef) : State := (s.chooseSplit r).reload r 64

/-- Whether a gang waits on a long-latency result, a `waitc`, a `wtl` or an in-flight counter at 63 (R315): no split of it can run, and the
running one waits so, or with none running a pending one does. -/
def State.memWaits (s : State) (r : GangRef) : Bool :=
  let g := s.gang r
  (s.nextPending r).isNone && (match g.run with
    | some x => [x]
    | none => g.pend.filter g.mayRun).any fun x => (s.nextCx r (s.readBack r x)).any Cx.memWait

/-! ### Notices (R257) -/

/-- Whether an instruction defers notices while its gang waits at it. -/
def defers : Instr → Bool
  | .bar .. | .bwait .. | .wtl .. | .waitc .. => true
  | _ => false

/-- The lanes of a gang that wait at such an instruction. -/
def State.deferring (s : State) (r : GangRef) : W32 :=
  let s1 := s.settle r
  let g := s1.gang r
  maskUnion ((match g.run with
    | some x => [x]
    | none => g.pend).filter fun x => (s1.nextCx r (s1.readBack r x)).any fun (c : Cx) => defers c.i && c.waiting)

/-- Whether a notice is delivered to a gang now: one is due, the group is resident, the gang is outside trap mode and outside a block, it is
at a boundary, and an instruction at which it waited when the notice fell due has returned. -/
def State.noticeReady (s : State) (r : GangRef) : Bool :=
  let g := s.gang r
  match g.run with
  | none => false
  | some sp =>
    (s.group r.group).st == .resident && s.ntc r && !g.trapMode && g.trapReq.isNone && g.ntcHold == 0 && sp.blk.isNone && match sp.wait with
      | .none | .nap _ | .gave => true
      | _ => false

/-- The address of the instruction that a split would issue next, pads passed over (R257). -/
def State.noticePc (s : State) (r : GangRef) (x : Split) : W64 :=
  match s.nextInstr r x with
  | .ok pc _ | .pads pc | .trap pc _ _ _ | .task _ pc => pc

/-- A notice falls due in every gang of a group whose context has the enable set and a handler (R257, R280). -/
def State.notify (s : State) (k sub : Nat) : State :=
  let d := s.grid (s.group k).grid
  if (s.ctx d.ctx).notices sub then
    (List.range d.gangs).foldl (fun s j =>
      let g := s.gang ⟨k, j⟩
      if g.live = 0 then s
      else s.setGang ⟨k, j⟩ { g with due := g.due ++ [sub], ntcHold := g.ntcHold ||| s.deferring ⟨k, j⟩ }) s
  else s

end Sys2Proof.Machine
end

