-- ==== Sys2Proof/Machine/Units.lean ====
section
/-!
DEFINITION. Barrier units (R251), matrix batches as far as control needs them (R212, R213, R245), marks (R254), and the end of a gang
(R50).
-/
namespace Sys2Proof.Machine

/-! ### Barrier units -/

/-- The phase is complete: the next phase, mode unset, no arrivals (R251). -/
def Bar.next (b : Bar) : Bar := { phase := b.phase + 1, mode := 0, arr := 0, expct := 0 }

/-- Gangs of a group that have not ended. -/
def State.liveGangs (s : State) (group : Nat) : List Nat :=
  (List.range (s.grid (s.group group).grid).gangs).filter fun j => (s.gang ⟨group, j⟩).live != 0

/-- A default phase completes when every gang that has not ended has arrived. -/
def Bar.full (b : Bar) (live : List Nat) : Bool := live.all fun j => decide (b.arr / 2 ^ j % 2 = 1)

/-- An arrival of gang j at a unit, in default mode or with a count, after the checks. -/
def Bar.arrive (b : Bar) (live : List Nat) (j : Nat) (cnt : Option Nat) : Bar :=
  match cnt with
  | none =>
    let b1 := { b with mode := 1, arr := b.arr + 2 ^ j }
    if b1.full live then b1.next else b1
  | some e =>
    let b1 := { b with mode := 2, expct := e, arr := b.arr + 1 }
    if b1.arr = e then b1.next else b1

/-- The misuses of R251 that a unit can tell. -/
def Bar.misused (b : Bar) (j : Nat) (cnt : Option Nat) : Bool :=
  match cnt with
  | none => b.mode == 2 || (b.mode == 1 && decide (b.arr / 2 ^ j % 2 = 1))
  | some e => b.mode == 1 || (b.mode == 2 && b.expct != e) || decide (e = 0) || decide (65535 < e)

def Group.setBar (g : Group) (k : Nat) (b : Bar) : Group := { g with bars := Sparse.put g.bars k b }

/-- A gang has ended: default phases that now hold every gang left complete (R251). -/
def State.barsAtEnd (s : State) (group : Nat) : State :=
  let live := s.liveGangs group
  let g := s.group group
  s.setGroup group { g with bars := g.bars.map fun x =>
    if x.2.mode = 1 && x.2.full live then (x.1, x.2.next) else x }

/-! ### Batches -/

/-- Closes the open batch: it takes the next number of the matrix timeline and is queued (R212). -/
def State.closeBatch (s : State) (r : GangRef) : Nat × State :=
  let g := s.gang r
  let k := (s.group r.group).grid
  let ctx := (s.grid k).ctx
  let op : Op := { kind := .batch g.batch, grid := k, by_ := r, t0 := s.now, at_ := s.tick,
                   before := (g.batch.flatMap Mmx.before).eraseDups }
  let (n, s1) := s.startOp ctx engMatrix op
  let lock : Lock := { num := n, ranges := g.openRanges }
  (n, s1.setGang r { g with batch := [], closed := g.closed ++ [lock] })

/-! ### Marks -/

/-- Marks that no earlier access, and nothing that an earlier fence follows, holds any more take effect (`owed` says what is outstanding). -/
def Gang.ripen (g : Gang) (owed : Seen → Bool) : Gang :=
  let ripe (x : W32 × List Nat) : Bool := x.2.all fun id => match g.entry? id with
    | some e => !e.owes false && !(e.kind == .fence && e.sync.any owed)
    | none => true
  { g with trig := (g.trigWait.filter ripe).foldl (fun m x => m ||| x.1) g.trig,
           trigWait := g.trigWait.filter fun x => !ripe x }

/-- Lanes marked, once every earlier access is performed (R254); a lane marked already is not marked again. -/
def Gang.mark (g : Gang) (lanes : W32) (hist : List Nat) (owed : Seen → Bool) : Gang :=
  let had := g.trigWait.foldl (fun m x => m ||| x.1) g.trig
  let new := lanes &&& ~~~had
  if new = 0 then g else { g with trigWait := g.trigWait ++ [(new, hist)] }.ripen owed

/-- The early edge of a gang's grid, looked at again. -/
def State.markCheck (s : State) (r : GangRef) : State :=
  let k := (s.group r.group).grid
  s.earlyCheck k (s.grid k).issued

/-! ### The end of lanes and of a gang -/

/-- `exit` for lanes m of the running split (R50): they are marked (R254) and leave every mask; trap mode ends with the handler's split
(R286); a gang with no lane left closes its batch (R245) and leaves the barriers; the merges that the lanes' end brings about may need entries of the
split table to spill (R46, R48). -/
def Cx.exitLanes (c : Cx) (m : W32) : State :=
  let s1 := c.retire c.s 0
  let g1 := (s1.gang c.r).mark m c.sp.hist s1.owed
  let g2 := g1.endLanes m
  let g3 := { g2 with trapMode := g2.trapMode && g2.run.isSome }
  let s2 := s1.setGang c.r g3
  if g3.live = 0 then
    let s3 := if g3.batch.isEmpty then s2 else (s2.closeBatch c.r).2
    (s3.barsAtEnd c.r.group).markCheck c.r
  else match (s2.regroup c.r).spillOver c.r 64 with
  | .ok s3 => s3.markCheck c.r
  | .error e => c.noSpill e

end Sys2Proof.Machine
end

