-- ==== Sys2Proof/Machine/Matrix.lean ====
section
/-!
DEFINITION. The matrix datapath: fragments, cells and slots (R205 to R209), format blocks (R215 to R217), fidelity (R218 to R223), the
instructions 0xC0 to 0xC4 (R242 to R247) and the execution of a batch.
-/
namespace Sys2Proof.Machine

/-! ### Slots -/

/-- Key of a word of a B slot: quartet, slot, cell, word (R208). -/
def cellKey (quartet slot cell word : Nat) : Nat := ((quartet * 4 + slot) * 32 + cell) * 4 + word

/-- The four slots of a quartet as one list of 512 words. -/
def Group.slots (g : Group) (quartet : Nat) : List W32 :=
  (List.range 512).map fun i => Sparse.get 0 g.bs (quartet * 512 + i)

/-- Cells written from registers `base` to `base` + 3 of some lanes (R244). -/
def Group.publish (grp : Group) (g : Gang) (slotKey base off : Nat) (lanes : W32) : Group :=
  let words := (lanesOf lanes).flatMap fun L => (List.range 4).map fun k =>
    ((slotKey * 32 + L + off) * 4 + k, g.vreg L (base + k))
  { grp with bs := words.foldl (fun m w => Sparse.set 0 m w.1 w.2) grp.bs }

/-! ### Issue -/

/-- A tile product joins the open batch, or opens one (R212, R243). -/
def Cx.join (c : Cx) (t : Ty) (block : Option (List W64)) (acc a : VReg) : State :=
  let n := if block.isSome then 16 else fragLen t
  let rows := c.vis.map fun L => (L, (List.range n).map fun k => c.g.vreg L (a.toNat + k))
  let m : Mmx := { ty := t, block := block, c := acc.toNat, rows := rows, b := c.grp.slots (c.r.gang / 4),
                   before := c.sp.hist }
  c.s.setGang c.r { c.g with batch := c.g.batch ++ [m] }

/-- The ninth `mmx` of a batch (R212). -/
def Cx.batchFull (c : Cx) : List Flaw :=
  if c.g.batch.length < 8 then [] else [⟨c.visMask, 0xD, 0xA, 0⟩]

/-- `mmx` of BF16, FP16 or FP64 (R243). -/
def execMmx (t : Ty) (acc a : VReg) (s : State) : Out :=
  issue (.mmx t acc a) s fun c => c.checked c.batchFull (.done (c.join t none acc a) 0)

/-- `mmx.nar` (R215, R243): the format block is read now. -/
def execMmxNar (acc a : VReg) (f : SReg) (s : State) : Out :=
  issue (.mmxNar acc a f) s fun c =>
    let at_ := c.sVis f
    let x := blockRead c.sp.hist at_
    c.checked
      (c.batchFull ++ if at_.toNat % 32 = 0 then [] else [⟨c.visMask, 7, 0, at_.toNat⟩])
      (match c.s.place c.r x.2 with
      | .error k => .task k at_.toNat
      | .ok p =>
        let word (k : Nat) : W64 :=
          BitVec.ofNat 64 (leNat ((List.range 8).map fun i => c.s.readByte c.r x.1 x.2 p (8 * k + i)))
        let seen := (c.s.relsAt (c.s.where_ c.r x.2) 32).map Rel.seen
        let c1 : Cx := { c with g := { c.g with run := some { c.sp with seen := c.sp.seen ++ seen } } }
        .done (c1.join .n32 (some ((List.range 4).map word)) acc a) 0)

/-- `bpub` (R244): the cells are written when it completes. -/
def execBpub (la : BitVec 4) (q : BitVec 2) (a : VReg) (o : Byte) (s : State) : Out :=
  issue (.bpub la q a o) s fun c =>
    c.checked
      (if o.toNat % c.W = 0 ∧ o.toNat + c.W ≤ 32 then [] else [⟨c.visMask, 0xD, 0xB, 0⟩])
      (c.enter { id := 0, kind := .bpub (c.r.gang / 4 * 4 + q.toNat) a.toNat o.toNat c.visMask, long := true })

/-- `mfence` (R245). -/
def execMfence (d : SReg) (s : State) : Out :=
  issue (.mfence d) s fun c =>
    let x : Nat × State :=
      if c.g.batch.isEmpty then ((c.s.ctx c.grd.ctx).latest engMatrix, c.s) else c.s.closeBatch c.r
    let g := x.2.gang c.r
    .done (x.2.setGang c.r (g.writeRegs (c.sls.map fun sl => .s sl d.toNat (ticketOf engMatrix x.1)))) 0

/-- `mzero` (R246). -/
def execMzero (d : VReg) (s : State) : Out :=
  issue (.mzero d) s fun c =>
    c.writes (c.vis.flatMap fun L => (List.range 32).map fun k => .v L (d.toNat + k) 0)

/-- `mtr` (R247): every read precedes every write. -/
def execMtr (t : Ty) (d a : VReg) (s : State) : Out :=
  issue (.mtr t d a) s fun c =>
    c.writes (c.vis.flatMap fun L => (List.range c.W).map fun j => .v L (d.toNat + j) (c.g.vreg j (a.toNat + L)))

/-! ### Format blocks (R215) -/

/-- What a batch multiplies: elements of an IEEE format, of two binary8 formats, integers, E2M1. -/
inductive MKind where
  | ieee (t : Ty) | b8 (a b : B8) | int (sa sb : Bool) | e2
  deriving DecidableEq, Repr

/-- A format block that is valid: kind, block length (0: every scale 1), and the scales' addresses. -/
structure MFmt where
  kind : MKind
  len : Nat := 0
  scla : Nat := 0
  sclb : Nat := 0
  deriving DecidableEq, Repr

/-- A valid block's format; `none`: an invalid block. -/
def fmtBlock (ws : List W64) : Option MFmt :=
  let w := (ws.getD 0 0).toNat
  let blen := bitsOf w 31 24
  let ak := bitsOf w 3 0
  let bk := bitsOf w 7 4
  let ac := bitsOf w 15 8
  let bc := bitsOf w 23 16
  let kind : Option MKind :=
    if ak = 0 ∧ bk = 0 then
      match b8Of ac, b8Of bc with
      | some a, some b => some (.b8 a b)
      | _, _ => none
    else if ac ≠ 0 ∨ bc ≠ 0 then none
    else if (ak = 1 ∨ ak = 2) ∧ (bk = 1 ∨ bk = 2) then (if blen = 0 then some (.int (ak == 1) (bk == 1)) else none)
    else if ak = 3 ∧ bk = 3 then some .e2
    else none
  if bitsOf w 63 32 ≠ 0 ∨ ws.getD 1 0 ≠ 0 ∨ 3 < blen then none
  else kind.map fun k =>
    { kind := k, len := if blen = 0 then 0 else 8 * 2 ^ blen, scla := (ws.getD 2 0).toNat, sclb := (ws.getD 3 0).toNat }

def Mmx.fmt (m : Mmx) : Option MFmt :=
  match m.block with
  | none => some { kind := .ieee m.ty }
  | some ws => fmtBlock ws

/-- Bits of an element, and columns and K of the tile. -/
def MKind.bits : MKind → Nat
  | .ieee t => fwidth t
  | .b8 _ _ | .int _ _ => 8
  | .e2 => 4
def MKind.n : MKind → Nat
  | .ieee .f64 => 16
  | _ => 32
def MKind.k : MKind → Nat
  | .ieee .f64 => 4
  | .ieee _ => 32
  | .b8 _ _ | .int _ _ => 64
  | .e2 => 128

/-! ### Elements (R205, R207) -/

/-- Element e of consecutive words. -/
def elemOf (bits : Nat) (ws : List W32) (e : Nat) : Nat :=
  if bits = 64 then (pair64 (ws.getD (2 * e) 0) (ws.getD (2 * e + 1) 0)).toNat
  else (ws.getD (e / (32 / bits)) 0).toNat / 2 ^ (bits * (e % (32 / bits))) % 2 ^ bits

/-- B[k][n] among the four slots. -/
def bElem (bits : Nat) (b : List W32) (k n : Nat) : Nat :=
  if bits = 64 then
    let w := ((n / 4) * 32 + (n % 4 + 4 * k)) * 4
    (pair64 (b.getD w 0) (b.getD (w + 1) 0)).toNat
  else
    let per := 4 * (32 / bits)
    let w := ((n / 8) * 32 + (n % 8 + 8 * (k / per))) * 4
    elemOf bits ((List.range 4).map fun i => b.getD (w + i) 0) (k % per)

/-- The two values of a product of a floating kind. -/
def MKind.vals (kd : MKind) (x y : Nat) : FV × FV :=
  match kd with
  | .ieee t => (fval t x, fval t y)
  | .b8 a b => (a.val x, b.val y)
  | _ => (e2m1Val x, e2m1Val y)

/-- An INT8 element. -/
def int8Val (signed : Bool) (x : Nat) : Int := if signed && decide (128 ≤ x % 256) then (x % 256 : Nat) - 256 else (x % 256 : Nat)

/-! ### Fidelity (R218 to R222) -/

/-- Eave and course columns (R218). -/
def MKind.slices : MKind → Nat × Nat
  | .ieee .bf16 => (6, 4)
  | .ieee .f16 => (9, 6)
  | .ieee .f64 => (40, 26)
  | .ieee _ => (0, 0)
  | .b8 a b =>
    let c := a.fmt.t + 1 + (b.fmt.t + 1)
    (c - 10, Nat.min 4 (c - 6))
  | .int _ _ | .e2 => (0, 0)

/-- An observation of a product that a batch forms, and whether the residue checker sees it. -/
structure Obs where
  o : SliceObs
  seen : Bool
  deriving DecidableEq, Repr

/-- Whether an error is replaced in place: its slice is below nominal (R219). -/
def lowRail (fid : Nat) (course : Bool) : Bool := fid == 2 || (fid == 1 && !course)

/-- Whether a slice is gated off, and so is not checked. -/
def gatedOff (fid : Nat) (o : SliceObs) : Bool := fid == 3 && !o.course && !o.ridge

/-- Whether an error calls for a repetition: detected, in a slice that is on the nominal rail and not gated (R221). -/
def repeats (fid : Nat) (x : Obs) : Bool :=
  x.seen && !x.o.ridge && !x.o.inRepeat && !lowRail fid x.o.course && !gatedOff fid x.o

/-- The carry out of the columns below h of a product of two significands (R218). -/
def carryOut (a b h : Nat) : Nat :=
  (List.range h).foldl (fun n i => n + if a.testBit i then b % 2 ^ (h - i) * 2 ^ i else 0) 0 / 2 ^ h

/-- Two numbers differ modulo 7 (R221). -/
def differ7 (a b : Nat) : Bool := a % 7 != b % 7

/-- A field of a slice below nominal: the midpoint after a detected error, the value the cells gave after an undetected one. -/
def fieldOf (width right : Nat) (x : Option Obs) : Nat :=
  match x with
  | none => right
  | some x => if width = 0 then 0 else if x.seen then 2 ^ (width - 1) else x.o.value % 2 ^ width

/-- P′ of one product (R220), given what was observed of it; `rep`: its chunk was repeated. -/
def perturbed (fid e k P : Nat) (obs : List Obs) (rep : Bool) : Nat :=
  let cut := if fid = 3 then P - P % 2 ^ e else P
  if rep then cut else
  let seen (course : Bool) : Option Obs := obs.find? fun x => x.o.course == course && !x.o.ridge && !x.o.inRepeat
  if fid = 1 then P - P % 2 ^ e + fieldOf e (P % 2 ^ e) (seen false)
  else if fid = 2 then
    P - P % 2 ^ (e + k) + 2 ^ e * fieldOf k (P / 2 ^ e % 2 ^ k) (seen true) + fieldOf e (P % 2 ^ e) (seen false)
  else cut

/-- A product as a term of the sum; `none`: an invalid product (0 × ∞). A zero operand, a NaN and an infinity are decided before the
array. -/
def termOf (fid e k : Nat) (a b : FV) (obs : List Obs) (rep : Bool) : Option FV :=
  match a, b with
  | .num na ma ea, .num nb mb eb =>
    if ma = 0 ∨ mb = 0 then fprod a b
    else some (.num (na != nb) (perturbed fid e k (ma * mb) obs rep) (ea + eb))
  | a, b => fprod a b

/-- A term scaled by both of its scales; a NaN block makes it NaN (R120, R216). -/
def scaleTerm (sa sb : Nat) (t : Option FV) : Option FV :=
  if sa = 255 ∨ sb = 255 then some (.nan false) else t.map fun v => scale8 sb (scale8 sa v)

/-! ### Execution -/

/-- What was observed of a product. -/
def obsAt (errs : List Obs) (m row col k : Nat) : List Obs :=
  errs.filter fun x => x.o.mmx == m && x.o.row == row && x.o.col == col && x.o.k == k

/-- The arguments of one output element: A's elements, B's, their scales (127: one). -/
structure Dot where
  xs : List Nat
  ys : List Nat
  sa : List Nat
  sb : List Nat
  deriving DecidableEq, Repr

/-- One output element from accumulator pattern `c`. -/
def dotOut (kd : MKind) (fid m row col : Nat) (errs : List Obs) (x : Dot) (c : Nat) : Nat :=
  let sl := kd.slices
  let rep (j : Nat) : Bool := errs.any fun x =>
    x.o.mmx == m && x.o.row == row && x.o.col == col && x.o.k / 32 == j && repeats fid x
  let term (k : Nat) : Option FV :=
    let v := kd.vals (x.xs.getD k 0) (x.ys.getD k 0)
    scaleTerm (x.sa.getD k 127) (x.sb.getD k 127) (termOf fid sl.1 sl.2 v.1 v.2 (obsAt errs m row col k) (rep (k / 32)))
  match kd with
  | .int sa sb =>
    low 32 ((List.range 64).foldl (fun s k => s + int8Val sa (x.xs.getD k 0) * int8Val sb (x.ys.getD k 0)) (c : Int))
  | .ieee .f64 => (List.range 4).foldl (fun c k => step64 (term k) c) c
  | kd =>
    (List.range (kd.k / 32)).foldl
      (fun c j => chunkSum (fval .f32 c) ((List.range 32).map fun i => term (32 * j + i))) c

/-- Scales of a row of A or a column of B, one for each k (R216). -/
def State.scales (s : State) (grid : Nat) (f : MFmt) (base i : Nat) : Except (Nat × Nat) (List Nat) :=
  if f.len = 0 then .ok [] else
  let nb := f.kind.k / f.len
  match s.engBytes grid ((base + i * nb) % 2 ^ 64) nb with
  | .error e => .error e
  | .ok bs => .ok ((List.range f.kind.k).map fun k => (bs.getD (k / f.len) 0).toNat)

/-- Scales of every index of a list. -/
def State.scalesAll (s : State) (grid : Nat) (f : MFmt) (base : Nat) : List Nat → Except (Nat × Nat) (List (Nat × List Nat))
  | [] => .ok []
  | i :: is =>
    match s.scales grid f base i with
    | .error e => .error e
    | .ok x =>
      match s.scalesAll grid f base is with
      | .error e => .error e
      | .ok r => .ok ((i, x) :: r)

/-- The accumulator registers of a tile product, computed. -/
def tileWrites (g : Gang) (m : Mmx) (f : MFmt) (fid idx : Nat) (errs : List Obs) (sa sb : List (Nat × List Nat)) :
    List RegWrite :=
  let kd := f.kind
  m.rows.flatMap fun row =>
    (List.range kd.n).flatMap fun n =>
      let x : Dot :=
        { xs := (List.range kd.k).map fun k => elemOf kd.bits row.2 k,
          ys := (List.range kd.k).map fun k => bElem kd.bits m.b k n,
          sa := Sparse.get [] sa row.1, sb := Sparse.get [] sb n }
      let at_ : Nat := if kd.bits = 64 then m.c + 2 * n else m.c + n
      let old : Nat := if kd.bits = 64 then (g.vpair row.1 at_).toNat else (g.vreg row.1 at_).toNat
      let v := dotOut kd fid idx row.1 n errs x old
      if kd.bits = 64 then
        [.v row.1 at_ (BitVec.ofNat 32 v), .v row.1 (at_ + 1) (BitVec.ofNat 32 (v / 2 ^ 32))]
      else [.v row.1 at_ (BitVec.ofNat 32 v)]

/-- The tile products of a batch in issue order; an invalid block writes nothing (R217). The state, and whether every block was valid;
or the product whose scales fail, with the code and address that end the task. -/
def State.tiles (s : State) (r : GangRef) (grid fid : Nat) (errs : List Obs) :
    Nat → List Mmx → Except (Nat × Nat × Nat) (State × Bool)
  | _, [] => .ok (s, true)
  | i, m :: ms =>
    match m.fmt with
    | none =>
      match s.tiles r grid fid errs (i + 1) ms with
      | .error e => .error e
      | .ok x => .ok (x.1, false)
    | some f =>
      match s.scalesAll grid f f.scla (m.rows.map Prod.fst), s.scalesAll grid f f.sclb (List.range f.kind.n) with
      | .error e, _ => .error (i, e)
      | _, .error e => .error (i, e)
      | .ok sa, .ok sb => (s.land r (tileWrites (s.gang r) m f fid i errs sa sb)).tiles r grid fid errs (i + 1) ms

/-- Errors counted: eave and course errors replaced, chunks repeated (R221, R223). -/
structure ErrCount where
  eave : Nat
  course : Nat
  rep : Nat
  deriving DecidableEq, Repr

/-- The significands of a product that the array forms, and its columns in the eave and the course: only products of two nonzero finite
operands can be found in error. -/
def Mmx.product (m : Mmx) (o : SliceObs) : Option (Nat × Nat × Nat × Nat) :=
  match m.fmt with
  | none => none
  | some f =>
    let kd := f.kind
    match m.rows.find? fun x => x.1 == o.row with
    | none => none
    | some row =>
      if kd.n ≤ o.col ∨ kd.k ≤ o.k then none else
      let x := elemOf kd.bits row.2 o.k
      let y := bElem kd.bits m.b o.k o.col
      match kd with
      | .int sa sb => some ((int8Val sa x).natAbs, (int8Val sb y).natAbs, 0, 0)
      | kd => match kd.vals x y with
        | (.num _ ma _, .num _ mb _) => if ma = 0 ∨ mb = 0 then none else some (ma, mb, kd.slices.1, kd.slices.2)
        | _ => none

/-- Whether the residue checker sees an error: the slice's result field, or the carry out of it, differs modulo 7 from the product's (R221);
the ridge has no carry. A slice without columns shows nothing. -/
def Mmx.sees (m : Mmx) (o : SliceObs) : Option Bool :=
  (m.product o).bind fun p =>
    let P := p.1 * p.2.1
    let e := p.2.2.1
    let k := p.2.2.2
    if o.ridge then some (differ7 o.value (P / 2 ^ (e + k)))
    else if o.course then
      if k = 0 then none else some (differ7 (o.value % 2 ^ k) (P / 2 ^ e % 2 ^ k) || differ7 o.carry (carryOut p.1 p.2.1 (e + k)))
    else if e = 0 then none else some (differ7 (o.value % 2 ^ e) (P % 2 ^ e) || differ7 o.carry (carryOut p.1 p.2.1 e))

/-- The observations of a batch that its products can show. -/
def formed (ms : List Mmx) (errs : List SliceObs) : List Obs :=
  errs.filterMap fun o => (ms[o.mmx]?.bind fun m => m.sees o).map fun d => ⟨o, d⟩

/-- An uncorrectable error: detected in the ridge, or in a repetition (R221). -/
def uncorrectable (fid : Nat) (errs : List Obs) (x : Obs) : Bool :=
  x.seen && (x.o.ridge || (x.o.inRepeat && !gatedOff fid x.o && errs.any fun y =>
    y.o.mmx == x.o.mmx && y.o.row == x.o.row && y.o.col == x.o.col && y.o.k / 32 == x.o.k / 32 && repeats fid y))

/-- The first tile product with an uncorrectable error, at which the array stops. -/
def fatalAt (fid : Nat) (errs : List Obs) : Option Nat :=
  ((errs.filter (uncorrectable fid errs)).map fun x => x.o.mmx).min?

def errCount (fid : Nat) (errs : List Obs) : ErrCount :=
  let low (course : Bool) : Nat :=
    ((errs.filter fun x => x.seen && !x.o.ridge && !x.o.inRepeat && x.o.course == course && lowRail fid course).map
      fun x => (x.o.mmx, x.o.row, x.o.col, x.o.k)).eraseDups.length
  { eave := low false, course := low true,
    rep := ((errs.filter (repeats fid)).map fun x => (x.o.mmx, x.o.row, x.o.col, x.o.k / 32)).eraseDups.length }

/-- The counters of R223. -/
def State.countErrs (s : State) (core ctx : Nat) (n : ErrCount) : State :=
  let k := s.core core
  let x := s.ctx ctx
  let w (n : Nat) : W64 := BitVec.ofNat 64 n
  let s1 := s.setCore core
    { k with oeave := k.oeave + w n.eave, ocourse := k.ocourse + w n.course, orepeat := k.orepeat + w n.rep }
  s1.setCtx ctx { x with fidev := x.fidev + w (n.eave + n.course + n.rep) }

/-- Whether no batch of the gang with a lower number still has to run (R212). -/
def Ctx.batchFirst (x : Ctx) (o : Op) (num : Nat) : Bool :=
  x.ops.all fun y =>
    okeyEng y.1 != engMatrix || decide (num ≤ okeyNum y.1) || y.2.by_ != o.by_ || y.2.st.final

/-- A batch that may be executed now: its tile products. -/
def State.batchAt (s : State) (ctx num : Nat) : Option (Op × List Mmx) :=
  let o := s.op ctx engMatrix num
  match o.kind with
  | .batch ms => if !o.st.final && s.opMayStart o && (s.ctx ctx).batchFirst o num then some (o, ms) else none
  | _ => none

/-- BATCH_EXECUTION (R212, R214, R243): the array executes a closed batch; its ticket completes, or fails when a block was invalid
(R217). `errs`: what the cells did. The tile products before one that ends the task, by an uncorrectable error or by scales that cannot be
read, have run, and their errors count (R223). -/
def execBatchExecution (ctx num : Nat) (errs : List SliceObs) (s : State) : Out :=
  .next (match s.batchAt ctx num with
  | none => s
  | some (o, ms) =>
    let fid := (s.grid o.grid).fid
    let es := formed ms errs
    let stop := fatalAt fid es
    let count (s : State) (n : Nat) : State :=
      s.countErrs (s.group o.by_.group).core ctx (errCount fid (es.filter fun x => decide (x.o.mmx < n)))
    match s.tiles o.by_ o.grid fid es 0 (match stop with
      | some j => ms.take (j + 1)
      | none => ms) with
    | .error (i, e) => (count s i).endTaskOf o.by_ e.1 e.2
    | .ok x => match stop with
      | some j => (count s (j + 1)).endTaskOf o.by_ 0x07 0
      | none => (count x.1 ms.length).setOpSt ctx engMatrix num (if x.2 then .completed else .failed))

end Sys2Proof.Machine
end

