-- ==== Sys2Proof/Machine/Resources.lean ====
section
/-!
DEFINITION. A core's resources (R4, R33, R262): what groups hold, what is free, what a group needs, which groups wait for a place (R38,
R228, R332), and what the levels of a raised group can be (R274).
-/
namespace Sys2Proof.Machine

/-! ### What is held -/

/-- Groups that hold resources on a core: those resident, and those on their way to it. -/
def State.placedOn (s : State) (core : Nat) : List (Nat × Group) :=
  s.groups.filter fun x => x.2.st.placed && x.2.core == core

/-- Physical slices that a group holds. -/
def State.slicesOfGroup (s : State) (k : Nat) : List Nat :=
  (List.range (s.grid (s.group k).grid).gangs).flatMap fun j => (s.gang ⟨k, j⟩).held

/-- Quadrant of a physical slice. -/
def quadOf (p : Nat) : Nat := p / 8

/-- Slices of a group's gangs whose home quadrant is q (R39). -/
def Grid.homeSlices (d : Grid) (q : Nat) : Nat := ((List.range d.gangs).filter fun j => j % 4 == q).length * d.sl

/-- Lines counted on a quadrant at a level: each slice's entitlement on its home quadrant (R266); what H holds beyond them, on that of
one of the gangs, which one is free (log entry 40). -/
def Grid.lineShare (d : Grid) (lv q : Nat) : Nat :=
  let h := linesAt d.slices d.cap lv
  let e := h / d.slices
  let rest := h - d.slices * e
  d.homeSlices q * e + (if rest = 0 then 0 else if q = Config.restGang h % d.gangs % 4 then rest else 0)

/-- Whether a context's launches may use a core's quadrant: every one, or the pool's (R10). -/
def State.inPool (s : State) (ctx core q : Nat) : Bool :=
  match s.poolOf ctx with
  | none => true
  | some p => p.core == core && p.quads.testBit q

/-- Physical slices not held on a core, as a context may use them. -/
def State.freeSlices (s : State) (ctx core : Nat) : List Nat :=
  let used := (s.placedOn core).flatMap (fun x => s.slicesOfGroup x.1) ++ (s.core core).grants.flatMap Grant.slices
  (List.range 32).filter fun p => !used.contains p && s.inPool ctx core (quadOf p)

/-- Lines of a quadrant held on a core. -/
def State.usedLines (s : State) (core q : Nat) : Nat :=
  (s.placedOn core).foldl (fun n x => n + (s.grid x.2.grid).lineShare x.2.regsLv q) 0 +
    (s.core core).grants.foldl (fun n g => n + g.lines.getD q 0) 0

/-- Lines of a quadrant not held. -/
def State.freeLines (s : State) (ctx core q : Nat) : Nat :=
  if s.inPool ctx core q then Config.linesPerQuad - s.usedLines core q else 0

/-- Scratch bytes held on a core. -/
def State.usedScr (s : State) (core : Nat) : Nat :=
  (s.placedOn core).foldl (fun n x => n + scratchAt (s.grid x.2.grid).scrBytes x.2.scrLv) 0 +
    (s.core core).grants.foldl (fun n g => n + g.scr) 0

/-- Scratch bytes not held. -/
def State.freeScr (s : State) (core : Nat) : Nat := Config.scratchPerCore - s.usedScr core

/-- What is left of the budget that the launches of the pool's run share: slices, lines, scratch; the whole core without a pool (R10). What
firmware holds of what the run's groups have given up is not in it (R256). -/
def State.budget (s : State) (ctx core : Nat) : Nat × Nat × Nat :=
  match s.poolOf ctx with
  | none => (32, 4 * Config.linesPerQuad, Config.scratchPerCore)
  | some p =>
    let run := (s.placedOn core).filter fun x => (s.grid x.2.grid).ctx == ctx
    let sum (f : Nat × Group → Nat) : Nat := run.foldl (fun n x => n + f x) 0
    let out (f : Nat × Nat × Nat → Nat) : Nat := (s.core core).grants.foldl (fun n g => n + f (Sparse.get (0, 0, 0) g.given ctx)) 0
    (p.sl - (sum (fun x => (s.slicesOfGroup x.1).length) + out (·.1)),
     p.ln - (sum (fun x => linesAt (s.grid x.2.grid).slices (s.grid x.2.grid).cap x.2.regsLv) + out (·.2.1)),
     p.scr - (sum (fun x => scratchAt (s.grid x.2.grid).scrBytes x.2.scrLv) + out (·.2.2)))

/-- Gangs resident on a quadrant that have not ended (R33). -/
def State.gangsOn (s : State) (core q : Nat) : Nat :=
  (s.placedOn core).foldl (fun n x =>
    n + ((List.range (s.grid x.2.grid).gangs).filter fun j => j % 4 == q && (s.gang ⟨x.1, j⟩).live != 0).length) 0

/-! ### Placement at full level (R38 to R40) -/

/-- What is missing on a core for a group at full level (R365): slices, lines, scratch, and the quadrants that lack slices or lines. -/
structure Short where
  sl : Nat
  ln : Nat
  scr : Nat
  qmask : Nat
  deriving DecidableEq, Repr

def State.shortfall (s : State) (core : Nat) (d : Grid) : Short :=
  let free := s.freeSlices d.ctx core
  let sl (q : Nat) : Nat := d.homeSlices q - (free.filter fun p => quadOf p == q).length
  let ln (q : Nat) : Nat := d.lineShare 4 q - s.freeLines d.ctx core q
  let b := s.budget d.ctx core
  let sls := Nat.max (sl 0 + sl 1 + sl 2 + sl 3) (d.slices - b.1)
  let lns := Nat.max (ln 0 + ln 1 + ln 2 + ln 3) (linesAt d.slices d.cap 4 - b.2.1)
  let short (q : Nat) : Bool := sl q != 0 || ln q != 0
  let qs := [0, 1, 2, 3].filter fun q => short q
  let qs := if qs.isEmpty && (sls != 0 || lns != 0) then [0, 1, 2, 3].filter fun q => s.inPool d.ctx core q else qs
  { sl := sls, ln := lns, scr := Nat.max (d.scrBytes - s.freeScr core) (d.scrBytes - b.2.2),
    qmask := qs.foldl (fun m q => m + 2 ^ q) 0 }

/-- Whether the gangs of a group fit beside those resident (R33). -/
def State.gangsFit (s : State) (core : Nat) (d : Grid) : Bool :=
  let n (q : Nat) : Nat := s.gangsOn core q + ((List.range d.gangs).filter fun j => j % 4 == q).length
  [0, 1, 2, 3].all (fun q => decide (n q ≤ Config.gangsPerQuad)) && decide (n 0 + n 1 + n 2 + n 3 ≤ 64)

/-- Whether a group can be placed on a core at full level. -/
def State.fits (s : State) (core : Nat) (d : Grid) : Bool :=
  let x := s.shortfall core d
  x.sl == 0 && x.ln == 0 && x.scr == 0 && s.gangsFit core d

/-! ### Image slots (R275) -/

/-- Image slots in use in a context: address and bytes. -/
def State.imgSlots (s : State) (ctx : Nat) : List (Nat × Nat) :=
  s.groups.filterMap fun x =>
    if x.2.st != .absent && x.2.st != .ended && (s.grid x.2.grid).ctx == ctx
    then some (x.2.img.toNat, (s.grid x.2.grid).slotBytes) else none

/-- Whether ranges overlap. -/
def overlaps (l : List (Nat × Nat)) (a n : Nat) : Bool := l.any fun u => decide (a < u.1 + u.2) && decide (u.1 < a + n)

/-- Whether a slot at an address is free in the context's image area, outside the ordered-update area. -/
def State.slotFree (s : State) (ctx a n : Nat) : Bool :=
  let c := s.ctx ctx
  decide (c.imgbase.toNat ≤ a) && decide (a + n ≤ c.oua.1) && a % 64 == 0 && !overlaps (s.imgSlots ctx) a n

/-- Whether some slot is free for a group of a grid. -/
def State.slotExists (s : State) (d : Grid) : Bool :=
  let c := s.ctx d.ctx
  let used := (s.imgSlots d.ctx).map fun u => (u.1 - c.imgbase.toNat, u.2)
  (firstFit used 64 d.slotBytes (c.oua.1 - c.imgbase.toNat) (used.length + 1) 0).isSome

/-! ### Groups that wait for a place -/

/-- The group that a grid would dispatch next. -/
def State.waitingGroup (s : State) (d : Grid) : Option Nat :=
  if d.st != .running || (s.ctx d.ctx).out || !s.ownsCtx d.part d.ctx then none else
  match d.nextIssued (d.count - d.next) d.next with
  | none => none
  | some lin => if s.boxReady d lin then some lin else none

/-- Grids with a group that waits for a place on a core. -/
def State.waitingFor (s : State) (core : Nat) : List (Nat × Grid) :=
  s.grids.filter fun x => s.mode.hasDie x.2.part (coreDie core) && (s.waitingGroup x.2).isSome

/-! ### Raising a group (R274) -/

/-- Levels above which nothing fits: the highest level from `hi` down to `lo` that a test allows, `lo` where none does. -/
def bestLevel (ok : Nat → Bool) (lo : Nat) : Nat → Nat
  | 0 => lo
  | n + 1 => if n + 1 ≤ lo then lo else if ok (n + 1) then n + 1 else bestLevel ok lo n

/-- The levels (lanes, registers, scratch) to which free resources raise a group; `held`: it holds what its levels say. -/
def State.raised (s : State) (core k : Nat) (held : Bool) (want : Nat × Nat × Nat) : Nat × Nat × Nat :=
  let g := s.group k
  let d := s.grid g.grid
  let free := s.freeSlices d.ctx core
  let own := if held then s.slicesOfGroup k else []
  let onQ (q : Nat) : Nat := ((free ++ own).filter fun p => quadOf p == q).length
  let b := s.budget d.ctx core
  let lanes (lv : Nat) : Bool :=
    decide (slicesAt d.slices lv ≤ b.1 + own.length) &&
    (if lv = 4 then [0, 1, 2, 3].all fun q => decide (d.homeSlices q ≤ onQ q)
     else decide (slicesAt d.slices lv ≤ free.length + own.length))
  let regs (lv : Nat) : Bool :=
    decide (linesAt d.slices d.cap lv ≤ b.2.1 + (if held then linesAt d.slices d.cap g.regsLv else 0)) &&
    [0, 1, 2, 3].all fun q =>
      decide (d.lineShare lv q ≤ s.freeLines d.ctx core q + (if held then d.lineShare g.regsLv q else 0))
  let scr (lv : Nat) : Bool :=
    decide (scratchAt d.scrBytes lv ≤ Nat.min (s.freeScr core) b.2.2 + (if held then scratchAt d.scrBytes g.scrLv else 0))
  let lo := if held then (g.lanesLv, g.regsLv, g.scrLv) else (0, 0, 0)
  (bestLevel lanes lo.1 want.1, bestLevel regs lo.2.1 want.2.1, bestLevel scr lo.2.2 want.2.2)

/-- Whether the free resources hold a group's floor (R273). -/
def State.floorFits (s : State) (core k : Nat) : Bool :=
  let d := s.grid (s.group k).grid
  !(s.freeSlices d.ctx core).isEmpty && decide (1 ≤ (s.budget d.ctx core).1) &&
    decide (linesAt d.slices d.cap 0 ≤ (s.budget d.ctx core).2.1) &&
    [0, 1, 2, 3].all (fun q => decide (d.lineShare 0 q ≤ s.freeLines d.ctx core q)) && s.gangsFit core d

/-- A list turned by n places: which free slice is taken first the manual leaves open (log entry 41). -/
def turned (n : Nat) (l : List Nat) : List Nat := l.drop (n % Nat.max 1 l.length) ++ l.take (n % Nat.max 1 l.length)

/-- Physical slices by gang at full level: each gang its own on its home quadrant (R40). -/
def fullSlices (d : Grid) (avail : List Nat) : List (List Nat) :=
  (List.range d.gangs).map fun j =>
    ((avail.filter fun p => quadOf p == j % 4).drop (j / 4 * d.sl)).take d.sl

/-- Extra slices given to gangs below full level: first to those that hold none, in gang order (log entry 41). -/
def spread (d : Grid) (live : Nat → Bool) : List Nat → List (List Nat) → List (List Nat)
  | [], hs => hs
  | p :: ps, hs =>
    let room (j : Nat) : Bool := live j && decide ((hs.getD j []).length < d.sl)
    let none_ := (List.range d.gangs).find? fun j => room j && (hs.getD j []).isEmpty
    let j := match none_ with
      | some j => j
      | none => ((List.range d.gangs).find? room).getD 0
    spread d live ps (hs.set j (hs.getD j [] ++ [p]))

/-- Slices of each gang of a group at a lane level, from what it holds and what is free. -/
def State.assign (s : State) (core k lv : Nat) (held : Bool) : List (List Nat) :=
  let d := s.grid (s.group k).grid
  let free := turned (Config.turnChoice s.tick) (s.freeSlices d.ctx core)
  let own := (List.range d.gangs).map fun j => if held then (s.gang ⟨k, j⟩).held else []
  if lv = 4 then fullSlices d (own.flatten ++ free)
  else spread d (fun j => (s.gang ⟨k, j⟩).live != 0) (free.take (slicesAt d.slices lv - own.flatten.length)) own

/-- A group's gangs hold the slices of a list. -/
def State.holdSlices (s : State) (k : Nat) (hs : List (List Nat)) : State :=
  hs.zipIdx.foldl (fun s x => s.setGang ⟨k, x.2⟩ { s.gang ⟨k, x.2⟩ with held := x.1 }) s

/-- New levels of a group, `epoch` raised once, and the notices (R11, R264, R274). -/
def State.setLevels (s : State) (k : Nat) (lv : Nat × Nat × Nat) (sub : Nat) : State :=
  let g := s.group k
  (s.setGroup k { g with lanesLv := lv.1, regsLv := lv.2.1, scrLv := lv.2.2, epoch := g.epoch + 1 }).notify k sub

/-! ### Who is served next (R273, R274) -/

/-- What a core's free resources go to. -/
inductive Cand where
  | raise (k : Nat) | resume (k : Nat) | launch
  deriving DecidableEq, Repr

/-- Candidates that the free resources of a core can serve: class, victims before launches, dispatch order. -/
def State.cands (s : State) (core : Nat) : List ((Nat × Nat × Nat) × Cand) :=
  let vs := s.groups.filterMap fun x =>
    let d := s.grid x.2.grid
    let key : Nat × Nat × Nat := (d.cls, 0, x.2.seq)
    if x.2.st.placed && x.2.core == core then
      let cur := (x.2.lanesLv, x.2.regsLv, x.2.scrLv)
      if s.raised core x.1 true (4, 4, 4) != cur then some (key, Cand.raise x.1) else none
    else if (x.2.st == .suspended || (x.2.st == .saved && x.2.queuedLd)) && !(s.ctx d.ctx).out &&
        coreDie x.2.core == coreDie core && (!d.redo || x.2.core == core) && s.floorFits core x.1 then some (key, .resume x.1)
    else none
  let ls := (s.waitingFor core).filterMap fun x => if s.fits core x.2 && s.slotExists x.2 then some ((x.2.cls, 1, x.2.acc), Cand.launch) else none
  vs ++ ls

/-- Whether one place in the order comes before another. -/
def keyLt (a b : Nat × Nat × Nat) : Bool :=
  decide (a.1 < b.1) || (a.1 == b.1 && (decide (a.2.1 < b.2.1) || (a.2.1 == b.2.1 && decide (a.2.2 < b.2.2))))

/-- The candidate served next. -/
def State.nextCand (s : State) (core : Nat) : Option ((Nat × Nat × Nat) × Cand) :=
  (s.cands core).foldl (fun b x => match b with
    | none => some x
    | some y => if keyLt x.1 y.1 then some x else some y) none

end Sys2Proof.Machine
end

