-- ==== Sys2Proof/Machine/Squeeze.lean ====
section
/-!
DEFINITION. The squeeze controller (R260 to R278, R302 to R304, R364, R365): requests and victims, folds, suspensions and context
switches, resumptions and expansions.
-/
namespace Sys2Proof.Machine

/-! ### Choosing levels (R263) -/

/-- A victim as one kind of resource sees it: its group, class and level, and what it holds that counts at each level. -/
structure Vic where
  group : Nat
  cls : Nat
  lv : Nat
  amt : Nat → Nat

/-- One pass over the victims of class c, in victim order: each is lowered by one level while there is need. What is left of the
need, and what has been released. -/
def lowerPass (c : Nat) : Nat → Nat → List Vic → List Vic × Nat × Nat
  | need, got, [] => ([], need, got)
  | need, got, v :: vs =>
    if need = 0 ∨ v.cls ≠ c ∨ v.lv = 0 then
      let r := lowerPass c need got vs
      (v :: r.1, r.2)
    else
      let rel := v.amt v.lv - v.amt (v.lv - 1)
      let r := lowerPass c (need - rel) (got + rel) vs
      ({ v with lv := v.lv - 1 } :: r.1, r.2)

/-- The victims lowered for a need: classes from 3 down to cls + 1, each down to its floors. -/
def lowerAll (cls need : Nat) (vs : List Vic) : List Vic × Nat :=
  let r := ([3, 2, 1].filter fun c => decide (cls < c)).foldl (fun (acc : List Vic × Nat × Nat) c =>
    (List.range 4).foldl (fun acc _ => lowerPass c acc.2.1 acc.2.2 acc.1) acc) (vs, need, 0)
  (r.1, r.2.1)

/-- Slices that a group keeps at a lane level and that count: those on the quadrants of a mask, which go first (R260, R264). -/
def State.countedSlices (s : State) (k qmask lv : Nat) : Nat :=
  let held := s.slicesOfGroup k
  let inQ := (held.filter fun p => qmask.testBit (quadOf p)).length
  inQ - Nat.min inQ (held.length - slicesAt (s.grid (s.group k).grid).slices lv)

/-- Lines that count at a level. -/
def Grid.countedLines (d : Grid) (qmask lv : Nat) : Nat :=
  ([0, 1, 2, 3].filter fun q => qmask.testBit q).foldl (fun n q => n + d.lineShare lv q) 0

/-- The amounts of slices, lines and scratch of a group that count at levels. -/
def State.counted (s : State) (k qmask : Nat) (lv : Nat × Nat × Nat) : Nat × Nat × Nat :=
  let d := s.grid (s.group k).grid
  (s.countedSlices k qmask lv.1, d.countedLines qmask lv.2.1, scratchAt d.scrBytes lv.2.2)

/-- The levels of a group. -/
def Group.levels (g : Group) : Nat × Nat × Nat := (g.lanesLv, g.regsLv, g.scrLv)

/-- The victim set of a class on a core, in victim order (R261, R263, R302). -/
def State.victims (s : State) (core cls : Nat) : List Nat :=
  let vs := (s.placedOn core).filter fun x => decide (cls < (s.grid x.2.grid).cls) && (s.grid x.2.grid).ctx != 0
  let before (x y : Nat × Group) : Bool :=
    keyLt ((s.grid y.2.grid).cls, y.2.seq, y.2.lin) ((s.grid x.2.grid).cls, x.2.seq, x.2.lin)
  (vs.foldl (fun l x => l.takeWhile (fun y => before y x) ++ x :: l.dropWhile (fun y => before y x)) []).map (·.1)

/-- Suspensions of class-3 victims in victim order until the needs are met: the victims suspended and what is left of the needs. -/
def State.suspendFor (s : State) (qmask : Nat) (lv : Nat → Nat × Nat × Nat) :
    Nat × Nat × Nat → List Nat → List Nat × (Nat × Nat × Nat)
  | need, [] => ([], need)
  | need, k :: ks =>
    if (s.grid (s.group k).grid).cls ≠ 3 ∨ need = (0, 0, 0) then s.suspendFor qmask lv need ks
    else
      let h := s.counted k qmask (lv k)
      let r := s.suspendFor qmask lv (need.1 - h.1, need.2.1 - h.2.1, need.2.2 - h.2.2) ks
      (k :: r.1, r.2)

/-- The levels that R263 gives victims for a need, and what is left of it. -/
def State.lowered (s : State) (req : Req) (need : Nat × Nat × Nat) (vs : List Nat) :
    (Nat → Nat × Nat × Nat) × (Nat × Nat × Nat) :=
  let mk (lv : Nat × Nat × Nat → Nat) (amt : Nat → Nat → Nat) : List Vic := vs.map fun k =>
    { group := k, cls := (s.grid (s.group k).grid).cls, lv := lv (s.group k).levels, amt := amt k }
  let a := lowerAll req.cls need.1 (mk (·.1) (fun k n => s.countedSlices k req.qmask n))
  let b := lowerAll req.cls need.2.1 (mk (·.2.1) (fun k n => (s.grid (s.group k).grid).countedLines req.qmask n))
  let c := lowerAll req.cls need.2.2 (mk (·.2.2) (fun k n => scratchAt (s.grid (s.group k).grid).scrBytes n))
  let at_ (r : List Vic × Nat) (k : Nat) : Nat := ((r.1.find? fun v => v.group == k).map Vic.lv).getD 4
  (fun k => (at_ a k, at_ b k, at_ c k), (a.2, b.2, c.2))

/-- What the controller decides when it takes a request (R263, R272): the plans in their order; a victim that is suspended because the request
remains unmet at every floor has been folded to its floor first. Of a context switch (R304): every group of the context on the core is
written out whole. -/
def State.planFor (s : State) (core : Nat) (req : Req) : Taken :=
  match req.by_ with
  | .save ctx =>
    { req := req, plans := ((s.placedOn core).filter fun x => (s.grid x.2.grid).ctx == ctx).map fun x =>
        { group := x.1, suspend := true } }
  | _ =>
    let vs := s.victims core req.cls
    let need := (req.nsl, req.nln, req.nscr)
    let fold (lv : Nat → Nat × Nat × Nat) (sus : List Nat) : List Plan :=
      (vs.filter fun k => lv k != (s.group k).levels && !sus.contains k).map fun k =>
        { group := k, lanes := (lv k).1, regs := (lv k).2.1, scr := (lv k).2.2 }
    let susp (sus : List Nat) : List Plan := sus.map fun k => { group := k, suspend := true }
    let answer (plans : List Plan) (sus : List Nat) (left : Nat × Nat × Nat) : Taken :=
      let unmet := left != (0, 0, 0)
      let atFloor := vs.any fun k => !sus.contains k
      { req := req, plans := plans, flr := unmet && atFloor, nov := unmet && !atFloor }
    if req.susp then
      let r := s.suspendFor req.qmask (fun k => (s.group k).levels) need vs
      let f := s.lowered req r.2 (vs.filter fun k => !r.1.contains k)
      answer (susp r.1 ++ fold f.1 r.1) r.1 f.2
    else
      let f := s.lowered req need vs
      let r := s.suspendFor req.qmask f.1 f.2 vs
      answer (fold f.1 [] ++ susp r.1) r.1 r.2

/-! ### Reports (R269) -/

/-- What is refused of each kind. -/
def Taken.refused (t : Taken) : Nat × Nat × Nat := (t.req.nsl - t.gsl, t.req.nln - t.gln, t.req.nscr - t.gscr)

/-- `st` of a report. -/
def Taken.status (t : Taken) : Nat :=
  if !t.req.valid then 3 else if t.refused = (0, 0, 0) then 0 else if (t.gsl, t.gln, t.gscr) = (0, 0, 0) then 2 else 1

/-- The report's four words. -/
def Taken.report (t : Taken) : List Nat :=
  let f := if t.req.valid then t.refused else (0, 0, 0)
  let part := t.status == 1 || t.status == 2
  [t.status + 2 ^ 8 * flag (part && t.flr) + 2 ^ 9 * flag (part && t.nov) + 2 ^ 10 * flag (part && t.img) + 2 ^ 16 * t.nvic +
     2 ^ 32 * t.gsl,
   t.gln + 2 ^ 32 * t.gscr, f.1 + 2 ^ 32 * f.2.1, f.2.2]

/-- The request is over: its report goes to `rpt`, or to the scheduler, whose group waits when part was refused (R269, R365). -/
def State.finishReq (s : State) (core : Nat) (t : Taken) : State :=
  let c := s.core core
  let keep (g : Grant) : Bool := !(g.slices.isEmpty && g.lines == [0, 0, 0, 0] && g.scr == 0)
  let s1 := s.setCore core { c with taken := none, grants := c.grants.filter keep }
  match t.req.by_ with
  | .sqz _ ctx =>
    t.report.zipIdx.foldl (fun s x => s.vaWrite ctx ((t.req.rpt.toNat + 8 * x.2) % 2 ^ 64) 8 x.1) s1
  | .sched grid =>
    let d := s1.grid grid
    s1.setGrid grid { d with req := none, reqHold := t.status != 0 }
  | .save _ => s1

/-- Plans not carried out whose group is still resident; a victim that has ended is dropped from the request (R261). -/
def State.openPlans (s : State) (core : Nat) (t : Taken) : List Plan :=
  t.plans.filter fun p => !p.done && (s.group p.group).st.placed && (s.group p.group).core == core

/-- Every victim has been handled: the request is over. -/
def State.settleReq (s : State) (core : Nat) : State :=
  match (s.core core).taken with
  | none => s
  | some t =>
    if !(s.openPlans core t).isEmpty then s
    else s.finishReq core (if t.plans.any fun p => !p.done then { t with nov := true } else t)

/-- The request that a core takes next: arrival, class, the scheduler's first (R261). -/
def nextReq (rs : List Req) : Option Req :=
  let key (r : Req) : Nat × Nat × Nat := (r.at_, r.cls, match r.by_ with
    | .sqz .. => 1
    | _ => 0)
  rs.foldl (fun b r => match b with
    | none => some r
    | some x => if keyLt (key r) (key x) then some r else some x) none

/-- Whether a firmware request names a held key, or finds 16 grants on its core (R302). -/
def State.grantClash (s : State) (core : Nat) (r : Req) : Bool :=
  match r.by_ with
  | .sqz key _ =>
    decide (16 ≤ (s.core core).grants.length) || s.cores.any fun x => x.2.grants.any fun g => g.key == key
  | _ => false

/-- REQUEST_TAKEN (R261, R263): a request handled to its end gives way; then the core takes the next one, unless freed resources that
came no later wait to be given out. -/
def execRequestTaken (core : Nat) (s : State) : Out :=
  .next (match (s.core core).taken with
  | some _ => s.settleReq core
  | none =>
    let c := s.core core
    match nextReq c.reqs with
    | none => s
    | some r =>
      if c.freed && decide (c.freedAt ≤ r.at_) then s else
      let rest := c.reqs.filter fun q => q.id != r.id
      if !r.valid || s.grantClash core r then
        (s.setCore core { c with reqs := rest }).finishReq core { req := { r with valid := false } }
      else
        let gs := match r.by_ with
          | .sqz key _ => c.grants ++ [({ key := key } : Grant)]
          | _ => c.grants
        (s.setCore core { c with reqs := rest, taken := some (s.planFor core r), grants := gs }).settleReq core)

/-! ### Lines and pages that go out (R13, R264, R266, R267) -/

/-- Where a pick is written in its group's image slot. -/
def State.pickAddr (s : State) (k : Nat) (p : Pick) : Nat :=
  match p with
  | .line r key => s.lineVa r key
  | .page p => s.scrVa k (256 * p)

/-- A pick written, and counted (R270). -/
def State.writePick (s : State) (k : Nat) (p : Pick) : State :=
  match p with
  | .line r key => s.writeLine r key
  | .page p =>
    let grp := s.group k
    let d := s.grid grp.grid
    let s1 := s.saveScr grp d (256 * p) 256
    let c := s1.ctx d.ctx
    s1.setCtx d.ctx { c with scrwr := c.scrwr + 256 }

/-- A pick is in the image only. -/
def State.outPick (s : State) (k : Nat) (p : Pick) : State :=
  match p with
  | .line r key => s.setGang r ((s.gang r).setLine key fun l => { l with out := true, going := false })
  | .page p =>
    let g := s.group k
    let l : Line := Sparse.get {} g.pages p
    s.setGroup k { g with pages := Sparse.put g.pages p { l with out := true } }

/-- When a pick was last written to. -/
def State.pickWr (s : State) (k : Nat) (p : Pick) : Nat :=
  match p with
  | .line r key => (Sparse.get {} (s.gang r).lines key : Line).wr
  | .page p => (Sparse.get {} (s.group k).pages p : Line).wr

/-- Whether the image of a group can be written at an address (R271). -/
def State.imgOk (s : State) (k a : Nat) : Bool := s.imgWrites (s.grid (s.group k).grid).ctx a

/-- The first address at which a pick cannot be written. -/
def State.pickBad (s : State) (k : Nat) (p : Pick) : Option Nat :=
  badAddr (s.imgOk k) (s.pickAddr k p) (match p with
    | .line .. => 64
    | .page _ => 256)

/-- The n lines of a list with the oldest last access. -/
def Gang.oldestLines (g : Gang) : Nat → List Nat → List Nat
  | 0, _ => []
  | n + 1, ks =>
    match g.oldestLine ks with
    | none => []
    | some k => k :: g.oldestLines n (ks.filter fun j => j != k)

/-- The gang of a group that is issuing: the one that issued last (R266). -/
def State.issuer (s : State) (k : Nat) : Nat :=
  (List.range (s.grid (s.group k).grid).gangs).foldl (fun b j =>
    if (s.gang ⟨k, b⟩).last < (s.gang ⟨k, j⟩).last then j else b) 0

/-- The lines of a group that a lower register level takes (R13, R266): of each slice whose entitlement falls to e', those with the oldest last
access, so many that e' stay: a slice may hold fewer than it was entitled to, since an expansion brings none back (R274; log entry 79), and
those that R14 has chosen to go are not counted. -/
def State.linePicks (s : State) (k lv : Nat) : List Pick :=
  let grp := s.group k
  let d := s.grid grp.grid
  if grp.regsLv ≤ lv then [] else
  let h := linesAt d.slices d.cap lv
  let e := h / d.slices
  let shared := entitled d.slices d.cap grp.regsLv = 0
  (List.range d.gangs).flatMap fun j =>
    let r : GangRef := ⟨k, j⟩
    let g := s.gang r
    let ks :=
      if 0 < e then (List.range d.sl).flatMap fun sl =>
        let held := g.staying (g.heldLines d.cap sl)
        g.oldestLines (held.length - e) held
      else if j = s.issuer k then g.oldestLines ((g.staying (g.linesHeld d)).length - h) (g.staying (g.linesHeld d))
      else if shared then []
      else g.staying (g.linesHeld d)
    ks.map fun key => .line r key

/-- Held pages of a group, in order of offset. -/
def Group.pagesHeld (g : Group) (d : Grid) : List Nat :=
  (List.range (d.scrBytes / 256)).filter fun p => !(Sparse.get {} g.pages p : Line).out

/-- The n pages of a list with the oldest last access, ties to the higher offset (R267). -/
def Group.oldestPages (g : Group) : Nat → List Nat → List Nat
  | 0, _ => []
  | n + 1, ps =>
    match ps.foldl (fun (b : Option Nat) p => match b with
      | none => some p
      | some q => if (Sparse.get {} g.pages p : Line).last ≤ (Sparse.get {} g.pages q : Line).last then some p else some q)
      none with
    | none => []
    | some p => p :: g.oldestPages n (ps.filter fun q => q != p)

/-- The pages that a scratch level takes. -/
def State.pagePicks (s : State) (k lv : Nat) : List Pick :=
  let g := s.group k
  let d := s.grid g.grid
  let held := g.pagesHeld d
  (g.oldestPages (held.length - pagesAt d.scrBytes lv) held).map .page

/-- Every held line and page of a group. -/
def State.allPicks (s : State) (k : Nat) : List Pick :=
  let g := s.group k
  let d := s.grid g.grid
  ((List.range d.gangs).flatMap fun j => ((s.gang ⟨k, j⟩).linesHeld d).map fun key => Pick.line ⟨k, j⟩ key) ++
  (g.pagesHeld d).map .page

/-- Whether a picked line waits for a result (R105, R174, R214). -/
def State.pickPinned (s : State) : Pick → Bool
  | .line r key => s.pinned r (key % 64)
  | .page _ => false

/-! ### Slices that go (R264 step 3) -/

/-- The logical slice that each held physical slice of a gang carries (R265), numbered over the group. -/
def State.carried (s : State) (k j : Nat) : List (Nat × Option Nat) :=
  let d := s.grid (s.group k).grid
  let g := s.gang ⟨k, j⟩
  if g.live = 0 then g.held.map fun p => (p, none)
  else if (s.group k).lanesLv = 4 then g.held.zipIdx.map fun x => (x.1, some (j * d.sl + x.2))
  else
    let ss := slicesOf (match g.run with
      | some sp => sp.mask
      | none => g.live)
    ((List.range 32).filter g.held.contains).zipIdx.map fun x => (x.1, ss[x.2]?.map fun i => j * d.sl + i)

/-- Its place in the order of release: quadrants of the mask first, then no logical slice, the higher logical slice, the higher
physical number. -/
def releaseKey (qmask : Nat) (x : Nat × Option Nat) : Nat :=
  (if qmask.testBit (quadOf x.1) then 0 else 65536) +
  (match x.2 with
    | none => 0
    | some j => 32 * (1024 - j)) + (31 - x.1)

/-- A list of numbers by key, ascending. -/
def byKey (key : α → Nat) (l : List α) : List α :=
  l.foldl (fun m x => m.takeWhile (fun y => decide (key y ≤ key x)) ++ x :: m.dropWhile (fun y => decide (key y ≤ key x))) []

/-- Physical slices that a group gives up to keep n. -/
def State.released (s : State) (k qmask n : Nat) : List Nat :=
  let cs := (List.range (s.grid (s.group k).grid).gangs).flatMap fun j => s.carried k j
  ((byKey (releaseKey qmask) cs).map (·.1)).take (cs.length - n)

/-- A group's gangs without some physical slices. -/
def State.dropSlices (s : State) (k : Nat) (ps : List Nat) : State :=
  (List.range (s.grid (s.group k).grid).gangs).foldl (fun s j =>
    let g := s.gang ⟨k, j⟩
    s.setGang ⟨k, j⟩ { g with held := g.held.filter fun p => !ps.contains p }) s

/-! ### Grants -/

/-- What a victim has given up is counted, and held under the key of a firmware request; for the scheduler it is free on the core
(R274, R302). `fresh`: the victim, a group of context `ctx`, has not been counted yet. -/
def State.granted (s : State) (core : Nat) (t : Taken) (fresh : Bool) (ctx : Nat) (amt : Nat × Nat × Nat) (sl : List Nat) (ln : List Nat)
    (scr : Nat) : State :=
  let c := s.core core
  let t1 := { t with gsl := t.gsl + amt.1, gln := t.gln + amt.2.1, gscr := t.gscr + amt.2.2, nvic := t.nvic + flag fresh }
  match t.req.by_ with
  | .sqz key _ =>
    s.setCore core { c with taken := some t1, grants := c.grants.map fun g =>
      if g.key == key then
        let x := Sparse.get (0, 0, 0) g.given ctx
        { g with slices := g.slices ++ sl, lines := (List.range 4).map fun q => g.lines.getD q 0 + ln.getD q 0, scr := g.scr + scr,
                 given := Sparse.put g.given ctx (x.1 + sl.length, x.2.1 + ln.sum, x.2.2 + scr) }
      else g }
  | _ => (s.setCore core { c with taken := some t1 }).freeOn core

/-- The first open plan of a group changed. -/
def planStep (k : Nat) (f : Plan → Plan) : List Plan → List Plan
  | [] => []
  | p :: ps => if p.group == k && !p.done then f p :: ps else p :: planStep k f ps

/-- A group's open plan marked done. -/
def Taken.handled (t : Taken) (k : Nat) : Taken := { t with plans := planStep k (fun p => { p with done := true }) t.plans }

/-- Every plan of a group marked done (R271). -/
def Taken.dropped (t : Taken) (k : Nat) : Taken :=
  { t with plans := t.plans.map fun p => if p.group == k then { p with done := true } else p }

/-- Whether no plan of a group has been carried out yet. -/
def Taken.untouched (t : Taken) (k : Nat) : Bool := !t.plans.any fun p => p.group == k && p.done

/-- The request in which a group's plan is open, and the plan. -/
def State.planOf (s : State) (k : Nat) : Option (Taken × Plan) :=
  match (s.core (s.group k).core).taken with
  | none => none
  | some t => ((s.openPlans (s.group k).core t).find? fun p => p.group == k).map fun p => (t, p)

/-- The context on whose behalf a request was made: context 0 for a firmware request and for `imgsv` (R309). -/
def State.payerOf (s : State) (q : Req) : Nat :=
  match q.by_ with
  | .sched grid => (s.grid grid).ctx
  | _ => 0

/-- From now on a request's context pays for a group's register lines and scratch written and read (R309). -/
def State.charged (s : State) (k : Nat) (q : Req) : State :=
  let g := s.group k
  let c := s.payerOf q
  if g.payer = c then s else s.setGroup k { g with payer := c, paid := g.payer :: g.paid }

/-! ### Folds (R264) -/

/-- Lines and pages that a plan's fold writes. -/
def State.foldPicks (s : State) (k : Nat) (p : Plan) : List Pick := s.linePicks k p.regs ++ s.pagePicks k p.scr

/-- What a fold has to write, and when each was written: fixed when it begins (R264 step 1). -/
def State.foldList (s : State) (k : Nat) (p : Plan) : List (Pick × Option Nat) :=
  p.picks.getD ((s.foldPicks k p).map fun x => (x, none))

/-- Picks that a fold can write now: not written yet, and waiting for no result (R105, R174, R214). -/
def State.foldDue (s : State) (l : List (Pick × Option Nat)) : List Pick :=
  (l.filter fun x => x.2.isNone && !s.pickPinned x.1).map Prod.fst

/-- Picks written to since their image was written: they are written again (R264 step 2). -/
def State.foldAgain (s : State) (k : Nat) (l : List (Pick × Option Nat)) : List Pick :=
  (l.filter fun x => x.2.any fun t => decide (t < s.pickWr k x.1)).map Prod.fst

/-- Picks of a list written. -/
def State.writePicks (s : State) (k : Nat) (ps : List Pick) : State := ps.foldl (fun s x => s.writePick k x) s

/-- A step of a fold has written some picks. -/
def State.foldWrote (s : State) (k : Nat) (t : Taken) (l : List (Pick × Option Nat)) (ps : List Pick) : State :=
  let core := (s.group k).core
  let l1 := l.map fun x => if ps.contains x.1 then (x.1, some s.tick) else x
  s.setCore core { s.core core with taken := some { t with plans := planStep k (fun p => { p with picks := some l1 }) t.plans } }

/-- A fold takes effect whole (R264 steps 2 and 3). -/
def State.foldNow (s : State) (k : Nat) (t : Taken) (p : Plan) : State :=
  let grp := s.group k
  let d := s.grid grp.grid
  let core := grp.core
  let q := t.req.qmask
  let new := (p.lanes, p.regs, p.scr)
  let a := s.counted k q grp.levels
  let b := s.counted k q new
  let l := s.foldList k p
  let gone := s.released k q (slicesAt d.slices p.lanes)
  let s1 := s.writePicks k (s.foldAgain k l)
  let s2 := l.foldl (fun s x => s.outPick k x.1) s1
  let s3 := ((s2.charged k t.req).dropSlices k gone).setLevels k new 1
  let c := s3.ctx d.ctx
  let s4 := s3.setCtx d.ctx { c with sqfold := c.sqfold + 1 }
  s4.granted core (t.handled k) (t.untouched k) d.ctx (a.1 - b.1, a.2.1 - b.2.1, a.2.2 - b.2.2) gone
    ((List.range 4).map fun q => d.lineShare grp.regsLv q - d.lineShare p.regs q)
    (scratchAt d.scrBytes grp.scrLv - scratchAt d.scrBytes p.scr)

/-- FOLD (R264): a step writes what can be written of the lines and pages picked, up to an image write that fails; when all are written, the
fold takes effect, unless a line that has been written to since waits for a result again (R105, R174, R214), or a second write fails. -/
def execFold (group : Nat) (s : State) : Out :=
  .next (match s.planOf group with
  | none => s
  | some (t, p) =>
    if p.suspend then s else
    let l := s.foldList group p
    if l.all fun x => x.2.isSome then
      if (s.foldAgain group l).all fun x => !s.pickPinned x && (s.pickBad group x).isNone then
        (s.foldNow group t p).settleReq (s.group group).core
      else s
    else
      let ps := (s.foldDue l).takeWhile fun x => (s.pickBad group x).isNone
      let s1 := if ps.isEmpty then s else s.charged group t.req
      (s1.writePicks group ps).foldWrote group t l ps)

/-! ### Suspension (R272, R276, R277, R364) and context switches (R304) -/

/-- A split in the entry format of R46, in two words. -/
def entryWords (sp : Option Split) (parked : Bool) : List Nat :=
  [(sp.map fun x => x.pc.toNat).getD 0, (sp.map fun x => x.mask.toNat + 2 ^ 32 * flag parked).getD 0]

/-- The barrier units as the group block holds them (R364): addresses and words. -/
def State.barWords (s : State) (k : Nat) : List (Nat × Nat) :=
  let g := s.group k
  (List.range 16).flatMap fun i =>
    let b := g.bar i
    [(g.img.toNat + 16 * i, b.phase.toNat + 2 ^ 32 * b.mode), (g.img.toNat + 16 * i + 8, b.arr % 2 ^ 32 + 2 ^ 32 * b.expct)]

/-- The issue-state region of a gang block (R277), in a form that the manual leaves open. -/
def State.issueWords (s : State) (k j : Nat) : List (Nat × Nat) :=
  let g := s.group k
  (List.range 20).map fun i =>
    let a := g.img.toNat + (s.grid g.grid).gangOff j + 0x160 + 8 * i
    (a, (Config.freeWord (s.tick + a)).toNat)

/-- The entries of a gang's split table in their places; which entry an entry has the manual leaves open. -/
def State.tableOrder (s : State) (g : Gang) : List Split :=
  let tab := g.inTable
  let rot := Config.turnChoice s.tick % Nat.max 1 tab.length
  tab.drop rot ++ tab.take rot

/-- The rest of a gang block: split table, running split, `fstat`, `rlvl`, counters. The trap save slot stays. -/
def State.gangWords (s : State) (k j : Nat) : List (Nat × Nat) :=
  let grp := s.group k
  let g := s.gang ⟨k, j⟩
  let a := grp.img.toNat + (s.grid grp.grid).gangOff j
  let tab := s.tableOrder g
  let ws := (List.range 16).flatMap fun i => entryWords tab[i]? (match tab[i]? with
    | some x => g.parked.any fun y => y.born == x.born
    | none => false)
  let cnt := ([Path.glob, .scr, .lst, .atr, .net].zipIdx).foldl (fun n x => n + g.counter x.1 % 64 * 2 ^ (6 * x.2)) 0
  (ws.zipIdx.map fun x => (a + 8 * x.2, x.1)) ++
  ((entryWords g.run false).zipIdx.map fun x => (a + 0x140 + 8 * x.2, x.1)) ++
  [(a + 0x150, g.fstatRead.toNat + 2 ^ 32 * (rlvlOf grp (s.ntc ⟨k, j⟩)).toNat), (a + 0x158, cnt)]

/-- The B slots (R276). -/
def State.bWords (s : State) (k : Nat) : List (Nat × Nat) :=
  let g := s.group k
  (List.range (256 * (s.grid g.grid).quartets)).map fun i =>
    (g.img.toNat + 256 + 8 * i,
     (Sparse.get (0 : W32) g.bs (2 * i)).toNat + 2 ^ 32 * (Sparse.get (0 : W32) g.bs (2 * i + 1)).toNat)

/-- A slice block (R276): scalar registers, predicates, zeros. -/
def State.sliceWords (s : State) (k j sl : Nat) : List (Nat × Nat) :=
  let grp := s.group k
  let d := s.grid grp.grid
  let g := s.gang ⟨k, j⟩
  let a := grp.img.toNat + d.sliceOff (j * d.sl + sl)
  let preds := (List.range 4).foldl (fun n q =>
    n + 2 ^ (8 * q) * (List.range 8).foldl (fun m i => m + 2 ^ i * flag (g.preg (4 * sl + q) i)) 0) 0
  ((List.range 64).map fun i => (a + 8 * i, (g.sreg sl i).toNat)) ++ (a + 512, preds) :: (List.range 7).map fun i => (a + 520 + 8 * i, 0)

/-- Everything of the floor but its lines that goes to the image (R272 step 3). -/
def State.floorWords (s : State) (k : Nat) : List (Nat × Nat) :=
  let d := s.grid (s.group k).grid
  s.barWords k ++ s.bWords k ++ (List.range d.gangs).flatMap fun j =>
    s.gangWords k j ++ s.issueWords k j ++ (List.range d.sl).flatMap fun sl => s.sliceWords k j sl

/-- Every pending result and every locked accumulator write of a group has landed (R272 step 2), and no batch is open. -/
def State.quiet (s : State) (k : Nat) : Bool :=
  let d := s.grid (s.group k).grid
  (List.range d.gangs).all fun j =>
    let g := s.gang ⟨k, j⟩
    (g.run.toList ++ g.others).all (fun sp => !g.openWins sp) && g.batch.isEmpty &&
      g.closed.all fun l => ((s.ctx d.ctx).op engMatrix l.num).st.final

/-- The lines of a group that are its floor: those that a register level of 0 leaves it (R268). -/
def State.floorLines (s : State) (k : Nat) : List (Nat × Nat) :=
  let d := s.grid (s.group k).grid
  let picks := s.linePicks k 0
  (List.range d.gangs).flatMap fun j =>
    (((s.gang ⟨k, j⟩).staying ((s.gang ⟨k, j⟩).linesHeld d)).filter fun key => !picks.contains (.line ⟨k, j⟩ key)).map fun key => (j, key)

/-- Regions that must not be written: the barrier units and the issue state (R277, R364). -/
def State.guarded (s : State) (k : Nat) : List (Nat × Nat) :=
  s.barWords k ++ (List.range (s.grid (s.group k).grid).gangs).flatMap fun j => s.issueWords k j

/-- Those regions watched from now on. -/
def State.watch (s : State) (k : Nat) (ws : List (Nat × Nat)) : State :=
  let ctx := (s.grid (s.group k).grid).ctx
  { s with watched := s.watched ++ ws.filterMap fun w => match s.xlate ctx true .write w.1 with
      | .ok l => some (k, l, w.1)
      | .error _ => none }

/-- Which split is in which entry of each gang's table. -/
def State.noteTables (s : State) (k : Nat) : State :=
  (List.range (s.grid (s.group k).grid).gangs).foldl (fun s j =>
    let g := s.gang ⟨k, j⟩
    s.setGang ⟨k, j⟩ { g with tab := (s.tableOrder g).map Split.born }) s

/-- Whether a request is an `imgsv`'s (R304). -/
def Taken.saving (t : Taken) : Bool := match t.req.by_ with
  | .save _ => true
  | _ => false

/-- What a group's floor puts into the image as it leaves its core: saved with its levels kept (R304), or suspended at level 0 (R272). -/
def State.floorOut (s : State) (k : Nat) (t : Taken) : List (Nat × Nat) :=
  (if t.saving then s else s.setGroup k { s.group k with lanesLv := 0, regsLv := 0, scrLv := 0 }).floorWords k

/-- Words written to a context's images. -/
def State.imgWords (s : State) (ctx : Nat) (ws : List (Nat × Nat)) : State := ws.foldl (fun s w => s.imgWrite ctx w.1 8 w.2) s

/-- A group leaves its core: suspended (R272), or saved with its levels kept (R304). -/
def State.leave (s : State) (k : Nat) (t : Taken) : State :=
  let grp := s.group k
  let d := s.grid grp.grid
  let saved := t.saving
  let amt := s.counted k t.req.qmask grp.levels
  let sl := s.slicesOfGroup k
  let floor := s.floorLines k
  let picks := s.allPicks k
  let s1 := s.writePicks k picks
  let s2 := picks.foldl (fun s x => s.outPick k x) s1
  let s3 := ((s2.imgWords d.ctx (s.floorOut k t)).noteTables k).watch k (s.guarded k)
  let g3 := { (s3.charged k t.req).group k with floor := floor }
  let s4 := (s3.setGroup k
    (if saved then { g3 with st := .saved, queuedLd := false }
     else { g3 with st := .suspended, lanesLv := 0, regsLv := 0, scrLv := 0 })).dropSlices k sl
  let c := s4.ctx d.ctx
  if saved then
    ((s4.setCtx d.ctx { c with saves := Sparse.set 0 c.saves t.req.id (Sparse.get 0 c.saves t.req.id + 1) }).setCore grp.core
      { s4.core grp.core with taken := some (t.handled k) }).freeOn grp.core
  else
    ((s4.setCtx d.ctx { c with sqsusp := c.sqsusp + 1 }).granted grp.core (t.handled k) (t.untouched k) d.ctx amt sl
      ((List.range 4).map fun q => d.lineShare grp.regsLv q) (scratchAt d.scrBytes grp.scrLv)).freeDie (coreDie grp.core)

/-- The plan that the core's next suspension carries out: in victim order, after the folds when the request found its victims at their
floors (R272). -/
def State.nextSuspend (s : State) (core : Nat) : Option (Taken × Plan) :=
  match (s.core core).taken with
  | none => none
  | some t =>
    let ps := s.openPlans core t
    if !t.req.susp && ps.any fun p => !p.suspend then none
    else (ps.find? fun p => p.suspend).map fun p => (t, p)

/-- SUSPENSION (R272), and a group's part of `imgsv` (R304). -/
def execSuspension (core : Nat) (s : State) : Out :=
  .next (match s.nextSuspend core with
  | none => s
  | some (t, p) =>
    let ok := (s.allPicks p.group).all (fun x => (s.pickBad p.group x).isNone) &&
      (s.floorWords p.group).all fun w => s.imgOk p.group w.1
    if !s.quiet p.group || !ok then s else (s.leave p.group t).settleReq core)

/-! ### Image faults (R271) -/

/-- The writes that a group's plan would make now, in order: the address at which each fails, if it does, and its pick. In its second stage a
fold writes nothing while one of its lines waits for a result. -/
def State.planWrites (s : State) (k : Nat) (p : Plan) : List (Option Nat × Option Pick) :=
  let l := s.foldList k p
  let picks := if p.suspend then s.allPicks k
    else if l.all fun x => x.2.isSome then (if (s.foldAgain k l).any s.pickPinned then [] else s.foldAgain k l)
    else s.foldDue l
  (picks.map fun x => (s.pickBad k x, some x)) ++
    (if p.suspend then (s.floorWords k).map fun w => (if s.imgOk k w.1 then none else some w.1, none) else [])

/-- IMAGE_WRITE_FAULT (R271): the next image write of the group's plan that fails is the one at `addr`. The writes before it stand and
are counted; the levels stay, and the shares planned from the victim are refused. -/
def execImageWriteFault (group : Nat) (addr : W64) (s : State) : Out :=
  .next (match s.planOf group with
  | none => s
  | some (t, p) =>
    let grp := s.group group
    let ws := s.planWrites group p
    let good := ws.takeWhile fun w => w.1.isNone
    if (p.suspend && !s.quiet group) || (ws.map (·.1))[good.length]? != some (some addr.toNat) then s else
    let s0 := if good.isEmpty then s else s.charged group t.req
    let s1 := ((s0.writePicks group (good.filterMap (·.2))).imgWords (s.grid grp.grid).ctx
      ((s.floorOut group t).take (good.filter fun w => w.2.isNone).length)).imgFault grp.grid grp.lin addr.toNat
    (s1.setCore grp.core { s1.core grp.core with taken := some { t.dropped group with img := true } }).settleReq grp.core)

/-! ### Resumption and expansion (R273, R274, R304) -/

/-- Whether no lower core of a core's die, freed at the same moment, still has resources to give out (R273). -/
def State.freedFirst (s : State) (core : Nat) : Bool :=
  (List.range core).all fun k => coreDie k != coreDie core || !(s.core k).freed || (s.core k).freedAt != (s.core core).freedAt

/-- Whether a core may give out what has been freed on it: no request is being handled or came earlier (R261), and no lower core comes
first. -/
def State.givesOut (s : State) (core : Nat) : Bool :=
  let c := s.core core
  c.freed && c.taken.isNone && s.freedFirst core &&
  match nextReq c.reqs with
    | some r => decide (c.freedAt ≤ r.at_)
    | none => true

/-- A word of the regions that must not be written that has been (R277, R364); `none` where none has. -/
def State.tampered (s : State) (k : Nat) : Option Nat := (s.spoiled.find? fun w => w.1 == k).map (·.2)

/-- The first word of the floor that cannot be read (R271). -/
def State.unreadable (s : State) (k : Nat) : Option Nat :=
  let ctx := (s.grid (s.group k).grid).ctx
  ((s.floorWords k).map (·.1) ++ (s.group k).floor.map fun x => s.lineVa ⟨k, x.1⟩ x.2).find? fun a => !s.imgReads ctx a

/-- A split as its entry in the image says: pc, and the lanes that have not ended. -/
def State.readSplit (s : State) (ctx a : Nat) (live : W32) (x : Split) : Split :=
  { x with pc := BitVec.ofNat 64 (s.imgRead ctx a 8), mask := BitVec.ofNat 32 (s.imgRead ctx (a + 8) 4) &&& live }

/-- The scalar registers and predicates of a slice as its block holds them (R276). -/
def State.readSlice (s : State) (ctx a sl : Nat) : List RegWrite :=
  let preds := s.imgRead ctx (a + 512) 4
  ((List.range 64).map fun i => .s sl i (BitVec.ofNat 64 (s.imgRead ctx (a + 8 * i) 8))) ++
  (List.range 32).map fun i => .p (4 * sl + i / 8) (i % 8) (preds.testBit i)

/-- A gang reloaded from its block and its slices' blocks (R273, R276, R277); the in-flight counters count what is in flight, and the levels
are the group's (log entry 136). -/
def State.readGang (s : State) (k j : Nat) : Gang :=
  let grp := s.group k
  let d := s.grid grp.grid
  let g := s.gang ⟨k, j⟩
  let a := grp.img.toNat + d.gangOff j
  let entry (x : Split) : Split := match g.tab.findIdx? fun b => b == x.born with
    | some i => s.readSplit d.ctx (a + 16 * i) g.live x
    | none => x
  let table (l : List Split) : List Split := (l.map entry).filter fun x => x.mask != 0
  { g.writeRegs ((List.range d.sl).flatMap fun sl => s.readSlice d.ctx (grp.img.toNat + d.sliceOff (j * d.sl + sl)) sl) with
    run := g.run.map (s.readSplit d.ctx (a + 0x140) g.live), pend := table g.pend, parked := table g.parked,
    fstat := BitVec.ofNat 6 (s.imgRead d.ctx (a + 0x150) 1), tab := [] }

/-- The B slots as the image holds them. -/
def State.readSlots (s : State) (k : Nat) : Sparse W32 :=
  let g := s.group k
  let d := s.grid g.grid
  (List.range (512 * d.quartets)).foldl (fun m i =>
    Sparse.set 0 m i (BitVec.ofNat 32 (s.imgRead d.ctx (g.img.toNat + 256 + 4 * i) 4))) g.bs

/-- The floor reloaded from the image: B slots, gangs, and the floor's lines (R273). -/
def State.reloadFloor (s : State) (k : Nat) : State :=
  let g := s.group k
  let d := s.grid g.grid
  let s1 := (List.range d.gangs).foldl (fun s j => s.setGang ⟨k, j⟩ (s.readGang k j)) (s.setGroup k { g with bs := s.readSlots k })
  g.floor.foldl (fun s x => s.setGang ⟨k, x.1⟩ ((s.loadLine ⟨k, x.1⟩ x.2).setLine x.2 fun l => { l with out := false })) s1

/-- A group comes back on a core, `st` as its cluster lets it land: a suspended one at its floor, a saved one at the levels its `rlvl`
recorded or the highest that the free resources allow, which counts as a fold. -/
def State.comeBack (s : State) (k core : Nat) (st : GroupSt) : State :=
  let grp := s.group k
  let d := s.grid grp.grid
  let lv := if grp.st = .saved then s.raised core k false grp.levels else (0, 0, 0)
  let hs := s.assign core k lv.1 false
  let s0 := s.reloadFloor k
  let s1 := ({ s0 with watched := s0.watched.filter fun w => w.1 != k, spoiled := s0.spoiled.filter fun w => w.1 != k }.setGroup k
    { s0.group k with st := st, core := core, floor := [], queuedLd := false }).holdSlices k hs
  if grp.st = .saved ∧ lv ≠ grp.levels then
    let s2 := s1.setLevels k lv 1
    let c := s2.ctx d.ctx
    s2.setCtx d.ctx { c with sqfold := c.sqfold + 1 }
  else s1

/-- A cluster that a group comes to (R319, R320): an intent is withdrawn; a gated cluster starts waking, and the group is held outside it. -/
def State.landsOn (s : State) (core : Nat) : GroupSt × State :=
  let c := s.cluster (coreCluster core)
  match c.pwr with
  | .powered | .intent _ => (.resident, s.setCluster (coreCluster core) { c with pwr := .powered, idleAt := s.now })
  | .gated => (.landing, s.setCluster (coreCluster core) { c with pwr := .waking s.now })
  | .waking _ => (.landing, s)

/-- RESUMPTION (R273, R304): the group is the one that the core's free resources go to next. -/
def execResumption (group core : Nat) (s : State) : Out :=
  .next (if !s.givesOut core || (s.nextCand core).map (·.2) != some (.resume group) then s
  else match s.unreadable group with
    | some a => s.endTaskOf ⟨group, 0⟩ 0x03 a
    | none =>
      match s.tampered group with
      | some a => s.endTaskOf ⟨group, 0⟩ 0x09 a
      | none =>
        let r := s.landsOn core
        r.2.comeBack group core r.1)

/-- A group raised to the highest levels that the free resources of its core allow (R274). -/
def State.expand (s : State) (core k : Nat) : State :=
  let d := s.grid (s.group k).grid
  let lv := s.raised core k true (4, 4, 4)
  let hs := if lv.1 = (s.group k).lanesLv then (List.range d.gangs).map fun j => (s.gang ⟨k, j⟩).held
    else s.assign core k lv.1 true
  let s1 := (s.holdSlices k hs).setLevels k lv 2
  let c := s1.ctx d.ctx
  s1.setCtx d.ctx { c with sqexp := c.sqexp + 1 }

/-- EXPANSION (R274): the victim that the core's free resources go to next is raised; with no taker left they are given out. -/
def execExpansion (core : Nat) (s : State) : Out :=
  .next (if !s.givesOut core then s
  else match s.nextCand core with
    | none => s.setCore core { s.core core with freed := false }
    | some (_, .raise k) => s.expand core k
    | some _ => s)

/-! ### The scheduler's requests (R365) -/

/-- SQUEEZE_REQUEST (R365): a grid whose next group can be placed on no core asks the core with the smallest shortfall among those with
victims. -/
def execSqueezeRequest (grid : Nat) (s : State) : Out :=
  let d := s.grid grid
  let cores := (List.range Config.cores).filter (s.mayUse d)
  .next (if d.req.isSome || d.reqHold || (s.waitingGroup d).isNone || cores.any (fun k => s.fits k d) then s else
  let better (a b : Short) : Bool := keyLt (a.sl, a.ln, a.scr) (b.sl, b.ln, b.scr)
  let best := (cores.filter fun k => !(s.victims k d.cls).isEmpty).foldl (fun (b : Option (Nat × Short)) k =>
    let x := s.shortfall k d
    match b with
    | none => some (k, x)
    | some y => if better x y.2 then some (k, x) else some y) none
  match best with
  | none => s
  | some (k, x) =>
    let (u, s1) := s.fresh
    let q : Req := { id := u, by_ := .sched grid, at_ := s.tick, cls := d.cls, nsl := x.sl, nln := x.ln, nscr := x.scr,
                     qmask := if x.qmask = 0 then 15 else x.qmask }
    let c := s1.core k
    (s1.setCore k { c with reqs := c.reqs ++ [q] }).setGrid grid { d with req := some u })

end Sys2Proof.Machine
end

