-- ==== Sys2Proof/Machine/FrontEnd.lean ====
section
/-!
DEFINITION. The front end: acceptance and refusal of launches (R323, R324, R327), symmetry (R225 to R233), residency (R325, R351), dispatch
(R366), the end of groups and grids (R326, R328), and what proof runs and restrikes do at their time limits (R187, R189).
-/
namespace Sys2Proof.Machine

/-! ### The end of a task (R289) -/

/-- TASK_END: an event of R289 that no other step finds (an uncorrectable memory error is one) ends the gang's task. -/
def execTaskEnd (code : Byte) (g : GangRef) (fa : W64) (s : State) : Out :=
  let st := (s.group g.group).st
  .next (if 1 ≤ code.toNat ∧ code.toNat ≤ 9 ∧ (st.placed ∨ st = .suspended ∨ st = .saved) then
    s.endTaskOf g code.toNat fa.toNat else s)

/-! ### Symmetry groups (R225 to R227, R233) -/

/-- A generator word's fields. -/
def genKind (w : W64) : Nat := bitsOf w.toNat 2 0
def genA (w : W64) : Nat := bitsOf w.toNat 4 3
def genB (w : W64) : Nat := bitsOf w.toNat 6 5
def genNeg (w : W64) : Bool := w.getLsbD 7
def genS (w : W64) : Nat := bitsOf w.toNat 63 32

/-- Whether a generator word holds a field marked refused (R225). -/
def genBad (w : W64) : Bool :=
  if genKind w = 0 then w != 0
  else decide (3 < genKind w) || bitsOf w.toNat 31 8 != 0 || genA w == 3 || genB w == 3 ||
    (genKind w != 1 && genB w != 0) || (genKind w != 3 && genS w != 0) || (genKind w == 1 && genA w == genB w)

/-- The generators of a descriptor, in order. -/
def dGens (d : List W64) : List W64 := ([0, 1, 2].map fun k => d.getD (24 + k) 0).filter fun w => genKind w != 0

/-- A generator as an element (R226). -/
def Grid.genEl (d : Grid) (w : W64) : SymEl :=
  let a := genA w
  match genKind w with
  | 1 => { pi := [0, 1, 2].map (fun m => if m = a then genB w else if m = genB w then a else m), neg := genNeg w }
  | 2 => { sg := [0, 1, 2].map (fun m => m == a), o := [0, 1, 2].map (fun m => if m = a then d.extent a - 1 else 0),
           neg := genNeg w }
  | _ => { o := [0, 1, 2].map (fun m => if m = a then genS w % d.extent a else 0), neg := genNeg w }

/-- h after k (R227). -/
def SymEl.comp (d : Grid) (h k : SymEl) : SymEl :=
  let ph (m : Nat) : Nat := h.pi.getD m 0
  let sg (x : SymEl) (m : Nat) : Bool := x.sg.getD m false
  { pi := [0, 1, 2].map (fun m => k.pi.getD (ph m) 0),
    sg := [0, 1, 2].map (fun m => xor (sg h m) (sg k (ph m))),
    o := [0, 1, 2].map (fun m =>
      let e := d.extent m
      let x := k.o.getD (ph m) 0 % e
      ((if sg h m then e - x else x) + h.o.getD m 0) % e),
    neg := xor h.neg k.neg }

/-- Whether two elements are equal, whatever their signs (R226). -/
def SymEl.same (a b : SymEl) : Bool := a.pi == b.pi && a.sg == b.sg && a.o == b.o

/-- One generator tried on one element of the list: `none` refuses (R227). -/
def symTry (d : Grid) (l : List SymEl) (g e : SymEl) : Option (List SymEl) :=
  let x := g.comp d e
  match l.find? (fun y => y.same x) with
  | some y => if y.neg = x.neg then some l else none
  | none => if 8 ≤ l.length then none else some (l ++ [x])

/-- The search of R227 from element k on; `n` bounds it: the list never holds more than 8. -/
def symSearch (d : Grid) (gens : List SymEl) : Nat → Nat → List SymEl → Option (List SymEl)
  | 0, _, l => some l
  | n + 1, k, l =>
    match l[k]? with
    | none => some l
    | some e =>
      match gens.foldl (fun (o : Option (List SymEl)) g => o.bind fun l => symTry d l g e) (some l) with
      | none => none
      | some l1 => symSearch d gens n (k + 1) l1

/-- The elements that generators make, in their numbering; `none`: refused. -/
def Grid.elemsOf (d : Grid) (gens : List W64) : Option (List SymEl) := symSearch d (gens.map d.genEl) 9 0 [{}]

/-- The elements of a launch. -/
def Grid.symElems (d : Grid) : Option (List SymEl) := d.elemsOf (dGens d.d)

/-- An image descriptor with a field marked refused (R230). -/
def ImgDesc.bad (x : ImgDesc) : Bool :=
  let c := x.ctl.toNat
  if !x.present then x.base != 0 || x.rs != 0 || x.cs != 0 || x.ctl != 0
  else bitsOf c 63 36 != 0 || bitsOf c 15 12 != 0 || bitsOf c 7 4 != 0 || bitsOf c 1 1 != 0 || bitsOf c 3 2 == 3 ||
    x.ma == 3 || x.mb == 3 || x.ma == x.mb || x.base.toNat % x.size != 0 || x.rs.toNat % x.size != 0 || x.cs.toNat % x.size != 0

/-- The refusals of R233 that hold whatever the extents are. -/
def symFieldsBad (d : List W64) : Bool :=
  ([0, 1, 2].any fun k => genBad (d.getD (24 + k) 0)) || ([0, 1, 2, 3].any fun k => (dImg d k).bad) ||
  (dGens d).any fun w => genKind w == 1 && [0, 1, 2, 3].any fun k =>
    let x := dImg d k
    let on (m : Nat) : Bool := x.ma == m || x.mb == m
    x.present && (on (genA w) != on (genB w) || (on (genA w) && on (genB w) && x.th != x.tw))

/-- The refusals that the extents decide, for some of the generators. -/
def Grid.extBad (d : Grid) (gens : List W64) : Bool :=
  (gens.any fun w =>
    (genKind w == 1 && d.extent (genA w) != d.extent (genB w)) ||
    (genKind w == 3 && decide (d.extent (genA w) ≤ genS w))) || (d.elemsOf gens).isNone

/-- X extents among which there is one that the generators allow, if they allow any: those that a transpose asks for, those in which a shift
has an order of at most 8, and one for generators that ask for nothing. -/
def Grid.xTries (d : Grid) : List Nat :=
  [2, d.ny, d.nz] ++ ((dGens d.d).filter fun w => genKind w == 3 && genA w == 0).flatMap fun w =>
    (List.range 9).flatMap fun k => ((List.range k).filter fun j => j != 0 && k * genS w % j == 0).map fun j => k * genS w / j

/-- The refusals of R233 of a launch; `x`: its X extent is known. While it is not, the launch is refused for what holds whatever it is. -/
def Grid.symBad (d : Grid) (x : Bool) : Bool :=
  let gens := dGens d.d
  symFieldsBad d.d || (gens.any fun w => genKind w == 3 && genS w == 0) ||
    if x then d.extBad gens else d.xTries.all fun e => ({ d with nx := e }).extBad gens

/-! ### Checks of a launch (R323, R324) -/

/-- A field outside its range, or a reserved field that is not zero. -/
def fieldsBad (d : List W64) : Bool :=
  let f := dfield d
  let ind := f 0x008 23 23
  ([9, 10, 11, 12, 13, 14, 15, 76, 77, 78, 79].any fun k => d.getD k 0 != 0) ||
  decide (16 < dNlease d) || (dLeases d).any (fun l => l.2 == 0) || f 0x0D8 63 5 != 0 ||
  f 0x020 63 48 != 0 || (ind == 1 && f 0x020 47 32 == 0) || (ind == 0 && f 0x020 47 32 != 0) ||
  f 0x020 31 0 == 0 || f 0x018 63 32 == 0 || (ind == 0 && f 0x018 31 0 == 0) ||
  f 0x010 63 32 % 256 != 0 || f 0x010 63 32 == 0 || decide (1048576 < f 0x010 63 32) ||
  f 0x010 31 0 % 256 != 0 || decide (Config.scratchPerCore < f 0x010 31 0) ||
  f 0x008 63 48 != 0 || decide (128 < f 0x008 47 40) || f 0x008 39 24 != 0 || f 0x008 10 9 != 0 || f 0x008 6 5 != 0

/-- Addresses, one in each 64 KiB page that a range touches. -/
def pagesOf (a n : Nat) : List Nat :=
  if n = 0 then [] else (List.range ((a + n - 1) / 65536 - a / 65536 + 1)).map fun i => Nat.max a ((a / 65536 + i) * 65536)

/-- Bytes of a survivor area, and of one segment (R328). -/
def Grid.segBytes (d : Grid) : Nat := (4 + 4 * (d.gangs * d.w) + 63) / 64 * 64
def Grid.survBytes (d : Grid) : Nat := 64 + 4 * (d.count * d.gangs * d.w) + d.count * d.segBytes

/-- Leases of a submitted launch: its own and its ancestors'. -/
def State.subLeases (s : State) (d : List W64) (parent : Option Nat) : List (Nat × Nat) :=
  dLeases d ++ (match parent with
    | some p => (s.lineage p 11).flatMap fun k => dLeases (s.grid k).d
    | none => [])

/-- The grid that a submitted descriptor asks for. -/
def State.gridOf (s : State) (u : Sub) : Grid :=
  let d := s.vaWords u.ctx u.daddr.toNat 80
  let ind := dfield d 0x008 23 23 = 1
  let iaddr := (d.getD 5 0).toNat
  let idiv := dfield d 0x020 47 32
  let nx := if ind then (s.vaRead u.ctx iaddr 4 + idiv - 1) / idiv else dfield d 0x018 31 0
  let par := u.parent.map s.grid
  { d := d, daddr := u.daddr, ctx := u.ctx, part := u.part, depth := u.depth, parent := u.parent, nx := nx,
    cls := (match par with
      | some p => Nat.max (dfield d 0x008 19 16) p.cls
      | none => dfield d 0x008 19 16),
    det := dfield d 0x008 22 22 == 1 || (match par with
      | some p => p.det
      | none => false),
    handle := u.handle, node := u.node, queue := u.queue, redo := par.any Grid.redo }

/-- Tile-mapped consumers of a node. -/
def tileConsumers (t : List W64) (k : Nat) : List Nat :=
  (nodeEdges t k).filterMap fun e => if e.kind = 1 then some e.dest else none

/-- Bitmaps of a graph still in use: offset and bytes. -/
def State.bitmaps (s : State) (gi : Nat) : List (Nat × Nat) :=
  let g := s.graph gi
  g.nodes.filterMap fun x =>
    if (tileConsumers g.t x.1).all fun c => s.dispatchedAll g c then none else x.2.bmp

/-- Bytes of a completion bitmap. -/
def Grid.bmpBytes (d : Grid) : Nat := (d.count + 511) / 512 * 64

/-- Where a producer's bitmap goes; `none`: it needs none, or there is no room (R332). -/
def State.bmpPlace (s : State) (d : Grid) : Option Nat :=
  match d.node with
  | none => none
  | some r =>
    let g := s.graph r.graph
    let used := s.bitmaps r.graph
    firstFit used 64 d.bmpBytes (g.t.getD 3 0).toNat (used.length + 1) 0

/-- Whether a grid is a producer over a tile-mapped edge. -/
def State.produces (s : State) (d : Grid) : Bool :=
  match d.node with
  | none => false
  | some r => !(tileConsumers (s.graph r.graph).t r.node).isEmpty

/-- A context's image area, which holds every image slot and the ordered-update area (R275, R298). -/
def Ctx.imgArea (c : Ctx) : Nat × Nat := (c.imgbase.toNat, c.imgsz.toNat)

/-- The first reason of R324 to refuse a launch; 0: none. -/
def State.refusal (s : State) (u : Sub) (d : Grid) : Nat :=
  let own := dLeases d.d
  let all := s.subLeases d.d u.parent
  let iaddrBad := dfield d.d 0x008 23 23 == 1 && (d.d.getD 5 0).toNat % 4 != 0
  let page (a : Nat) : Bool := (s.genLeaf d.ctx a).isSome
  let dAt (a : Nat) : Bool := match s.genLeaf d.ctx a with
    | some l => l.d
    | none => false
  let pages := (own ++ [(s.ctx d.ctx).imgArea]).flatMap fun l => pagesOf l.1 l.2
  if 3 < dfield d.d 0x008 19 16 then 0x01
  else if fieldsBad d.d then 0x02
  else if 32 < (d.gangs + 3) / 4 * d.w then 0x03
  else if !iaddrBad && decide (2 ^ 40 < d.count) then 0x04
  else if d.symBad !iaddrBad then 0x05
  else if (d.fid == 1 || d.fid == 2) && all.any (fun l => (pagesOf l.1 l.2).any dAt) then 0x06
  else if 10 < d.depth then 0x07
  else if d.cls < u.floor then 0x08
  else if d.survArea ≠ 0 ∧ (d.survArea % 64 ≠ 0 ∨
      !(all.any fun l => decide (l.1 ≤ d.survArea) && decide (d.survArea + d.survBytes ≤ l.1 + l.2))) then 0x09
  else if !pages.all page then 0x0A
  else if (d.d.getD 0 0).toNat % 32 ≠ 0 then 0x0B
  else if iaddrBad then 0x0C
  else if s.produces d && (s.bmpPlace d).isNone then 0x0D
  else 0

/-! ### Acceptance (R324, R325) -/

/-- `tdig` of a descriptor. -/
def State.descDig (s : State) (d : Grid) (x : W64) : State := s.vaWrite d.ctx (d.daddr.toNat + 0x40) 8 x.toNat

/-- The state of a child grid, as its handle reads it. -/
def State.childSt (s : State) (d : Grid) (k : Nat) (st : GridSt) : State :=
  match d.handle with
  | none => s
  | some h => let c := s.ctx d.ctx; s.setCtx d.ctx { c with children := Sparse.put c.children h (k, st) }

/-- A launch refused with a code. -/
def State.refuseGrid (s : State) (d : Grid) (k code : Nat) : State :=
  let s1 := ((s.descState d.ctx d.daddr 4 code).descDig d 0).childSt d k .refused
  match d.node with
  | some r => if d.redo then s1.redone r.graph r.node none else s1.nodeFail r.graph r.node 5
  | none => s1

/-- The bitmap of a producer placed and cleared. -/
def State.placeBmp (s : State) (d : Grid) : State :=
  match d.node with
  | none => s
  | some r =>
    if !s.produces d then s else
    match s.bmpPlace d with
    | none => s
    | some o =>
      let g := s.graph r.graph
      let n := g.node r.node
      let s1 := s.setNode r.graph r.node { n with bmp := some (o, d.bmpBytes) }
      (List.range (d.bmpBytes / 8)).foldl (fun s i => s.vaWrite g.ctx ((g.t.getD 2 0).toNat + o + 8 * i) 8 0) s1

/-- A launch accepted: its grid waits for residency; its tile-mapped edges deliver (R330). -/
def State.accept (s : State) (d : Grid) : State :=
  let (k, s1) := s.fresh
  let d1 := { d with st := .waiting, acc := k, elems := d.symElems.getD [{}] }
  let s2 := (((s1.setGrid k d1).descState d.ctx d.daddr 1 0).descDig d 0).childSt d k .waiting
  match d.node with
  | none => s2
  | some r =>
    let n := s2.node r.graph r.node
    let s3 := ((s2.setNode r.graph r.node { n with grid := some k }).nodeSt r.graph r.node 1).placeBmp d1
    s3.graphStep r.graph ((tileConsumers (s3.graph r.graph).t r.node).map fun c => (c, true))

/-- Whether a launch may be accepted now: its context is its partition's (R8), the accesses before a `launch` have been applied (R161), and the
indirect word can be read as an acquire at device scope (R327). -/
def State.subReady (s : State) (u : Sub) : Bool :=
  let g := s.gang u.by_
  let w (o : Nat) : Nat := s.vaRead u.ctx (u.daddr.toNat + o) 8
  s.ownsCtx u.part u.ctx && (u.before.all fun id => match g.entry? id with
    | some e => !s.pendingEntry e
    | none => true) && (!(w 8).testBit 23 || s.acquires u.part u.ctx (w 0x28) 4)

/-- LAUNCH_ACCEPTANCE (R324): the first descriptor submitted whose reading nothing holds back. -/
def execLaunchAcceptance (s : State) : Out :=
  .next (match s.subs.findIdx? s.subReady with
  | none => s
  | some i =>
    match s.subs[i]? with
    | none => s
    | some u =>
      let s1 := { s with subs := s.subs.eraseIdx i }
      let d := s1.gridOf u
      let code := s1.refusal u d
      if code = 0 then s1.accept d else s1.refuseGrid d 0 code)

/-- The place of a deferred reduction in the order of application: (g, n, q, L) (R175). -/
def DRed.key (x : DRed) : Nat := ((x.g * 32 + x.n) * 2 ^ 64 + x.q) * 32 + x.lane

/-- Deferred reductions applied in the order of their keys. -/
def State.applyDeferred (s : State) (ds : List DRed) : State :=
  (byKey DRed.key ds).foldl (fun s x =>
    let l : Loc := ⟨false, x.loc⟩
    let n := x.t.width / 8
    match amoNew x.op x.t (BitVec.ofNat 64 (s.rdLoc l n)) x.c x.e with
    | none => s
    | some v => s.wrLoc l n v.toNat) s

/-- The survivor map and the count (R328). -/
def State.writeMap (s : State) (d : Grid) : State :=
  if d.survArea = 0 then s else
  let L := d.gangs * d.w
  let all := (byKey Prod.fst d.surv).flatMap fun x => x.2.map fun q => x.1 * L + q
  (all.zipIdx.foldl (fun s x => s.vaWrite d.ctx (d.survArea + 64 + 4 * x.2) 4 x.1) s).vaWrite d.ctx d.survArea 4 all.length

/-- The ranges whose pages a launch makes resident and pins: its own leases, the context's image area, in which its groups will have their
slots, and the areas set aside for its stacks (R325, R350). -/
def State.ownRanges (s : State) (d : Grid) (stks : List (Nat × Nat)) : List (Nat × Nat) :=
  dLeases d.d ++ [(s.ctx d.ctx).imgArea] ++ stks

/-- Launches that pin the page of an address of a context (R351): from the end of residency until the completion event. -/
def State.pagePins (s : State) (ctx va : Nat) : Nat :=
  (s.grids.filter fun x => x.2.st == .running && x.2.ctx == ctx &&
    (s.ownRanges x.2 x.2.stks).any fun r => (pagesOf r.1 r.2).any fun a => a / 65536 == va / 65536).length

/-- Stack areas that the launches of a context have. -/
def State.stackAreas (s : State) (ctx : Nat) : List (Nat × Nat) :=
  s.grids.flatMap fun x => if x.2.st == .running && x.2.ctx == ctx then x.2.stks else []

/-- Whether areas can be set aside for a launch's stacks: each holds those of a group at least, and meets no other. Where they lie the manual
does not say (log entry 139). -/
def State.stksGood (s : State) (d : Grid) (stks : List (Nat × Nat)) : Bool :=
  (d.count == 0 || !stks.isEmpty) && stks.all (fun r => decide (d.slices * d.stack ≤ r.2) && !overlaps (s.stackAreas d.ctx) r.1 r.2)

/-- The groups of a grid have all ended: its survivor map is written (R328). -/
def State.groupsDone (s : State) (k : Nat) : State :=
  let d := s.grid k
  if d.ended.length ≠ d.count then s else s.writeMap d

/-- RESIDENCY_COMPLETE (R325, R351): the pages that the launch makes resident are walked in the context's latest generation (R349), so that
only a `tlbgen` changes what the walk finds. One that has M set holds it; one that does not translate refuses it. -/
def execResidencyComplete (r : Residency) (s : State) : Out :=
  let d := s.grid r.grid
  .next (if d.st ≠ .waiting || !s.ownsCtx d.part d.ctx || !s.stksGood d r.stks then s else
  let leaves := ((s.ownRanges d r.stks).flatMap fun l => pagesOf l.1 l.2).map fun a => s.genLeaf d.ctx a
  if leaves.any Option.isNone then (s.setGrid r.grid { d with st := .refused, code := 0x0A }).refuseGrid d r.grid 0x0A
  else if leaves.any (fun o => o.any Leaf.m) then s
  else ((s.setGrid r.grid { d with st := .running, stks := r.stks }).groupsDone r.grid).descState d.ctx d.daddr 2 0)

/-! ### Dispatch (R38 to R40, R275, R293, R366) -/

/-- A gang as a group's dispatch makes it: index j of a group of a grid, with its physical slices. -/
def newGang (d : Grid) (grp : Group) (born now j : Nat) (held : List Nat) : Gang :=
  let mask : W32 := BitVec.ofNat 32 (2 ^ d.w - 1)
  let regs : List RegWrite := (List.range d.sl).flatMap fun sl =>
    ((List.range 8).map fun n => RegWrite.s sl n (d.sinit n)) ++
    [.s sl 62 (BitVec.ofNat 64 (stackBase grp d (j * d.sl + sl))), .s sl 63 (BitVec.ofNat 64 (saveSlot grp d j))]
  let n := grp.lin * d.gangs + j
  let g : Gang :=
    { run := some { pc := d.entry, mask := mask, born := born }, live := mask, last := now, held := held,
      dig := if d.det then BitVec.ofNat 64 (n + 1) else 0,
      slim := (List.range d.sl).foldl (fun m sl =>
        Sparse.set 0 m sl (BitVec.ofNat 64 (stackBase grp d (j * d.sl + sl) - d.stack))) [] }
  g.writeRegs regs

/-- Stack areas in use in a grid. -/
def State.stacksUsed (s : State) (grid : Nat) : List (Nat × Nat) :=
  let d := s.grid grid
  ((s.groupsOf grid).filter fun x => x.2.st != .ended).map fun x => (x.2.stk.toNat, d.slices * d.stack)

/-- Whether a choice of physical slices binds each gang of a grid to free slices of its home quadrant. -/
def State.slicesGood (s : State) (core : Nat) (d : Grid) (hs : List (List Nat)) : Bool :=
  let free := s.freeSlices d.ctx core
  hs.length == d.gangs && hs.flatten.length == hs.flatten.eraseDups.length &&
  hs.zipIdx.all fun x => x.1.length == d.sl && x.1.all fun p => quadOf p == x.2 % 4 && free.contains p

/-- Whether the stacks of a group may lie at an address: in an area set aside for the launch, and free. -/
def State.stackFree (s : State) (grid a : Nat) : Bool :=
  let d := s.grid grid
  let n := d.slices * d.stack
  a % 256 == 0 && (d.stks.any fun r => decide (r.1 ≤ a) && decide (a + n ≤ r.1 + r.2)) && !overlaps (s.stacksUsed grid) a n

/-- A re-execution runs the groups of its task, child grids with it, on one core and one after another; only a group of an ancestor goes on
beside those of its child (R189; log entry 138). -/
def State.serialOk (s : State) (grid core : Nat) : Bool :=
  let up := s.lineage grid 11
  !(s.grid grid).redo || s.groups.all fun x =>
    x.2.st == .absent || (s.lineage x.2.grid 11).getLast? != up.getLast? ||
      (x.2.core == core && (x.2.st == .ended || (up.drop 1).contains x.2.grid))

/-- Whether a group of a grid may go to a place now. -/
def State.mayDispatch (s : State) (grid core : Nat) (slices : List (List Nat)) (img stk : Nat) : Bool :=
  let d := s.grid grid
  s.mode.hasDie d.part (coreDie core) && decide (core < Config.cores) && s.fits core d && s.slicesGood core d slices &&
  s.slotFree d.ctx img d.slotBytes && s.stackFree grid stk && s.serialOk grid core &&
  (!(s.core core).freed || (s.freedFirst core && s.nextCand core == some ((d.cls, 1, d.acc), .launch)))

/-- A group dispatched, `st` as its cluster lets it land: its record, its gangs, and its grid one group further. -/
def State.dispatch (s : State) (grid lin core : Nat) (st : GroupSt) (slices : List (List Nat)) (img stk : W64) : State :=
  let d := s.grid grid
  let (k, s1) := s.fresh
  let grp : Group := { st := st, grid := grid, lin := lin, core := core, seq := k, img := img, stk := stk }
  let s2 := (s1.setGroup k grp).setGrid grid { d with next := lin + 1, dispatched := d.dispatched + 1 }
  let s3 := slices.zipIdx.foldl (fun s x =>
    let (u, s') := s.fresh
    s'.setGang ⟨k, x.2⟩ (newGang d grp u s.tick x.2 x.1)) s2
  s3

/-- GROUP_DISPATCH (R366). A group that comes to a gated cluster starts its waking, and is held until that is complete (R319, R320). -/
def execGroupDispatch (grid core : Nat) (slices : List (List Nat)) (img stk : W64) (s : State) : Out :=
  let d := s.grid grid
  .next (match s.waitingGroup d with
  | none => s
  | some lin =>
    if s.mayDispatch grid core slices img.toNat stk.toNat then
      let r := s.landsOn core
      r.2.dispatch grid lin core r.1 slices img stk
    else s)

/-! ### The end of a group (R146, R235, R332, R37) -/

/-- The survivor indices that a group has recorded, ascending. -/
def Group.survivors (g : Group) : List Nat := g.sieve.filterMap fun x => if x.2 then some x.1 else none

/-- A group's survivor segment written (R328). -/
def State.writeSeg (s : State) (d : Grid) (lin : Nat) (qs : List Nat) : State :=
  if d.survArea = 0 then s else
  let a := d.survArea + 64 + 4 * (d.count * d.gangs * d.w) + lin * d.segBytes
  (qs.zipIdx.foldl (fun s x => s.vaWrite d.ctx (a + 4 + 4 * x.2) 4 x.1) s).vaWrite d.ctx a 4 qs.length

/-- Bits of a producer's bitmap set (R332). -/
def State.setBmp (s : State) (d : Grid) (ls : List Nat) : State :=
  match if d.redo then none else d.node with
  | none => s
  | some r =>
    let g := s.graph r.graph
    match (g.node r.node).bmp with
    | none => s
    | some b => ls.foldl (fun s lin =>
      let a := (g.t.getD 2 0).toNat + b.1 + lin / 8
      s.vaWrite g.ctx a 1 (s.vaRead g.ctx a 1 ||| 2 ^ (lin % 8))) s

/-- A gang's share of the task digest (R185). -/
def digShare (dig : W64) (n : Nat) : W64 := dig ^^^ BitVec.ofNat 64 (n * 0x9E3779B97F4A7C15)

/-- Whether a group has nothing left to do: no lane, no access to apply, no engine work (R180, R235, R241). -/
def State.groupOver (s : State) (k : Nat) : Bool :=
  let grp := s.group k
  grp.st != .absent && grp.st != .ended && !s.groupBusy k &&
  (List.range (s.grid grp.grid).gangs).all fun j =>
    let g := s.gang ⟨k, j⟩
    g.live == 0 && g.infl.all fun e => !s.pendingEntry e && match e.kind with
      | .bpub .. => e.done
      | _ => true

/-- The graph of a grid's node, looked at again. -/
def State.nodeCheck (s : State) (grid : Nat) : State :=
  match (s.grid grid).node with
  | some r => s.graphCheck r.graph
  | none => s

/-- GROUP_END (R241): survivors, bitmap bits, marks and digests are taken, and the group's resources are free. With the last group of its
grid, the survivor map (R328). -/
def execGroupEnd (group : Nat) (s : State) : Out :=
  .next (if !s.groupOver group then s else
  let grp := s.group group
  let d := s.grid grp.grid
  let orbit := d.orbit grp.lin
  let qs := grp.survivors
  let marks := (List.range d.gangs).foldl (fun n j => n + ((s.gang ⟨group, j⟩).ripen s.owed).markedLanes) 0
  let dig : W64 := (List.range d.gangs).foldl (fun x j =>
    x + digShare (s.gang ⟨group, j⟩).dig (grp.lin * d.gangs + j)) 0
  let s1 := orbit.foldl (fun s l => s.writeSeg d l (if l = grp.lin then qs else [])) s
  let s2 := s1.setBmp d orbit
  let s3 := s2.setGrid grp.grid { d with ended := d.ended ++ orbit, marked := d.marked + marks, surv := d.surv ++ [(grp.lin, qs)],
                                         tdig := if d.det then d.tdig + dig else d.tdig }
  (((s3.dropGroup group).earlyCheck grp.grid d.issued).groupsDone grp.grid).nodeCheck grp.grid)

/-! ### The end of a grid (R325, R326, R328, R175, R185) -/

/-- Whether a grid has nothing left: every group ended, every child retired (R326), and every engine operation final, since its completion
event follows every access of the grid (R161). A group's end waits only for copies, batches and plate operations (R241; log entry 134). -/
def State.gridOver (s : State) (k : Nat) : Bool :=
  let d := s.grid k
  d.st == .running && d.ended.length == d.count && !(s.grids.any fun x => x.2.parent == some k && !x.2.st.finished) &&
  !(s.subs.any fun u => u.parent == some k) && (s.ctx d.ctx).ops.all fun x => x.2.grid != k || x.2.st.final

/-- A grid retires: its deferred reductions are applied, in the order in which grids complete (R175, R181), and its completion event fires
(R326). -/
def State.retireGrid (s : State) (k : Nat) : State :=
  let d := s.grid k
  let s2 := ((s.applyDeferred d.dred).descState d.ctx d.daddr 3 0).descDig d (if d.det then d.tdig else 0)
  let s3 := (s2.setGrid k { d with st := .retired, dred := [] }).childSt d k .retired
  let s4 := match d.parent with
    | some p =>
      let q := s3.grid p
      (if q.det && d.det then s3.setGrid p { q with tdig := q.tdig + d.tdig } else s3).nodeCheck p
    | none => s3
  match d.node with
  | some r =>
    if d.redo then s4.redone r.graph r.node (some d.tdig)
    else s4.nodeDone r.graph r.node (if d.det then some d.tdig else none) d.edge
  | none => s4

/-- COMPLETION_EVENT (R326). -/
def execCompletionEvent (grid : Nat) (s : State) : Out :=
  .next (if s.gridOver grid then s.retireGrid grid else s)

/-! ### Proof runs and restrikes (R187, R189) -/

/-- PATIENCE_EXPIRY (R187): no segment came in time; recording ends truncated and the graph runs on. -/
def execPatienceExpiry (graph : Nat) (s : State) : Out :=
  let g := s.graph graph
  .next (match g.ls with
  | .waiting since => if s.now < g.patience since then s else s.truncate graph
  | _ => s)

/-- The tasks that firmware re-executes: the node, or a decision node's deterministic launch predecessors (R189). -/
def Graph.divergent (g : Graph) (k : Nat) (decision : Bool) : List Nat :=
  if !decision then [k] else
  (List.range g.nn).filter fun p => nodeKind g.t p == 0 && !(g.node p).snapOff.isNone && (nodeEdges g.t p).any fun e => e.dest == k

/-- Nodes that retired while the graph was halted are looked at now. -/
def State.lateNodes (s : State) (gi : Nat) : State :=
  (List.range (s.graph gi).nn).foldl (fun s k =>
    let n := s.node gi k
    match n.digest, n.grid with
    | some d, some x => if n.st = 1 then s.nodeDone gi k (some d) (s.grid x).edge else s
    | _, _ => s) s

/-- What a log holds for a node; `none`: no entry. -/
def State.logged (s : State) (gi kind k : Nat) : Option W64 :=
  let g := s.graph gi
  match s.findEntry g.ctx kind k g.log0 segFuel with
  | .value x => some x
  | _ => none

/-- Whether a re-execution agrees with the log: each new digest, and for a decision node the new outcome (R189). -/
def State.agrees (s : State) (gi k : Nat) (dec : Bool) (got : List (Nat × Option W64)) : Bool :=
  (got.all fun x => match x.2, s.logged gi 1 x.1 with
    | none, _ => false
    | some d, some l => d == l
    | some _, none => true) &&
  (!dec || s.logged gi 2 k == some (BitVec.ofNat 64 (s.choice gi k)))

/-- The re-execution begins: the D ranges of the divergent tasks are restored, what they have posted is forgotten, and the first runs. -/
def State.redoStart (s : State) (gi k : Nat) (dec : Bool) : State :=
  let ps := (s.graph gi).divergent k dec
  let s1 := ps.foldl (fun s p => s.restore gi p) s
  let g := s1.graph gi
  let left (n : Node) : Node := { n with posts := n.posts.filter fun x => !ps.contains x.1 }
  (s1.setGraph gi { g with nodes := g.nodes.map fun x => (x.1, left x.2), redo := some { todo := ps } }).redoNext gi

/-- SERIAL_RE_EXECUTION_RESULT (R189): firmware starts the re-execution of the divergent tasks; when it is over, on agreement the graph goes
on with the logged outcome, and otherwise its log ends with state 4. `ok` is the result: what the comparison with the log gives. -/
def execSerialReExecutionResult (graph : Nat) (ok : Bool) (s : State) : Out :=
  let g := s.graph graph
  .next (match g.ls, g.bad, g.redo with
  | .halted, some (k, dec), none => s.redoStart graph k dec
  | .halted, some (k, dec), some x =>
    if x.grid.isSome || !x.todo.isEmpty || ok != s.agrees graph k dec x.got then s else
    let s1 := s.setGraph graph { g with redo := none }
    if !ok then
      let s2 := if dec then s1 else s1.nodeSt graph k 2
      ((s2.endLog graph 4).lateNodes graph).graphCheck graph
    else
      let s2 := s1.logCount graph 0x30
      let g2 := s2.graph graph
      let s3 := s2.setGraph graph { g2 with ls := .checking, bad := none }
      let s4 := if dec then
          let r := s3.decided graph k ((s3.logged graph 2 k).getD 0).toNat
          r.1.graphStep graph r.2
        else match (s3.node graph k).grid with
          | none => s3
          | some x => s3.nodeDone graph k none (s3.grid x).edge
      s4.lateNodes graph
  | _, _, _ => s)

end Sys2Proof.Machine
end

