-- ==== Sys2Proof/Machine/Packets.lean ====
section
/-!
DEFINITION. Packets (R338): the shared step of a queue's handler, starting a graph (R329), and the standard program's six packets.
-/
namespace Sys2Proof.Machine

/-! ### A handler's step -/

/-- What one instruction or packet of a handler does: the next instruction, the packet's end, waiting, a halt. -/
inductive QAct where
  | go (s : State) (it : Interp)
  | finished (s : State)
  | wait (s : State)
  | halt (s : State) (reason : Nat)

/-- Whether a queue is at work on a packet. -/
def Queue.working (q : Queue) : Bool := q.it.isSome && (q.qst == 2 || q.qst == 3)

/-- A packet is complete (R338). -/
def Queue.complete (q : Queue) (slots : Nat) : Queue :=
  let rd := q.rd + BitVec.ofNat 32 slots
  { q with rd := rd, ndone := q.ndone + 1, it := none, qst := if rd = q.wr then 1 else 2 }

/-- What a handler's step leaves. -/
def QAct.settle (k slots : Nat) : QAct → State
  | .go s it => s.setQ k { s.queue k with it := some it, qst := 2 }
  | .finished s => s.setQ k ((s.queue k).complete slots)
  | .wait s => s.setQ k { s.queue k with qst := 3 }
  | .halt s r => s.haltQueue k r

/-- One step of the queue at work. The 513th instruction of a batten program is not run (R340). -/
def onQueue (s : State) (f : Queue → Interp → QAct) : Out :=
  let k := qkey s.curQ.1 s.curQ.2
  let q := s.queue k
  match q.it with
  | none => .fault .noInterpreter
  | some it =>
    if !q.working then .fault .noInterpreter
    else if !it.std && it.left = 0 then .next (s.haltQueue k 6)
    else .next ((f q it).settle k it.slots)

/-! ### What a queue has submitted -/

/-- Whether a launch that the queue submitted has not ended: not accepted yet, or not over (log entry 60). -/
def State.queueLaunches (s : State) (pq : Nat × Nat) : Bool :=
  (s.subs.any fun u => u.queue == some pq && u.node.isNone && u.parent.isNone) ||
  s.grids.any fun x => x.2.queue == some pq && x.2.node.isNone && x.2.parent.isNone && !x.2.st.finished

/-- Whether a graph that the queue started has not ended. -/
def State.queueGraphs (s : State) (pq : Nat × Nat) : Bool := s.graphs.any fun x => x.2.queue == some pq && !x.2.finished

/-- A descriptor submitted by the queue at work (R324). An address that is no multiple of 64 is taken as it stands: the model's choice (log
entry 153). -/
def State.submit (s : State) (q : Queue) (desc : W64) : State :=
  { s with subs := s.subs ++ [{ daddr := desc, ctx := q.ctx, part := q.part, queue := some s.curQ, floor := q.floor }] }

/-! ### Graphs (R329) -/

/-- A header with a field marked invalid. -/
def graphHeaderBad (table : W64) (t : List W64) : Bool :=
  let h := (t.getD 0 0).toNat
  let nn := bitsOf h 8 0
  table.toNat % 64 != 0 || bitsOf h 63 32 != 0 || bitsOf h 15 9 != 0 || nn == 0 || decide (256 < nn) ||
  (t.getD 2 0).toNat % 64 != 0

/-- Edges of a table that name a node. -/
def edgesTo (t : List W64) (nn k : Nat) : List (Nat × Edge) :=
  (List.range nn).flatMap fun j => (nodeEdges t j).filterMap fun e => if e.dest = k then some (j, e) else none

/-- A node with a field marked invalid, or an edge that R329 forbids. -/
def nodeBad (t : List W64) (nn k : Nat) : Bool :=
  let w (off hi lo : Nat) : Nat := bitsOf (nodeWord t k off) hi lo
  let kind := nodeKind t k
  let ins := edgesTo t nn k
  let tiled := ins.filter fun x => x.2.kind == 1
  w 0x38 63 0 != 0 || w 0x20 11 0 != 0 || w 0x18 63 48 != 0 || w 0x18 31 16 != 0 || w 0 63 24 != 0 || w 0 7 2 != 0 ||
  kind == 3 || decide (8 < nodeNsu t k) || decide (1 < nodeDm t k) || decide (8 < nodeNp t k) || ins.length != nodeNp t k ||
  (kind == 0 && nodeAddr t k % 64 != 0) || (kind == 1 && nodeAddr t k % 4 != 0) ||
  ((nodeEdges t k).any fun e => decide (nn ≤ e.dest) || e.kind == 3 || (kind == 1 && decide (nodeNs t k < e.set)) ||
    (kind != 0 && (e.kind == 1 || e.kind == 2)) || (e.kind == 1 && nodeKind t e.dest != 0)) ||
  decide (1 < tiled.length)

/-- Nodes left when those with no predecessor left are taken away, n times over. -/
def unsorted (t : List W64) : Nat → List Nat → List Nat
  | 0, l => l
  | n + 1, l => unsorted t n (l.filter fun k => l.any fun j => (nodeEdges t j).any fun e => e.dest == k)

/-- Whether a graph is invalid (R329). -/
def graphBad (table : W64) (t : List W64) : Bool :=
  let nn := bitsOf (t.getD 0 0).toNat 8 0
  let ks := List.range nn
  graphHeaderBad table t || (ks.any fun k => nodeBad t nn k) || !(ks.any fun k => nodeNp t k == 0) ||
  !(unsorted t nn ks).isEmpty ||
  ((t.getD 3 0) == 0 && ks.any fun k => (nodeEdges t k).any fun e => e.kind == 1)

/-- `fnode` of an invalid graph: the lowest node with an invalid field; where none has one the manual names none (log entry 62). -/
def State.badNode (s : State) (t : List W64) : Nat :=
  let nn := Nat.min 256 (bitsOf (t.getD 0 0).toNat 8 0)
  ((List.range nn).find? fun k => nodeBad t nn k).getD (Config.freeByte s.tick).toNat

/-- The nodes with no predecessor are released (R331). -/
def State.releaseFirst (s : State) (gi : Nat) : List Nat → State × List (Nat × Bool)
  | [] => (s, [])
  | k :: ks =>
    let (s1, w) := s.release gi k
    let (s2, ws) := s1.releaseFirst gi ks
    (s2, w ++ ws)

/-- Starts a graph (R329, R338): an invalid one gets `gst` 4 and launches nothing. -/
def State.startGraph (s : State) (q : Queue) (mode : Nat) (table log snapA snapN : W64) : State :=
  let hdr := s.vaWords q.ctx table.toNat 8
  let nn := Nat.min 256 (bitsOf (hdr.getD 0 0).toNat 8 0)
  let t := hdr ++ s.vaWords q.ctx (table.toNat + 64) (8 * nn)
  if graphBad table t then s.vaWrite q.ctx (table.toNat + 8) 8 (4 + 256 * s.badNode t) else
  let (gi, s1) := s.fresh
  let g : Graph :=
    { table := table, t := t, ctx := q.ctx, part := q.part, mode := mode, nn := nn, queue := some s.curQ, floor := q.floor,
      log0 := log, seg := log, snapA := snapA, snapN := snapN.toNat,
      ls := if mode = 1 then .recording else if mode = 2 then .checking else .off }
  let s2 := (s1.setGraph gi g).graphSt gi 1 0
  let s3 := (List.range nn).foldl (fun s k => s.nodeSt gi k 0) s2
  let s4 := if mode = 1 then (s3.vaWrite q.ctx (log.toNat + 8) 8 table.toNat).vaWrite q.ctx log.toNat 8 0 else s3
  let (s5, work) := s4.releaseFirst gi ((List.range nn).filter fun k => nodeNp t k == 0)
  s5.graphStep gi work

/-! ### The standard packets (R338) -/

/-- NOP. -/
def execNopPacket (s : State) : Out := onQueue s fun _ _ => .finished s

/-- LAUNCH: `serial` waits for the queue's earlier launches first. -/
def execLaunchPacket (serial : Bool) (desc : W64) (s : State) : Out :=
  onQueue s fun q _ => if serial && s.queueLaunches s.curQ then .wait s else .finished (s.submit q desc)

/-- GRAPH: mode 3 halts the queue. -/
def execGraph (mode : BitVec 2) (table log snap bytes : W64) (s : State) : Out :=
  onQueue s fun q _ => if mode = 3 then .halt s 5 else .finished (s.startGraph q mode.toNat table log snap bytes)

/-- The SIGNAL write of x to an address, and the interrupt. -/
def State.signal (s : State) (q : Queue) (irq : Bool) (addr x : W64) : State :=
  let s1 := s.vaWrite q.ctx addr.toNat 8 x.toNat
  if irq then s1.sendInt q.cvec else s1

/-- SIGNAL. -/
def execSignal (irq : Bool) (addr x : W64) (s : State) : Out := onQueue s fun q _ => .finished (s.signal q irq addr x)

/-- Whether the word at an address, read as an acquire at system scope, has reached a value. -/
def State.reached (s : State) (q : Queue) (addr x : W64) : Bool :=
  s.acquires s.curQ.1 q.ctx addr.toNat 8 && decide (x.toNat ≤ s.vaRead q.ctx addr.toNat 8)

/-- WAITV. -/
def execWaitv (addr x : W64) (s : State) : Out := onQueue s fun q _ => if s.reached q addr x then .finished s else .wait s

/-- Whether everything that the queue submitted has ended. -/
def State.queueDrained (s : State) (pq : Nat × Nat) : Bool := !s.queueLaunches pq && !s.queueGraphs pq

/-- FENCE. -/
def execFencePacket (s : State) : Out := onQueue s fun _ _ => if s.queueDrained s.curQ then .finished s else .wait s

/-- The packet row that a standard packet's words stand for (R338); `none`: no such opcode. -/
def stdPacket (ws : List W64) : Option Instr :=
  let h := (ws.getD 0 0).toNat
  let w (k : Nat) : W64 := ws.getD k 0
  match bitsOf h 5 0 with
  | 0 => some .nopPacket
  | 1 => some (.launchPacket (bitsOf h 8 8 == 1) (w 1))
  | 2 => some (.graph (BitVec.ofNat 2 (bitsOf h 9 8)) (w 1) (w 2) (w 3) (w 4))
  | 3 => some (.signal (bitsOf h 8 8 == 1) (w 1) (w 2))
  | 4 => some (.waitv (w 1) (w 2))
  | 5 => some .fencePacket
  | _ => none

/-- The standard program's opcode table (R338, R339): handler 0, one slot, and every flag reserved that is not listed. -/
def stdTable : List W64 :=
  let e (free : Nat) : W64 := BitVec.ofNat 64 ((2 ^ 24 - 1 - free) * 2 ^ 32)
  [e 0, e 1, e 3, e 1, e 0, e 0] ++ List.replicate 58 0xFFFF

end Sys2Proof.Machine
end

