-- ==== Sys2Proof/Machine/Batten.lean ====
section
/-!
DEFINITION. Batten programs (R339): the start of a packet, and one meaning for each batten instruction, run by the queue at work.
-/
namespace Sys2Proof.Machine

/-! ### The start of a packet (R338) -/

/-- The words of a packet at an index, slots wrapping at the end of the ring (R336). -/
def State.packetWords (s : State) (q : Queue) (slots : Nat) : List W64 :=
  (List.range slots).flatMap fun i =>
    s.vaWords q.ctx (q.ring + 64 * ((q.rd.toNat + i) % 2 ^ q.lsz)) 8

/-- Slot count in a header. -/
def headerSlots (h : W64) : Nat := bitsOf h.toNat 7 6 + 1

/-- Whether the host has asked for the queue to be disabled: it starts no further packet (R362). -/
def State.stopping (s : State) (part q : Nat) : Bool :=
  s.bst == 3 && s.mbCmd == 4 && (Sparse.get 0 s.mbArg 0).toNat == part && (Sparse.get 0 s.mbArg 1).toNat == q

/-- Whether a queue has a packet for an interpreter: it runs, its context is the partition's, none of its packets is at work, and the reading
of its slots, an acquire, may follow the writes to its kick word (R337). -/
def State.startable (s : State) (part q : Nat) : Bool :=
  let x := s.queue (qkey part q)
  x.qst == 2 && x.it.isNone && x.rd != x.wr && s.ownsCtx part x.ctx && !s.stopping part q && !(x.kick.any fun a => s.relHolds part ⟨false, a⟩ 4)

/-- Packets at work in a partition, each with one of its interpreters (R338); one that waits keeps its interpreter: the model's choice (log
entry 154). -/
def State.interpreting (s : State) (part : Nat) : Nat := (s.queues.filter fun x => x.1 / 64 == part && x.2.working).length

/-- The queue of a partition that an interpreter serves next: the first in rotation that has a packet, while one of the 16 interpreters of each
die is free (R338). -/
def State.nextQueue (s : State) (part : Nat) : Option Nat :=
  if 16 * s.mode.dies ≤ s.interpreting part then none else
  ((List.range 64).map fun i => (Sparse.get 63 s.rot part + 1 + i) % 64).find? fun q => s.startable part q

/-- BATTEN_PACKET_START: the next queue's next packet, its header checked against the opcode table. -/
def execBattenPacketStart (part q : Nat) (s0 : State) : Out :=
  let k := qkey part q
  let s := { s0 with rot := Sparse.set 63 s0.rot part q }
  let x := s.queue k
  .next (if s0.nextQueue part ≠ some q then s0
  else if x.tooFar then s.haltQueue k 7
  else
    let h := (s.packetWords x 1).getD 0 0
    let n := headerSlots h
    let e := (x.table.getD (bitsOf h.toNat 5 0) 0).toNat
    let it : Interp := { slots := n, words := s.packetWords x n, std := x.std, pc := bitsOf e 15 0 }
    let s1 := s.setQ k { x with it := some it }
    if bitsOf e 15 0 = 0xFFFF then s1.haltQueue k 1
    else if bitsOf h.toNat 31 8 &&& bitsOf e 55 32 ≠ 0 then s1.haltQueue k 2
    else if n ≠ bitsOf e 17 16 + 1 then s1.haltQueue k 8
    else s1)

/-! ### Registers, pc and repeats -/

def Interp.reg (it : Interp) (r : BitVec 3) : W64 := it.b.getD r.toNat 0
def Interp.setReg (it : Interp) (r : BitVec 3) (x : W64) : Interp := { it with b := it.b.set r.toNat x }

/-- Where the program goes from p: at the end of an `rpt` body back to its start, while repetitions are left. -/
def loopPc : List (Nat × Nat × Nat) → Nat → Nat × List (Nat × Nat × Nat)
  | [], p => (p, [])
  | (a, e, n) :: r, p => if p = e then (if n = 0 then loopPc r p else (a, (a, e, n - 1) :: r)) else (p, (a, e, n) :: r)

/-- The interpreter `d` instructions on, with one instruction counted. -/
def Interp.step (it : Interp) (d : Nat) : Interp :=
  let x := loopPc it.rpt (it.pc + d)
  { it with pc := x.1, rpt := x.2, left := it.left - 1 }

/-- An instruction that writes one register. -/
def battenSet (s : State) (d : BitVec 3) (f : Queue → Interp → W64) : Out :=
  onQueue s fun q it => .go s ((it.setReg d (f q it)).step 1)

/-- An instruction of two registers. -/
def battenAlu (s : State) (d a b : BitVec 3) (f : W64 → W64 → W64) : Out :=
  battenSet s d fun _ it => f (it.reg a) (it.reg b)

/-- imm, sign-extended. -/
def battenImm (i : BitVec 17) : W64 := i.signExtend 64

/-! ### The instructions -/

/-- `halt imm`; an immediate outside 0x80 to 0xFF names no reason (log entry 63). -/
def execBattenHalt (i : BitVec 17) (s : State) : Out :=
  onQueue s fun _ _ =>
    .halt s (if 0x80 ≤ i.toNat ∧ i.toNat ≤ 0xFF then i.toNat else 0x80 + (Config.freeByte s.tick).toNat % 128)

/-- `done`. -/
def execBattenDone (s : State) : Out := onQueue s fun _ _ => .finished s

/-- `li d, imm`. -/
def execBattenLi (d : BitVec 3) (i : BitVec 17) (s : State) : Out := battenSet s d fun _ _ => battenImm i

/-- `ldp d, imm`: a packet word; beyond the packet the manual gives none. -/
def execBattenLdp (d : BitVec 3) (i : BitVec 17) (s : State) : Out :=
  battenSet s d fun _ it => it.words.getD i.toNat (Config.freeWord s.tick)

/-- `ldq d, imm`: a control-block word, the read-only half first. -/
def execBattenLdq (d : BitVec 3) (i : BitVec 17) (s : State) : Out :=
  battenSet s d fun q _ =>
    if i.toNat < 16 then q.ro.getD i.toNat 0 else q.mutable.getD (i.toNat - 16) (Config.freeWord s.tick)

/-- `stq a, imm`: a program word. -/
def execBattenStq (a : BitVec 3) (i : BitVec 17) (s : State) : Out :=
  onQueue s fun q it =>
    let k := qkey s.curQ.1 s.curQ.2
    .go (s.setQ k { q with pw := q.pw.set i.toNat (it.reg a) }) (it.step 1)

/-- The address of a window access; `none`: its offset fails the check (R339, R340). -/
def windowAt (q : Queue) (it : Interp) (a : BitVec 3) (w : BitVec 1) (o : BitVec 16) : Option Nat :=
  let off := it.reg a + o.setWidth 64
  let x := q.win w.toNat
  if off.toNat < x.2.toNat ∧ off.toNat % 8 = 0 then some (x.1 + off).toNat else none

/-- `ldw d, a, imm`. -/
def execBattenLdw (d a : BitVec 3) (w : BitVec 1) (o : BitVec 16) (s : State) : Out :=
  onQueue s fun q it => match windowAt q it a w o with
    | none => .halt s 3
    | some x => .go s ((it.setReg d (BitVec.ofNat 64 (s.vaRead q.ctx x 8))).step 1)

/-- `stw a, b, imm`. -/
def execBattenStw (a b : BitVec 3) (w : BitVec 1) (o : BitVec 16) (s : State) : Out :=
  onQueue s fun q it => match windowAt q it a w o with
    | none => .halt s 3
    | some x => .go (s.vaWrite q.ctx x 8 (it.reg b).toNat) (it.step 1)

/-- `add d, a, b`. -/
def execBattenAdd (d a b : BitVec 3) (s : State) : Out := battenAlu s d a b (· + ·)
/-- `sub d, a, b`. -/
def execBattenSub (d a b : BitVec 3) (s : State) : Out := battenAlu s d a b (· - ·)
/-- `and d, a, b`. -/
def execBattenAnd (d a b : BitVec 3) (s : State) : Out := battenAlu s d a b (· &&& ·)
/-- `or d, a, b`. -/
def execBattenOr (d a b : BitVec 3) (s : State) : Out := battenAlu s d a b (· ||| ·)
/-- `xor d, a, b`. -/
def execBattenXor (d a b : BitVec 3) (s : State) : Out := battenAlu s d a b (· ^^^ ·)
/-- `shl d, a, b`: by b[5:0]. -/
def execBattenShl (d a b : BitVec 3) (s : State) : Out := battenAlu s d a b fun x y => x <<< (y.toNat % 64)
/-- `shr d, a, b`: by b[5:0]. -/
def execBattenShr (d a b : BitVec 3) (s : State) : Out := battenAlu s d a b fun x y => x >>> (y.toNat % 64)
/-- `addi d, a, imm`. -/
def execBattenAddi (d a : BitVec 3) (i : BitVec 17) (s : State) : Out := battenSet s d fun _ it => it.reg a + battenImm i

/-- `beq a, b, imm`. -/
def execBattenBeq (a b : BitVec 3) (i : BitVec 17) (s : State) : Out :=
  onQueue s fun _ it => .go s (it.step (if it.reg a = it.reg b then i.toNat else 1))
/-- `bne a, b, imm`. -/
def execBattenBne (a b : BitVec 3) (i : BitVec 17) (s : State) : Out :=
  onQueue s fun _ it => .go s (it.step (if it.reg a ≠ it.reg b then i.toNat else 1))

/-- `rpt`: the next n + 1 instructions, t + 1 times. -/
def execBattenRpt (t n : BitVec 6) (s : State) : Out :=
  onQueue s fun _ it =>
    .go s { it with pc := it.pc + 1, rpt := (it.pc + 1, it.pc + 2 + n.toNat, t.toNat) :: it.rpt, left := it.left - 1 }

/-- `subm a`: submits a descriptor as LAUNCH does. -/
def execBattenSubm (a : BitVec 3) (s : State) : Out := onQueue s fun q it => .go (s.submit q (it.reg a)) (it.step 1)

/-- `sgr a, b`: starts a graph as GRAPH does; the log and the snapshot area are the packet's words 2 to 4 (log entry 64). -/
def execBattenSgr (a b : BitVec 3) (s : State) : Out :=
  onQueue s fun q it =>
    if 3 ≤ (it.reg b).toNat then .halt s 5
    else .go (s.startGraph q (it.reg b).toNat (it.reg a) (it.words.getD 2 0) (it.words.getD 3 0) (it.words.getD 4 0)) (it.step 1)

/-- `wgeq a, b`: the WAITV wait. -/
def execBattenWgeq (a b : BitVec 3) (s : State) : Out :=
  onQueue s fun q it => if s.reached q (it.reg a) (it.reg b) then .go s (it.step 1) else .wait s

/-- `fnc`: the FENCE wait. -/
def execBattenFnc (s : State) : Out := onQueue s fun _ it => if s.queueDrained s.curQ then .go s (it.step 1) else .wait s

/-- `sig a, b, imm`: the SIGNAL write. -/
def execBattenSig (a b : BitVec 3) (i : BitVec 1) (s : State) : Out :=
  onQueue s fun q it => .go (s.signal q (i == 1) (it.reg a) (it.reg b)) (it.step 1)

end Sys2Proof.Machine
end

