-- ==== Sys2Proof/Machine/Atomics.lean ====
section
/-!
DEFINITION. Atomics, reductions and plate operations, opcodes 0xA0 to 0xA2 (R107, R171 to R180).
-/
namespace Sys2Proof.Machine

/-- The swap value of `cas`: the register that follows c (R171). -/
def Cx.swapData (c : Cx) (op : Amo) (t : Ty) (p : At) (x : SrcC) : W64 :=
  match op, x with
  | .cas, .v r => trunc t.width (c.g.src t.is64 p (.v (r + (if t.is64 then 2 else 1))))
  | .cas, .s r => trunc t.width (c.g.sreg p.slice_ (r.toNat + 1))
  | _, _ => 0

/-- Data in D ranges: whether an address lies in one. -/
def Cx.inD (c : Cx) (a : W64) : Bool := c.s.inD c.grd.ctx a.toNat

/-- The accesses of an `atom` or `red` (R173). -/
def Cx.rmws (c : Cx) (op : Amo) (t : Ty) (ps : List At) (a : At → W64) (x : SrcC) (land : At → Land) : List Access :=
  ps.map fun p =>
    { lane := p.lane_, space := .glob, addr := (a p).toNat, bytes := t.width / 8,
      op := .rmw op t (c.storeData t p x) (c.swapData op t p x), land := land p }

/-- `atom` (R171 to R174); an address in a D range is the illegal operand of R177. -/
def execAtom (la : BitVec 4) (op : Amo) (o : Order) (sc : Scope) (t : Ty) (d : Dst) (base : Src) (off : SrcB) (x : SrcC)
    (s : State) : Out :=
  issue (.atom la op o sc t d base off x) s fun c =>
    let ps := c.places d.scalar
    let a (p : At) : W64 := c.gaddr p base off
    let inD := ps.filterMap fun p => if c.inD (a p) then some (⟨c.maskAt p, 0xD, 7, (a p).toNat⟩ : Flaw) else none
    c.checked (c.misaligned (t.width / 8) ps a ++ inD) (c.access o sc (c.rmws op t ps a x (landAt d t)) [])

/-- `red` (R107, R173, R175): one that reaches a D range takes the gang's next key. -/
def execRed (perSlice : Bool) (op : Amo) (o : Order) (sc : Scope) (t : Ty) (base : Src) (off : SrcB) (x : SrcC) (s : State) : Out :=
  issue (.red perSlice op o sc t base off x) s fun c =>
    let ps := c.places perSlice
    let a (p : At) : W64 := c.gaddr p base off
    let accs := c.rmws op t ps a x fun _ => .none
    let dig := ps.map fun p => (a p, c.storeData t p x)
    c.checked (c.misaligned (t.width / 8) ps a)
      (match c.access o sc accs dig with
      | .done s1 own =>
        let g := s1.gang c.r
        .done (s1.setGang c.r { g with dcnt := g.dcnt + flag (ps.any fun p => c.inD (a p)) }) own
      | k => k)

/-- Whether [a, a + n) lies in the plate of one die (R179). -/
def inPlate (a n : Nat) : Bool :=
  decide (a < 2 ^ 48) && bitsOf a 45 45 == 1 && decide (bitsOf a 44 0 + n ≤ Config.plateBytes)

/-- `pvop` (R178 to R180): one operation for each selected slice; each takes the next number of the plate-operation timeline. -/
def execPvop (op : PvOp) (o : Order) (sc : Scope) (t : Ty) (d a : SReg) (b : SrcB) (n : SrcC) (s : State) : Out :=
  issue (.pvop op o sc t d a b n) s fun c =>
    let w := t.width / 8
    let dst (sl : Nat) : Nat := (c.sIn sl a).toNat
    let cnt (sl : Nat) : Nat := (c.g.srcC true zext64 (.slice sl) n).toNat
    let src (sl : Nat) : Option Nat := match b with
      | .s r => some (c.sIn sl r).toNat
      | _ => none
    let const : W64 := match b with
      | .imm x => trunc t.width (if t.floating then immF t x else immInt t x)
      | _ => 0
    let flaws := c.sls.flatMap fun sl =>
      let m := c.maskAt (.slice sl)
      let all := dst sl :: (src sl).toList
      (match all.find? fun x => x % w != 0 with
        | some x => [⟨m, 7, 0, x⟩]
        | none => []) ++
      (match if cnt sl = 0 then none else
          all.find? fun x => !inPlate x (cnt sl * w) || bitsOf x 47 46 != bitsOf (dst sl) 47 46 with
        | some x => [⟨m, 0xD, 6, x⟩]
        | none => [])
    let go (acc : State × List RegWrite) (sl : Nat) : State × List RegWrite :=
      let st : OpSt := if cnt sl = 0 then .completed else .queued
      let op : Op := { st := st, kind := .pvop op o t (dst sl) (src sl) const (cnt sl), grid := c.grp.grid, by_ := c.r,
                       before := c.sp.hist, t0 := c.s.now, at_ := c.s.tick }
      let (k, s1) := acc.1.startOp c.grd.ctx engPlate op
      (s1, acc.2 ++ [.s sl d.toNat (ticketOf engPlate k)])
    let r := c.sls.foldl go (c.s, [])
    c.checked flaws (.done (r.1.setGang c.r ((r.1.gang c.r).writeRegs r.2)) 0)

end Sys2Proof.Machine
end

