-- ==== Sys2Proof/Machine/Network.lean ====
section
/-!
DEFINITION. The network instructions, opcodes 0xD3 to 0xD6 (R199 to R202), the stamper (R192), and what a packet does at its target.
-/
namespace Sys2Proof.Machine

/-! ### Stamps (R192, R193) -/

/-- Fabric time t precedes u, around the wrap (R193). -/
def timeBefore (t u : BitVec 48) : Bool := let d := (u - t).toNat; decide (1 ≤ d) && decide (d ≤ 2 ^ 47 - 1)

/-- Stamps by time, source, sequence. -/
def Stamp.before (a b : Stamp) : Bool :=
  timeBefore a.t b.t || (a.t == b.t && (decide (a.src.toNat < b.src.toNat) ||
    (a.src == b.src && decide (a.seq.toNat < b.seq.toNat))))

def Stamp.min (a b : Stamp) : Stamp := if Stamp.before b a then b else a

/-- `n` consecutive stamps, with the state that has given them out; `none`: they wait for the next nanosecond. -/
def State.stamps (s : State) (n : Nat) : Option (List Stamp × State) :=
  let q := if s.stampT = s.ftime then s.stampSeq else 0
  if q + n ≤ 8192 then
    some ((List.range n).map (fun k => ⟨s.ftime, s.srcid, BitVec.ofNat 13 (q + k)⟩),
      { s with stampT := s.ftime, stampSeq := q + n })
  else none

/-- An `nput` is complete when its tickets have completed or failed (R150). -/
def Gang.putsDone (g : Gang) (ctx : Nat) (x : Ctx) : Gang :=
  { g with infl := dropDone (g.infl.map fun e => match e.kind with
      | .put c ns => if c = ctx && ns.all fun n => (x.op engNet n).st.final then { e with done := true } else e
      | _ => e) }

/-- A network or collective operation reaches a final state. -/
def State.finalOp (s : State) (ctx eng num : Nat) (st : OpSt) : State :=
  let s1 := s.setOpSt ctx eng num st
  let x := s1.ctx ctx
  { s1 with gangs := s1.gangs.map fun y => (y.1, y.2.putsDone ctx x) }

/-- A running operation fails (R199). -/
def State.failOp (s : State) (ctx eng num : Nat) : State :=
  if (s.op ctx eng num).st == .running then s.finalOp ctx eng num .failed else s

/-- A message for another package leaves by its route. -/
def State.send (s : State) (pkg : BitVec 19) (m : Flit) : State :=
  let k := Config.route pkg % 12
  let p := s.port k
  s.setPort k { p with msgs := p.msgs ++ [m] }

/-! ### The ordered set (R194) -/

/-- Ports of the ordered set. -/
def State.orderedPorts (s : State) : List Nat :=
  (List.range Config.ports).filter fun k => (s.port k).enabled && !(s.port k).fenced

/-- A port's bound: the stamp at the head of its queue, else its watermark. -/
def Port.bound (p : Port) : Stamp :=
  match p.inq with
  | x :: _ => x.stamp
  | [] => p.wm

/-- The stamper's bound: the head of its queue, else the present time. -/
def State.ownBound (s : State) : Stamp :=
  match s.localq with
  | x :: _ => x.stamp
  | [] => ⟨s.ftime, 0, 0⟩

/-- m of R194. -/
def State.boundM (s : State) : Stamp := s.orderedPorts.foldl (fun m k => Stamp.min m (s.port k).bound) s.ownBound

/-- Every packet of a list is refused, and its source told (R196). -/
def State.refuseAll (s : State) : List Packet → State
  | [] => s
  | p :: ps =>
    let s1 := if p.src = s.srcid then s.failOp p.ctx engNet p.num else s.send p.src (.refusal p)
    s1.refuseAll ps

/-- A port is fenced: it leaves the ordered set, and the packets in its queue are refused (R196). -/
def State.fencePort (s : State) (k : Nat) : State :=
  let p := s.port k
  (s.setPort k { p with fenced := true, inq := [] }).refuseAll p.inq

/-- A port is readmitted: packets below the m in force now are late from here on, so m stands as its watermark until its next packet or
beacon (R196). -/
def State.readmitPort (s : State) (k : Nat) : State :=
  let p := s.port k
  let m := s.boundM
  s.setPort k { p with fenced := false, wm := m, wmAt := s.now, floorM := some m, stalled := false }

/-! ### Issue (R199 to R201) -/

/-- A target word that names no package (R199). -/
def badTarget (x : W64) : Bool := bitsOf x.toNat 63 21 != 0 || decide (400000 ≤ bitsOf x.toNat 18 0)

/-- Check 7 for the target words. -/
def Cx.badTargets (c : Cx) (t : SReg) : List Flaw :=
  c.sls.filterMap fun sl => if badTarget (c.sIn sl t) then some ⟨c.maskAt (.slice sl), 0xD, 8, 0⟩ else none

/-- Check 7 for remote and local addresses: one that is not a multiple of 4 (R200). -/
def Cx.oddAddrs (c : Cx) (rs : List SReg) : List Flaw :=
  c.sls.filterMap fun sl => ((rs.map fun r => (c.sIn sl r).toNat).find? fun x => x % 4 != 0).map fun x =>
    ⟨c.maskAt (.slice sl), 7, 0, x⟩

/-- One network operation for each selected slice, in slice order: the state, and slice with number. -/
def Cx.netOps (c : Cx) (eng : Nat) (kind : Nat → OpKind) : State × List (Nat × Nat) :=
  c.sls.foldl (fun (acc : State × List (Nat × Nat)) sl =>
    let op : Op := { st := .running, kind := kind sl, grid := c.grp.grid, by_ := c.r, before := c.sp.hist, t0 := c.s.now,
                     at_ := c.s.tick }
    let x := acc.1.startOp c.grd.ctx eng op
    (x.2, acc.2 ++ [(sl, x.1)])) (c.s, [])

/-- `nput` (R201): the tickets are written now. -/
def execNput (ordered : Bool) (o : Order) (sc : Scope) (d t r l : SReg) (n : BitVec 24) (s : State) : Out :=
  issue (.nput ordered o sc d t r l n) s fun c =>
    let flaws := c.badTargets t ++ c.oddAddrs [r, l] ++
      if n = 0 ∨ (ordered ∧ 4096 < n.toNat) then [⟨c.visMask, 0xD, 9, 0⟩] else []
    let x := c.netOps engNet fun sl => .put ordered (c.sIn sl t) (c.sIn sl r).toNat (c.sIn sl l).toNat n.toNat
    let g := x.1.gang c.r
    let c1 : Cx :=
      { c with s := x.1.setGang c.r (g.writeRegs (x.2.map fun y => .s y.1 d.toNat (ticketOf engNet y.2))) }
    c.checked flaws
      (c1.enter { id := 0, kind := .put c.grd.ctx (x.2.map Prod.snd), path := some .net, ord := o, scope := sc })

/-- `nget` (R201): value and ticket land when the response arrives. -/
def execNget (la : BitVec 4) (o : Order) (sc : Scope) (t : Ty) (d tg r : SReg) (s : State) : Out :=
  issue (.nget la o sc t d tg r) s fun c =>
    let x := c.netOps engNet fun sl => .get (c.sIn sl tg) (c.sIn sl r).toNat t
    let c1 : Cx := { c with s := x.1 }
    c.checked (c.badTargets tg ++ c.oddAddrs [r])
      (c1.enter { id := 0, kind := .ticket c.grd.ctx (x.2.map fun y => (y.2, y.1, d.toNat)), path := some .net, ord := o,
                  scope := sc, long := true })

/-- `natm` (R201): always ordered. -/
def execNatm (la : BitVec 4) (op : Amo) (o : Order) (sc : Scope) (t : Ty) (d tg r : SReg) (x : SrcC) (s : State) : Out :=
  issue (.natm la op o sc t d tg r x) s fun c =>
    let old (sl : Nat) : W64 := trunc t.width (c.g.srcC t.is64 sext64 (.slice sl) x)
    let new (sl : Nat) : W64 := match op, x with
      | .cas, .s k => trunc t.width (c.g.sreg sl (k.toNat + 1))
      | _, _ => 0
    let y := c.netOps engNet fun sl => .natm op t (c.sIn sl tg) (c.sIn sl r).toNat (old sl) (new sl)
    let c1 : Cx := { c with s := y.1 }
    c.checked (c.badTargets tg ++ c.oddAddrs [r])
      (c1.enter { id := 0, kind := .ticket c.grd.ctx (y.2.map fun z => (z.2, z.1, d.toNat)), path := some .net, ord := o,
                  scope := sc, long := true })

/-- `ncoll` (R201): the ticket is written now, and the engine runs the collective. -/
def execNcoll (k : CollKind) (o : Order) (sc : Scope) (t : Ty) (d a : SReg) (s : State) : Out :=
  issue (.ncoll k o sc t d a) s fun c =>
    let x := c.netOps engColl fun sl => .coll k t (c.sIn sl a).toNat [] [] []
    let g := x.1.gang c.r
    .done (x.1.setGang c.r (g.writeRegs (x.2.map fun y => .s y.1 d.toNat (ticketOf engColl y.2)))) 0

/-! ### At the target (R199) -/

/-- Where a remote access lands; `none`: the window or the translation rejects it. The window is served by a context of the partition, so its
addresses lie on the partition's dies (R8, R199, R342); both ends of the access translate. -/
def State.remoteLoc (s : State) (part : Nat) (need : Need) (a n : Nat) : Option Loc :=
  let w := Sparse.get (0, 0, 0) s.exported part
  if s.mode.hasPart part && w.1 != 0 && (s.ctx w.1).asg && (s.ctx w.1).part == part && decide (w.2.1 ≤ a) &&
      decide (a + n ≤ w.2.1 + w.2.2) then
    match s.xlate w.1 false need a, s.xlate w.1 false need (a + n - 1) with
    | .ok l, .ok _ => some l
    | _, _ => none
  else none

/-- Bytes written from an address on, all checked first. -/
def State.remoteWrite (s : State) (part a : Nat) : List Byte → Option State
  | [] => some s
  | b :: bs =>
    match s.remoteLoc part .write a 1 with
    | none => none
    | some l => ((s.wrLoc l 1 b.toNat).remoteWrite part (a + 1) bs)

/-- What a packet does at this package: the state and the value that goes back; `none`: an address is rejected. -/
def State.applyPkt (s : State) (p : Packet) : Option (State × W64) :=
  let part := p.part.toNat
  match p.op with
  | .put a data => (s.remoteWrite part a.toNat data).map fun s1 => (s1, 0)
  | .get a t =>
    (s.remoteLoc part .read a.toNat (t.width / 8)).map fun l => (s, BitVec.ofNat 64 (s.rdLoc l (t.width / 8)))
  | .atom op t a c e =>
    (s.remoteLoc part (AccOp.need (.rmw op t c e)) a.toNat (t.width / 8)).bind fun l =>
      let m : W64 := BitVec.ofNat 64 (s.rdLoc l (t.width / 8))
      match amoNew op t m c e with
      | none => some (s, m)
      | some v => (s.remoteLoc part .write a.toNat (t.width / 8)).map fun l => (s.wrLoc l (t.width / 8) v.toNat, m)

/-- Bytes that a packet acknowledges. -/
def PktOp.bytes : PktOp → Nat
  | .put _ data => data.length
  | _ => 1

/-- Bytes that an operation waits to have acknowledged. -/
def OpKind.bytes : OpKind → Nat
  | .put _ _ _ _ n => n
  | _ => 1

/-- An operation of this package has had a packet applied here. -/
def State.ackOwn (s : State) (ctx num : Nat) (n : Nat) (v : W64) : State :=
  let c := s.ctx ctx
  let o := c.op engNet num
  if o.st != .running then s else
  let o1 := { o with acked := o.acked + n, val := v }
  let s1 := s.setCtx ctx (c.setOp engNet num o1)
  if o1.kind.bytes ≤ o1.acked then s1.finalOp ctx engNet num .completed else s1

/-- A packet addressed to this package is applied, or rejected; its source is told. -/
def State.arrive (s : State) (p : Packet) : State :=
  match s.applyPkt p with
  | some x =>
    if p.src = s.srcid then x.1.ackOwn p.ctx p.num (PktOp.bytes p.op) x.2
    else x.1.send p.src (.ack p.src p.ctx p.num x.2)
  | none =>
    if p.src = s.srcid then s.failOp p.ctx engNet p.num else s.send p.src (.refusal p)

/-! ### Sending -/

/-- A target word's package and partition. -/
def tgtPkg (x : W64) : BitVec 19 := x.setWidth 19
def tgtPart (x : W64) : BitVec 2 := (x >>> 19).setWidth 2

/-- Bytes cut into packets of at most 224 bytes; `n` bounds their number. -/
def chunks : Nat → List Byte → List (List Byte)
  | 0, _ => []
  | n + 1, bs => if bs.isEmpty then [] else bs.take 224 :: chunks n (bs.drop 224)

/-- Payloads with the place of each. -/
def placed (off : Nat) : List (List Byte) → List (Nat × List Byte)
  | [] => []
  | b :: bs => (off, b) :: placed (off + b.length) bs

/-- Whether a collective's descriptor says that it is ordered. -/
def collOrd (d : List W64) : Bool := bitsOf (d.getD 5 0).toNat 4 4 == 1

/-- Whether an operation is still to be stamped as an ordered one; a collective whose descriptor is not read yet may be one. -/
def Op.unstamped (o : Op) : Bool :=
  o.st == .running && o.stamp.isNone && match o.kind with
    | .put ordered .. => ordered
    | .natm .. => true
    | .coll .. => true
    | _ => false

/-- Ordered operations of a gang are stamped in its issue order (R202): none that it issued before is unstamped. -/
def Ctx.stampFirst (x : Ctx) (o : Op) (num : Nat) : Bool :=
  x.ops.all fun y =>
    y.2.by_ != o.by_ || !y.2.unstamped || decide (o.at_ < y.2.at_) || (y.2.at_ == o.at_ && decide (num ≤ okeyNum y.1))

/-- The packet of an operation. -/
def State.packetOf (s : State) (st : Stamp) (tgt : W64) (ctx num : Nat) (op : PktOp) : Packet :=
  { stamp := st, pkg := tgtPkg tgt, part := tgtPart tgt, src := s.srcid, ctx := ctx, num := num, op := op }

/-- Whether the ordered queue of the port towards another package is full: its packets hold 1 MiB of payload (R197). -/
def State.queueFull (s : State) (pkg : BitVec 19) : Bool :=
  pkg != s.srcid && decide (2 ^ 20 ≤ ((s.port (Config.route pkg % 12)).outq.foldl (fun n p => n + match p.op with
    | .put _ bs => bs.length
    | _ => 8) 0))

/-- The network engine's next step for an operation: packets leave, stamped when ordered (R201). Local bytes that the lease does not
hold, or that do not translate, end the task. An unordered put sends `amount` + 1 packets at a time; the packets of an ordered one are stamped
within one nanosecond, though the manual lets a boundary fall between them (log entry 132). -/
def State.netStep (s : State) (ctx num amount : Nat) : State :=
  let c := s.ctx ctx
  let o := c.op engNet num
  if o.st != .running || !s.opMayStart o then s else
  match o.kind with
  | .put ordered tgt remote loc n =>
    if n ≤ o.pos || (ordered && (!c.stampFirst o num || s.queueFull (tgtPkg tgt))) then s else
    let cnt := if ordered then n else Nat.min (224 * (amount + 1)) (n - o.pos)
    match s.engBytes o.grid ((loc + o.pos) % 2 ^ 64) cnt with
    | .error e => s.endTaskOf o.by_ e.1 e.2
    | .ok bs =>
      let ps := placed o.pos (chunks cnt bs)
      let op (x : Nat × List Byte) : PktOp := .put (BitVec.ofNat 64 (remote + x.1)) x.2
      if ordered then
        match s.stamps ps.length with
        | none => s
        | some (sts, s1) =>
          let pkts := (sts.zip ps).map fun x => s.packetOf x.1 tgt ctx num (op x.2)
          let o1 := { o with pos := n, stamp := sts.getLast? }
          { s1.setCtx ctx (c.setOp engNet num o1) with localq := s1.localq ++ pkts }
      else
        let pkts := ps.map fun x => s.packetOf Stamp.zero tgt ctx num (op x)
        { s.setCtx ctx (c.setOp engNet num { o with pos := o.pos + cnt }) with outbox := s.outbox ++ pkts }
  | .get tgt remote t =>
    if o.pos != 0 then s else
    let pkt := s.packetOf Stamp.zero tgt ctx num (.get (BitVec.ofNat 64 remote) t)
    { s.setCtx ctx (c.setOp engNet num { o with pos := 1 }) with outbox := s.outbox ++ [pkt] }
  | .natm op t tgt remote x e =>
    if o.pos != 0 || !c.stampFirst o num || s.queueFull (tgtPkg tgt) then s else
    match s.stamps 1 with
    | some ([st], s1) =>
      let pkt := s.packetOf st tgt ctx num (.atom op t (BitVec.ofNat 64 remote) x e)
      { s1.setCtx ctx (c.setOp engNet num { o with pos := 1, stamp := some st }) with localq := s1.localq ++ [pkt] }
    | _ => s
  | _ => s

/-! ### Collectives (R201) -/

/-- Fields of a collective descriptor. -/
def collM (d : List W64) : Nat := bitsOf (d.getD 4 0).toNat 31 0
def collRank (d : List W64) : Nat := bitsOf (d.getD 4 0).toNat 63 32
def collCnt (d : List W64) : Nat := (d.getD 2 0).toNat
def collOp (d : List W64) : Nat := bitsOf (d.getD 5 0).toNat 3 0
def collSk (d : List W64) : Bool := bitsOf (d.getD 5 0).toNat 5 5 == 1
def collRoot (d : List W64) : Nat := bitsOf (d.getD 5 0).toNat 63 32

/-- Whether a descriptor is one with which a collective can run. `b32` is for `and`, `or` and `xor` (R201); what another `op` does the manual does
not say, and the ticket fails whatever the kind: the model's choice (log entry 151). -/
def collOk (t : Ty) (d : List W64) : Bool :=
  let m := collM d
  d.getD 7 0 == 0 && bitsOf (d.getD 5 0).toNat 31 6 == 0 && (combOf (collOp d)).isSome && decide (2 ≤ m) &&
  decide (m ≤ 400000) && decide (collRank d < m) && decide (collRoot d < m) &&
  (t != .b32 || decide (3 ≤ collOp d)) && (!collSk d || (d.getD 6 0).toNat % 8 == 0)

/-- A list of bytes as 32-bit words. -/
def words32 (bs : List Byte) (n : Nat) : List W32 := (List.range n).map fun i => BitVec.ofNat 32 (leNat ((bs.drop (4 * i)).take 4))

/-- The collective engine's first step: it reads the descriptor, the member table and this member's contribution, and takes the contribution's
stamp; an ordered one in its gang's issue order (R202). -/
def State.collStep (s : State) (ctx num : Nat) : State :=
  let c := s.ctx ctx
  let o := c.op engColl num
  if o.st != .running || !s.opMayStart o then s else
  match o.kind with
  | .coll k t addr [] _ _ =>
    match s.engBytes o.grid addr 64 with
    | .error e => s.endTaskOf o.by_ e.1 e.2
    | .ok bs =>
      let d : List W64 := (List.range 8).map fun i => BitVec.ofNat 64 (leNat ((bs.drop (8 * i)).take 8))
      if !collOk t d then s.setOpSt ctx engColl num .failed else
      if collOrd d && !c.stampFirst o num then s else
      let sends : Bool := match k with
        | .pbar => false
        | .bcst => collRank d == collRoot d
        | _ => true
      match s.engBytes o.grid (d.getD 3 0).toNat (4 * collM d),
          s.engBytes o.grid (d.getD 0 0).toNat (if sends then collCnt d * (t.width / 8) else 0) with
      | .error e, _ | _, .error e => s.endTaskOf o.by_ e.1 e.2
      | .ok tb, .ok snd =>
        match s.stamps 1 with
        | some ([st], s1) =>
          s1.setCtx ctx (c.setOp engColl num { o with kind := .coll k t addr d (words32 tb (collM d)) snd, stamp := some st })
        | _ => s
  | _ => s

end Sys2Proof.Machine
end

