-- ==== Sys2Proof/Machine/Sync.lean ====
section
/-!
DEFINITION. Barriers, copies, tickets and marks, opcodes 0xB0 to 0xB7 (R209, R213, R237 to R241, R251 to R254).
-/
namespace Sys2Proof.Machine

/-! ### Barriers -/

/-- The count operand of a counted arrival (R252). -/
def Cx.barCount (c : Cx) (cnt : Option SReg) : Option Nat := cnt.map fun r => (c.sVis r).toNat

/-- Whether an arrival is misused (R251). -/
def Cx.barMisuse (c : Cx) (k : BitVec 4) (cnt : Option SReg) : Bool :=
  decide (1 < c.g.nsplits) || (c.grp.bar k.toNat).misused c.r.gang (c.barCount cnt)

/-- The group after this gang's arrival. -/
def Cx.arrived (c : Cx) (k : BitVec 4) (cnt : Option SReg) : Group :=
  c.grp.setBar k.toNat ((c.grp.bar k.toNat).arrive (c.s.liveGangs c.r.group) c.r.gang (c.barCount cnt))

/-- `bar` (R253): an arrival, then a wait for the phase it arrived in. -/
def execBar (k : BitVec 4) (cnt : Option SReg) (s : State) : Out :=
  issue (.bar k cnt) s fun c =>
    match c.sp.wait with
    | .phase _ => .done c.s 0
    | _ =>
      if c.barMisuse k cnt then .trap 0xD 0xE c.sp.pc 0 c.visMask else
      let p := (c.grp.bar k.toNat).phase
      let grp := c.arrived k cnt
      let s1 := c.s.setGroup c.r.group grp
      if (grp.bar k.toNat).phase = p then
        .stay (s1.setGang c.r { c.g with last := s1.tick, run := some { c.sp with wait := .phase p } })
      else .done s1 0

/-- `arrive` (R253): sd receives the phase it arrived in. -/
def execArrive (d : SReg) (k : BitVec 4) (cnt : Option SReg) (s : State) : Out :=
  issue (.arrive d k cnt) s fun c =>
    if c.barMisuse k cnt then .trap 0xD 0xE c.sp.pc 0 c.visMask else
    let p := (c.grp.bar k.toNat).phase
    let c1 : Cx := { c with s := c.s.setGroup c.r.group (c.arrived k cnt) }
    c1.writes (c.sls.map fun sl => .s sl d.toNat (zext64 p))

/-- `bwait` (R253): the wait is its whole effect. -/
def execBwait (k : BitVec 4) (p : SReg) (s : State) : Out :=
  issue (.bwait k p) s fun c => .done c.s 0

/-! ### Copies -/

/-- Whether the destination and the source of a kind are scratch offsets (R240). -/
def CopyKind.dstScr : CopyKind → Bool
  | .gs | .ss => true
  | _ => false
def CopyKind.srcScr : CopyKind → Bool
  | .sg | .ss => true
  | _ => false

/-- An address of a side: a scratch offset is bits [31:0] (R240). -/
def sideAddr (scr : Bool) (x : W64) : Nat := if scr then (lo32 x).toNat else x.toNat

/-- `copy` (R240, R241). -/
def execCopy (k : CopyKind) (d dst src : SReg) (n : SrcC) (s : State) : Out :=
  issue (.copy k d dst src n) s fun c =>
    let ds := CopyKind.dstScr k
    let ss := CopyKind.srcScr k
    let da (sl : Nat) : Nat := sideAddr ds (c.sIn sl dst)
    let sa (sl : Nat) : Nat := sideAddr ss (c.sIn sl src)
    let cnt (sl : Nat) : Nat := (c.g.srcC true zext64 (.slice sl) n).toNat
    let beyond (scr : Bool) (o n : Nat) : Bool := scr && decide (0 < n) && decide (c.grd.scrBytes < o + n)
    let flaws := c.sls.flatMap fun sl =>
      let m := c.maskAt (.slice sl)
      (match [da sl, sa sl].find? fun x => x % 4 != 0 with
        | some x => [(⟨m, 7, 0, x⟩ : Flaw)]
        | none => if cnt sl % 4 = 0 then [] else [⟨m, 7, 0, (Config.freeWord c.s.tick).toNat⟩]) ++
      (if beyond ds (da sl) (cnt sl) then [⟨m, 9, 1, da sl⟩] else if beyond ss (sa sl) (cnt sl) then [⟨m, 9, 1, sa sl⟩] else [])
    let go (acc : State × List RegWrite) (sl : Nat) : State × List RegWrite :=
      let st : OpSt := if cnt sl = 0 then .completed else .queued
      let op : Op := { st := st, kind := .copy k (da sl) (sa sl) (cnt sl), grid := c.grp.grid, by_ := c.r,
                       before := c.sp.hist, t0 := c.s.now, at_ := c.s.tick }
      let (u, s1) := acc.1.startOp c.grd.ctx engCopy op
      (s1, acc.2 ++ [.s sl d.toNat (ticketOf engCopy u)])
    let r := c.sls.foldl go (c.s, [])
    c.checked flaws (.done (r.1.setGang c.r ((r.1.gang c.r).writeRegs r.2)) 0)

/-! ### Tickets -/

/-- Tickets of unassigned codes or numbers (R237). -/
def Cx.badTickets (c : Cx) (t : SReg) : List Flaw :=
  c.sls.filterMap fun sl =>
    match (c.s.ctx c.grd.ctx).ticket (c.sIn sl t) with
    | none => some ⟨c.maskAt (.slice sl), 0xD, 0xD, 0⟩
    | some _ => none

/-- Locks that end when a ticket is reported (R213). -/
def Gang.unlock (g : Gang) (x : Ctx) (t : W64) : Gang :=
  match x.ticket t with
  | some (3, n) =>
    let st := x.opSt engMatrix n
    if x.done t then { g with closed := g.closed.filter fun l => decide (n < l.num) }
    else if st == .failed || st == .cancelled then { g with closed := g.closed.filter fun l => l.num != n }
    else g
  | _ => g

/-- What `wtl` and `tst` report: the predicate of each lane's slice, and the locks that end. -/
def Cx.report (c : Cx) (p : PReg) (t : SReg) : Act :=
  let x := c.s.ctx c.grd.ctx
  let g := c.sls.foldl (fun g sl => g.unlock x (c.sIn sl t)) c.g
  let c1 : Cx := { c with s := c.s.setGang c.r g, g := g }
  c1.writes (c.preds p fun L => x.done (c.sIn (L / 4) t))

/-- `wtl` (R239). -/
def execWtl (p : PReg) (t : SReg) (s : State) : Out :=
  issue (.wtl p t) s fun c => c.checked (c.badTickets t) (c.report p t)

/-- `tst` (R239). -/
def execTst (p : PReg) (t : SReg) (s : State) : Out :=
  issue (.tst p t) s fun c => c.checked (c.badTickets t) (c.report p t)

/-- `cancel` (R239): an operation still queued is cancelled. -/
def execCancel (p : PReg) (t : SReg) (s : State) : Out :=
  issue (.cancel p t) s fun c =>
    let go (acc : State × List Nat) (sl : Nat) : State × List Nat :=
      let x := acc.1.ctx c.grd.ctx
      match x.ticket (c.sIn sl t) with
      | some (e, n) =>
        if x.opSt e n == .queued then (acc.1.setOpSt c.grd.ctx e n .cancelled, acc.2 ++ [sl]) else acc
      | none => acc
    let r := c.sls.foldl go (c.s, [])
    let c1 : Cx := { c with s := r.1 }
    c.checked (c.badTickets t) (c1.writes (c.preds p fun L => r.2.contains (L / 4)))

/-- `trig` (R254). -/
def execTrig (s : State) : Out :=
  issue .trig s fun c =>
    .finished ((c.retire (c.s.setGang c.r (c.g.mark c.visMask c.sp.hist c.s.owed)) 0).markCheck c.r)

end Sys2Proof.Machine
end

