-- ==== Sys2Proof/Machine/Completions.lean ====
section
/-!
DEFINITION. Completions: trap entry and notices, long-latency results, accesses applied, cells published, copies and plate operations, and
the engines' own steps (R69, R150, R209, R240, R241, R179, R257, R281).
-/
namespace Sys2Proof.Machine

/-! ### Traps and notices -/

/-- TRAP_ENTRY (R281): a trap that waited for its split's windows is taken, when its group is resident (R272). -/
def execTrapEntry (r : GangRef) (s : State) : Out :=
  let g := s.gang r
  .next (match g.trapReq, g.run with
  | some q, some sp => if g.openWins sp || (s.group r.group).st != .resident then s else s.takeTrap r q
  | _, _ => s)

/-- NOTICE_DELIVERY (R257). -/
def execNoticeDelivery (r : GangRef) (s : State) : Out :=
  .next (match (s.gang r).run with
  | some x => if s.noticeReady r then s.takeNotice r (s.noticePc r x) else s
  | none => s)

/-! ### In-flight entries -/

/-- A change of one entry. -/
def Gang.mapInfl (g : Gang) (id : Nat) (f : Entry → Entry) : Gang :=
  { g with infl := g.infl.map fun e => if e.id == id then f e else e }

/-- Fences that order nothing outstanding complete (`owed` says what is, of what they have seen); complete entries fall out (R150); marks
ripen (R254). -/
def Gang.tidy (g : Gang) (owed : Seen → Bool) : Gang :=
  let free (e : Entry) : Bool := match e.kind with
    | .fence => !e.sync.any owed && e.before.all fun id => match g.entry? id with
      | some b => !b.owes false
      | none => true
    | _ => false
  let g1 := { g with infl := g.infl.map fun e => if free e then { e with done := true } else e }
  ({ g1 with infl := dropDone g1.infl }).ripen owed

/-- The entry's in-flight work is over. -/
def State.entryDone (s : State) (r : GangRef) (id : Nat) : State :=
  let g := s.gang r
  (s.setGang r ((g.mapInfl id fun e => { e with done := true }).tidy s.owed)).markCheck r

/-- Where the value of an access lands (R105, R167). -/
def Access.lands (a : Access) : List RegWrite :=
  match a.land with
  | .none => []
  | .v lane n t => wrV t.is64 lane (BitVec.ofNat 8 n) (extV t (a.val.toNat : Int))
  | .s sl n t => [.s sl n (extS t (a.val.toNat : Int))]

/-- The registers that an operation of `nget` or `natm` writes: the value, 0 on failure, and the ticket (R201). -/
def Op.lands (o : Op) (num sl reg : Nat) : List RegWrite :=
  let w := match o.kind with
    | .get _ _ t | .natm _ t _ _ _ _ => t.width
    | _ => 64
  [.s sl reg (if o.st = .completed then trunc w o.val else 0), .s sl (reg + 1) (ticketOf engNet num)]

/-- What an entry of a gang writes when it completes; `none`: it cannot complete yet. Loads that went ahead of an acquire land after it. -/
def State.landing (s : State) (r : GangRef) (e : Entry) : Option (List RegWrite) :=
  if e.done || !e.long then none else
  match e.kind with
  | .alu => some e.rw
  | .mem =>
    let g := s.gang r
    if e.owes false || (e.before.filterMap g.entry?).any (s.acquiring r g) then none else some (e.accs.flatMap Access.lands)
  | .ticket ctx ops =>
    let x := s.ctx ctx
    if ops.all fun o => (x.op engNet o.1).st.final then
      some (ops.flatMap fun o => (x.op engNet o.1).lands o.1 o.2.1 o.2.2)
    else none
  | _ => none

/-- LONG_LATENCY_COMPLETION (R69): the results land, and the sticky bits with them (R100). The old value of an `atom` lands wherever its line
sits (R174); the lines of other results come back first (R14). -/
def execLongLatencyCompletion (r : GangRef) (entry : Nat) (s : State) : Out :=
  .next (match (s.gang r).entry? entry with
  | none => s
  | some e =>
    match s.landing r e with
    | none => s
    | some ws =>
      match if e.path == some .atr then .ok (s.land r ws) else s.landIn r ws with
      | .error a => s.endTaskOf r 0x03 a
      | .ok s1 => (s1.setGang r ((s1.gang r).sticky e.sticky)).entryDone r entry)

/-- ACCESS_APPLIED (R107, R150 to R160): one access, if the orders allow it now. -/
def execAccessApplied (r : GangRef) (entry k : Nat) (s : State) : Out :=
  .next (match (s.gang r).entry? entry with
  | none => s
  | some e =>
    match e.accs[k]? with
    | none => s
    | some a =>
      if !s.mayApply r e a then s else
      match s.applyAcc r e a with
      | .error x => s.endTaskOf r x.1 x.2
      | .ok (s1, v) =>
        let e1 := e.applied k v
        let e2 := { e1 with done := !e1.long && !e1.owes false }
        let g := (s1.gang r).mapInfl entry fun _ => e2
        (s1.setGang r (g.tidy (s1.setGang r g).owed)).markCheck r)

/-- BPUB_COMPLETION (R209, R244): the registers are read and the cells written now, all in one step: an `mmx` that nothing orders against
them sees all of them or none, where the manual allows some (log entry 131). -/
def execBpubCompletion (r : GangRef) (entry : Nat) (s : State) : Out :=
  .next (match (s.gang r).entry? entry with
  | none => s
  | some e =>
    match e.kind with
    | .bpub slot base off lanes =>
      if e.done then s else
      (s.setGroup r.group ((s.group r.group).publish (s.gang r) slot base off lanes)).entryDone r entry
    | _ => s)

/-! ### Copies and plate operations -/

/-- A side of a copy: scratch of the starter's group, or virtual memory. -/
def State.copyPlace (s : State) (o : Op) (scr : Bool) (need : Need) (a : Nat) : Except (Nat × Nat) Place :=
  if scr then .ok (.scr o.by_.group a)
  else match s.engLoc o.grid need a 1 with
    | .ok l => .ok (.mem l)
    | .error c => .error (c, a)

/-- Byte i of a copy moved (R240). Its accesses of group scratch are accesses to the pages: one that it reads comes back (R267), and one that
is out when it writes there is written in the image (R241). -/
def State.copyByte (s : State) (o : Op) (k : CopyKind) (dst src i : Nat) : Except (Nat × Nat) State :=
  match s.copyPlace o (CopyKind.srcScr k) .read ((src + i) % 2 ^ 64), s.copyPlace o (CopyKind.dstScr k) .write ((dst + i) % 2 ^ 64) with
  | .ok p, .ok q =>
    match (match p with
      | .scr g a => s.touchPage g a true
      | _ => .ok s) with
    | .error a => .error (0x03, a)
    | .ok s1 =>
      let s2 := match q with
        | .scr g a => s1.usePage g (a / 256)
        | _ => s1
      .ok (s2.wrPlace q 0 (s1.rdPlace p 0))
  | .error e, _ => .error e
  | _, .error e => .error e

/-- Element i of a plate operation (R179). -/
def State.pvElem (s : State) (o : Op) (op : PvOp) (t : Ty) (dst : Nat) (src : Option Nat) (const : W64) (i : Nat) :
    Except (Nat × Nat) State :=
  let w := t.width / 8
  let a := (dst + i * w) % 2 ^ 64
  match s.engLoc o.grid .write a w with
  | .error c => .error (c, a)
  | .ok l =>
    let d : W64 := BitVec.ofNat 64 (s.rdLoc l w)
    match src with
    | none => .ok (s.wrLoc l w (pvNew op t d const).toNat)
    | some b =>
      let b' := (b + i * w) % 2 ^ 64
      match s.engLoc o.grid .read b' w with
      | .error c => .error (c, b')
      | .ok l2 => .ok (s.wrLoc l w (pvNew op t d (BitVec.ofNat 64 (s.rdLoc l2 w))).toNat)

/-- Parts of an operation moved, in the order given. -/
def State.moveAll (f : State → Nat → Except (Nat × Nat) State) (s : State) : List Nat → Except (Nat × Nat) State
  | [] => .ok s
  | i :: is =>
    match f s i with
    | .error e => .error e
    | .ok s1 => s1.moveAll f is

/-- What one part of an operation does, and how many parts there are; `none`: no copy and no plate operation. -/
def Op.parts (o : Op) : Option (Nat × (State → Nat → Except (Nat × Nat) State)) :=
  match o.kind with
  | .copy k dst src n => some (n, fun s i => s.copyByte o k dst src i)
  | .pvop op _ t dst src const n => some (n, fun s i => s.pvElem o op t dst src const i)
  | _ => none

/-- An operation that has not reached a final state, and may be at work (R161). -/
def State.atWork (s : State) (o : Op) : Bool := !o.st.final && s.opMayStart o

/-- Parts of an operation moved; the task ends at the first that fails. -/
def State.advance (s : State) (ctx eng num : Nat) (st : OpSt) (is : List Nat) : State :=
  let o := s.op ctx eng num
  match o.parts with
  | none => s
  | some p =>
    match s.moveAll p.2 is with
    | .error e => (s.endTaskOf o.by_ e.1 e.2).failOp ctx eng num
    | .ok s1 => s1.setCtx ctx ((s1.ctx ctx).setOp eng num { o with st := st, moved := o.moved ++ is })

/-- The parts not moved yet. -/
def Op.rest (o : Op) : List Nat :=
  match o.parts with
  | none => []
  | some p => (List.range p.1).filter fun i => !o.moved.contains i

/-- Moves what is left of an operation, and completes it. -/
def State.finishOp (s : State) (ctx eng num : Nat) : State :=
  let o := s.op ctx eng num
  if s.atWork o then s.advance ctx eng num .completed o.rest else s

/-- COPY_COMPLETION (R240): the bytes left are moved, and the ticket completes. -/
def execCopyCompletion (ctx num : Nat) (s : State) : Out := .next (s.finishOp ctx engCopy num)

/-- PVOP_COMPLETION (R179). -/
def execPvopCompletion (ctx num : Nat) (s : State) : Out := .next (s.finishOp ctx engPlate num)

/-! ### An engine's own step -/

/-- One step of an engine on an operation: a batch begins, part `amount` of a copy or plate operation is moved, packets leave, a
collective contributes. -/
def State.engineTurn (s : State) (ctx key amount : Nat) : State :=
  let eng := okeyEng key
  let num := okeyNum key
  let o := s.op ctx eng num
  if eng = engNet then s.netStep ctx num amount
  else if eng = engColl then s.collStep ctx num
  else if !s.atWork o then s
  else if eng = engMatrix then
    (match s.batchAt ctx num with
      | some _ => s.setOpSt ctx eng num .running
      | none => s)
  else if o.rest.contains amount then s.advance ctx eng num .running [amount]
  else s

end Sys2Proof.Machine
end

