-- ==== Sys2Proof/Machine/Control.lean ====
section
/-!
DEFINITION. Control instructions, opcodes 0x00 to 0x0F (R43 to R50, R65, R80 to R85).
-/
namespace Sys2Proof.Machine

/-- `nop` (R80). -/
def execNop (s : State) : Out := issue .nop s fun c => .done c.s 0

/-- `pb` (R65): the enables are sampled, and the next `cnt` + 1 instructions are the slots. -/
def execPb (p : PReg) (cnt : BitVec 3) (pat : Byte) (s : State) : Out :=
  issue (.pb p cnt pat) s fun c =>
    let en := maskOf (c.vis.filter fun L => c.g.preg L p.toNat)
    .done (c.s.setGang c.r { c.g with run := some { c.sp with blk := some ⟨en, pat, cnt.toNat, 0⟩ } }) 0

/-- Lanes of a mask that go to the taken target, and the rest: the paths in the order of HT (R44, R45). A taken target that is the next
instruction is the one target of every lane. -/
def twoWays (ht : Bool) (taken fall : W64) (go rest : W32) : List (W64 × W32) :=
  if taken = fall then [(fall, go ||| rest)]
  else if rest = 0 then [(taken, go)]
  else if go = 0 then [(fall, rest)]
  else if ht then [(taken, go), (fall, rest)] else [(fall, rest), (taken, go)]

/-- The target of a branch: a signed offset from its first parcel (R57). -/
def Cx.target (c : Cx) (off : W32) : W64 := c.sp.pc + sext64 off
/-- The address of the next instruction. -/
def Cx.nextPc (c : Cx) : W64 := c.sp.pc + BitVec.ofNat 64 c.len

/-- `bra` (R81). -/
def execBra (ht : Bool) (off : W32) (s : State) : Out :=
  issue (.bra ht off) s fun c => .jump c.s [(c.target off, c.sp.mask)]

/-- `brp` (R81). -/
def execBrp (ht : Bool) (p : PReg) (off : W32) (s : State) : Out :=
  issue (.brp ht p off) s fun c =>
    let go := maskOf (c.vis.filter fun L => c.g.preg L p.toNat)
    .jump c.s (twoWays ht (c.target off) c.nextPc go (c.sp.mask &&& ~~~go))

/-- Lanes whose slice meets a condition (R81). -/
def Cx.brsLanes (c : Cx) (cc : Cond) (t : Ty) (a : SReg) (b : Nat → W64) : W32 :=
  maskOf (c.vis.filter fun L => condHolds cc (tyVal t (c.sIn (L / 4) a)) (tyVal t (b (L / 4))))

/-- `brs` with two registers (R81). -/
def execBrs (ht : Bool) (cc : Cond) (t : Ty) (a b : SReg) (off : W32) (s : State) : Out :=
  issue (.brs ht cc t a b off) s fun c =>
    let go := c.brsLanes cc t a fun sl => c.sIn sl b
    .jump c.s (twoWays ht (c.target off) c.nextPc go (c.sp.mask &&& ~~~go))

/-- `brs` with an immediate comparand (R81). -/
def execBrsImm (ht : Bool) (cc : Cond) (t : Ty) (a : SReg) (imm off : W32) (s : State) : Out :=
  issue (.brsImm ht cc t a imm off) s fun c =>
    let go := c.brsLanes cc t a fun _ => sext64 imm
    .jump c.s (twoWays ht (c.target off) c.nextPc go (c.sp.mask &&& ~~~go))

/-- Lanes by target, each target once, in the order of the lanes given (R45). -/
def pathsOf (lanes : List Nat) (tgt : Nat → W64) : List (W64 × W32) :=
  (lanes.map tgt).eraseDups.map fun t => (t, maskOf (lanes.filter fun L => tgt L == t))

/-- Each visited lane to its target; a target that is not a multiple of 4 traps before any effect (R82, R83). -/
def Cx.branchEach (c : Cx) (s : State) (down : Bool) (tgt : Nat → W64) : Act :=
  let bad := c.vis.filter fun L => decide ((tgt L).toNat % 4 ≠ 0)
  match bad with
  | L :: _ => .trap 0xD 2 c.sp.pc (tgt L).toNat (maskOf bad)
  | [] => .jump s (pathsOf (if down then c.vis.reverse else c.vis) tgt)

/-- `brx` (R82). -/
def execBrx (ht : Bool) (a : Src) (s : State) : Out :=
  issue (.brx ht a) s fun c =>
    c.branchEach c.s ht fun L => c.sp.pc + sext64 (lo32 (c.g.src false (.lane L) a))

/-- The link register of every selected slice (R83). -/
def Cx.link (c : Cx) (x : W64) : List RegWrite := c.sls.map fun sl => .s sl 61 x

/-- `call` (R83). -/
def execCall (off : W32) (s : State) : Out :=
  issue (.call off) s fun c =>
    .jump (c.s.setGang c.r (c.g.writeRegs (c.link (c.sp.pc + 12)))) [(c.target off, c.sp.mask)]

/-- `callx` (R83): the targets are read before s61 is written. -/
def execCallx (a : SReg) (s : State) : Out :=
  issue (.callx a) s fun c =>
    c.branchEach (c.s.setGang c.r (c.g.writeRegs (c.link (c.sp.pc + 8)))) false fun L => c.sIn (L / 4) a

/-- `ret` (R83). -/
def execRet (s : State) : Out :=
  issue .ret s fun c => c.branchEach c.s false fun L => c.g.sreg (L / 4) 61

/-- Lanes of a gang by number below its width. -/
def widthMask (W : Nat) : W32 := BitVec.ofNat 32 (2 ^ W - 1)

/-- `regang` (R48, R49): a `nop` for the only split when it holds its own cover; otherwise the split parks, which makes it an entry of the
table: from then its age counts, and the oldest entry spills when the table is full (R46; log entry 84). Its windows, which are complete, are
dropped (log entry 124). -/
def execRegang (m : SReg) (s : State) : Out :=
  issue (.regang m) s fun c =>
    let cover := (c.sAct m).setWidth 32 &&& widthMask c.W &&& c.g.live
    if c.g.nsplits = 1 && contains c.sp.mask cover then .done c.s 0
    else
      let (u, s1) := c.s.fresh
      let me : Split := { c.sp with cover := cover, wins := [], wait := .none, born := u }
      let g1 := { c.g.issuedAt s1.tick with run := none, parked := c.g.parked ++ [me] }
      .finished (match (((s1.setGang c.r g1).regroup c.r).chooseSplit c.r).spillOver c.r 64 with
        | .ok s2 => s2
        | .error e => c.noSpill e)

/-- `yield` (R43): nothing but a point at which the gang makes way; it is not ready for one clock. -/
def execYield (s : State) : Out :=
  issue .yield s fun c =>
    let s1 := c.retire c.s 0
    let g := s1.gang c.r
    .finished (s1.setGang c.r { g with run := g.run.map fun x => { x with wait := .nap s1.tick } })

/-- `exit` (R50): the visited lanes end; in a block only the enabled ones (R66). -/
def execExit (s : State) : Out :=
  issue .exit s fun c => .finished (c.exitLanes c.visMask)

/-- `trap` (R85): the frame's pc is the next instruction. -/
def execTrap (k : Byte) (s : State) : Out :=
  issue (.trap k) s fun c => .trap 0xA k.toNat c.nextPc 0 c.sp.mask

/-- `brk` (R85). -/
def execBrk (k : Byte) (s : State) : Out :=
  issue (.brk k) s fun c => .trap 0xB k.toNat c.sp.pc 0 c.sp.mask

/-- Whether `enter n` fails in a slice (R84). -/
def Cx.enterFails (c : Cx) (n : Byte) (sl : Nat) : Bool :=
  let sp := c.g.sreg sl 62
  let lim := c.g.slimOf sl + BitVec.ofNat 64 (16 * c.g.spilledIn sl)
  decide (sp.toNat < 16 * n.toNat) || decide (sp.toNat - 16 * n.toNat < lim.toNat)

/-- `enter` (R84). -/
def execEnter (n : Byte) (s : State) : Out :=
  issue (.enter n) s fun c =>
    let k : W64 := BitVec.ofNat 64 (16 * n.toNat)
    let bad := c.sls.filter fun sl => c.enterFails n sl
    match bad with
    | sl :: _ =>
      .trap 8 0 c.sp.pc (c.g.sreg sl 62 - k).toNat (maskOf (c.vis.filter fun L => bad.contains (L / 4)))
    | [] => c.writes (c.sls.map fun sl => .s sl 62 (c.g.sreg sl 62 - k))

/-- `leave` (R84). -/
def execLeave (n : Byte) (s : State) : Out :=
  issue (.leave n) s fun c =>
    c.writes (c.sls.map fun sl => .s sl 62 (c.g.sreg sl 62 + BitVec.ofNat 64 (16 * n.toNat)))

end Sys2Proof.Machine
end

