-- ==== Sys2Proof/Machine/Enable.lean ====
section
/-!
DEFINITION. Enabling and disabling queues (R336, R340, R362): the checks of the read-only half, and the verification of a batten program.
-/
namespace Sys2Proof.Machine

/-! ### The read-only half (R336) -/

/-- Whether enabling a queue of a partition fails: a field of the read-only half, or the kick word's page. Which queues are a tenant's is free
(log entry 141). A queue serves its own partition, and a context assigned to it (R8; log entry 142). -/
def State.enableFails (s : State) (part q : Nat) (ro : List W64) : Bool :=
  let w (k hi lo : Nat) : Nat := bitsOf (ro.getD k 0).toNat hi lo
  let ctx := w 1 13 8
  let kaddr := (ro.getD 8 0).toNat
  w 0 11 0 != 0 || decide (w 1 4 0 < 4) || decide (16 < w 1 4 0) || w 1 7 5 != 0 || (ctx == 0 && Config.tenantQueue part q) ||
  w 1 15 14 != part || (ctx != 0 && !((s.ctx ctx).asg && (s.ctx ctx).part == part)) || decide (4 ≤ w 1 19 16) ||
  w 1 20 20 != 0 || w 1 63 22 != 0 || w 2 5 0 != 0 || w 3 63 32 != 0 || ((ro.drop 9).any fun x => x != 0) ||
  (kaddr != 0 && (kaddr % 4 != 0 || match s.xlate ctx (ctx == 0) .write kaddr with
    | .ok l => l.host
    | .error _ => true))

/-- The physical address registered for a kick word (R337). -/
def State.kickKey (s : State) (ro : List W64) : Option Nat :=
  let kaddr := (ro.getD 8 0).toNat
  if kaddr = 0 then none else
  let ctx := bitsOf (ro.getD 1 0).toNat 13 8
  match s.xlate ctx (ctx == 0) .write kaddr with
  | .ok l => some l.key
  | .error _ => none

/-! ### The verification (R340)

The image does not say how long its program is: it is taken as 1,024 instructions (log entry 65). -/

/-- An `rpt` body: where it starts and ends, and how often it runs. -/
structure Body where
  lo : Nat
  hi : Nat
  times : Nat
  deriving DecidableEq, Repr

/-- The bodies of a program. -/
def bodiesOf (prog : List W32) : List Body :=
  prog.zipIdx.filterMap fun x => match decodeBatten x.1 with
    | some (.battenRpt t n) => some ⟨x.2 + 1, x.2 + 2 + n.toNat, t.toNat + 1⟩
    | _ => none

def Body.has (b : Body) (i : Nat) : Bool := decide (b.lo ≤ i) && decide (i < b.hi)

/-- Whether an instruction at i breaks rules 1 to 3, or the ranges of rule 5 that no opcode decides; `n` is the program's length. -/
def opBad (bs : List Body) (n i : Nat) (w : W32) : Bool :=
  let branch (imm : BitVec 17) : Bool :=
    imm == 0 || decide (1023 < imm.toNat) || decide (n ≤ i + imm.toNat) ||
    bs.any fun b => b.has i != b.has (i + imm.toNat)
  match decodeBatten w with
  | none => true
  | some (.battenBeq _ _ imm) | some (.battenBne _ _ imm) => branch imm
  | some (.battenLdq _ imm) => decide (31 < imm.toNat)
  | some (.battenStq _ imm) => decide (2 < imm.toNat)
  | some (.battenRpt _ k) =>
    decide (n < i + 2 + k.toNat) || decide (1 < (bs.filter fun b => b.has i).length) ||
    bs.any fun b => b.has i && decide (b.hi < i + 2 + k.toNat)
  | _ => false

/-- Where an instruction can go next: forward only. An `rpt` body's repeats are counted, not walked. -/
def nextsOf (i : Nat) (w : W32) : List Nat :=
  match decodeBatten w with
  | some .battenDone | some (.battenHalt _) => []
  | some (.battenBeq _ _ imm) | some (.battenBne _ _ imm) => [i + 1, i + imm.toNat]
  | _ => [i + 1]

/-- Indices that a handler reaches, from those reached so far, in rising order. -/
def reachFrom : List (W32 × Nat) → List Nat → List Nat
  | [], r => r
  | (w, i) :: rest, r => reachFrom rest (if r.contains i then r ++ (nextsOf i w).filter fun k => !r.contains k else r)

/-- How often an instruction runs at most, its bodies' counts multiplied. -/
def weightOf (bs : List Body) (i : Nat) : Nat := (bs.filter fun b => b.has i).foldl (fun n b => n * b.times) 1

/-- The greatest number of instructions from each index on: a list of costs from index i to the end. -/
def costsFrom (bs : List Body) : List (W32 × Nat) → List Nat
  | [] => []
  | (w, i) :: rest =>
    let cs := costsFrom bs rest
    (weightOf bs i + (nextsOf i w).foldl (fun m k => Nat.max m (cs.getD (k - i - 1) 0)) 0) :: cs

/-- Defined opcodes: handler index and slot count. -/
def handlersOf (table : List W64) : List (Nat × Nat) :=
  table.filterMap fun e =>
    let h := bitsOf e.toNat 15 0
    if h = 0xFFFF then none else some (h, bitsOf e.toNat 17 16 + 1)

/-- Instructions that one handler makes offend: a path that falls off the end, an `ldp` beyond the opcode's slots, the budget. -/
def handlerBad (prog : List W32) (costs : List Nat) (h slots : Nat) : List Nat :=
  let n := prog.length
  let r := reachFrom prog.zipIdx [h]
  (if n ≤ h then [h] else []) ++
  (prog.zipIdx.filterMap fun x =>
    if !r.contains x.2 then none else
    let ldp := match decodeBatten x.1 with
      | some (.battenLdp _ imm) => decide (8 * slots ≤ imm.toNat)
      | _ => false
    if ldp || (nextsOf x.2 x.1).any fun k => decide (n ≤ k) then some x.2 else none) ++
  (if 512 < costs.getD h 0 then [h] else [])

/-- The first offending instruction; `none`: the program is accepted. -/
def firstBad (table : List W64) (prog : List W32) : Option Nat :=
  let bs := bodiesOf prog
  let costs := costsFrom bs prog.zipIdx
  let bad := (prog.zipIdx.filterMap fun x => if opBad bs prog.length x.2 x.1 then some x.2 else none) ++
    (handlersOf table).flatMap fun h => handlerBad prog costs h.1 h.2
  match bad with
  | [] => none
  | b :: rest => some (rest.foldl Nat.min b)

/-! ### The mailbox (R362) -/

/-- Argument i. -/
def State.arg (s : State) (i : Nat) : Nat := (Sparse.get (0 : W64) s.mbArg i).toNat

/-- A command answered: status written, then the command word cleared. -/
def State.mbDone (s : State) (st : W32) : State := { s with mbSt := st, mbCmd := 0 }

/-- Runs a command of the mailbox, when it is the one that stands there. -/
def onMailbox (s : State) (cmd : W32) (f : State) : Out := .next (if s.bst = 3 ∧ s.mbCmd = cmd then f else s)

/-! ### Enabling (R336, R340, R341) -/

/-- A queue as enabling starts it afresh: `cur`, the indices and the rest of the mutable half 0. -/
def freshQueue (cb : W64) (ro : List W64) : Queue := { cb := cb, ro := ro, qst := 1 }

/-- A halted queue resumed: at the halting packet with `retry`, else at the packet after it (R341); `cur` is 0, as at every enabling
(R337). -/
def State.resumed (s : State) (x : Queue) (ro : List W64) : Queue :=
  let y : Queue := { x with ro := ro, it := none }
  let n := match x.it with
    | some it => it.slots
    | none => headerSlots ((s.packetWords y 1).getD 0 0)
  let rd := if y.retry then y.rd else y.rd + BitVec.ofNat 32 n
  { y with rd := rd, cur := 0, qst := if rd = y.wr then 1 else 2 }

/-- The queue that an enabling makes of what stands in memory; with the program's first offending instruction, if any. -/
def State.enabling (s : State) (k : Nat) (cb : W64) (ro : List W64) : Queue × Option Nat :=
  let x := s.queue k
  let y := if x.qst = 4 ∧ x.cb = cb then s.resumed x ro else freshQueue cb ro
  let z := { y with kick := s.kickKey ro }
  if z.progAt = s.stdProg then ({ z with std := true, table := stdTable, prog := [] }, none)
  else
    let table := s.vaWords z.ctx z.progAt.toNat 64
    let prog := (List.range 1024).map fun i => BitVec.ofNat 32 (s.vaRead z.ctx (z.progAt.toNat + 512 + 4 * i) 4)
    ({ z with std := false, table := table, prog := prog }, firstBad table prog)

/-- ENABLE_QUEUE (mailbox command 0x03). -/
def execEnableQueue (s : State) : Out :=
  onMailbox s 3 (
    let part := s.arg 0
    let k := qkey part (s.arg 1)
    let cb := Sparse.get (0 : W64) s.mbArg 2
    if !s.mode.hasPart part ∨ 64 ≤ s.arg 1 then s.mbDone 5 else
    let ro := s.vaWords 0 cb.toNat 16
    if s.enableFails part (s.arg 1) ro then s.mbDone 3 else
    let r := s.enabling k cb ro
    let store (q : Queue) : State := (s.setQueue k q).vaStore 0 (cb.toNat + 0x80) q.mutable
    match r.2 with
    | some i => (store { r.1 with qst := 5, hrsn := 9, hoff := BitVec.ofNat 64 i, it := none, kick := none }).mbDone 4
    | none => (store r.1).mbDone 0)

/-- DISABLE_QUEUE (mailbox command 0x04): a packet in flight completes first. -/
def execDisableQueue (s : State) : Out :=
  onMailbox s 4 (
    let k := qkey (s.arg 0) (s.arg 1)
    let q := s.queue k
    if !s.mode.hasPart (s.arg 0) ∨ 64 ≤ s.arg 1 then s.mbDone 5
    else if q.working then s
    else (s.setQ k { q with qst := 0, it := none, kick := none }).mbDone 0)

end Sys2Proof.Machine
end

