-- ==== Sys2Proof/Machine/Priv.lean ====
section
/-!
DEFINITION. The privileged registers (R297 to R300): one operation reads and one writes, for firmware's `psr` and `pwr` and for the
management core. Operating points (R299, R310), power gating (R319), context assignment (R298).
-/
namespace Sys2Proof.Machine

/-! ### Operating points (R299, R310) -/

/-- The frequency table of a ratio (R310). -/
def inTable (rt fq : Nat) : Bool :=
  match rt with
  | 0 => decide (22 ≤ fq) && decide (fq ≤ 34)
  | 1 => decide (14 ≤ fq) && decide (fq ≤ 26)
  | 2 => decide (8 ≤ fq) && decide (fq ≤ 18)
  | _ => false

/-- A write of `clkctl` (R299): slope when in range; the pair accepted, or denied with a status. -/
def Cluster.clkWrite (c : Cluster) (x : W64) : Cluster :=
  let sl := bitsOf x.toNat 39 32
  let fq := bitsOf x.toNat 15 8
  let rt := bitsOf x.toNat 1 0
  let c1 := if 2 ≤ sl ∧ sl ≤ 32 then { c with slope := sl } else c
  if rt = 3 ∨ fq < 8 then { c1 with st := 1 }
  else if !inTable rt fq then { c1 with st := 2 }
  else { c1 with rt := rt, fq := fq, st := 0, busy := true }

/-- What a read of `clkctl` gives. -/
def Cluster.clkRead (c : Cluster) : W64 :=
  BitVec.ofNat 64 (c.rt + 2 ^ 8 * c.fq + 2 ^ 28 * c.st + 2 ^ 31 * flag c.busy + 2 ^ 32 * c.slope)

/-- A write of `gatectl` (R319): 0 withdraws an intent and starts the waking of a gated cluster. -/
def Cluster.gateWrite (c : Cluster) (now : Nat) (permit : Bool) : Cluster :=
  if permit then { c with gate := true }
  else { c with gate := false,
                pwr := (match c.pwr with
                  | .intent _ => .powered
                  | .gated => .waking now
                  | p => p) }

/-! ### Contexts -/

/-- A group that counts as the context's: resident, suspended or switched out. -/
def State.hasGroups (s : State) (ctx : Nat) : Bool :=
  s.groups.any fun x => x.2.st != .absent && x.2.st != .ended && (s.grid x.2.grid).ctx == ctx

/-- A context assigned to a partition: what R298, R238, R270, R301 and R335 reset at assignment; its generation 0 begins with the tables as
they stand in memory. -/
def Ctx.assigned (c : Ctx) (mem : List Host.Cell) (part : Nat) : Ctx :=
  { imgbase := c.imgbase, imgsz := c.imgsz, ouasz := c.ouasz, noticeen := c.noticeen, out := c.out, asg := true, part := part, tabs := mem }

/-- A write of `ctxasg` (R298): only an assignment resets; filler of a context unassigned is charged to context 0 from then on (R317). -/
def State.ctxasgWrite (s : State) (ctx : Nat) (x : W64) : State :=
  if ctx = 0 ∨ 64 ≤ ctx ∨ s.hasGroups ctx then s
  else
    let c := s.ctx ctx
    if x.getLsbD 31 then s.setCtx ctx (c.assigned s.mem (bitsOf x.toNat 1 0))
    else
      let s1 := s.setCtx ctx { c with asg := false, part := bitsOf x.toNat 1 0 }
      { s1 with clusters := s1.clusters.map fun y => if y.2.dep = ctx then (y.1, { y.2 with dep := 0 }) else y }

/-- A write of `ecnt`: the microjoules, and the remainder cleared (R308). -/
def State.ecntWrite (s : State) (ctx : Nat) (x : W64) : State := s.setCtx ctx { s.ctx ctx with ecnt := x, pj := [] }

/-- A write of `ordctl` (R298). -/
def State.ordctlWrite (s : State) (k : Nat) (x : W64) : State :=
  let p := s.port k
  let s1 := if x.getLsbD 1 && !p.fenced then s.fencePort k
    else if !x.getLsbD 1 && p.fenced then s.readmitPort k else s
  let q := s1.port k
  s1.setPort k { q with enabled := x.getLsbD 0 }

/-! ### The map (R298) -/

/-- Bits [11:0] ignored. -/
def pageMask (x : W64) : W64 := x &&& ~~~(0xFFF : W64)

/-- What a read gives, other than of `slim` and `physlane`, which are the slice's and the lane's own; 0 beyond an index range. -/
def State.privRead (s : State) (core code k : Nat) : W64 :=
  let ok := match privInfo code with
    | some p => (match p.range with
      | some (lo, hi) => decide (lo ≤ k) && decide (k ≤ hi)
      | none => true)
    | none => false
  let c := s.ctx k
  let cl := s.cluster k
  let p := s.port k
  if !ok then 0 else
  match code with
  | 0x000 => c.tvec
  | 0x001 => c.imgbase
  | 0x002 => c.imgsz
  | 0x003 => c.ouasz
  | 0x004 => zext64 c.noticeen
  | 0x005 => BitVec.ofNat 64 (2 ^ 31 * flag c.asg + c.part)
  | 0x008 => BitVec.ofNat 64 core
  | 0x009 => zext64 s.srcid
  | 0x010 => c.ecnt
  | 0x011 => c.fidev
  | 0x012 => c.sqfold
  | 0x013 => c.sqexp
  | 0x014 => c.sqsusp
  | 0x015 => c.linewr
  | 0x016 => c.scrwr
  | 0x017 => c.imgflt
  | 0x020 => (s.core k).oeave
  | 0x021 => (s.core k).ocourse
  | 0x022 => (s.core k).orepeat
  | 0x030 => cl.clkRead
  | 0x031 => zext64 cl.stall
  | 0x032 => BitVec.ofNat 64 (flag cl.gate)
  | 0x038 => zext64 s.pwrlim
  | 0x040 => zext64 s.tsrc
  | 0x041 => zext64 s.fguard
  | 0x042 => zext64 s.fstall
  | 0x043 => zext64 s.ntmo
  | 0x044 => zext64 s.ctmo
  | 0x048 => BitVec.ofNat 64 (2 * flag p.fenced + flag p.enabled)
  | _ => 0

/-- A field within its range, or unchanged. -/
def ranged (lo hi : Nat) (x : W64) (old : W32) : W32 :=
  let v := bitsOf x.toNat 31 0
  if lo ≤ v ∧ v ≤ hi then BitVec.ofNat 32 v else old

/-- The effect of a write, other than of `slim`; none beyond an index range, and none on a register that only reads. -/
def State.privWrite (s : State) (code k : Nat) (x : W64) : State :=
  let ok := match privInfo code with
    | some p => p.writable && (match p.range with
      | some (lo, hi) => decide (lo ≤ k) && decide (k ≤ hi)
      | none => true)
    | none => false
  let c := s.ctx k
  let kc := s.core k
  let cl := s.cluster k
  if !ok then s else
  match code with
  | 0x000 => s.setCtx k { c with tvec := x }
  | 0x001 => s.setCtx k { c with imgbase := pageMask x }
  | 0x002 => s.setCtx k { c with imgsz := pageMask x }
  | 0x003 => s.setCtx k { c with ouasz := pageMask x }
  | 0x004 => s.setCtx k { c with noticeen := lo32 x &&& 6 }
  | 0x005 => s.ctxasgWrite k x
  | 0x009 => if bitsOf x.toNat 18 0 < 400000 then { s with srcid := x.setWidth 19 } else s
  | 0x010 => s.ecntWrite k x
  | 0x011 => s.setCtx k { c with fidev := x }
  | 0x012 => s.setCtx k { c with sqfold := x }
  | 0x013 => s.setCtx k { c with sqexp := x }
  | 0x014 => s.setCtx k { c with sqsusp := x }
  | 0x015 => s.setCtx k { c with linewr := x }
  | 0x016 => s.setCtx k { c with scrwr := x }
  | 0x017 => s.setCtx k { c with imgflt := x }
  | 0x020 => s.setCore k { kc with oeave := x }
  | 0x021 => s.setCore k { kc with ocourse := x }
  | 0x022 => s.setCore k { kc with orepeat := x }
  | 0x030 => s.setCluster k (cl.clkWrite x)
  | 0x032 => s.setCluster k (cl.gateWrite s.now (x.getLsbD 0))
  | 0x038 => let v := bitsOf x.toNat 15 0; if 1 ≤ v ∧ v ≤ 4800 then { s with pwrlim := BitVec.ofNat 16 v } else s
  | 0x040 => let v := bitsOf x.toNat 3 0; if v = 12 ∨ v = 13 then s else { s with tsrc := BitVec.ofNat 4 v }
  | 0x041 => { s with fguard := ranged 100 5000 x s.fguard }
  | 0x042 => { s with fstall := ranged 20 10000 x s.fstall }
  | 0x043 => { s with ntmo := ranged 100 1000000 x s.ntmo }
  | 0x044 => { s with ctmo := ranged 1000 60000000 x s.ctmo }
  | 0x048 => s.ordctlWrite k x
  | _ => s

/-! ### Writes that are events of their own -/

/-- CLKCTL_TARGET_WRITE (R299). -/
def execClkctlTargetWrite (cluster : Nat) (x : W64) (s : State) : Out :=
  .next (if cluster < Config.clusters then s.setCluster cluster ((s.cluster cluster).clkWrite x) else s)

/-- PORT_FENCE (R196). -/
def execPortFence (port : Nat) (s : State) : Out :=
  .next (if port < Config.ports && !(s.port port).fenced then s.fencePort port else s)

/-- PORT_READMIT (R196). -/
def execPortReadmit (port : Nat) (s : State) : Out :=
  .next (if port < Config.ports && (s.port port).fenced then s.readmitPort port else s)

/-- ENERGY_COUNTER_WRITE (R308). -/
def execEnergyCounterWrite (ctx : Nat) (x : W64) (s : State) : Out :=
  .next (if ctx < Config.contexts then s.ecntWrite ctx x else s)

/-- GATECTL_WRITE (R319). -/
def execGatectlWrite (cluster : Nat) (x : W64) (s : State) : Out :=
  .next (if cluster < Config.clusters then
    s.setCluster cluster ((s.cluster cluster).gateWrite s.now (x.getLsbD 0)) else s)

/-- CTXASG_WRITE (R298). -/
def execCtxasgWrite (ctx : Nat) (x : W64) (s : State) : Out := .next (s.ctxasgWrite ctx x)

end Sys2Proof.Machine
end

