-- ==== Sys2Proof/Machine/Fabric.lean ====
section
/-!
DEFINITION. The Purlin fabric: fabric time (R191, R193), watermarks and ordered delivery (R194 to R197), packets that arrive, and what
ends a network or collective operation (R199, R201).
-/
namespace Sys2Proof.Machine

/-! ### Fabric time (R191) -/

/-- A flit sent on a port. -/
def State.flit (s : State) (k : Nat) (m : Flit) : State :=
  let p := s.port k
  s.setPort k { p with msgs := p.msgs ++ [m] }

/-- TSYNC: the package sends its time on every port but its own time source, every 100 µs. -/
def execTsync (s : State) : Out :=
  .next (if s.tsrc = 15 ∨ s.now < s.tsyncTx + 100000 then s else
  let ports := (List.range Config.ports).filter fun k => k != s.tsrc.toNat
  ports.foldl (fun s k => s.flit k (.tsync s.ftime)) { s with tsyncTx := s.now })

/-- TSYNC_RECEIVE: the follower notes t2 and asks at once. -/
def execTsyncReceive (t1 : BitVec 48) (s : State) : Out :=
  .next (if 12 ≤ s.tsrc.toNat then s else
  ({ s with tsync := ⟨t1, s.ftime, s.ftime, true⟩, tsyncAt := s.now, holdover := false }).flit s.tsrc.toNat (.treq s.ftime))

/-- TREQ: answered at once on any port but the package's own time source. -/
def execTreq (port : Nat) (_t3 : BitVec 48) (s : State) : Out :=
  .next (if s.tsrc = 15 ∨ port = s.tsrc.toNat ∨ Config.ports ≤ port then s else s.flit port (.tresp s.ftime))

/-- The follower's offset: its own time minus the source's. Which way half a nanosecond goes is free (log entry 42). -/
def TimeSync.offset (x : TimeSync) (t4 : BitVec 48) : Int :=
  let twice := (x.t2 - x.t1).toInt - (t4 - x.t3).toInt
  twice / 2 + (if twice % 2 ≠ 0 ∧ Config.halfUp twice = true then 1 else 0)

/-- TRESP: more than 1 µs behind, the clock steps forward; otherwise the offset is slewed away. -/
def execTresp (t4 : BitVec 48) (s : State) : Out :=
  .next (if !s.tsync.open_ then s else
  let off := s.tsync.offset t4
  let s1 := { s with tsync := { s.tsync with open_ := false } }
  if off < -1000 then { s1 with ftime := s1.ftime + BitVec.ofInt 48 (-off), slew := 0, slewRem := 0 }
  else { s1 with slew := off, slewRem := 0 })

/-- HOLDOVER: no TSYNC for 10 ms. -/
def execHoldover (s : State) : Out :=
  .next (if 12 ≤ s.tsrc.toNat ∨ s.holdover ∨ s.now < s.tsyncAt + 10000000 then s else
  ({ s with holdover := true }).report 0x06 0 0 0 0 0 (s.ftime.setWidth 64))

/-! ### Watermarks (R194 to R197) -/

/-- A port's watermark advances to W. -/
def Port.mark (p : Port) (w : Stamp) (now : Nat) : Port :=
  if Stamp.before p.wm w then { p with wm := w, wmAt := now, stalled := false } else { p with wm := w }

/-- A time at least 2^46 ns behind another (R193). -/
def farBehind (t now : BitVec 48) : Bool := let d := (now - t).toNat; decide (2 ^ 46 ≤ d) && decide (d ≤ 2 ^ 47 - 1)

/-- ORDERED_PACKET_ARRIVAL (R194, R196): the packet joins its port's queue, or is refused: the port is fenced, or the packet late. -/
def execOrderedPacketArrival (port : Nat) (pkt : Packet) (w : Stamp) (s : State) : Out :=
  .next (if Config.ports ≤ port then s else
  let p := s.port port
  let late := farBehind pkt.stamp.t s.ftime || (match p.floorM with
    | some m => Stamp.before pkt.stamp m
    | none => false)
  let q := p.mark w s.now
  if p.fenced || late then (s.setPort port q).refuseAll [pkt]
  else s.setPort port { q with inq := q.inq ++ [pkt] })

/-- BEACON (R193, R195). -/
def execBeacon (port : Nat) (w : Stamp) (s : State) : Out :=
  .next (if Config.ports ≤ port ∨ farBehind w.t s.ftime ∨ 2 ^ 46 ≤ (w.t - s.ftime).toNat ∧ (w.t - s.ftime).toNat ≤ 2 ^ 47 then s
  else s.setPort port ((s.port port).mark w s.now))

/-- A port's outbound watermark (R195); it never decreases. -/
def State.outMark (s : State) (k : Nat) : Stamp :=
  let p := s.port k
  let w := match p.outq with
    | x :: _ => Stamp.min x.stamp s.boundM
    | [] => s.boundM
  if Stamp.before w p.outW then p.outW else w

/-- BEACON_TIMER (R195): a port silent for 1 µs. -/
def execBeaconTimer (port : Nat) (s : State) : Out :=
  .next (if Config.ports ≤ port then s else
  let p := s.port port
  if !p.enabled || decide (s.now < p.sentAt + 1000) || decide (s.now < p.quietTo) then s else
  let w0 := Stamp.min ⟨s.ftime - s.fguard.setWidth 48, 0, 0⟩ (s.outMark port)
  let w := if Stamp.before w0 p.outW then p.outW else w0
  s.setPort port { p with outW := w, sentAt := s.now, msgs := p.msgs ++ [.beacon w] })

/-! ### Members of a collective in this package (R201) -/

/-- A collective operation of this package: its context, its number, and the operation. -/
structure Member where
  ctx : Nat
  num : Nat
  op : Op
  deriving DecidableEq, Repr

/-- The collectives that grids of a partition have issued for a rank of a member table, in the order of their issue. -/
def State.collsOf (s : State) (part rank : Nat) (tbl : List W32) : List Member :=
  (s.ctxs.flatMap fun c => c.2.ops.filterMap fun x => match x.2.kind with
    | .coll _ _ _ d t _ =>
      if okeyEng x.1 = engColl ∧ (s.grid x.2.grid).part = part ∧ !d.isEmpty ∧ t = tbl ∧ collRank d = rank
      then some (⟨c.1, okeyNum x.1, x.2⟩ : Member) else none
    | _ => none).foldl (fun l x =>
      l.takeWhile (fun y => decide (y.op.at_ ≤ x.op.at_)) ++ x :: l.dropWhile fun y => decide (y.op.at_ ≤ x.op.at_)) []

/-- The parameters that every member must give alike: kind, type, count, operation, number of members. -/
def OpKind.collKey : OpKind → Option (CollKind × Ty × Nat × Nat × Nat)
  | .coll k t _ d _ _ => .some (k, t, collCnt d, collOp d, collM d)
  | _ => .none

/-- A member's target word, if it names this package. -/
def State.collHere (s : State) (tbl : List W32) (r : Nat) : Option Nat :=
  let w := (tbl.getD r 0).toNat
  if bitsOf w 31 21 = 0 ∧ bitsOf w 18 0 = s.srcid.toNat then some (bitsOf w 20 19) else none

/-- The operations of a collective's other members in this package that have been issued. Which of the collectives over one member table belong
together the manual does not say: each member's n-th meets the others' n-th (log entry 148). -/
def State.collPeers (s : State) (o : Op) : List Member :=
  match o.kind with
  | .coll _ _ _ d tbl _ =>
    let mine := match s.collHere tbl (collRank d) with
      | some p => s.collsOf p (collRank d) tbl
      | none => []
    let n := mine.findIdx fun x => x.op.stamp == o.stamp
    (List.range (collM d)).filterMap fun r =>
      if r = collRank d then none else (s.collHere tbl r).bind fun p => (s.collsOf p r tbl)[n]?
  | _ => []

/-- The contributions of a collective's other members in this package. One whose ticket has failed agrees with none: the collective has failed. -/
def State.collLocal (s : State) (o : Op) : List Contrib :=
  (s.collPeers o).filterMap fun x => match x.op.kind, x.op.stamp with
    | .coll _ _ _ d _ snd, some st =>
      some ⟨collRank d, st, snd, x.op.kind.collKey == o.kind.collKey && (x.op.st == .running || x.op.st == .completed)⟩
    | _, _ => none

/-- The contributions that have arrived for a collective: of the members in this package, and of the others, which have come for one of those
(the first of each rank counts). -/
def State.collIn (s : State) (o : Op) : List Contrib :=
  s.collLocal o ++ (o.heard ++ (s.collPeers o).flatMap fun x => x.op.heard).foldl
    (fun l c => if l.any (fun y => y.rank == c.rank) then l else l ++ [c]) []

/-- Bytes that rank r contributes. -/
def collLen (k : CollKind) (t : Ty) (d : List W64) (r : Nat) : Nat :=
  let n := collCnt d * (t.width / 8)
  match k with
  | .pbar => 0
  | .bcst => if r = collRoot d then n else 0
  | _ => n

/-- Whether a contribution is one of a member: its rank, and, where it agrees with this member's, its bytes. -/
def collFits (k : CollKind) (t : Ty) (d : List W64) (c : Contrib) : Bool :=
  decide (c.rank < collM d) && (!c.agrees || c.data.length == collLen k t d c.rank)

/-- Whether the contributions of a collective's other members are all there, each once, with as many bytes as agreed. -/
def collWhole (k : CollKind) (t : Ty) (d : List W64) (cs : List Contrib) : Bool :=
  cs.length + 1 == collM d && cs.all (fun c => decide (c.rank < collM d) && c.rank != collRank d && c.data.length == collLen k t d c.rank) &&
    (cs.map Contrib.rank).eraseDups.length == cs.length

/-- The latest of some stamps. -/
def latestStamp (l : List Stamp) (x : Stamp) : Stamp := l.foldl (fun m y => if Stamp.before m y then y else m) x

/-- Whether an ordered packet stamped above a stamp has been delivered. -/
def State.passed (s : State) (x : Stamp) : Bool := s.lastDel.any (Stamp.before x)

/-- The largest contribution stamp of a collective all of whose members agree, and have contributed. -/
def State.collStamp (s : State) (o : Op) : Option Stamp :=
  match o.kind, o.stamp with
  | .coll k t _ d _ _, some st =>
    let cs := s.collIn o
    if cs.all Contrib.agrees && collWhole k t d cs then some (latestStamp (cs.map Contrib.stamp) st) else none
  | _, _ => none

/-- Whether an ordered collective of this package has every contribution, all stamped before a stamp: its writes come first. -/
def State.collBefore (s : State) (m : Stamp) : Bool :=
  s.ctxs.any fun c => c.2.ops.any fun x => match x.2.kind with
    | .coll _ _ _ d _ _ =>
      okeyEng x.1 == engColl && x.2.st == .running && collOrd d && (s.collStamp x.2).any fun l => Stamp.before l m
    | _ => false

/-- A packet delivered: applied here, or queued for the port on its route (R194). -/
def State.delivered (s : State) (p : Packet) : State :=
  let s1 := { s with lastDel := some p.stamp }
  if p.pkg = s1.srcid then s1.arrive p
  else
    let k := Config.route p.pkg % 12
    let q := s1.port k
    s1.setPort k { q with outq := q.outq ++ [p] }

/-- ORDERED_DELIVERY (R194); an ordered collective's writes come before the packets stamped above it (R201). -/
def execOrderedDelivery (s : State) : Out :=
  let m := s.boundM
  .next (if s.collBefore m then s else match s.localq with
  | x :: rest =>
    if x.stamp = m then ({ s with localq := rest }).delivered x
    else fromPorts m
  | [] => fromPorts m)
where
  /-- The packet with stamp m at the head of a port's queue. -/
  fromPorts (m : Stamp) : State :=
    match s.orderedPorts.find? fun k => ((s.port k).inq.head?.map Packet.stamp) == some m with
    | none => s
    | some k =>
      let p := s.port k
      match p.inq with
      | x :: rest => (s.setPort k { p with inq := rest }).delivered x
      | [] => s

/-- WATERMARK_STALL (R196): told to the partition that owns the port (R6, R307). -/
def execWatermarkStall (port : Nat) (s : State) : Out :=
  .next (if !s.orderedPorts.contains port then s else
  let p := s.port port
  if p.stalled || decide (s.now < p.wmAt + 1000 * s.fstall.toNat) then s else
  (s.setPort port { p with stalled := true }).report 0x05 port 0 0 (s.mode.partOf (portDie port)) 0 (p.wm.t.setWidth 64))

/-- LANE_SHEDDING (R197): the port changes width and is silent for at most 2 µs; how long the manual leaves open. -/
def execLaneShedding (port lanes : Nat) (s : State) : Out :=
  .next (if Config.ports ≤ port ∨ !([1, 2, 4].contains lanes) ∨ lanes = (s.port port).lanes then s else
  s.setPort port { s.port port with lanes := lanes, quietTo := s.now + Config.turnChoice s.tick % 2001 })

/-! ### Unordered packets, answers and time limits (R199) -/

/-- UNORDERED_PACKET_ARRIVAL: a packet from outside, or one that this package sent to itself. One for another package goes on. -/
def execUnorderedPacketArrival (pkt : Packet) (s : State) : Out :=
  .next (if pkt.pkg ≠ s.srcid then (if pkt.src = s.srcid then s else { s with outbox := s.outbox ++ [pkt] })
  else if pkt.src = s.srcid then
    (if s.outbox.contains pkt then ({ s with outbox := s.outbox.erase pkt }).arrive pkt else s)
  else s.arrive pkt)

/-- Whether everything that an operation sends has been sent. -/
def Op.sent (o : Op) : Bool :=
  match o.kind with
  | .put _ _ _ _ n => decide (n ≤ o.pos)
  | .get .. | .natm .. => o.pos != 0
  | _ => false

/-- An operation's target word. -/
def OpKind.target : OpKind → W64
  | .put _ t _ _ _ | .get t _ _ | .natm _ _ t _ _ _ => t
  | _ => 0

/-- PACKET_REFUSAL (R196, R199): an answer from another package; the ticket fails. -/
def execPacketRefusal (ctx num : Nat) (s : State) : Out :=
  let o := s.op ctx engNet num
  .next (if o.pos != 0 && tgtPkg o.kind.target != s.srcid then s.failOp ctx engNet num else s)

/-- NETWORK_ACK (R199, R201): the other package has applied and acknowledged every packet. -/
def execNetworkAck (ctx num : Nat) (value : W64) (s : State) : Out :=
  let c := s.ctx ctx
  let o := c.op engNet num
  .next (if o.st == .running && o.sent && tgtPkg o.kind.target != s.srcid then
    (s.setCtx ctx (c.setOp engNet num { o with val := value })).finalOp ctx engNet num .completed else s)

/-- NETWORK_TIMEOUT (R199). -/
def execNetworkTimeout (ctx num : Nat) (s : State) : Out :=
  let o := s.op ctx engNet num
  .next (if o.st == .running && decide (o.t0 + 1000 * s.ntmo.toNat ≤ s.now) then s.failOp ctx engNet num else s)

/-! ### Collectives (R201) -/

/-- Numbers of w bytes from a list of bytes; `n` of them. -/
def elements (w : Nat) : Nat → List Byte → List Nat
  | 0, _ => []
  | n + 1, bs => leNat (bs.take w) :: elements w n (bs.drop w)

/-- The bytes of a number, lowest first. -/
def leBytes (x : Nat) : Nat → List Byte
  | 0 => []
  | n + 1 => BitVec.ofNat 8 x :: leBytes (x / 256) n

/-- The least power of two at or above m, as an exponent; `n` bounds it. -/
def ceilLog (m : Nat) : Nat → Nat
  | 0 => 0
  | n + 1 => if m ≤ 1 then 0 else 1 + ceilLog ((m + 1) / 2) n

/-- One element of a reduction: the tree of R123 over the ranks, W the least power of two at or above M. -/
def reduceElem (op : Comb) (t : Ty) (M : Nat) (xs : List Nat) : Nat :=
  let slots := (List.range (2 ^ ceilLog M 20)).map fun r => if r < M then xs[r]? else none
  (redTree (combine op .rne t) 20 slots).1.getD 0

/-- The start of rank r's share of n elements. -/
def shareAt (M n r : Nat) : Nat := if n % M = 0 then r * (n / M) else if M ≤ r then n else Nat.min n (Config.shareStart n M r)

/-- What a member receives: contributions in rank order. -/
def collResult (k : CollKind) (t : Ty) (d : List W64) (cs : List (List Byte)) : List Byte :=
  let M := collM d
  let n := collCnt d
  let w := t.width / 8
  let rows := cs.map fun b => elements w n b
  let op := (combOf (collOp d)).getD .add
  let red (a b : Nat) : List Byte :=
    ((List.range b).drop a).flatMap fun i => leBytes (reduceElem op t M (rows.map fun r => r.getD i 0)) w
  match k with
  | .ared => red 0 n
  | .rscat => red (shareAt M n (collRank d)) (shareAt M n (collRank d + 1))
  | .agath => cs.flatten
  | .bcst => cs.getD (collRoot d) []
  | .pbar => []

/-- Bytes that a collective writes at each member. -/
def collBytes (k : CollKind) (t : Ty) (d : List W64) : Nat :=
  let n := collCnt d * (t.width / 8)
  match k with
  | .ared | .bcst => n
  | .rscat => (shareAt (collM d) (collCnt d) (collRank d + 1) - shareAt (collM d) (collCnt d) (collRank d)) * (t.width / 8)
  | .agath => collM d * n
  | .pbar => 0

/-- Bytes written where the engine may write; the code and address of the first that fails. -/
def State.engWrite (s : State) (grid a : Nat) : List Byte → Except (Nat × Nat) State
  | [] => .ok s
  | b :: bs =>
    match s.engLoc grid .write a 1 with
    | .error c => .error (c, a)
    | .ok l => (s.wrLoc l 1 b.toNat).engWrite grid ((a + 1) % 2 ^ 64) bs

/-- A collective fails: its receive buffer holds no stated value. -/
def State.collFail (s : State) (ctx num : Nat) (o : Op) : State :=
  let s1 := match o.kind with
    | .coll k t _ d _ _ =>
      let bs := (List.range (collBytes k t d)).map fun i => Config.freeByte (s.tick + i)
      match s.engWrite o.grid (d.getD 1 0).toNat bs with
      | .ok s1 => s1
      | .error _ => s
    | _ => s
  s1.finalOp ctx engColl num .failed

/-- A collective fails: every member's ticket in this package, of those that still run (R201). -/
def State.collFailAll (s : State) (ctx num : Nat) (o : Op) : State :=
  ((⟨ctx, num, o⟩ : Member) :: s.collPeers o).foldl (fun s x =>
    if (s.op x.ctx engColl x.num).st == .running then s.collFail x.ctx x.num x.op else s) s

/-- The stamp of a collective that may complete now: an ordered one's writes take their place among the ordered operations (log entry 98). -/
def State.collMay (s : State) (o : Op) : Option Stamp :=
  match o.kind with
  | .coll _ _ _ d _ _ => (s.collStamp o).filter fun l => !(collOrd d && (s.passed l || Stamp.before s.boundM l))
  | _ => none

/-- COLLECTIVE_COMPLETION (R201): the contributions that the fabric brings from members in other packages are noted, and when every member has
contributed, those in this package by their own operations, the collective completes (log entry 133). A contribution to an ordered one that
delivery has passed comes too late to count (R196). One that differs in count, operation, type,
kind, M or member table fails every ticket. -/
def execCollectiveCompletion (ctx num : Nat) (cs : List Contrib) (s0 : State) : Out :=
  let o0 := s0.op ctx engColl num
  .next (match o0.kind, o0.stamp with
  | .coll k t _ d tbl snd, some st =>
    if o0.st != .running then s0 else
    let o := { o0 with heard := o0.heard ++ cs.filter fun c =>
      (s0.collHere tbl c.rank).isNone && collFits k t d c && !(collOrd d && s0.passed c.stamp) }
    let s := s0.setCtx ctx ((s0.ctx ctx).setOp engColl num o)
    let all := s.collIn o
    if all.any fun c => !c.agrees then s.collFailAll ctx num o else
    match s.collMay o with
    | none => s
    | some latest =>
      let rows := (List.range (collM d)).map fun r =>
        if r = collRank d then snd else ((all.find? fun c => c.rank == r).map Contrib.data).getD []
      match s.engWrite o.grid (d.getD 1 0).toNat (collResult k t d rows) with
      | .error e => (s.endTaskOf o.by_ e.1 e.2).finalOp ctx engColl num .failed
      | .ok s1 =>
        let skew := if collSk d then leBytes (latest.t - st.t).toNat 8 else []
        match s1.engWrite o.grid (d.getD 6 0).toNat skew with
        | .error e => (s1.endTaskOf o.by_ e.1 e.2).finalOp ctx engColl num .failed
        | .ok s2 => s2.finalOp ctx engColl num .completed
  | _, _ => s0)

/-- COLLECTIVE_TIMEOUT (R201): a member has not arrived in time, and every ticket fails. -/
def execCollectiveTimeout (ctx num : Nat) (s : State) : Out :=
  let o := s.op ctx engColl num
  .next (if o.st == .running && decide (o.t0 + 1000 * s.ctmo.toNat ≤ s.now) && (s.collStamp o).isNone then s.collFailAll ctx num o else s)

/-! ### Time passes -/

/-- What leaves a port as time passes: its ordered packets, in stamp order, unless it is silent (R197), and its flits. -/
def Port.drain (p : Port) (now : Nat) (mark : Stamp) : Port :=
  if now < p.quietTo then p
  else if p.outq.isEmpty then { p with msgs := [] }
  else { p with outq := [], msgs := [], outW := mark, sentAt := now }

/-- The correction of fabric time when n nanoseconds have passed since the slew was set or last corrected: at most 0.05 %, one nanosecond in
2,000 (R191). -/
def slewStep (slew : Int) (n : Nat) : Int :=
  let lim : Int := n / 2000
  if 0 ≤ slew then min slew lim else max slew (-lim)

end Sys2Proof.Machine
end

