-- ==== Sys2Proof/Machine/Hash.lean ====
section
/-!
DEFINITION. The fixed functions that the boot ROM uses (R360, R361): SHAKE256 of FIPS 202, and the verification of SLH-DSA-SHAKE-256s of
FIPS 205 in pure mode with an empty context string. The manual names both by their standards, from which they are taken (log entry 9).
-/
namespace Sys2Proof.Machine

/-! ### Keccak-f[1600] and SHAKE256 (FIPS 202) -/

/-- A lane of the state, x + 5 · y. -/
def laneAt (a : List W64) (x y : Nat) : W64 := a.getD (x % 5 + 5 * (y % 5)) 0

/-- The rotation of each lane. -/
def keccakRot : List Nat :=
  [0, 1, 62, 28, 27, 36, 44, 6, 55, 20, 3, 10, 43, 25, 39, 41, 45, 15, 21, 8, 18, 2, 61, 56, 14]

/-- The constant of each round. -/
def keccakRc : List W64 :=
  [0x0000000000000001, 0x0000000000008082, 0x800000000000808A, 0x8000000080008000, 0x000000000000808B, 0x0000000080000001,
   0x8000000080008081, 0x8000000000008009, 0x000000000000008A, 0x0000000000000088, 0x0000000080008009, 0x000000008000000A] ++
  [0x000000008000808B, 0x800000000000008B, 0x8000000000008089, 0x8000000000008003, 0x8000000000008002, 0x8000000000000080,
   0x000000000000800A, 0x800000008000000A, 0x8000000080008081, 0x8000000000008080, 0x0000000080000001, 0x8000000080008008]

/-- One round: theta, rho and pi, chi, iota. -/
def keccakRound (a : List W64) (rc : W64) : List W64 :=
  let c := (List.range 5).map fun x => laneAt a x 0 ^^^ laneAt a x 1 ^^^ laneAt a x 2 ^^^ laneAt a x 3 ^^^ laneAt a x 4
  let d := (List.range 5).map fun x => c.getD ((x + 4) % 5) 0 ^^^ (c.getD ((x + 1) % 5) 0).rotateLeft 1
  let e := a.zipIdx.map fun v => (v.1 ^^^ d.getD (v.2 % 5) 0).rotateLeft (keccakRot.getD v.2 0)
  let b := (List.range 25).map fun i => laneAt e (i % 5 + 3 * (i / 5)) (i % 5)
  let f := (List.range 25).map fun i =>
    laneAt b (i % 5) (i / 5) ^^^ (~~~laneAt b (i % 5 + 1) (i / 5) &&& laneAt b (i % 5 + 2) (i / 5))
  (f.headD 0 ^^^ rc) :: f.drop 1

/-- The permutation. -/
def keccak (a : List W64) : List W64 := keccakRc.foldl keccakRound a

/-- A lane from eight bytes, lowest first. -/
def laneOf (bs : List Byte) : W64 := bs.foldr (fun b x => (x <<< 8) ||| b.setWidth 64) 0

/-- The bytes of a lane. -/
def laneBytes (x : W64) : List Byte := (List.range 8).map fun i => (x >>> (8 * i)).setWidth 8

/-- The message with its padding: a whole number of blocks of 136 bytes. -/
def shakePad (m : List Byte) : List Byte :=
  let q := 136 - m.length % 136
  m ++ (if q = 1 then [0x9F] else 0x1F :: List.replicate (q - 2) 0 ++ [0x80])

/-- `n` blocks absorbed. -/
def absorb : Nat → List Byte → List W64 → List W64
  | 0, _, a => a
  | n + 1, m, a =>
    let block := (List.range 25).map fun i => if i < 17 then laneOf ((m.drop (8 * i)).take 8) else 0
    absorb n (m.drop 136) (keccak ((a.zip block).map fun x => x.1 ^^^ x.2))

/-- SHAKE256 with n bytes of output, at most 136. -/
def shake (n : Nat) (m : List Byte) : List Byte :=
  ((absorb (m.length / 136 + 1) (shakePad m) (List.replicate 25 0)).flatMap laneBytes).take n

/-- A number from bytes, lowest first. -/
def bytesVal (bs : List Byte) : Nat := bs.foldr (fun b n => b.toNat + 256 * n) 0

/-- A SHAKE256 output of 64 bytes as a value. -/
def shake256 (m : List Byte) : BitVec 512 := BitVec.ofNat 512 (bytesVal (shake 64 m))

/-! ### SLH-DSA-SHAKE-256s (FIPS 205): n = 32, h = 64, d = 8, a = 14, k = 22, w = 16 -/

/-- A number as n bytes, highest first. -/
def beBytes (n x : Nat) : List Byte := (List.range n).map fun i => BitVec.ofNat 8 (x / 2 ^ (8 * (n - 1 - i)))

/-- A number from bytes, highest first. -/
def beVal (bs : List Byte) : Nat := bs.foldl (fun n b => 256 * n + b.toNat) 0

/-- An address: layer, tree, type, key pair, and the two words that the type gives their meaning. -/
structure Adrs where
  layer : Nat
  tree : Nat
  type : Nat
  kp : Nat
  a : Nat := 0
  b : Nat := 0

def Adrs.bytes (x : Adrs) : List Byte :=
  beBytes 4 x.layer ++ beBytes 12 x.tree ++ beBytes 4 x.type ++ beBytes 4 x.kp ++ beBytes 4 x.a ++ beBytes 4 x.b

/-- F, H and T: the hash of a message under a key seed and an address. -/
def slhHash (seed : List Byte) (x : Adrs) (m : List Byte) : List Byte := shake 32 (seed ++ x.bytes ++ m)

/-- Part i of a list of 32-byte strings. -/
def part32 (bs : List Byte) (i : Nat) : List Byte := (bs.drop (32 * i)).take 32

/-- Digits of b bits, the highest first; `n` of them. -/
def digitsOf (b n : Nat) (bs : List Byte) : List Nat :=
  let v := beVal bs
  (List.range n).map fun i => v / 2 ^ (8 * bs.length - b * (i + 1)) % 2 ^ b

/-- The root of a Merkle tree of height z from a leaf, its index and its authentication path; `adr z i` addresses node i of height z. -/
def merkle (seed : List Byte) (adr : Nat → Nat → Adrs) (auth : List Byte) (z : Nat) (leaf : List Byte) (i : Nat) : List Byte :=
  (List.range z).foldl (fun x k =>
    let s := part32 auth k
    slhHash seed (adr (k + 1) (i / 2 ^ (k + 1))) (if i / 2 ^ k % 2 = 0 then x ++ s else s ++ x)) leaf

/-- A hash chain from step i on, for s steps. -/
def wotsChain (seed : List Byte) (x : Adrs) (i s : Nat) (m : List Byte) : List Byte :=
  (List.range s).foldl (fun m j => slhHash seed { x with b := i + j } m) m

/-- The digits that a one-time signature signs: 64 of the message, 3 of its checksum. -/
def wotsDigits (m : List Byte) : List Nat :=
  let ds := digitsOf 4 64 m
  ds ++ digitsOf 4 3 (beBytes 2 (16 * (ds.foldl (fun n x => n + (15 - x)) 0)))

/-- The one-time public key that a signature gives. -/
def wotsPk (seed sig m : List Byte) (layer tree kp : Nat) : List Byte :=
  slhHash seed ⟨layer, tree, 1, kp, 0, 0⟩ ((wotsDigits m).zipIdx.flatMap fun x =>
    wotsChain seed ⟨layer, tree, 0, kp, x.2, 0⟩ x.1 (15 - x.1) (part32 sig x.2))

/-- The root of one tree of the hypertree. -/
def xmssRoot (seed sig m : List Byte) (layer tree leaf : Nat) : List Byte :=
  merkle seed (fun z i => ⟨layer, tree, 2, 0, z, i⟩) (sig.drop (32 * 67)) 8 (wotsPk seed sig m layer tree leaf) leaf

/-- The root of the hypertree: layer by layer. -/
def hyperRoot (seed sig m : List Byte) (tree leaf : Nat) : List Byte :=
  (List.range 8).foldl (fun x j =>
    xmssRoot seed (sig.drop (32 * 75 * j)) x j (tree / 2 ^ (8 * j))
      (if j = 0 then leaf else tree / 2 ^ (8 * (j - 1)) % 256)) m

/-- The few-time public key that a signature gives. -/
def forsPk (seed sig md : List Byte) (tree kp : Nat) : List Byte :=
  slhHash seed ⟨0, tree, 4, kp, 0, 0⟩ ((digitsOf 14 22 md).zipIdx.flatMap fun x =>
    let own := sig.drop (32 * 15 * x.2)
    let at_ (z i : Nat) : Adrs := ⟨0, tree, 3, kp, z, x.2 * 2 ^ (14 - z) + i⟩
    merkle seed at_ (own.drop 32) 14 (slhHash seed (at_ 0 x.1) (part32 own 0)) x.1)

/-- Whether a signature of a message verifies under a public key, with an empty context string. -/
def slhVerify (pk m sig : List Byte) : Bool :=
  let seed := part32 pk 0
  let dg := shake 47 (part32 sig 0 ++ pk ++ 0 :: 0 :: m)
  let tree := beVal ((dg.drop 39).take 7)
  let leaf := beVal ((dg.drop 46).take 1)
  let fors := forsPk seed (sig.drop 32) (dg.take 39) tree leaf
  decide (sig.length = 29792) && hyperRoot seed (sig.drop (32 * 331)) fors tree leaf == part32 pk 1

end Sys2Proof.Machine
end

