-- ==== Sys2Proof/Machine/HostLink.lean ====
section
/-!
DEFINITION. The Hexesh Link (R355 to R359, R362, R363) and bring-up (R360, R361): the host's apertures, DMA, the boot ROM, the mailbox.
-/
namespace Sys2Proof.Machine

/-! ### The control aperture (R355, R360) -/

/-- All ones, 8 or 4 bytes wide. -/
def onesOf (wide : Bool) : W64 := if wide then BitVec.allOnes 64 else 0xFFFFFFFF

/-- A half of a 64-bit register replaced. -/
def setHalf (x : W64) (hi : Bool) (w : W32) : W64 :=
  if hi then BitVec.ofNat 64 (x.toNat % 2 ^ 32 + 2 ^ 32 * w.toNat) else BitVec.ofNat 64 (x.toNat / 2 ^ 32 * 2 ^ 32 + w.toNat)

/-- A 32-bit half of a 64-bit value. -/
def half (x : W64) (hi : Bool) : W32 := BitVec.ofNat 32 (if hi then x.toNat / 2 ^ 32 else x.toNat)

/-- A write of w to a DMA channel's `tail`, by the window rule of R337. -/
def Dma.tailWrite (d : Dma) (w : W32) : Dma :=
  let n := (w - d.tail).toNat
  if 1 ≤ n ∧ n ≤ 2 ^ 31 - 1 then { d with tail := w } else d

/-- A write of `dlen` (R360): the doorbell while the ROM awaits an image, ignored while it verifies. -/
def State.dlenWrite (s : State) (x : W32) : State :=
  if s.bst = 2 then s
  else if s.bst = 1 then
    if 4096 ≤ x.toNat ∧ x.toNat ≤ 67108864 then { s with dlen := x, bst := 2 } else { s with dlen := x, brsn := 1 }
  else { s with dlen := x }

/-- What an aligned 32-bit word of the control aperture reads. An offset in a listed page at which no field stands reads as all ones, like an
unlisted one: the model's choice (log entry 156). -/
def State.ctlRead (s : State) (off : Nat) : W32 :=
  let hi := off % 8 = 4
  let meas (m : BitVec 512) : W32 := BitVec.ofNat 32 (m.toNat / 2 ^ (8 * ((off - 0x40) % 64)))
  if off < 0x1000 then
    if off = 0 then BitVec.ofNat 32 (s.bst + 256 * s.brsn)
    else if off = 8 then s.dlen
    else if 0x40 ≤ off ∧ off < 0x80 then meas s.m0
    else if 0x80 ≤ off ∧ off < 0xC0 then meas s.m1
    else if 0xC0 ≤ off ∧ off < 0x100 then meas s.m2
    else if 0x100 ≤ off ∧ off < 0x140 then meas s.m3
    else if off = 0x200 then s.mbCmd
    else if off = 0x204 then s.mbSt
    else if 0x208 ≤ off ∧ off < 0x240 then half (Sparse.get 0 s.mbArg ((off - 0x208) / 8)) hi
    else BitVec.allOnes 32
  else if off < 0x5000 then
    if off % 0x1000 < 0x100 then (s.queue (qkey (off / 0x1000 - 1) (off % 0x1000 / 4))).cur else BitVec.allOnes 32
  else if off < 0x5800 then
    let e : WinEntry := Sparse.get {} s.win ((off - 0x5000) / 32)
    half ([e.hoff, e.vbase, e.len, e.ctl].getD (off % 32 / 8) 0) hi
  else if 0x6000 ≤ off ∧ off < 0x7000 then
    let e : IntEntry := Sparse.get {} s.intr ((off - 0x6000) / 16)
    [half e.addr false, half e.addr true, e.data, e.mask].getD (off % 16 / 4) 0
  else if 0x8000 ≤ off ∧ off < 0x8200 then
    let d : Dma := Sparse.get {} s.dma ((off - 0x8000) / 64)
    match (off - 0x8000) % 64 with
    | 0x00 => half d.ring false
    | 0x04 => half d.ring true
    | 0x08 => BitVec.ofNat 32 (d.lsz + 256 * d.err)
    | 0x10 => d.head
    | 0x18 => d.tail
    | _ => BitVec.allOnes 32
  else BitVec.allOnes 32

/-- A 32-bit write at an aligned offset of the control aperture; ignored where nothing is listed, or the host only reads. -/
def State.ctlWrite (s : State) (off : Nat) (w : W32) : State :=
  let hi := off % 8 = 4
  if off < 0x1000 then
    if off = 8 then s.dlenWrite w
    else if off = 0x200 then if s.mbCmd = 0 then { s with mbCmd := w } else s
    else if off = 0x204 then { s with mbSt := w }
    else if 0x208 ≤ off ∧ off < 0x240 then
      let i := (off - 0x208) / 8
      { s with mbArg := Sparse.set 0 s.mbArg i (setHalf (Sparse.get 0 s.mbArg i) hi w) }
    else s
  else if off < 0x5000 then
    if off % 0x1000 < 0x100 then s.kickQueue (qkey (off / 0x1000 - 1) (off % 0x1000 / 4)) w else s
  else if off < 0x5800 then
    let i := (off - 0x5000) / 32
    let e : WinEntry := Sparse.get {} s.win i
    let e' : WinEntry := match off % 32 / 8 with
      | 0 => { e with hoff := setHalf e.hoff hi w }
      | 1 => { e with vbase := setHalf e.vbase hi w }
      | 2 => { e with len := setHalf e.len hi w }
      | _ => { e with ctl := setHalf e.ctl hi w }
    { s with win := Sparse.put s.win i e' }
  else if 0x6000 ≤ off ∧ off < 0x7000 then
    let i := (off - 0x6000) / 16
    let e : IntEntry := Sparse.get {} s.intr i
    let e' : IntEntry := match off % 16 / 4 with
      | 0 => { e with addr := setHalf e.addr false w }
      | 1 => { e with addr := setHalf e.addr true w }
      | 2 => { e with data := w }
      | _ => { e with mask := w }
    { s with intr := Sparse.put s.intr i e' }
  else if 0x8000 ≤ off ∧ off < 0x8200 then
    let i := (off - 0x8000) / 64
    let d : Dma := Sparse.get {} s.dma i
    match (off - 0x8000) % 64 with
    | 0x00 => { s with dma := Sparse.put s.dma i { d with ring := setHalf d.ring false w } }
    | 0x04 => { s with dma := Sparse.put s.dma i { d with ring := setHalf d.ring true w } }
    | 0x08 => { s with dma := Sparse.put s.dma i { d with lsz := w.toNat % 32 } }
    | 0x18 => { s with dma := Sparse.put s.dma i (d.tailWrite w) }
    | _ => s
  else s

/-- A host access of the control aperture, 8 or 4 bytes wide: an 8-byte one is two words, the lower first. -/
def State.ctlLoad (s : State) (off : Nat) (wide : Bool) : W64 :=
  if wide then BitVec.ofNat 64 ((s.ctlRead off).toNat + 2 ^ 32 * (s.ctlRead (off + 4)).toNat)
  else BitVec.ofNat 64 (s.ctlRead off).toNat

def State.ctlStore (s : State) (off : Nat) (wide : Bool) (x : W64) : State :=
  if wide then (s.ctlWrite off (half x false)).ctlWrite (off + 4) (half x true) else s.ctlWrite off (half x false)

/-- Whether an access is naturally aligned (R355). -/
def aligned (off : Nat) (wide : Bool) : Bool := off % (if wide then 8 else 4) == 0

/-- A host write to the control aperture, while the link is up. -/
def State.hostCtl (s : State) (off : Nat) (wide : Bool) (x : W64) : State :=
  if s.link = .up && aligned off wide then s.ctlStore off wide x else s

/-- REGISTER_WRITE (R355, R298). -/
def execRegisterWrite (r : RegTarget) (x : W64) (s : State) : Out :=
  .next (match r with
  | .control off wide => s.hostCtl off.toNat wide x
  | .priv code k => s.privWrite code.toNat k x)

/-- KICK_REGISTER_WRITE (R337, R356). -/
def execKickRegisterWrite (part q : Nat) (w : W32) (s : State) : Out :=
  .next (if q < 64 ∧ part < 4 then s.kickQueue (qkey part q) w else s)

/-! ### Windows (R357) -/

/-- Whether an entry is enabled. -/
def WinEntry.on (e : WinEntry) : Bool :=
  let c := e.ctl.toNat
  bitsOf c 8 8 == 1 && bitsOf c 63 10 == 0 && bitsOf c 7 6 == 0 && e.len != 0 && e.vbase.toNat % 65536 == 0 &&
  e.hoff.toNat % 65536 == 0
def WinEntry.ctx (e : WinEntry) : Nat := bitsOf e.ctl.toNat 5 0
def WinEntry.wr (e : WinEntry) : Bool := e.ctl.getLsbD 9

/-- The lowest-numbered enabled entry that covers an offset of the window aperture. -/
def State.winFor (s : State) (o : Nat) : Option WinEntry :=
  ((s.win.filter fun x => decide (x.1 < 64) && x.2.on && decide (x.2.hoff.toNat ≤ o) &&
    decide (o < x.2.hoff.toNat + x.2.len.toNat)).map Prod.snd).head?

/-- Whether a context's tables translate for the host: it is firmware's, or assigned. -/
def State.hostCtx (s : State) (ctx : Nat) : Bool := ctx == 0 || (s.ctx ctx).asg

/-- Where a host access or a DMA lands, through a context's tables; leases are not checked. -/
def State.hostLoc (s : State) (ctx : Nat) (need : Need) (va : Nat) : Option Loc :=
  if !s.hostCtx ctx then none else
  match s.xlate ctx (ctx == 0) need va with
  | .ok l => some l
  | .error _ => none

/-- The place of a window access; `none`: it fails. -/
def State.winLoc (s : State) (o : Nat) (write : Bool) : Option Loc :=
  match s.winFor o with
  | none => none
  | some e =>
    if write && !e.wr then none else
    s.hostLoc e.ctx (if write then .write else .read) ((e.vbase.toNat + o - e.hoff.toNat) % 2 ^ 64)

/-- The partition whose error ring takes a failure: that of the context at fault (log entry 66). -/
def State.failPart (s : State) (ctx : Nat) : Nat := if ctx = 0 then 0 else (s.ctx ctx).part

/-- A record of a window or DMA failure (R363). -/
def State.hostFail (s : State) (kind ctx off : Nat) : State :=
  s.errRecord (s.failPart ctx) (BitVec.ofNat 64 kind) (BitVec.ofNat 64 off) 0

/-- Where the download buffer and the firmware area lie: in die 0's HBM, above its root table; where there the manual does not say. -/
def bufferAt : Nat := 4096 + Config.downloadBuffer % (Config.hbmBytes - 4096 - 2 ^ 26 + 1)
def firmwareAt : Nat := 4096 + Config.firmwareArea % (Config.hbmBytes - 4096 - 2 ^ 26 + 1)

/-- The window aperture maps the download buffer (R360). -/
def State.buffer (s : State) (o : Nat) : Bool := (s.bst == 1 || s.bst == 2) && decide (o < 67108864)

/-- A host access of the window aperture. -/
def State.winAccess (s : State) (o : Nat) (wide : Bool) (write : Option W64) : State :=
  let n := if wide then 8 else 4
  let place := if s.buffer o then some ⟨false, bufferAt + o⟩ else s.winLoc o write.isSome
  let ctx := match s.winFor o with
    | some e => e.ctx
    | none => 0
  match place, write with
  | some l, some x => if s.buffer o ∧ s.bst = 2 then s else s.wrHost l n (x.toNat % 2 ^ (8 * n))
  | some l, none => { s with hostRd := BitVec.ofNat 64 (s.rdLoc l n) }
  | none, some _ => s.hostFail 0x10 ctx o
  | none, none => { s.hostFail 0x10 ctx o with hostRd := onesOf wide }

/-- HOST_WINDOW_ACCESS (R355, R357, R360): a host access of the window aperture, or (`ctl`) of the control aperture. While the link is
not up reads return all ones (R363) and writes reach nothing. -/
def execHostWindowAccess (ctl : Bool) (off : W64) (wide : Bool) (write : Option W64) (s : State) : Out :=
  let o := off.toNat
  .next (if !aligned o wide ∨ (if ctl then 2 ^ 20 ≤ o else 2 ^ 38 ≤ o) then s
  else if s.link ≠ .up then (match write with
    | some _ => s
    | none => { s with hostRd := onesOf wide })
  else if ctl then (match write with
    | some x => s.hostCtl o wide x
    | none => { s with hostRd := s.ctlLoad o wide })
  else s.winAccess o wide write)

/-! ### DMA (R359) -/

/-- DMA_TAIL_WRITE. -/
def execDmaTailWrite (ch : Nat) (x : W32) (s : State) : Out :=
  .next (if ch < 8 then { s with dma := Sparse.put s.dma ch ((Sparse.get {} s.dma ch : Dma).tailWrite x) } else s)

/-- Bytes of a transfer that can be moved: up to the first whose page fails. -/
def State.dmaReach (s : State) (ctx va : Nat) (need : Need) : Nat → Nat
  | 0 => 0
  | n + 1 => match s.hostLoc ctx need va with
    | some _ => 1 + s.dmaReach ctx (va + 1) need n
    | none => 0

/-- Bytes moved one after another; `out`: from the device to the host. -/
def State.dmaMove (s : State) (ctx : Nat) (out : Bool) (va ha : Nat) : Nat → State
  | 0 => s
  | n + 1 =>
    let s1 := match s.hostLoc ctx (if out then .read else .write) va with
      | none => s
      | some l =>
        if out then s.wrHost ⟨true, ha⟩ 1 (s.rdLoc l 1)
        else s.wrHost l 1 (rdByte s.hostMem ha).toNat
    s1.dmaMove ctx out (va + 1) (ha + 1) n

/-- Whether a channel runs descriptors. -/
def Dma.runs (d : Dma) : Bool :=
  decide (4 ≤ d.lsz) && decide (d.lsz ≤ 16) && d.ring.toNat % 4096 == 0 && d.head != d.tail

/-- DMA_DESCRIPTOR_COMPLETION: the channel's next descriptor. A transfer that fails has moved some of the bytes before the failure,
which the manual does not count (log entry 67). All its bytes become visible at once, though the manual promises no such thing (log
entry 143). -/
def execDmaDescriptorCompletion (ch : Nat) (s : State) : Out :=
  let d : Dma := Sparse.get {} s.dma ch
  .next (if 8 ≤ ch ∨ !d.runs then s else
  let a := d.ring.toNat + 32 * (d.head.toNat % 2 ^ d.lsz)
  let ha := rdLE s.hostMem a 8
  let va := rdLE s.hostMem (a + 8) 8
  let len := rdLE s.hostMem (a + 16) 8
  let c := rdLE s.hostMem (a + 24) 4
  let ctx := bitsOf c 5 0
  let out := bitsOf c 6 6 = 1
  let sized := 1 ≤ len ∧ len ≤ 2 ^ 26
  let n := if sized then s.dmaReach ctx va (if out then .read else .write) len else 0
  let ok := sized ∧ n = len
  let s1 := s.dmaMove ctx out va ha (if ok then n else Config.turnChoice s.tick % (n + 1))
  let s2 := { s1 with hostMem := wrLE s1.hostMem (a + 28) (if ok then 1 else 2) 4 }
  let s3 := { s2 with dma := Sparse.put s2.dma ch { d with head := d.head + 1, err := if ok then d.err else 1 } }
  let s4 := if ok then s3 else s3.hostFail 0x11 ctx (32 * (d.head.toNat % 2 ^ d.lsz))
  if bitsOf c 7 7 = 1 then s4.sendInt (bitsOf c 31 16) else s4)

/-! ### Bring-up (R360, R361) -/

/-- POWER_UP: the boot ROM starts; nothing of the package's earlier state survives. The host's memory is the host's. -/
def execPowerUp (s : State) : Out :=
  .next { State.reset with hostMem := s.hostMem, hostRd := s.hostRd, tick := s.tick, now := s.now, uid := s.uid, agenda := s.agenda }

/-- LINK_TRAINED: the apertures are there, and the ROM awaits an image; a failure of the link before is logged (R363, log entry 68). -/
def execLinkTrained (s : State) : Out :=
  let s1 := { s with link := .up, bst := if s.bst = 0 then 1 else s.bst }
  .next (if s.linkLog then { s1 with linkLog := false }.errRecord 0 (Config.freeWord s.tick) 0 0 else s1)

/-- DLEN (R360). -/
def execDlen (x : W32) (s : State) : Out := .next (if s.link = .up then s.dlenWrite x else s)

/-- LINK_FAILURE (R363). -/
def execLinkFailure (s : State) : Out := .next { s with link := .failed, linkLog := true }

/-- Bytes of a 512-bit value, lowest first. -/
def bytes512 (x : BitVec 512) : List Byte := (List.range 64).map fun i => BitVec.ofNat 8 (x.toNat / 2 ^ (8 * i))

/-- Bytes of the image in the download buffer. -/
def State.imageBytes (s : State) (a n : Nat) : List Byte :=
  (List.range n).map fun i => rdByte s.mem (bufferAt + a + i)

/-- The first check that an image fails (R360); 0: none. -/
def State.imageReason (s : State) : Nat :=
  let pk := s.imageBytes 0x10 64
  let body := rdLE s.mem (bufferAt + 8) 8
  let n := s.dlen.toNat
  if rdLE s.mem bufferAt 4 ≠ 0x49395746 ∨ 0x74B0 + body ≠ n then 1
  else if (shake256 pk).setWidth 256 ≠ Config.keyHash then 2
  else if !slhVerify pk (s.imageBytes 0 0x50 ++ s.imageBytes 0x74B0 body) (s.imageBytes 0x50 29792) then 3
  else if rdLE s.mem (bufferAt + 4) 4 < Config.minSvn.toNat then 4
  else 0

/-- Firmware starts (R360, R361): the measurements, the body in context 0's firmware area, and context 0's roots, whose values the
manual does not give (log entry 69). -/
def State.firmwareStarts (s : State) : State :=
  let n := s.dlen.toNat
  let m := (s.imageBytes 0x74B0 (n - 0x74B0)).zipIdx.foldl (fun m x => wrByte m (firmwareAt + x.2) x.1) s.mem
  let roots := (List.range 4).flatMap fun d => [d * 2 ^ 38, d * 2 ^ 38 + 8]
  let mem := roots.foldl (fun m a => wrLE m a (Config.freeWord (s.tick + a)).toNat 8) m
  { s with bst := 3, m0 := shake256 Config.bootRom, m1 := shake256 (s.imageBytes 0 n),
           m2 := shake256 (s.imageBytes 0x10 64 ++ s.imageBytes 4 4), m3 := 0, mem := mem }.setCtx 0 { s.ctx 0 with tabs := mem }

/-- BOOT_VERIFICATION (R360). -/
def execBootVerification (s : State) : Out :=
  .next (if s.bst ≠ 2 then s else
  if s.imageReason = 0 then s.firmwareStarts
  else { s with bst := 1, brsn := s.imageReason, m1 := 0, m2 := 0, m3 := 0 })

/-- M3_EXTEND (R361). -/
def execM3Extend (data : List Byte) (s : State) : Out :=
  .next (if s.bst = 3 then { s with m3 := shake256 (bytes512 s.m3 ++ data) } else s)

/-! ### Mailbox commands (R362) -/

/-- Whether nothing is at work in the package (R7): no launch, graph or engine operation, and no queue that runs. A launch whose groups are never
dispatched (R332) is at work no longer than its graph. -/
def State.idle (s : State) : Bool :=
  s.subs.isEmpty && s.grids.all (fun x =>
    x.2.st.finished || x.2.node.any fun r => (s.graph r.graph).finished && !s.gridLive x.1) && s.graphs.all (fun x => x.2.finished) &&
  s.ctxs.all (fun c => c.2.ops.all fun o => o.2.st.final) && s.queues.all fun x => !x.2.working && !(x.2.qst == 2 && x.2.rd != x.2.wr)

/-- SET_MODE (command 0x01, R7). -/
def execSetMode (s : State) : Out :=
  onMailbox s 1 (
    if 3 ≤ s.arg 0 then s.mbDone 5
    else if !s.idle then s.mbDone 1
    else { s with mode := if s.arg 0 = 0 then .whole else if s.arg 0 = 1 then .halves else .quarters }.mbDone 0)

/-- ASSIGN_CONTEXT (command 0x02, R298). -/
def execAssignContext (s : State) : Out :=
  onMailbox s 2 (
    let ctx := s.arg 0
    if ctx = 0 ∨ 64 ≤ ctx ∨ !s.mode.hasPart (s.arg 1) then s.mbDone 5
    else if s.hasGroups ctx then s.mbDone 2
    else (s.ctxasgWrite ctx (BitVec.ofNat 64 (2 ^ 31 + s.arg 1))).mbDone 0)

/-- ERROR_LOG (command 0x05, R363). -/
def execErrorLog (s : State) : Out :=
  onMailbox s 5 (
    if !s.mode.hasPart (s.arg 0) ∨ s.arg 2 < 4 ∨ 12 < s.arg 2 ∨ 65536 ≤ s.arg 3 then s.mbDone 5
    else
      let r : ErrRing := { set := true, base := Sparse.get 0 s.mbArg 1, lsz := s.arg 2, vec := s.arg 3 }
      { s with err := Sparse.put s.err (s.arg 0) r }.mbDone 0)

/-- UNKNOWN_COMMAND: any other code. -/
def execUnknownCommand (s : State) : Out :=
  .next (if s.bst = 3 ∧ 5 < s.mbCmd.toNat then s.mbDone 0xFF else s)

end Sys2Proof.Machine
end

