-- ==== Sys2Proof/Machine/Launch.lean ====
section
/-!
DEFINITION. Child launches and graph conditions, opcodes 0xD0 to 0xD2 (R335).
-/
namespace Sys2Proof.Machine

/-- A grid handle (R335). -/
def handleOf (n : Nat) : W64 := BitVec.ofNat 64 (8 * 2 ^ 56 + n % 2 ^ 56)

/-- One slice's launch: the next handle, and the descriptor submitted one level deeper. -/
def Cx.launchOne (c : Cx) (s : State) (d a : SReg) (sl : Nat) : State :=
  let x := s.ctx c.grd.ctx
  let n := x.handles + 1
  let g := s.gang c.r
  let sub : Sub :=
    { daddr := g.sreg sl a.toNat, ctx := c.grd.ctx, part := c.grd.part, depth := c.grd.depth + 1,
      parent := some c.grp.grid, handle := some n, queue := c.grd.queue, by_ := c.r, before := c.sp.hist }
  let s1 := s.setCtx c.grd.ctx { x with handles := n, children := Sparse.put x.children n (0, GridSt.waiting) }
  let s2 := s1.setGang c.r (g.writeRegs [.s sl d.toNat (handleOf n)])
  { s2 with subs := s2.subs ++ [sub] }

/-- The slices left, one after another, each waiting at 4,096 child grids; how many are done. -/
def Cx.launchAll (c : Cx) (d a : SReg) : State → Nat → List Nat → State × Nat × Bool
  | s, n, [] => (s, n, true)
  | s, n, sl :: sls =>
    if 4096 ≤ (s.ctx c.grd.ctx).unretired then (s, n, false)
    else c.launchAll d a (c.launchOne s d a sl) (n + 1) sls

/-- `launch` (R335). -/
def execLaunch (d a : SReg) (s : State) : Out :=
  issue (.launch d a) s fun c =>
    let flaws := c.unserved.filterMap fun sl =>
      let x := (c.sIn sl a).toNat
      if x % 64 = 0 then none else some ⟨c.maskAt (.slice sl), 7, 0, x⟩
    c.checked flaws
      (match c.launchAll d a c.s (c.sls.length - c.unserved.length) c.unserved with
      | (s1, _, true) => .done s1 0
      | (s1, m, false) =>
        let g := s1.gang c.r
        .stay (s1.setGang c.r { g with last := s1.tick, run := some { c.sp with wait := .count m } }))

/-- `gwait` (R335): the predicate says whether the slice's grid retired. -/
def execGwait (p : PReg) (h : SReg) (s : State) : Out :=
  issue (.gwait p h) s fun c =>
    c.writes (c.preds p fun L => (c.s.ctx c.grd.ctx).child (c.sIn (L / 4) h) == some .retired)

/-- Whether node k of a graph is a decision node that has not decided (R335). -/
def Graph.undecided (g : Graph) (k : Nat) : Bool := decide (k < g.nn) && nodeKind g.t k == 1 && !(g.node k).decided

/-- `gcond` (R335): posting takes the maximum. -/
def execGcond (p : PReg) (n v : SReg) (s : State) : Out :=
  issue (.gcond p n v) s fun c =>
    match c.grd.node with
    | none => c.writes (c.preds p fun _ => false)
    | some ref =>
      let node (sl : Nat) : Nat := (c.sIn sl n).toNat % 256
      let ok (sl : Nat) : Bool := (c.s.graph ref.graph).undecided (node sl)
      let post (s : State) (sl : Nat) : State :=
        if ok sl then
          let x := s.node ref.graph (node sl)
          s.setNode ref.graph (node sl)
            { x with posts := Sparse.put x.posts ref.node (Nat.max (Sparse.get 0 x.posts ref.node) (lo32 (c.sIn sl v)).toNat) }
        else s
      let c1 : Cx := { c with s := c.sls.foldl post c.s }
      c1.writes (c.preds p fun L => ok (L / 4))

end Sys2Proof.Machine
end

