-- ==== Sys2Proof/Machine/Logic.lean ====
section
/-!
DEFINITION. Logic and bit instructions, opcodes 0x20 to 0x2F (R88, R89, R91, R92, R94).
-/
namespace Sys2Proof.Machine

/-- A bitwise combination of two patterns. -/
def natOp (f : Nat → Nat → Nat) (x y : Int) : Int := (f x.toNat y.toNat : Nat)

/-- `and` (R88). -/
def execAnd (t : Ty) (d : Dst) (a : Src) (b : SrcB) (s : State) : Out :=
  issue (.and t d a b) s fun c => c.writes (c.int2 t d a b (natOp fun x y => x &&& y))

/-- `or` (R88). -/
def execOr (t : Ty) (d : Dst) (a : Src) (b : SrcB) (s : State) : Out :=
  issue (.or t d a b) s fun c => c.writes (c.int2 t d a b (natOp fun x y => x ||| y))

/-- `xor` (R88). -/
def execXor (t : Ty) (d : Dst) (a : Src) (b : SrcB) (s : State) : Out :=
  issue (.xor t d a b) s fun c => c.writes (c.int2 t d a b (natOp fun x y => x ^^^ y))

/-- `not` (R88). -/
def execNot (t : Ty) (d : Dst) (a : Src) (s : State) : Out :=
  issue (.not t d a) s fun c => c.writes (c.int1 t d a fun x => 2 ^ t.width - 1 - x)

/-- `andn` (R88): a and not b. -/
def execAndn (t : Ty) (d : Dst) (a : Src) (b : SrcB) (s : State) : Out :=
  issue (.andn t d a b) s fun c => c.writes (c.int2 t d a b (natOp fun x y => x &&& (2 ^ t.width - 1 - y)))

/-- The shift count, or position: bits [7:0] of one register or the immediate (R91, R92). -/
def Cx.count (c : Cx) (p : At) (b : SrcB) : Nat := (c.g.srcB false zext64 p b).toNat % 256
def Cx.countC (c : Cx) (p : At) (e : SrcC) : Nat := (c.g.srcC false zext64 p e).toNat % 256

/-- The w-bit pattern of an operand, and its value read as signed. -/
def Cx.pattern (c : Cx) (t : Ty) (p : At) (a : Src) : Nat := (c.g.src t.is64 p a).toNat % 2 ^ t.width
def signedOf (w x : Nat) : Int := if 2 ^ (w - 1) ≤ x then (x : Int) - 2 ^ w else x

/-- `shl` (R91). -/
def execShl (t : Ty) (d : Dst) (a : Src) (b : SrcB) (s : State) : Out :=
  issue (.shl t d a b) s fun c =>
    c.writes (c.each d.scalar fun p => wrInt t p d (c.pattern t p a * 2 ^ c.count p b : Nat))

/-- `shr` (R91): logical whatever the type. -/
def execShr (t : Ty) (d : Dst) (a : Src) (b : SrcB) (s : State) : Out :=
  issue (.shr t d a b) s fun c =>
    c.writes (c.each d.scalar fun p => wrInt t p d (c.pattern t p a / 2 ^ c.count p b : Nat))

/-- `sar` (R91): arithmetic whatever the type. -/
def execSar (t : Ty) (d : Dst) (a : Src) (b : SrcB) (s : State) : Out :=
  issue (.sar t d a b) s fun c =>
    c.writes (c.each d.scalar fun p => wrInt t p d (signedOf t.width (c.pattern t p a) / 2 ^ c.count p b))

/-- Rotation of a w-bit pattern left by k mod w. -/
def rotl (w x k : Nat) : Nat := (x * 2 ^ (k % w) + x / 2 ^ (w - k % w)) % 2 ^ w

/-- `rot.l`, `rot.r` (R91). -/
def execRot (right : Bool) (t : Ty) (d : Dst) (a : Src) (b : SrcB) (s : State) : Out :=
  issue (.rot right t d a b) s fun c =>
    c.writes (c.each d.scalar fun p =>
      let k := c.count p b % t.width
      wrInt t p d (rotl t.width (c.pattern t p a) (if right then t.width - k else k) : Nat))

/-- Length of the field of R92; 0: empty. -/
def fieldLen (w pos len : Nat) : Nat := if w ≤ pos ∨ len = 0 then 0 else Nat.min len (w - pos)

/-- `bfx` (R92). -/
def execBfx (t : Ty) (d : Dst) (a : Src) (b : SrcB) (e : SrcC) (s : State) : Out :=
  issue (.bfx t d a b e) s fun c =>
    c.writes (c.each d.scalar fun p =>
      let pos := c.count p b
      let n := fieldLen t.width pos (c.countC p e)
      let x := c.pattern t p a / 2 ^ pos % 2 ^ n
      wrInt t p d (if n = 0 then 0 else if t.signed then signedOf n x else x))

/-- The current value of a destination (R92). -/
def Cx.dstVal (c : Cx) (t : Ty) (p : At) : Dst → Nat
  | .v r => (c.g.src t.is64 p (.v r)).toNat % 2 ^ t.width
  | .s r => (c.g.sreg p.slice_ r.toNat).toNat % 2 ^ t.width

/-- `bfi` (R92). -/
def execBfi (t : Ty) (d : Dst) (a : Src) (b : SrcB) (e : SrcC) (s : State) : Out :=
  issue (.bfi t d a b e) s fun c =>
    c.writes (c.each d.scalar fun p =>
      let pos := c.count p b
      let n := fieldLen t.width pos (c.countC p e)
      let old := c.dstVal t p d
      let hole := old - old / 2 ^ pos % 2 ^ n * 2 ^ pos
      wrInt t p d (if n = 0 then old else hole + c.pattern t p a % 2 ^ n * 2 ^ pos : Nat))

/-- Bit i moved to bit w − 1 − i. -/
def reverseBits (w x : Nat) : Nat := (List.range w).foldl (fun n i => 2 * n + flag (x.testBit i)) 0

/-- `brev` (R88). -/
def execBrev (t : Ty) (d : Dst) (a : Src) (s : State) : Out :=
  issue (.brev t d a) s fun c => c.writes (c.int1 t d a fun x => (reverseBits t.width x.toNat : Nat))

/-- `sel` (R88). -/
def execSel (t : Ty) (d : VReg) (a : Src) (b : SrcB) (p : PReg) (s : State) : Out :=
  issue (.sel t d a b p) s fun c =>
    c.writes (c.vis.flatMap fun L =>
      wrInt t (.lane L) (.v d) (if c.g.preg L p.toNat then c.opA t (.lane L) a else c.opB t (.lane L) b))

/-- `mov` (R88). -/
def execMov (t : Ty) (d : Dst) (a : Src) (s : State) : Out :=
  issue (.mov t d a) s fun c => c.writes (c.int1 t d a fun x => x)

/-- `movi`, the 96-bit form (R94): sign-extended for integer types, a bit pattern otherwise. -/
def execMovi (t : Ty) (d : Dst) (imm : W32) (s : State) : Out :=
  issue (.movi t d imm) s fun c => c.writes (c.each d.scalar fun p => wrInt t p d (sext64 imm).toNat)

/-- `movi`, the 128-bit form (R94). -/
def execMoviWide (t : Ty) (d : Dst) (imm : W64) (s : State) : Out :=
  issue (.moviWide t d imm) s fun c => c.writes (c.each d.scalar fun p => wrInt t p d imm.toNat)

/-- `lea` (R94): a + (sext(b) << k); b is a signed 32-bit value under both types. -/
def execLea (t : Ty) (d : Dst) (a : Src) (b : SrcB) (k : BitVec 3) (s : State) : Out :=
  issue (.lea t d a b k) s fun c =>
    c.writes (c.each d.scalar fun p =>
      let off := (lo32 (c.g.srcB false zext64 p b)).toInt
      wrInt t p d (c.opA t p a + off * 2 ^ k.toNat))

end Sys2Proof.Machine
end

