-- ==== Sys2Proof/Machine/Power.lean ====
section
/-!
DEFINITION. Power: operating points (R310 to R314), stall samples (R315), energy (R308, R309, R317), filler (R316), gating (R319, R320),
and the passing of time.
-/
namespace Sys2Proof.Machine

/-! ### Operating points -/

/-- Frequencies in both of two adjacent ratios' tables (R310). -/
def overlap (r n : Nat) : Nat × Nat := if r + n = 3 then (14, 18) else (22, 26)

/-- The highest ratio, that is voltage, whose table holds a frequency. -/
def bestRatio (f : Nat) : Nat := if 22 ≤ f then 0 else if 14 ≤ f then 1 else 2

/-- The point that a cluster moves to: its target, or the ceiling when that is lower (R314). A target at or below the ceiling keeps its own ratio:
the model's choice (log entry 152). -/
def Cluster.goal (c : Cluster) (ceil : Nat) : Nat × Nat :=
  if c.fq ≤ ceil then (c.rt, c.fq) else (bestRatio ceil, ceil)

/-- The ratio adjacent to r in the direction of another. -/
def toward (r r' : Nat) : Nat := if r' < r then r - 1 else r + 1

/-- The frequency that R311 wants before a ratio switch, or at the end. -/
def nextFreq (r f r' f' : Nat) : Nat :=
  if r = r' then f' else
  let o := overlap r (toward r r')
  if o.1 ≤ f ∧ f ≤ o.2 then f
  else if o.1 ≤ f' ∧ f' ≤ o.2 then f'
  else if f < o.1 then o.1 else o.2

/-- A cluster at a point: `busy` is 0 once it is the goal. -/
def Cluster.moved (c : Cluster) (ceil now r f : Nat) : Cluster :=
  { c with r := r, f := f, busy := decide ((r, f) ≠ c.goal ceil), stepAt := some now }

/-- Whether a cluster's converter takes steps: not while it is gated (R319). -/
def Cluster.live (c : Cluster) : Bool := c.pwr != .gated

/-- FREQUENCY_CHANGE (R311, R312): the next frequency change of the procedure; with nothing left to change the procedure ends. -/
def execFrequencyChange (cluster : Nat) (s : State) : Out :=
  let c := s.cluster cluster
  let g := c.goal s.ceil
  .next (if !c.live ∨ Config.clusters ≤ cluster then s
  else s.setCluster cluster (c.moved s.ceil s.now c.r (nextFreq c.r c.f g.1 g.2)))

/-- RATIO_SWITCH (R311, R312): to the adjacent ratio, at a frequency in both tables. -/
def execRatioSwitch (cluster : Nat) (s : State) : Out :=
  let c := s.cluster cluster
  let g := c.goal s.ceil
  let n := toward c.r g.1
  let o := overlap c.r n
  .next (if !c.live ∨ Config.clusters ≤ cluster ∨ c.r = g.1 ∨ c.f < o.1 ∨ o.2 < c.f then s
  else s.setCluster cluster (c.moved s.ceil s.now n c.f))

/-! ### The power limit (R314) -/

/-- The effective limit in watts. -/
def State.limit (s : State) : Nat := Nat.min s.pwrlim.toNat s.board.toNat

/-- POWER_WINDOW: every 10 µs the ceiling moves by one step, against the input power of the last window. -/
def execPowerWindow (watts : Nat) (s : State) : Out :=
  .next (if s.now < s.pwAt + 10000 then s else
  let s1 := { s with pwAt := s.now }
  let lim := s.limit
  let held := s.clusters.any fun x => decide (s.ceil < x.2.fq)
  if lim < watts ∨ (s.lowering ∧ lim ≤ watts) then { s1 with lowering := true, ceil := Nat.max 8 (s.ceil - 1) }
  else if 20 * watts < 19 * lim ∧ held then { s1 with lowering := false, ceil := s.ceil + 1 }
  else { s1 with lowering := false })

/-- BOARD_POWER_LIMIT_INPUT. -/
def execBoardPowerLimitInput (watts : BitVec 16) (s : State) : Out := .next { s with board := watts }

/-! ### Stall samples (R315) -/

/-- Live gangs resident on a cluster, with their quadrants. -/
def State.clusterGangs (s : State) (k : Nat) : List (Nat × GangRef) :=
  (s.groups.filter fun x => x.2.st == .resident && coreCluster x.2.core == k).flatMap fun x =>
    ((List.range (s.grid x.2.grid).gangs).filter fun j => (s.gang ⟨x.1, j⟩).live != 0).map fun j =>
      (4 * x.2.core + j % 4, (⟨x.1, j⟩ : GangRef))

/-- What the quadrants of a cluster count while t twentieths of a clock pass: those in which a gang was resident, and of these those in which
nothing issued while a gang waited (R315). -/
def State.stallCounts (s : State) (k t : Nat) : Nat × Nat :=
  let gs := s.clusterGangs k
  let quads := (gs.map (·.1)).eraseDups
  let on (q : Nat) : List GangRef := (gs.filter fun x => x.1 == q).map (·.2)
  let idle (q : Nat) : Nat := t - 20 * (on q).foldl (fun n r => n + (s.gang r).issues) 0
  (quads.foldl (fun n q => n + if (on q).any s.memWaits then idle q else 0) 0, t * quads.length)

/-- STALL_SAMPLE: every 10 µs, from what the quadrants have counted: `num` of `den`. -/
def execStallSample (cluster num den : Nat) (s : State) : Out :=
  let c := s.cluster cluster
  .next (if Config.clusters ≤ cluster ∨ s.now < c.stallAt + 10000 ∨ num ≠ c.stallNum ∨ den ≠ c.stallDen then s else
  let x := if den = 0 then 0 else Nat.min 65535 (65536 * num / den)
  s.setCluster cluster { c with stall := BitVec.ofNat 16 x, stallAt := s.now, stallNum := 0, stallDen := 0 })

/-! ### Energy (R308, R309, R317) -/

/-- Energy of a unit added to a context: whole microjoules go to the counter, and the rest is carried. -/
def State.charge (s : State) (unit ctx pj : Nat) : State :=
  let c := s.ctx ctx
  let sum := Sparse.get 0 c.pj unit + pj
  s.setCtx ctx { c with ecnt := c.ecnt + BitVec.ofNat 64 (sum / 10 ^ 6), pj := Sparse.set 0 c.pj unit (sum % 10 ^ 6) }

/-- Physical slices that the contexts hold on a cluster: of its resident groups, by context. -/
def State.clusterSlices (s : State) (k : Nat) : List (Nat × Nat) :=
  (List.range Config.contexts).filterMap fun ctx =>
    match (s.groups.filter fun x => x.2.st == .resident && coreCluster x.2.core == k && (s.grid x.2.grid).ctx == ctx).foldl
      (fun n x => n + (s.slicesOfGroup x.1).length) 0 with
    | 0 => none
    | n => some (ctx, n)

/-- Static power split among the contexts with groups resident, in proportion to the slices each holds; context 0 when there is none
(R309). What the division leaves goes to the first of them (log entry 140). -/
def State.staticShares (s : State) (k pj : Nat) : List (Nat × Nat) :=
  let cs := s.clusterSlices k
  let total := cs.foldl (fun n x => n + x.2) 0
  let parts := cs.map fun x => (x.1, pj * x.2 / total)
  match parts with
  | [] => [(0, pj)]
  | x :: xs => (x.1, x.2 + (pj - parts.foldl (fun n y => n + y.2) 0)) :: xs

/-- Who pays for a charge, and how much (R309, R317): for a group's image traffic the context on whose behalf it was squeezed when the traffic
arose; a gated cluster has no static power (R319), and the context that departed pays for filler
while it is assigned. -/
def State.payers (s : State) (x : Charge) : List (Nat × Nat) :=
  match x.cause with
  | .gang r => [((s.grid (s.group r.group).grid).ctx, x.pj)]
  | .engine ctx => [(ctx, x.pj)]
  | .image k ctx => let g := s.group k; [(if g.paid.contains ctx then ctx else g.payer, x.pj)]
  | .static => if (s.cluster x.unit).pwr = .gated then [] else s.staticShares x.unit x.pj
  | .filler => let d := (s.cluster x.unit).dep; [(if (s.ctx d).asg then d else 0, x.pj)]
  | .other => [(0, x.pj)]

/-- A charge added to those who pay for it. -/
def State.addCharge (s : State) (x : Charge) : State :=
  (s.payers x).foldl (fun s y => if y.1 < Config.contexts then s.charge x.unit y.1 y.2 else s) s

/-- ENERGY_TICK: every 1 µs the charges of the calibration table are added. -/
def execEnergyTick (charges : List Charge) (s : State) : Out :=
  .next (if s.now < s.energyAt + 1000 then s else
  let s1 := charges.foldl (fun s x => if x.unit < 37 then s.addCharge x else s) { s with energyAt := s.now }
  { s1 with groups := s1.groups.map fun x => (x.1, { x.2 with paid := [] }) })

/-! ### Filler (R316, R317) -/

/-- The context whose current fell most; the first of equals. -/
def mostFallen (drops : List (Nat × Nat)) : Nat :=
  (drops.foldl (fun (b : Nat × Nat) x => if b.2 < x.2 then x else b) (0, 0)).1

/-- Whether a step of R311, which the ceiling of R314 also makes, was made within the last microsecond. -/
def Cluster.stepped (c : Cluster) (now : Nat) : Bool := c.stepAt.any fun t => decide (now < t + 1000)

/-- FILLER_START: the current (in mA) has fallen by more than 25 % within 1 µs, not counting what a step of the cluster's point took. -/
def execFillerStart (cluster before : Nat) (after : Fallen) (drops : List (Nat × Nat)) (s : State) : Out :=
  let c := s.cluster cluster
  let own := if c.stepped s.now then after.byStep else 0
  .next (if Config.clusters ≤ cluster ∨ c.filler.isSome ∨ !c.live ∨ 3 * before ≤ 4 * (after.mA + own) then s
  else s.setCluster cluster { c with filler := some before, dep := mostFallen drops % 64, idleAt := s.now })

/-- FILLER_END: the falling level meets the current of real work, as measured. -/
def execFillerEnd (real : Measured) (s : State) : Out :=
  let c := s.cluster real.cluster
  .next (match c.filler with
  | none => s
  | some l => if real.mA < l then s else s.setCluster real.cluster { c with filler := none, idleAt := s.now })

/-! ### Power gating (R319, R320) -/

/-- Whether a cluster has work: a group resident or being dispatched, an engine operation that a group on it started and that has reached no final
state, the group ended or not, or filler. -/
def State.clusterBusy (s : State) (k : Nat) : Bool :=
  (s.groups.any fun x => coreCluster x.2.core == k && x.2.st.placed) ||
  (s.ctxs.any fun c => c.2.ops.any fun x => !x.2.st.final && coreCluster (s.group x.2.by_.group).core == k) ||
  (s.cluster k).filler.isSome

/-- GATE_INTENT: idle for 50 µs with `gatectl` 1. -/
def execGateIntent (cluster : Nat) (s : State) : Out :=
  let c := s.cluster cluster
  .next (if Config.clusters ≤ cluster ∨ !c.gate ∨ c.pwr ≠ .powered ∨ s.clusterBusy cluster ∨ s.now < c.idleAt + 50000 then s
  else s.setCluster cluster { c with pwr := .intent s.now })

/-- GATED: 1 µs of intent with no dispatch. -/
def execGated (cluster : Nat) (s : State) : Out :=
  let c := s.cluster cluster
  .next (match c.pwr with
  | .intent since => if s.now < since + 1000 then s else s.setCluster cluster { c with pwr := .gated }
  | _ => s)

/-- The groups held outside a cluster land on it. -/
def State.landHeld (s : State) (k : Nat) : State :=
  { s with groups := s.groups.map fun x =>
      if x.2.st == .landing && coreCluster x.2.core == k then (x.1, { x.2 with st := .resident }) else x }

/-- WAKING_COMPLETE: 10 µs of waking; the groups held land (R319). -/
def execWakingComplete (cluster : Nat) (s : State) : Out :=
  let c := s.cluster cluster
  .next (match c.pwr with
  | .waking since => if s.now < since + 10000 then s else
    (s.setCluster cluster { c with pwr := .powered, idleAt := s.now }).landHeld cluster
  | _ => s)

/-! ### Time passes -/

/-- A cluster after n nanoseconds: its clock (R99, R312), what its quadrants have counted (R315), the filler's level (R316), and since when it
is idle (R319). -/
def Cluster.passed (c : Cluster) (n now : Nat) (busy : Bool) (cnt : Nat × Nat) : Cluster :=
  { c with clk20 := if c.live then c.clk20 + n * c.f else c.clk20,
           stallNum := c.stallNum + cnt.1, stallDen := c.stallDen + cnt.2,
           filler := c.filler.map fun l => l - c.slope * n,
           idleAt := if busy then now + n else c.idleAt }

/-- Whether the port on a package's route is silent (R197). -/
def State.quiet_ (s : State) (pkg : BitVec 19) : Bool := decide (s.now < (s.port (Config.route pkg % 12)).quietTo)

/-- Marks that waited for what other gangs still had to apply take effect, and early edges with them (R161, R254). -/
def State.ripenAll (s : State) : State :=
  let s1 : State := { s with gangs := s.gangs.map fun x => (x.1, x.2.ripen s.owed) }
  s1.grids.foldl (fun s x => if x.2.st == .running then s.earlyCheck x.1 x.2.issued else s) s1

/-- Time passes by n nanoseconds: fabric time, slewed (R191); the clusters' clocks; ports send what waits (R195); packets for other
packages leave; and before that, what graphs and marks wait for is looked at (R187). -/
def State.elapse (s0 : State) (n : Nat) : State :=
  let s := s0.pollLogs.ripenAll
  let d := s.slewRem + n
  let k := slewStep s.slew d
  let marks := (List.range Config.ports).map fun i => s.outMark i
  let s1 : State :=
    { s with now := s.now + n, ftime := s.ftime + BitVec.ofInt 48 ((n : Int) - k), slew := s.slew - k,
             slewRem := if s.slew = k then 0 else d % 2000,
             outbox := s.outbox.filter fun p => p.pkg == s.srcid || s.quiet_ p.pkg,
             lastDel := s.lastDel.filter fun x => !farBehind x.t s.ftime,
             gangs := s.gangs.map fun x => (x.1, { x.2 with issues := 0 }),
             ports := s.ports.map fun x => (x.1, x.2.drain s.now (marks.getD x.1 x.2.outW)) }
  (List.range Config.clusters).foldl (fun t i =>
    t.setCluster i ((s.cluster i).passed n s.now (s.clusterBusy i) (s.stallCounts i (n * (s.cluster i).f)))) s1

end Sys2Proof.Machine
end

