-- ==== Sys2Proof/Machine/System.lean ====
section
/-!
DEFINITION. The privileged instructions, opcodes 0xE0 to 0xE9 (R295 to R307). Scalar operands come from the slice of the split's lowest
active lane; scalar results go to every selected slice.
-/
namespace Sys2Proof.Machine

/-! ### `rft` -/

/-- Whether a store of the handler to the frame is still to be applied: the frame is read after it (R153, R296). -/
def Cx.frameBusy (c : Cx) : Bool :=
  let f : Access := { lane := 0, space := .glob, addr := saveSlot c.grp c.grd c.r.gang, bytes := 64, op := .rd }
  c.g.infl.any fun e => e.accs.any fun a => !a.done && a.writes && c.s.meets c.r f a

/-- `rft` (R296); outside trap mode a `nop`. A frame that cannot be read is a failed image read (R347). -/
def execRft (s : State) : Out :=
  issue .rft s fun c =>
    if !c.g.trapMode then .done c.s 0 else
    if c.frameBusy then .stay c.s else
    match c.s.frame c.r with
    | none => .task 0x03 (saveSlot c.grp c.grd c.r.gang)
    | some f =>
      if f.pc.toNat % 4 ≠ 0 then .trap 0xD 2 c.sp.pc f.pc.toNat c.visMask else
      .finished (c.s.setGang c.r ((c.g.returned c.grd.sl c.sp f).issuedAt c.s.tick))

/-! ### Privileged registers -/

/-- The index of a selector (R297). -/
def Cx.pidx (c : Cx) : PIdx → Nat
  | .imm k => k.toNat
  | .s r => bitsOf (c.sAct r).toNat 19 0

/-- Numbers of a list in increasing order. -/
def sorted (l : List Nat) : List Nat := (List.range 32).filter l.contains

/-- The physical slice on which a slice of the split runs (R40, R265). -/
def Cx.physSlice (c : Cx) (sl : Nat) : Nat :=
  if c.grp.lanesLv = 4 then c.g.held.getD sl 0
  else
    let hs := sorted c.g.held
    hs.getD (((slicesOf c.sp.mask).findIdx fun k => k == sl) % Nat.max 1 hs.length) 0

/-- `physlane` at a place (R298). -/
def Cx.physlane (c : Cx) (p : At) : W64 :=
  let lane := match p with
    | .lane L => L
    | .slice sl => (sliceLanes c.visMask sl).headD 0
  BitVec.ofNat 64 (4 * c.physSlice (lane / 4) + lane % 4)

/-- A read at a place. -/
def Cx.psrAt (c : Cx) (code k : Nat) (p : At) : W64 :=
  if code = 0x006 then c.g.slimOf p.slice_
  else if code = 0x007 then c.physlane p
  else c.s.privRead c.grp.core code k

/-- `psr` (R297). -/
def execPsr (t : Ty) (d : Dst) (code : BitVec 12) (k : PIdx) (s : State) : Out :=
  issue (.psr t d code k) s fun c =>
    c.writes (c.each d.scalar fun p =>
      let v := c.psrAt code.toNat (c.pidx k) p
      match d, p with
      | .v r, .lane L => wrV t.is64 L r v
      | .s r, p => [.s p.slice_ r.toNat v]
      | .v _, .slice _ => [])

/-- `pwr` (R297, R300): one moment, after every earlier access of the split. -/
def execPwr (code : BitVec 12) (k : PIdx) (v : SReg) (s : State) : Out :=
  issue (.pwr code k v) s fun c =>
    if code.toNat = 0x006 then
      .done (c.s.setGang c.r
        { c.g with slim := c.sls.foldl (fun m sl => Sparse.set 0 m sl (c.sIn sl v)) c.g.slim }) 0
    else .done (c.s.privWrite code.toNat (c.pidx k) (c.sAct v)) 0

/-! ### Translation generations -/

/-- `tlbgen` (R301, R349): every earlier access of the split is performed first; the new generation begins with the tables as they stand. An
access translates when it is applied, so one issued before and applied after uses them too (log entry 135). -/
def execTlbgen (d x : SReg) (s : State) : Out :=
  issue (.tlbgen d x) s fun c =>
    let k := bitsOf (c.sAct x).toNat 5 0
    let y := c.s.ctx k
    let gen := y.gen + 1
    let c1 : Cx := { c with s := c.s.setCtx k { y with gen := gen, tabs := c.s.mem } }
    c1.writes (c.sls.map fun sl => .s sl d.toNat gen)

/-! ### Squeeze by firmware -/

/-- A request record (R260), for the issuing partition. -/
def reqOf (s : State) (part : Nat) (key : W64) (ctx id : Nat) (ws : List W64) : Nat × Req :=
  let w0 := (ws.getD 0 0).toNat
  let w1 := (ws.getD 1 0).toNat
  let rpt := ws.getD 2 0
  let core := bitsOf w0 19 12
  let nscr := bitsOf w1 63 32
  let ok := ws.getD 3 0 == 0 && rpt.toNat % 8 == 0 && nscr % 256 == 0 && decide (nscr ≤ Config.scratchPerCore) &&
    decide (bitsOf w1 31 0 ≤ 8192) && decide (bitsOf w0 63 32 ≤ 32) && bitsOf w0 31 25 == 0 && bitsOf w0 11 4 == 0 &&
    decide (bitsOf w0 3 0 < 4) && s.mode.hasDie part (coreDie core)
  (core, { id := id, by_ := .sqz key ctx, at_ := s.tick, cls := bitsOf w0 3 0, nsl := bitsOf w0 63 32, nln := bitsOf w1 31 0,
           nscr := nscr, qmask := if bitsOf w0 23 20 = 0 then 15 else bitsOf w0 23 20, susp := bitsOf w0 24 24 == 1, rpt := rpt,
           valid := ok })

/-- A request joins a core's queue. -/
def State.queueReq (s : State) (core : Nat) (q : Req) : State :=
  let k := s.core core
  s.setCore core { k with reqs := k.reqs ++ [q] }

/-- The split waits as the given value says. -/
def Cx.hold (c : Cx) (s : State) (w : Wait) : Act :=
  let g := s.gang c.r
  .stay (s.setGang c.r { g with last := s.tick, run := some { c.sp with wait := w } })

/-- Word k of a request record, each word at the place to which its own address translates; or the code and address that end the task. -/
def Cx.recordWord (c : Cx) (at_ : W64) (k : Nat) : Except (Nat × Nat) W64 :=
  let x := blockRead c.sp.hist (at_ + BitVec.ofNat 64 (8 * k))
  let a := { x.2 with bytes := 8 }
  match c.s.place c.r a with
  | .error e => .error (e, a.addr)
  | .ok p => .ok (BitVec.ofNat 64 (leNat ((List.range 8).map fun i => c.s.readByte c.r x.1 a p i)))

/-- `sqz` (R302). -/
def execSqz (a : SReg) (s : State) : Out :=
  issue (.sqz a) s fun c =>
    match c.sp.wait with
    | .req _ => .done c.s 0
    | _ =>
      let at_ := c.sAct a
      if at_.toNat % 8 ≠ 0 then .trap 7 0 c.sp.pc at_.toNat c.visMask else
      match c.recordWord at_ 0, c.recordWord at_ 1, c.recordWord at_ 2, c.recordWord at_ 3 with
      | .ok w0, .ok w1, .ok w2, .ok w3 =>
        let (u, s1) := c.s.fresh
        let q := reqOf s1 c.grd.part at_ c.grd.ctx u [w0, w1, w2, w3]
        c.hold (s1.queueReq q.1 q.2) (.req u)
      | .error e, _, _, _ | _, .error e, _, _ | _, _, .error e, _ | _, _, _, .error e => .task e.1 e.2

/-- The core that holds a grant under a key (R303). -/
def State.grantCore (s : State) (key : W64) : Option Nat :=
  (List.range Config.cores).find? fun k => (s.core k).grants.any fun g => g.key == key

/-- `xpand` (R303): the grant's resources are freed, and it waits until they have been given out. -/
def execXpand (a : SReg) (s : State) : Out :=
  issue (.xpand a) s fun c =>
    match c.sp.wait with
    | .req _ => .done c.s 0
    | _ =>
      let key := c.sAct a
      match c.s.grantCore key with
      | none => .done c.s 0
      | some k =>
        let x := c.s.core k
        let s1 := c.s.setCore k { x with grants := x.grants.filter fun g => g.key != key }
        c.hold (s1.freeOn k) (.req (k + 1))

/-! ### Context switch -/

/-- Groups of a context in a state. -/
def State.groupsIn (s : State) (ctx : Nat) (st : GroupSt) : List (Nat × Group) :=
  s.groups.filter fun x => x.2.st == st && (s.grid x.2.grid).ctx == ctx

/-- `imgsv` (R304): each core that holds a group of the context queues it. -/
def execImgsv (d x : SReg) (s : State) : Out :=
  issue (.imgsv d x) s fun c =>
    let k := bitsOf (c.sAct x).toNat 5 0
    let put (n : Nat) : Act := c.writes (c.sls.map fun sl => .s sl d.toNat (BitVec.ofNat 64 n))
    match c.sp.wait with
    | .req u => put (Sparse.get 0 (c.s.ctx k).saves u)
    | _ =>
      let y := c.s.ctx k
      if k = 0 ∨ !y.asg ∨ y.out then put 0 else
      let (u, s1) := (c.s.setCtx k { y with out := true }).fresh
      let cores := ((s1.groupsIn k .resident ++ s1.groupsIn k .landing).map fun y => y.2.core).eraseDups
      c.hold (cores.foldl (fun s n => s.queueReq n { id := u, by_ := .save k, at_ := s.tick }) s1) (.req u)

/-- `imgld` (R304): the context's saved groups wait for a place. -/
def execImgld (d x : SReg) (s : State) : Out :=
  issue (.imgld d x) s fun c =>
    let k := bitsOf (c.sAct x).toNat 5 0
    let y := c.s.ctx k
    let put (s : State) (n : Nat) : Act :=
      let c1 : Cx := { c with s := s }
      c1.writes (c.sls.map fun sl => .s sl d.toNat (BitVec.ofNat 64 n))
    if !y.out then put c.s 0 else
    let s1 := c.s.setCtx k { y with out := false }
    let gs := s1.groupsIn k .saved
    put (gs.foldl (fun s z => (s.setGroup z.1 { s.group z.1 with queuedLd := true }).freeDie (coreDie z.2.core)) s1) gs.length

/-! ### Digests -/

/-- The latest grid of a partition launched from a descriptor. -/
def State.gridFrom (s : State) (part : Nat) (daddr : W64) : Option Grid :=
  (s.grids.filter fun x => x.2.part == part && x.2.daddr == daddr && x.2.st != .refused).foldl (fun b x => match b with
    | none => some x.2
    | some y => if y.acc ≤ x.2.acc then some x.2 else some y) none

/-- Value and mark, or zeros (R305). -/
def Cx.putDig (c : Cx) (d : SReg) (v : Option W64) : Act :=
  c.writes (c.sls.flatMap fun sl =>
    [.s sl d.toNat (v.getD 0), .s sl (d.toNat + 1) (if v.isSome then 1 else 0)])

/-- `digc.task` (R305). -/
def execDigcTask (d a : SReg) (s : State) : Out :=
  issue (.digcTask d a) s fun c =>
    c.putDig d ((c.s.gridFrom c.grd.part (c.sAct a)).bind fun g =>
      if g.st == .retired && g.det then some g.tdig else none)

/-- The number of a grid launched from a descriptor, the latest of a partition. -/
def State.gridNo (s : State) (part : Nat) (daddr : W64) : Option Nat :=
  (s.gridFrom part daddr).bind fun g => (s.grids.find? fun x => x.2 == g).map Prod.fst

/-- `digc.gang` (R305). -/
def execDigcGang (d a b : SReg) (s : State) : Out :=
  issue (.digcGang d a b) s fun c =>
    let n := bitsOf (c.sAct b).toNat 39 0
    c.putDig d ((c.s.gridNo c.grd.part (c.sAct a)).bind fun k =>
      let g := c.s.grid k
      let lin := n / g.gangs
      if !g.det then none else
      ((c.s.groupsOf k).find? fun x => x.2.lin == lin && x.2.st != .ended).map fun x =>
        (c.s.gang ⟨x.1, n % g.gangs⟩).dig)

/-! ### Events -/

/-- The event at a place of the queue taken; the entry that falls free carries the count of those dropped (R306). -/
def State.takeEvent (s : State) (k : Nat) : FwEvent × State :=
  let e := s.events.getD k ⟨0, 0, 0⟩
  let rest := s.events.eraseIdx k
  if s.dropped = 0 then (e, { s with events := rest })
  else (e, { s with events := rest ++ [⟨0xFF, BitVec.ofNat 64 s.dropped, 0⟩], dropped := 0 })

/-- `wfe` (R306). -/
def execWfe (d t : SReg) (s : State) : Out :=
  issue (.wfe d t) s fun c =>
    let put (s : State) (e : FwEvent) : Act :=
      let c1 : Cx := { c with s := s }
      c1.writes (c.sls.flatMap fun sl =>
        [.s sl d.toNat e.w0, .s sl (d.toNat + 1) e.w1, .s sl (d.toNat + 2) e.w2])
    let k := c.wfeRank
    match c.sp.wait with
    | .finished => put c.s ⟨0, 0, 0⟩
    | w =>
      if k < c.s.events.length then
        let x := c.s.takeEvent k
        put x.2 x.1
      else
        let n := c.sAct t
        if n = 0 then put c.s ⟨0, 0, 0⟩
        else match w with
          | .deadline .. => .stay c.s
          | _ => c.hold c.s (.deadline c.s.tick (if n = BitVec.allOnes 64 then 0 else c.s.now + n.toNat))

/-- WFE_TIMEOUT (R306): a `wfe` that waits past its time gives up. -/
def execWfeTimeout (r : GangRef) (s : State) : Out :=
  let g := s.gang r
  let late (x : Split) : Split := match x.wait with
    | .deadline _ t => if t != 0 && decide (t ≤ s.now) then { x with wait := .finished } else x
    | _ => x
  .next (s.setGang r { g with run := g.run.map late, pend := g.pend.map late })

end Sys2Proof.Machine
end

