-- ==== Sys2Proof/Machine/Dispatch.lean ====
section
/-!
DEFINITION. One arm per constructor of `Instr`: the direct call of its meaning.
-/
namespace Sys2Proof.Machine

/-- The effect of one instruction or event. -/
def exec (i : Instr) (s : State) : Host.Outcome State Fault Refusal :=
  match i with
  | .nop => Sys2Proof.Machine.execNop s
  | .pb p cnt pat => Sys2Proof.Machine.execPb p cnt pat s
  | .bra ht off => Sys2Proof.Machine.execBra ht off s
  | .brp ht p off => Sys2Proof.Machine.execBrp ht p off s
  | .brs ht c t a b off => Sys2Proof.Machine.execBrs ht c t a b off s
  | .brsImm ht c t a imm off => Sys2Proof.Machine.execBrsImm ht c t a imm off s
  | .brx ht a => Sys2Proof.Machine.execBrx ht a s
  | .call off => Sys2Proof.Machine.execCall off s
  | .callx a => Sys2Proof.Machine.execCallx a s
  | .ret => Sys2Proof.Machine.execRet s
  | .regang m => Sys2Proof.Machine.execRegang m s
  | .yield => Sys2Proof.Machine.execYield s
  | .exit => Sys2Proof.Machine.execExit s
  | .trap k => Sys2Proof.Machine.execTrap k s
  | .brk k => Sys2Proof.Machine.execBrk k s
  | .enter n => Sys2Proof.Machine.execEnter n s
  | .leave n => Sys2Proof.Machine.execLeave n s
  | .add t d a b => Sys2Proof.Machine.execAdd t d a b s
  | .sub t d a b => Sys2Proof.Machine.execSub t d a b s
  | .mul t d a b => Sys2Proof.Machine.execMul t d a b s
  | .mulhi t d a b => Sys2Proof.Machine.execMulhi t d a b s
  | .mad t d a b c => Sys2Proof.Machine.execMad t d a b c s
  | .madw t d a b c => Sys2Proof.Machine.execMadw t d a b c s
  | .div la t d a b => Sys2Proof.Machine.execDiv la t d a b s
  | .rem la t d a b => Sys2Proof.Machine.execRem la t d a b s
  | .min t d a b => Sys2Proof.Machine.execMin t d a b s
  | .max t d a b => Sys2Proof.Machine.execMax t d a b s
  | .abs t d a => Sys2Proof.Machine.execAbs t d a s
  | .neg t d a => Sys2Proof.Machine.execNeg t d a s
  | .addc t d a b p => Sys2Proof.Machine.execAddc t d a b p s
  | .subb t d a b p => Sys2Proof.Machine.execSubb t d a b p s
  | .clz t d a => Sys2Proof.Machine.execClz t d a s
  | .popc t d a => Sys2Proof.Machine.execPopc t d a s
  | .and t d a b => Sys2Proof.Machine.execAnd t d a b s
  | .or t d a b => Sys2Proof.Machine.execOr t d a b s
  | .xor t d a b => Sys2Proof.Machine.execXor t d a b s
  | .not t d a => Sys2Proof.Machine.execNot t d a s
  | .andn t d a b => Sys2Proof.Machine.execAndn t d a b s
  | .shl t d a b => Sys2Proof.Machine.execShl t d a b s
  | .shr t d a b => Sys2Proof.Machine.execShr t d a b s
  | .sar t d a b => Sys2Proof.Machine.execSar t d a b s
  | .rot right t d a b => Sys2Proof.Machine.execRot right t d a b s
  | .bfx t d a b c => Sys2Proof.Machine.execBfx t d a b c s
  | .bfi t d a b c => Sys2Proof.Machine.execBfi t d a b c s
  | .brev t d a => Sys2Proof.Machine.execBrev t d a s
  | .sel t d a b p => Sys2Proof.Machine.execSel t d a b p s
  | .mov t d a => Sys2Proof.Machine.execMov t d a s
  | .movi t d imm => Sys2Proof.Machine.execMovi t d imm s
  | .moviWide t d imm => Sys2Proof.Machine.execMoviWide t d imm s
  | .lea t d a b k => Sys2Proof.Machine.execLea t d a b k s
  | .cmp c t p a b => Sys2Proof.Machine.execCmp c t p a b s
  | .cmpf c m t p a b => Sys2Proof.Machine.execCmpf c m t p a b s
  | .pand d a b => Sys2Proof.Machine.execPand d a b s
  | .por d a b => Sys2Proof.Machine.execPor d a b s
  | .pxor d a b => Sys2Proof.Machine.execPxor d a b s
  | .pnot d a => Sys2Proof.Machine.execPnot d a s
  | .ppack d => Sys2Proof.Machine.execPpack d s
  | .punpk a => Sys2Proof.Machine.execPunpk a s
  | .vote k d a => Sys2Proof.Machine.execVote k d a s
  | .gsr t d code => Sys2Proof.Machine.execGsr t d code s
  | .ssr code a => Sys2Proof.Machine.execSsr code a s
  | .fadd m t d a b => Sys2Proof.Machine.execFadd m t d a b s
  | .fsub m t d a b => Sys2Proof.Machine.execFsub m t d a b s
  | .fmul m t d a b => Sys2Proof.Machine.execFmul m t d a b s
  | .fma m t d a b c => Sys2Proof.Machine.execFma m t d a b c s
  | .fmin prop m t d a b => Sys2Proof.Machine.execFmin prop m t d a b s
  | .fmax prop m t d a b => Sys2Proof.Machine.execFmax prop m t d a b s
  | .fabs m t d a => Sys2Proof.Machine.execFabs m t d a s
  | .fneg m t d a => Sys2Proof.Machine.execFneg m t d a s
  | .fdiv la m t d a b => Sys2Proof.Machine.execFdiv la m t d a b s
  | .fsqrt la m t d a => Sys2Proof.Machine.execFsqrt la m t d a s
  | .frcp la m t d a => Sys2Proof.Machine.execFrcp la m t d a s
  | .frsq la m t d a => Sys2Proof.Machine.execFrsq la m t d a s
  | .fex2 la m t d a => Sys2Proof.Machine.execFex2 la m t d a s
  | .flg2 la m t d a => Sys2Proof.Machine.execFlg2 la m t d a s
  | .frnd m t d a => Sys2Proof.Machine.execFrnd m t d a s
  | .fclass m t d a => Sys2Proof.Machine.execFclass m t d a s
  | .fdot2 m t d a b c => Sys2Proof.Machine.execFdot2 m t d a b c s
  | .fscale m t d a b => Sys2Proof.Machine.execFscale m t d a b s
  | .fsgn m t d a b => Sys2Proof.Machine.execFsgn m t d a b s
  | .cvt m st dt d a => Sys2Proof.Machine.execCvt m st dt d a s
  | .cvt8 k m t d a b => Sys2Proof.Machine.execCvt8 k m t d a b s
  | .cvt4 k m t d a => Sys2Proof.Machine.execCvt4 k m t d a s
  | .pk k d a => Sys2Proof.Machine.execPk k d a s
  | .upk k d a => Sys2Proof.Machine.execUpk k d a s
  | .bscl k t d a => Sys2Proof.Machine.execBscl k t d a s
  | .sext t d a b => Sys2Proof.Machine.execSext t d a b s
  | .shfl t d a b => Sys2Proof.Machine.execShfl t d a b s
  | .shup t d a k => Sys2Proof.Machine.execShup t d a k s
  | .shdn t d a k => Sys2Proof.Machine.execShdn t d a k s
  | .shxor t d a k => Sys2Proof.Machine.execShxor t d a k s
  | .bcast t d a k => Sys2Proof.Machine.execBcast t d a k s
  | .redg la op m t d a => Sys2Proof.Machine.execRedg la op m t d a s
  | .scang la excl op m t d a => Sys2Proof.Machine.execScang la excl op m t d a s
  | .mxix la t d a b => Sys2Proof.Machine.execMxix la t d a b s
  | .sieve la d p => Sys2Proof.Machine.execSieve la d p s
  | .elect p => Sys2Proof.Machine.execElect p s
  | .ld la o sc t d base off => Sys2Proof.Machine.execLd la o sc t d base off s
  | .st o sc t base off c => Sys2Proof.Machine.execSt o sc t base off c s
  | .lds la o sc t d base off => Sys2Proof.Machine.execLds la o sc t d base off s
  | .sts o sc t base off c => Sys2Proof.Machine.execSts o sc t base off c s
  | .ldl la o sc t d base off => Sys2Proof.Machine.execLdl la o sc t d base off s
  | .stl o sc t base off c => Sys2Proof.Machine.execStl o sc t base off c s
  | .sld la o sc t d base off => Sys2Proof.Machine.execSld la o sc t d base off s
  | .sst o sc t base off c => Sys2Proof.Machine.execSst o sc t base off c s
  | .pf sc base off => Sys2Proof.Machine.execPf sc base off s
  | .ldm la o sc d base off n => Sys2Proof.Machine.execLdm la o sc d base off n s
  | .stm o sc base off c n => Sys2Proof.Machine.execStm o sc base off c n s
  | .sti o sc d k9 j x => Sys2Proof.Machine.execSti o sc d k9 j x s
  | .fence o sc => Sys2Proof.Machine.execFence o sc s
  | .waitc p t => Sys2Proof.Machine.execWaitc p t s
  | .atom la op o sc t d base off c => Sys2Proof.Machine.execAtom la op o sc t d base off c s
  | .red perSlice op o sc t base off c => Sys2Proof.Machine.execRed perSlice op o sc t base off c s
  | .pvop op o sc t d a b n => Sys2Proof.Machine.execPvop op o sc t d a b n s
  | .bar k cnt => Sys2Proof.Machine.execBar k cnt s
  | .arrive d k cnt => Sys2Proof.Machine.execArrive d k cnt s
  | .bwait k p => Sys2Proof.Machine.execBwait k p s
  | .copy k d dst src n => Sys2Proof.Machine.execCopy k d dst src n s
  | .wtl p t => Sys2Proof.Machine.execWtl p t s
  | .tst p t => Sys2Proof.Machine.execTst p t s
  | .cancel p t => Sys2Proof.Machine.execCancel p t s
  | .trig => Sys2Proof.Machine.execTrig s
  | .mmx t c a => Sys2Proof.Machine.execMmx t c a s
  | .mmxNar c a f => Sys2Proof.Machine.execMmxNar c a f s
  | .bpub la q a o => Sys2Proof.Machine.execBpub la q a o s
  | .mfence d => Sys2Proof.Machine.execMfence d s
  | .mzero d => Sys2Proof.Machine.execMzero d s
  | .mtr t d a => Sys2Proof.Machine.execMtr t d a s
  | .launch d a => Sys2Proof.Machine.execLaunch d a s
  | .gwait p h => Sys2Proof.Machine.execGwait p h s
  | .gcond p n v => Sys2Proof.Machine.execGcond p n v s
  | .nput ordered o sc d t r l n => Sys2Proof.Machine.execNput ordered o sc d t r l n s
  | .nget la o sc t d tg r => Sys2Proof.Machine.execNget la o sc t d tg r s
  | .natm la op o sc t d tg r c => Sys2Proof.Machine.execNatm la op o sc t d tg r c s
  | .ncoll k o sc t d a => Sys2Proof.Machine.execNcoll k o sc t d a s
  | .rft => Sys2Proof.Machine.execRft s
  | .psr t d code k => Sys2Proof.Machine.execPsr t d code k s
  | .pwr code k v => Sys2Proof.Machine.execPwr code k v s
  | .tlbgen d c => Sys2Proof.Machine.execTlbgen d c s
  | .sqz a => Sys2Proof.Machine.execSqz a s
  | .xpand a => Sys2Proof.Machine.execXpand a s
  | .imgsv d c => Sys2Proof.Machine.execImgsv d c s
  | .imgld d c => Sys2Proof.Machine.execImgld d c s
  | .digcGang d a b => Sys2Proof.Machine.execDigcGang d a b s
  | .digcTask d a => Sys2Proof.Machine.execDigcTask d a s
  | .wfe d t => Sys2Proof.Machine.execWfe d t s
  | .clkctlTargetWrite cluster x => Sys2Proof.Machine.execClkctlTargetWrite cluster x s
  | .portFence port => Sys2Proof.Machine.execPortFence port s
  | .portReadmit port => Sys2Proof.Machine.execPortReadmit port s
  | .energyCounterWrite ctx x => Sys2Proof.Machine.execEnergyCounterWrite ctx x s
  | .trapEntry g => Sys2Proof.Machine.execTrapEntry g s
  | .noticeDelivery g => Sys2Proof.Machine.execNoticeDelivery g s
  | .longLatencyCompletion g entry => Sys2Proof.Machine.execLongLatencyCompletion g entry s
  | .accessApplied g entry idx => Sys2Proof.Machine.execAccessApplied g entry idx s
  | .bpubCompletion g entry => Sys2Proof.Machine.execBpubCompletion g entry s
  | .batchExecution ctx num errs => Sys2Proof.Machine.execBatchExecution ctx num errs s
  | .copyCompletion ctx num => Sys2Proof.Machine.execCopyCompletion ctx num s
  | .pvopCompletion ctx num => Sys2Proof.Machine.execPvopCompletion ctx num s
  | .squeezeRequest grid => Sys2Proof.Machine.execSqueezeRequest grid s
  | .requestTaken core => Sys2Proof.Machine.execRequestTaken core s
  | .fold group => Sys2Proof.Machine.execFold group s
  | .imageWriteFault group addr => Sys2Proof.Machine.execImageWriteFault group addr s
  | .suspension core => Sys2Proof.Machine.execSuspension core s
  | .resumption group core => Sys2Proof.Machine.execResumption group core s
  | .expansion core => Sys2Proof.Machine.execExpansion core s
  | .taskEnd code g fa => Sys2Proof.Machine.execTaskEnd code g fa s
  | .launchAcceptance => Sys2Proof.Machine.execLaunchAcceptance s
  | .residencyComplete r => Sys2Proof.Machine.execResidencyComplete r s
  | .groupDispatch grid core slices img stk => Sys2Proof.Machine.execGroupDispatch grid core slices img stk s
  | .groupEnd group => Sys2Proof.Machine.execGroupEnd group s
  | .completionEvent grid => Sys2Proof.Machine.execCompletionEvent grid s
  | .patienceExpiry graph => Sys2Proof.Machine.execPatienceExpiry graph s
  | .tsync => Sys2Proof.Machine.execTsync s
  | .tsyncReceive t1 => Sys2Proof.Machine.execTsyncReceive t1 s
  | .treq port t3 => Sys2Proof.Machine.execTreq port t3 s
  | .tresp t4 => Sys2Proof.Machine.execTresp t4 s
  | .holdover => Sys2Proof.Machine.execHoldover s
  | .orderedPacketArrival port pkt w => Sys2Proof.Machine.execOrderedPacketArrival port pkt w s
  | .beacon port w => Sys2Proof.Machine.execBeacon port w s
  | .beaconTimer port => Sys2Proof.Machine.execBeaconTimer port s
  | .orderedDelivery => Sys2Proof.Machine.execOrderedDelivery s
  | .watermarkStall port => Sys2Proof.Machine.execWatermarkStall port s
  | .laneShedding port lanes => Sys2Proof.Machine.execLaneShedding port lanes s
  | .unorderedPacketArrival pkt => Sys2Proof.Machine.execUnorderedPacketArrival pkt s
  | .packetRefusal ctx num => Sys2Proof.Machine.execPacketRefusal ctx num s
  | .networkAck ctx num value => Sys2Proof.Machine.execNetworkAck ctx num value s
  | .networkTimeout ctx num => Sys2Proof.Machine.execNetworkTimeout ctx num s
  | .collectiveCompletion ctx num cs => Sys2Proof.Machine.execCollectiveCompletion ctx num cs s
  | .collectiveTimeout ctx num => Sys2Proof.Machine.execCollectiveTimeout ctx num s
  | .frequencyChange cluster => Sys2Proof.Machine.execFrequencyChange cluster s
  | .ratioSwitch cluster => Sys2Proof.Machine.execRatioSwitch cluster s
  | .powerWindow watts => Sys2Proof.Machine.execPowerWindow watts s
  | .boardPowerLimitInput watts => Sys2Proof.Machine.execBoardPowerLimitInput watts s
  | .stallSample cluster num den => Sys2Proof.Machine.execStallSample cluster num den s
  | .energyTick charges => Sys2Proof.Machine.execEnergyTick charges s
  | .fillerStart cluster before after drops => Sys2Proof.Machine.execFillerStart cluster before after drops s
  | .fillerEnd real => Sys2Proof.Machine.execFillerEnd real s
  | .gateIntent cluster => Sys2Proof.Machine.execGateIntent cluster s
  | .gated cluster => Sys2Proof.Machine.execGated cluster s
  | .gatectlWrite cluster x => Sys2Proof.Machine.execGatectlWrite cluster x s
  | .wakingComplete cluster => Sys2Proof.Machine.execWakingComplete cluster s
  | .kickRegisterWrite part q w => Sys2Proof.Machine.execKickRegisterWrite part q w s
  | .nopPacket => Sys2Proof.Machine.execNopPacket s
  | .launchPacket serial desc => Sys2Proof.Machine.execLaunchPacket serial desc s
  | .graph mode table log snap bytes => Sys2Proof.Machine.execGraph mode table log snap bytes s
  | .signal irq addr x => Sys2Proof.Machine.execSignal irq addr x s
  | .waitv addr x => Sys2Proof.Machine.execWaitv addr x s
  | .fencePacket => Sys2Proof.Machine.execFencePacket s
  | .battenHalt k9 => Sys2Proof.Machine.execBattenHalt k9 s
  | .battenDone => Sys2Proof.Machine.execBattenDone s
  | .battenLi d k9 => Sys2Proof.Machine.execBattenLi d k9 s
  | .battenLdp d k9 => Sys2Proof.Machine.execBattenLdp d k9 s
  | .battenLdq d k9 => Sys2Proof.Machine.execBattenLdq d k9 s
  | .battenStq a k9 => Sys2Proof.Machine.execBattenStq a k9 s
  | .battenLdw d a w o => Sys2Proof.Machine.execBattenLdw d a w o s
  | .battenStw a b w o => Sys2Proof.Machine.execBattenStw a b w o s
  | .battenAdd d a b => Sys2Proof.Machine.execBattenAdd d a b s
  | .battenSub d a b => Sys2Proof.Machine.execBattenSub d a b s
  | .battenAnd d a b => Sys2Proof.Machine.execBattenAnd d a b s
  | .battenOr d a b => Sys2Proof.Machine.execBattenOr d a b s
  | .battenXor d a b => Sys2Proof.Machine.execBattenXor d a b s
  | .battenShl d a b => Sys2Proof.Machine.execBattenShl d a b s
  | .battenShr d a b => Sys2Proof.Machine.execBattenShr d a b s
  | .battenAddi d a k9 => Sys2Proof.Machine.execBattenAddi d a k9 s
  | .battenBeq a b k9 => Sys2Proof.Machine.execBattenBeq a b k9 s
  | .battenBne a b k9 => Sys2Proof.Machine.execBattenBne a b k9 s
  | .battenRpt t n => Sys2Proof.Machine.execBattenRpt t n s
  | .battenSubm a => Sys2Proof.Machine.execBattenSubm a s
  | .battenSgr a b => Sys2Proof.Machine.execBattenSgr a b s
  | .battenWgeq a b => Sys2Proof.Machine.execBattenWgeq a b s
  | .battenFnc => Sys2Proof.Machine.execBattenFnc s
  | .battenSig a b k9 => Sys2Proof.Machine.execBattenSig a b k9 s
  | .hostWindowAccess ctl off wide write => Sys2Proof.Machine.execHostWindowAccess ctl off wide write s
  | .registerWrite r x => Sys2Proof.Machine.execRegisterWrite r x s
  | .dmaTailWrite ch x => Sys2Proof.Machine.execDmaTailWrite ch x s
  | .dmaDescriptorCompletion ch => Sys2Proof.Machine.execDmaDescriptorCompletion ch s
  | .dlen x => Sys2Proof.Machine.execDlen x s
  | .wfeTimeout g => Sys2Proof.Machine.execWfeTimeout g s
  | .serialReExecutionResult graph ok => Sys2Proof.Machine.execSerialReExecutionResult graph ok s
  | .ctxasgWrite ctx x => Sys2Proof.Machine.execCtxasgWrite ctx x s
  | .battenPacketStart part q => Sys2Proof.Machine.execBattenPacketStart part q s
  | .m3Extend data => Sys2Proof.Machine.execM3Extend data s
  | .powerUp => Sys2Proof.Machine.execPowerUp s
  | .linkTrained => Sys2Proof.Machine.execLinkTrained s
  | .bootVerification => Sys2Proof.Machine.execBootVerification s
  | .linkFailure => Sys2Proof.Machine.execLinkFailure s
  | .setMode => Sys2Proof.Machine.execSetMode s
  | .assignContext => Sys2Proof.Machine.execAssignContext s
  | .enableQueue => Sys2Proof.Machine.execEnableQueue s
  | .disableQueue => Sys2Proof.Machine.execDisableQueue s
  | .errorLog => Sys2Proof.Machine.execErrorLog s
  | .unknownCommand => Sys2Proof.Machine.execUnknownCommand s

end Sys2Proof.Machine
end

