-- ==== Sys2Proof/Machine/Issue.lean ====
section
/-!
DEFINITION. Turns: a quadrant's issue (R41 to R46, R53), a queue's interpreter (R338), and which turn is taken when none is listed.
-/
namespace Sys2Proof.Machine

/-! ### Readiness (R41) -/

/-- Groups on a core whose gangs may issue: those that have landed there. -/
def State.onCore (s : State) (core : Nat) : List (Nat × Group) :=
  s.groups.filter fun x => x.2.st == .resident && x.2.core == core

/-- Whether a gang has something to do at once: an instruction, a trap whose windows have completed, a notice. -/
def State.gangReady (s : State) (r : GangRef) : Bool :=
  let s1 := s.settle r
  let g := s1.gang r
  match g.run with
  | none => false
  | some x => (g.trapReq.isSome && !g.openWins x) || s1.noticeReady r || s1.splitReady r x

/-- Whether a gang has just yielded (R43). -/
def Gang.napping (g : Gang) : Bool := match g.run.map Split.wait with
  | some (.nap _) => true
  | _ => false

/-! ### Gangs of a core -/

/-- Live gangs resident on a core. -/
def State.gangsOf (s : State) (core : Nat) : List GangRef :=
  (s.onCore core).flatMap fun x =>
    ((List.range (s.grid x.2.grid).gangs).map fun j => (⟨x.1, j⟩ : GangRef)).filter fun r => (s.gang r).live != 0

/-- The launch of a gang. -/
def State.gridRef (s : State) (r : GangRef) : Grid := s.grid (s.group r.group).grid

/-- The least of a list under keys compared from the left. -/
def leastBy (key : GangRef → List Nat) : List GangRef → Option GangRef
  | [] => none
  | r :: rs => match leastBy key rs with
    | none => some r
    | some q => if decide (key q < key r) then some q else some r

/-! ### Rotation of physical slices (R53, R265) -/

/-- A gang's slices pass to another gang of its group. -/
def State.passOn (s : State) (r q : GangRef) : State :=
  let h := (s.gang r).held
  let s1 := s.setGang r { s.gang r with held := [] }
  s1.setGang q { s1.gang q with held := h }

/-- Gangs of a group, in cyclic order from gang n on. -/
def State.cycle (s : State) (k n : Nat) : List GangRef :=
  let G := (s.grid (s.group k).grid).gangs
  (List.range G).map fun i => ⟨k, (n + i) % G⟩

/-- Whether a gang is at a rotation point: it has ended or yielded, or no split of it can run and the running one waits where R53 rotates. A
gang that goes on waiting stays at its rotation point (log entry 128). -/
def State.atRotation (s : State) (r : GangRef) : Bool :=
  let s1 := s.settle r
  let g := s1.gang r
  g.live == 0 || (s.gang r).napping || match g.run with
    | none => true
    | some x => match s1.nextCx r x with
      | some c => c.switches
      | none => false

/-- A gang at a rotation point hands its slices to the next ready rotated-out gang of its group, if there is one. -/
def State.rotateAt (s : State) (r : GangRef) : State :=
  if (s.gang r).held.isEmpty || !s.atRotation r then s else
  match (s.cycle r.group (r.gang + 1)).find? fun q =>
      let h := s.gang q
      q != r && h.live != 0 && h.held.isEmpty && s.gangReady q with
  | some q => s.passOn r q
  | none => s

/-- Rotation on a core: in groups below full level. -/
def State.rotateCore (s : State) (core : Nat) : State :=
  (s.onCore core).foldl (fun s x => if x.2.lanesLv = 4 then s else (s.cycle x.1 0).foldl (fun s r => s.rotateAt r) s) s

/-! ### The current gang of deterministic mode (R42) -/

/-- Order of preference among deterministic gangs. -/
def State.detKey (s : State) (r : GangRef) : List Nat := [(s.gridRef r).acc, (s.group r.group).lin, r.gang]

/-- Deterministic gangs of a core. -/
def State.detGangs (s : State) (core : Nat) : List GangRef := (s.gangsOf core).filter fun r => (s.gridRef r).det

/-- Whether a current gang stays current: it is at no switch point. One whose running split has parked or exited goes on with a pending split
that is ready. -/
def State.staysCurrent (s : State) (r : GangRef) : Bool :=
  let g := s.gang r
  !g.napping && match g.run with
    | none => (s.nextPending r).isSome
    | some x => match s.nextCx r x with
      | some c => !c.switches
      | none => true

/-- Whether a gang can issue now: a rotated-out gang is not ready (R265). -/
def State.mayIssue (s : State) (r : GangRef) : Bool := !(s.gang r).held.isEmpty && s.gangReady r

/-- The choice at a switch point: the ready gang that comes first, one that has just yielded only when it alone is ready. -/
def State.pickDet (s : State) (core : Nat) : Option GangRef :=
  let ready := (s.detGangs core).filter s.mayIssue
  let awake := ready.filter fun r => !(s.gang r).napping
  leastBy s.detKey (if awake.isEmpty then ready else awake)

/-- Gangs that had yielded may issue again: what is left of their `yield`. -/
def State.wake (s : State) (rs : List GangRef) (left : Wait) : State :=
  rs.foldl (fun s r =>
    let g := s.gang r
    match g.run with
    | some x => if x.yielded then s.setGang r { g with run := some { x with wait := left } } else s
    | none => s) s

/-- The core's current gang: it stays, or is chosen, and its first ready pending split then runs (R45). A `yield` excludes its gang from one
choice; its split gives way when its own gang becomes current. With none ready there is no current gang until one is. -/
def State.chooseDet (s : State) (core : Nat) : State :=
  let cur := (s.core core).curGang.filter (s.detGangs core).contains
  let set (s : State) (x : Option GangRef) : State :=
    if (s.core core).curGang = x then s else s.setCore core { s.core core with curGang := x }
  if cur.any s.staysCurrent then s else
  match s.pickDet core with
  | none => set s none
  | some r => set (((s.settle r).wake [r] .none).wake ((s.detGangs core).filter fun q => q != r) .gave) (some r)

/-! ### Issue (R41) -/

/-- The gang that a quadrant issues for: the current deterministic gang, else the ready gang that has waited longest. -/
def State.pickGang (s : State) (core quad : Nat) : Option GangRef :=
  let gs := (s.gangsOf core).filter fun r => r.gang % 4 == quad
  let det := (s.core core).curGang.filter fun r => gs.contains r && (s.gridRef r).det && s.mayIssue r
  match det with
  | some r => some r
  | none =>
    leastBy (fun r => [(s.gang r).last, (s.group r.group).seq, r.group, r.gang])
      (gs.filter fun r => !(s.gridRef r).det && !(s.gang r).napping && s.mayIssue r)

/-- One gang's issue: a trap that has waited, a notice, or its next instruction. -/
def State.issueGang (s : State) (r : GangRef) : Out :=
  let s1 := { s.settle r with cur := r }
  let g := s1.gang r
  match g.run with
  | none => .next s1
  | some x =>
    if g.trapReq.isSome then exec (.trapEntry r) s1
    else if s1.noticeReady r then exec (.noticeDelivery r) s1
    else match s1.nextInstr r x with
    | .ok pc i => exec i (s1.runAs r { x with pc := pc })
    | .pads pc => .next (s1.runAs r { x with pc := pc })
    | .trap pc cause sub insn =>
      .next ((s1.runAs r { x with pc := pc }).raise r ⟨cause, sub, pc, 0, x.mask, insn⟩)
    | .task code pc => .next (s1.endTaskOf r code pc.toNat)

/-- A quadrant's clock; it has passed for the gangs of normal mode that had yielded (R43). -/
def State.issueTurn (s : State) (core quad : Nat) : Out :=
  let s1 := (s.rotateCore core).chooseDet core
  let naps := (s1.gangsOf core).filter fun r => r.gang % 4 == quad && !(s1.gridRef r).det && (s1.gang r).napping
  match s1.pickGang core quad with
  | none => .next (s1.wake naps .none)
  | some r => (s1.wake (naps.filter fun q => q != r) .none).issueGang r

/-! ### Queues (R338) -/

/-- A queue's interpreter: the next packet, or the next instruction of the packet at work, while the queue's context is the partition's. -/
def State.queueTurn (s : State) (part q : Nat) : Out :=
  let s1 := { s with curQ := (part, q) }
  let x := s1.queue (qkey part q)
  match x.it with
  | none => exec (.battenPacketStart part q) s1
  | some it =>
    if !x.working || !s.ownsCtx part x.ctx then .next s1
    else match (if it.std then stdPacket it.words else decodeBatten (x.prog.getD it.pc 0)) with
      | some i => exec i s1
      | none => exec (.battenHalt 0) s1

/-! ### Which turn comes next -/

/-- Rows that happen to the machine, in contrast to those that a gang, a program or a packet runs. -/
def Instr.isEvent (i : Instr) : Bool :=
  (encode i).isEmpty && match i with
    | .nopPacket | .launchPacket .. | .graph .. | .signal .. | .waitv .. | .fencePacket => false
    | _ => true

/-- Places for a launch that nothing else fixes, each by a free number: an area for its stacks, a slot in the context's image area, and the
stacks of its next group in one of its areas. -/
def State.someArea (s : State) (d : Grid) (n : Nat) : Nat × Nat :=
  ((Config.freeWord s.tick).toNat / 256 * 256, (1 + n % Nat.max 1 d.count) * (d.slices * d.stack))
def State.someSlot (s : State) (d : Grid) (n : Nat) : W64 :=
  (s.ctx d.ctx).imgbase + BitVec.ofNat 64 (64 * (n % Nat.max 1 ((s.ctx d.ctx).imgsz.toNat / 64)))
def State.someStack (s : State) (grid n : Nat) : W64 :=
  let d := s.grid grid
  let spots := d.stks.flatMap fun r => (List.range (Nat.max 1 d.count)).map fun i => r.1 + i * (d.slices * d.stack)
  BitVec.ofNat 64 ((turned n (spots.filter (s.stackFree grid))).getD 0 0)

/-- Events that the machine itself may be due: each does nothing when it is not. -/
def State.dueEvents (s : State) : List Instr :=
  let gs := s.gangs.map fun x => (⟨x.1 / 32, x.1 % 32⟩ : GangRef)
  let cores := ((s.groups.map fun x => x.2.core) ++ s.cores.map Prod.fst).eraseDups
  let n := Config.turnChoice s.tick
  [.launchAcceptance, .orderedDelivery, .bootVerification, .setMode, .assignContext, .enableQueue, .disableQueue, .errorLog,
   .unknownCommand, .tsync, .holdover] ++
  gs.flatMap (fun r => [.trapEntry r, .noticeDelivery r, .wfeTimeout r] ++ (s.gang r).infl.flatMap fun e =>
    [.longLatencyCompletion r e.id, .bpubCompletion r e.id] ++ (List.range e.accs.length).map fun k => .accessApplied r e.id k) ++
  s.ctxs.flatMap (fun c => c.2.ops.flatMap fun o =>
    let num := okeyNum o.1
    [.batchExecution c.1 num [], .copyCompletion c.1 num, .pvopCompletion c.1 num, .collectiveCompletion c.1 num [],
     .networkTimeout c.1 num, .collectiveTimeout c.1 num]) ++
  cores.flatMap (fun k => [.requestTaken k, .suspension k, .expansion k]) ++
  s.groups.flatMap (fun x => [.fold x.1, .groupEnd x.1] ++ cores.map fun k => .resumption x.1 k) ++
  s.grids.flatMap (fun x => [.residencyComplete ⟨x.1, [s.someArea x.2 n]⟩, .completionEvent x.1, .squeezeRequest x.1] ++
    (List.range Config.cores).map fun k =>
      .groupDispatch x.1 k (fullSlices x.2 (turned n (s.freeSlices x.2.ctx k))) (s.someSlot x.2 n) (s.someStack x.1 n)) ++
  s.graphs.flatMap (fun x => [.patienceExpiry x.1, .serialReExecutionResult x.1 true, .serialReExecutionResult x.1 false]) ++
  (List.range Config.ports).flatMap (fun p => [.beaconTimer p, .watermarkStall p]) ++
  (List.range Config.clusters).flatMap (fun k =>
    [.frequencyChange k, .ratioSwitch k, .gateIntent k, .gated k, .wakingComplete k,
     .stallSample k (s.cluster k).stallNum (s.cluster k).stallDen, .fillerEnd ⟨k, n⟩]) ++
  (List.range 8).map fun c => .dmaDescriptorCompletion c

/-- Whether something that was issued in a step has been under way for long (R155; log entry 2). -/
def State.old (s : State) (since : Nat) : Bool := decide (since + Config.accessBound ≤ s.tick)

/-- An access of a gang that has been in flight for long and can be applied: no access is held back for ever (R155). -/
def State.overdue (s : State) : Option Turn :=
  s.gangs.findSome? fun x => x.2.infl.findSome? fun e =>
    let r : GangRef := ⟨x.1 / 32, x.1 % 32⟩
    if !s.old e.since then none else
    (e.accs.zipIdx.find? fun a => s.mayApply r e a.1).map fun a => Turn.event (.accessApplied r e.id a.2)

/-- The turn that takes an engine operation further, if there is one that does. -/
def State.opTurn (s : State) (ctx key : Nat) (o : Op) : Option Turn :=
  let num := okeyNum key
  let mine := Turn.engine ctx key 0
  if o.st.final || !s.opMayStart o then none else
  match o.kind with
  | .copy .. => some (.event (.copyCompletion ctx num))
  | .pvop .. => some (.event (.pvopCompletion ctx num))
  | .batch _ => (s.batchAt ctx num).map fun _ => .event (.batchExecution ctx num [])
  | .put ordered tgt _ _ n =>
    if n ≤ o.pos || (ordered && (!(s.ctx ctx).stampFirst o num || s.queueFull (tgtPkg tgt) || (s.stamps ((n + 223) / 224)).isNone)) then none
    else some mine
  | .get .. => if o.pos == 0 then some mine else none
  | .natm _ _ tgt _ _ _ =>
    if o.pos != 0 || !(s.ctx ctx).stampFirst o num || s.queueFull (tgtPkg tgt) || (s.stamps 1).isNone then none else some mine
  | .coll _ _ _ [] _ _ => if (s.ctx ctx).stampFirst o num && (s.stamps 1).isSome then some mine else none
  | .coll .. =>
    if (s.collIn o).any (fun c => !c.agrees) || (s.collMay o).isSome then some (.event (.collectiveCompletion ctx num [])) else none
  | .none => none

/-- Whether a packet is of an operation of this package that is long under way. -/
def State.oldPkt (s : State) (p : Packet) : Bool := p.src == s.srcid && s.old (s.op p.ctx engNet p.num).at_

/-- An engine operation, or a packet of one, that has been under way for long and can go on. -/
def State.overdueOp (s : State) : Option Turn :=
  let ops := s.ctxs.findSome? fun c => c.2.ops.findSome? fun o => if s.old o.2.at_ then s.opTurn c.1 o.1 o.2 else none
  let pkts := (s.outbox.find? fun p => p.pkg == s.srcid && s.oldPkt p).map fun p => Turn.event (.unorderedPacketArrival p)
  let heads := s.localq.head?.toList ++ s.orderedPorts.filterMap fun k => (s.port k).inq.head?
  let due := s.localq.any s.oldPkt && !s.collBefore s.boundM && heads.any fun p => p.stamp == s.boundM
  (ops.or pkts).or (if due then some (.event .orderedDelivery) else none)

/-- Turns that may come next when none is listed. -/
def State.turns (s : State) : List Turn :=
  .elapse 1 :: s.dueEvents.map Turn.event ++
  (s.groups.flatMap fun x => (List.range 4).map fun q => Turn.issue x.2.core q) ++
  (s.queues.map fun x => Turn.queue (x.1 / 64) (x.1 % 64)) ++
  (s.gangs.flatMap fun x => (x.2.lines.filter fun l => l.2.going).map fun l => Turn.evict ⟨x.1 / 32, x.1 % 32⟩ l.1) ++
  s.ctxs.flatMap fun c => c.2.ops.flatMap fun o =>
    (if o.2.rest.isEmpty then [0] else o.2.rest).map fun k => Turn.engine c.1 o.1 k

/-- The turn taken when none is listed: an overdue access or engine operation if there is one, else one of those, which one is free (log entry 2). -/
def State.freeTurn (s : State) : Turn :=
  (s.overdue.or s.overdueOp).getD (s.turns.getD (Config.turnChoice s.tick % s.turns.length) (.elapse 1))

/-- One turn. -/
def State.turn (s : State) : Turn → Out
  | .issue core quad => s.issueTurn core quad
  | .queue part q => s.queueTurn part q
  | .engine ctx key amount => .next (s.engineTurn ctx key amount)
  | .event e => if Instr.isEvent e then exec e s else .next s
  | .elapse ns => .next (s.elapse ns)
  | .pool ctx core quads sl ln scr => .next { s with pool := some ⟨ctx, core, quads, sl, ln, scr⟩ }
  | .noPool => .next { s with pool := none }
  | .evict r key => .next (s.evictDue r key)
  | .window part ctx first bytes => .next { s with exported := s.exported.put part (ctx, first, bytes) }

/-- The turn to take now, and the state with it taken off the list; every step counts. -/
def State.nextTurn (s : State) : Turn × State :=
  match s.agenda with
  | t :: ts => (t, { s with agenda := ts, tick := s.tick + 1 })
  | [] => (s.freeTurn, { s with tick := s.tick + 1 })

end Sys2Proof.Machine
end

