-- ==== Sys2Proof/Machine/Step.lean ====
section
/-!
DEFINITION. One step of the machine: one turn. And a state whose next step fetches a given instruction word.
-/
namespace Sys2Proof.Machine

/-- One step. -/
def step (s : State) : Out := s.nextTurn.2.turn s.nextTurn.1

/-- Where `withFetchWord` puts a gang instruction: a virtual address, and the physical address that it maps it to. -/
def fetchVa : Nat := 0x40000000

/-- A launch descriptor of one gang of 32 lanes with 256 registers. -/
def fetchDesc : List W64 := [BitVec.ofNat 64 fetchVa, 0x19F] ++ List.replicate 78 0

/-- The gang that fetches, its group and its grid. -/
def fetchGang : Gang := { run := some { pc := BitVec.ofNat 64 fetchVa, mask := BitVec.allOnes 32 }, live := BitVec.allOnes 32,
                          held := [0, 1, 2, 3, 4, 5, 6, 7] }
def fetchGroup : Group := { st := .resident }
def fetchGrid : Grid := { st := .running, d := fetchDesc }

/-- A queue at work on a packet with a batten program of one instruction. -/
def fetchQueue (w : Nat) : Queue := { qst := 2, prog := [BitVec.ofNat 32 w], it := some {} }

/-- A page table of context 0 that maps 1 GiB at `fetchVa`, for fetch; context 0's latest `tlbgen` has found it. -/
def fetchTables (m : List Host.Cell) : List Host.Cell :=
  wrLE (wrLE m 0 0x40001 8) 0x40008 (fetchVa + 0x103) 8

/-- The state with an instruction word loaded where the next step fetches: a word of 32 bits in a queue's program, a longer one in memory at
the pc of a resident gang of context 0 (log entry 10). -/
def State.withFetchWord (s : State) (nbits w : Nat) : State :=
  if nbits ≤ 32 then { s with queues := [(0, fetchQueue w)], curQ := (0, 0), agenda := [.queue 0 0] }
  else
    let m := wrLE (fetchTables s.mem) fetchVa w 16
    { s.setCtx 0 { s.ctx 0 with tabs := m } with
        mem := m, gangs := [(0, fetchGang)], groups := [(0, fetchGroup)], grids := [(0, fetchGrid)], cur := ⟨0, 0⟩, agenda := [.issue 0 0] }

end Sys2Proof.Machine
end

