-- ==== Sys2Proof/Safety.lean ====
section
/-!
DEFINITION. The terms in which claims speak of runs: when an instruction issues and completes, what a register-writing instruction leaves, when
a queue is at work, and the invariant of the memories.
-/
namespace Sys2Proof.Machine

/-! ### A gang instruction that issues -/

/-- Nothing of R75 stops the instruction before its own check, nothing holds it, and some lane is visited. -/
def Cx.clear (c : Cx) : Bool :=
  c.g.trapReq.isNone && c.check.isNone && !c.g.winHolds c.sp && !c.breach && !c.locked && !c.vis.isEmpty && !c.waits

/-- The context with its lines' last access set (R13). -/
def Cx.onLines (c : Cx) : Cx := { c with g := c.stamped, s := c.s.setGang c.r c.stamped }

/-- The context in which an instruction's own effect happens, once the lines it touches are held (R14); `none`: it does not come to that in
this state. -/
def runs (i : Instr) (s : State) : Option Cx :=
  match cxOf i s with
  | none => none
  | some c => if c.clear then c.touch.toOption else none

/-- The machine but for what lines that come back change: the gangs' lines and the registers in them, memory, the contexts' counters, and what
firmware is told (R14, R270, R271). -/
def sameButLines (s u : State) : Prop :=
  (∀ q, { u.gang q with lines := (s.gang q).lines, v := (s.gang q).v } = s.gang q) ∧
  { u with gangs := s.gangs, ctxs := s.ctxs, mem := s.mem, hostMem := s.hostMem, spoiled := s.spoiled, hostWr := s.hostWr, events := s.events,
           dropped := s.dropped, err := s.err } = s

/-- The state after an instruction that only writes registers and sets sticky bits: the split steps past it. -/
def Cx.after (c : Cx) (ws : List RegWrite) (k : BitVec 6 := 0) : State :=
  c.retire (c.mirror (c.s.setGang c.r ((c.g.writeRegs ws).sticky k))) 0

/-- The state after an instruction that enters entry e in flight, from a state with its earlier effects. -/
def Cx.entered (c : Cx) (s : State) (e : Entry) : State :=
  let g := s.gang c.r
  c.retire ({ s with uid := s.uid + 1 }.setGang c.r { g with infl := g.infl ++ [c.inFlight e s.uid] }) s.uid

/-- The registers of a gang but those named: v registers by lane and number, s registers by slice and number, predicates by lane and
number. -/
def sameRegs (g g' : Gang) (v : Nat → Nat → Bool) (sr : Nat → Nat → Bool) (p : Nat → Nat → Bool) : Prop :=
  (∀ L n, n < 256 → v L n = false → g'.vreg L n = g.vreg L n) ∧ (∀ sl n, n < 64 → sr sl n = false → g'.sreg sl n = g.sreg sl n) ∧
  (∀ L n, n < 8 → p L n = false → g'.preg L n = g.preg L n)

/-- Nothing outside the gangs has changed, memory included; only the model's own number counter may have moved on. -/
def gangsOnly (s t : State) : Prop := { t with gangs := s.gangs, uid := s.uid } = s

/-- The memory of the package and of the host. -/
def sameMem (s t : State) : Prop := t.mem = s.mem ∧ t.hostMem = s.hostMem

/-- The machine outside one gang: every other gang, memory, and every other table and register. -/
def sameElsewhere (s t : State) (r : GangRef) : Prop :=
  (∀ q, gkey q ≠ gkey r → t.gang q = s.gang q) ∧ { t with gangs := s.gangs } = s

/-- What of a gang an instruction that only writes registers leaves as it was: its other splits and lanes, its entries, batches, marks,
digest, lane store and limits. -/
def sameGang (g g' : Gang) : Prop :=
  { g' with run := g.run, v := g.v, s := g.s, p := g.p, fstat := g.fstat, last := g.last, issues := g.issues, ntcHold := g.ntcHold,
            lines := g.lines } = g

/-- The machine outside the gang: as it was once the lines were held. Memory keeps that too, but where a line just written has gone out again
while others came back: there the image holds what the gang holds (R162). -/
def Cx.elsewhere (c : Cx) (t : State) : Prop :=
  (∀ q, gkey q ≠ gkey c.r → t.gang q = c.s.gang q) ∧
  { t with gangs := c.s.gangs, mem := c.s.mem, hostMem := c.s.hostMem, spoiled := c.s.spoiled, hostWr := c.s.hostWr } = c.s ∧
  (c.linesIn = true → t.mem = c.s.mem ∧ t.hostMem = c.s.hostMem ∧ t.spoiled = c.s.spoiled) ∧
  ∃ g, g.v = (t.gang c.r).v ∧ g.lines = (t.gang c.r).lines ∧
    let u := c.mirror (c.s.setGang c.r g)
    t.mem = u.mem ∧ t.hostMem = u.hostMem ∧ t.spoiled = u.spoiled

/-- What a destination of a place holds after a result x of a type (R79): the low w bits of x, extended by the sign for s types and by zeros
otherwise, to the 32 bits of a vector register, the 64 of a pair, or the 64 of a scalar register. -/
def holds (g : Gang) (t : Ty) (p : At) (d : Dst) (x : Int) : Prop :=
  match d, p with
  | .v r, .lane L =>
    if t.is64 then ((g.vpair L r.toNat).toNat : Int) = x % 2 ^ 64
    else if t.signed && decide (t.width < 32) then (g.vreg L r.toNat).toInt = x.bmod (2 ^ t.width)
    else ((g.vreg L r.toNat).toNat : Int) = x % 2 ^ t.width
  | .s r, p =>
    if t.signed then (g.sreg p.slice_ r.toNat).toInt = x.bmod (2 ^ t.width)
    else ((g.sreg p.slice_ r.toNat).toNat : Int) = x % 2 ^ t.width
  | .v _, .slice _ => True

/-- The registers of a gang but those that an instruction writes, at the places where it acts. -/
def Cx.onlyWrites (c : Cx) (g g' : Gang) : Prop :=
  sameRegs g g' (fun L n => c.vis.contains L && (Sys2Proof.Machine.writes c.W c.i).contains (.v n))
    (fun sl n => c.sls.contains sl && (Sys2Proof.Machine.writes c.W c.i).contains (.s n))
    (fun L n => c.vis.contains L && (Sys2Proof.Machine.writes c.W c.i).contains (.p n))

/-- The instruction completes at once, and its whole effect is on registers: those it writes hold what P says, every other one and the rest of
the machine are as they were, the split is past it, and the sticky bits k are set beside those that were. -/
def Cx.puts (c : Cx) (i : Instr) (s : State) (k : BitVec 6) (P : Gang → Prop) : Prop :=
  ∃ t, exec i s = .next t ∧ P (t.gang c.r) ∧ c.onlyWrites c.g (t.gang c.r) ∧ sameGang (s.gang c.r) (t.gang c.r) ∧
    (t.gang c.r).fstat = c.g.fstat ||| k ∧ (t.gang c.r).run = some (c.stepped (t.gang c.r) c.sp 0) ∧ c.elsewhere t

/-- The instruction goes into flight, with nothing else changed but the split, which is past it with its window open; when its results land,
the registers it writes hold what P says, no other does, and the sticky bits are those of k. -/
def Cx.putsLater (c : Cx) (i : Instr) (s : State) (k : BitVec 6) (P : Gang → Prop) : Prop :=
  ∃ ws, exec i s = .next (c.entered c.s { id := 0, kind := .alu, rw := ws, sticky := k, long := true }) ∧
    ∀ g : Gang, P (g.writeRegs ws) ∧ c.onlyWrites g (g.writeRegs ws)

/-! ### Integer results -/

/-- Result of an integer, logic or move instruction for a place: the type that extends it, its destination, and the exact integer (R87, R88,
R94). The shifts, the bit fields, division, carries and `sext` have statements of their own. -/
def intResult (c : Cx) : Instr → Option (Ty × Dst × (At → Int))
  | .add t d a b => some (t, d, fun p => c.opA t p a + c.opB t p b)
  | .sub t d a b => some (t, d, fun p => c.opA t p a - c.opB t p b)
  | .mul t d a b => some (t, d, fun p => c.opA t p a * c.opB t p b)
  | .mulhi t d a b => some (t, d, fun p => c.opA t p a * c.opB t p b / 2 ^ t.width)
  | .mad t d a b e => some (t, d, fun p => c.opA t p a * c.opB t p b + c.opC t p e)
  | .madw t d a b e => some (.n64, d, fun p => c.opA t p a * c.opB t p b + (c.g.srcC true sext64 p e).toInt)
  | .min t d a b => some (t, d, fun p => min (c.opA t p a) (c.opB t p b))
  | .max t d a b => some (t, d, fun p => max (c.opA t p a) (c.opB t p b))
  | .abs t d a => some (t, d, fun p => if c.opA t p a < 0 then -c.opA t p a else c.opA t p a)
  | .neg t d a => some (t, d, fun p => -c.opA t p a)
  | .clz t d a => some (.n32, d, fun p => leadingZeros t.width (c.opA t p a).toNat)
  | .popc t d a => some (.n32, d, fun p => oneBits t.width (c.opA t p a).toNat)
  | .and t d a b => some (t, d, fun p => ((c.opA t p a).toNat &&& (c.opB t p b).toNat : Nat))
  | .or t d a b => some (t, d, fun p => ((c.opA t p a).toNat ||| (c.opB t p b).toNat : Nat))
  | .xor t d a b => some (t, d, fun p => ((c.opA t p a).toNat ^^^ (c.opB t p b).toNat : Nat))
  | .not t d a => some (t, d, fun p => -1 - c.opA t p a)
  | .andn t d a b => some (t, d, fun p => ((c.opA t p a).toNat &&& (2 ^ t.width - 1 - (c.opB t p b).toNat) : Nat))
  | .brev t d a => some (t, d, fun p => reverseBits t.width (c.opA t p a).toNat)
  | .mov t d a => some (t, d, fun p => c.opA t p a)
  | .movi t d imm => some (t, d, fun _ => imm.toInt)
  | .moviWide t d imm => some (t, d, fun _ => imm.toInt)
  | .lea t d a b k => some (t, d, fun p => c.opA t p a + (lo32 (c.g.srcB false zext64 p b)).toInt * 2 ^ k.toNat)
  | _ => none

/-! ### Floating results -/

/-- What a vector destination holds of a floating result: a pair for `f64`, else one register. -/
def holdsF (g : Gang) (t : Ty) (L : Nat) (d : VReg) (x : W64) : Prop :=
  if t.is64 then g.vpair L d.toNat = x else g.vreg L d.toNat = lo32 x

/-- Result of a floating instruction or conversion that completes at once: the type of its destination, the destination, and for each lane
the pattern with the sticky bits it raises (R129 to R133, R136 to R141). -/
def fltResult (c : Cx) : Instr → Option (Ty × VReg × (Nat → W64 × BitVec 6))
  | .fadd m t d a b => some (t, d, fun L => elem2 t (fadd2 t m) (c.fa t L a) (c.fb t L b))
  | .fsub m t d a b => some (t, d, fun L => elem2 t (fsub2 t m) (c.fa t L a) (c.fb t L b))
  | .fmul m t d a b => some (t, d, fun L => elem2 t (fmul2 t m) (c.fa t L a) (c.fb t L b))
  | .fma m t d a b e => some (t, d, fun L => perElem (List.zipWith (fun f z => f z)
      (List.zipWith (fma3 t m) (elems t (c.fa t L a)) (elems t (c.fb t L b))) (elems t (c.fa t L (.v e)))))
  | .fmin p _ t d a b => some (t, d, fun L => elem2 t (fminmax false p t) (c.fa t L a) (c.fb t L b))
  | .fmax p _ t d a b => some (t, d, fun L => elem2 t (fminmax true p t) (c.fa t L a) (c.fb t L b))
  | .frnd m t d a => some (t, d, fun L => elem1 t (frndv t m) (c.fa t L a))
  | .fclass _ t d a => some (.n32, d, fun L => elem1 t (fun x => (fclassv t x, 0)) (c.fa t L a))
  | .fscale m t d a b => some (t, d, fun L => elem1 t (fun x => fscalev t m x (lo32 (c.g.srcB false zext64 (.lane L) b)).toInt) (c.fa t L a))
  | .fdot2 m t d a b e => some (.f32, d, fun L =>
      let x := elems t (c.fa t L a)
      let y := elems t (c.fb t L b)
      let r := fdotv t m (x.getD 0 0) (x.getD 1 0) (y.getD 0 0) (y.getD 1 0) (c.g.vreg L e.toNat).toNat
      (BitVec.ofNat 64 r.1, r.2))
  | .cvt m st dt d a => some (dt, d, fun L => cvtValue m st dt (c.g.src st.is64 (.lane L) a))
  | .cvt8 k m t d a b => some (.n32, d, fun L =>
      cvt8Value k m t ((b8Of (c.byteB L b)).getD ⟨1, false, false⟩) (c.g.src false (.lane L) a))
  | .cvt4 (.enc b) m t d a => some (.n32, d, fun L =>
      let p := toE2m1 m (fval t ((c.g.src false (.lane L) a).toNat % 2 ^ t.width))
      let q := toE2m1 m (fval t ((c.fb t L b).toNat % 2 ^ t.width))
      (BitVec.ofNat 64 (p.1 + 16 * q.1), p.2 ||| q.2))
  | .cvt4 (.dec k) _ t d a => some (.n32, d, fun L =>
      (BitVec.ofNat 64 (fput t .rne (e2m1Val ((c.g.src false (.lane L) a).toNat / 16 ^ k.toNat % 16))).1, 0))
  | .pk k d a => some (.n32, d, c.pkValue k a)
  | .upk k d a => some (.n32, d, fun L => upkValue k (c.g.src false (.lane L) a).toNat)
  | .bscl k t d a => some (.n32, d, fun L =>
      let x := (c.g.src false (.lane L) a).toNat % 2 ^ t.width
      let r := match k with
        | .apply m b => bsclValue m t false (c.byteB L b) x
        | .fit n => (bsclFit t n.toNat x, 0)
        | .inv m b => bsclValue m t true (c.byteB L b) x
      (BitVec.ofNat 64 r.1, r.2))
  | _ => none

/-- The same of the floating instructions that complete later (R68, R129). -/
def fltLate (c : Cx) : Instr → Option (Ty × VReg × (Nat → W64 × BitVec 6))
  | .fdiv _ m t d a b => some (t, d, fun L => elem2 t (fdiv2 t m) (c.fa t L a) (c.fb t L b))
  | .fsqrt _ m t d a => some (t, d, fun L => elem1 t (fsqrt1 t m) (c.fa t L a))
  | .frcp _ m t d a => some (t, d, fun L => elem1 t (frcp1 t m) (c.fa t L a))
  | .frsq _ m t d a => some (t, d, fun L => elem1 t (frsq1 t m) (c.fa t L a))
  | .fex2 _ m t d a => some (t, d, fun L => elem1 t (fex2v t m) (c.fa t L a))
  | .flg2 _ m t d a => some (t, d, fun L => elem1 t (flg2v t m) (c.fa t L a))
  | _ => none

/-- The format codes that an instruction reads in its lanes name formats (R137). -/
def formatsValid (c : Cx) : Instr → Bool
  | .cvt8 _ _ _ _ _ b => c.vis.all fun L => (b8Of (c.byteB L b)).isSome
  | _ => true

/-! ### Rounding, in real numbers -/

/-- The magnitude of a code in a format, codes above the greatest finite one continuing it (R110). -/
def magVal (f : Fmt) (c : Nat) : Rat :=
  if c / 2 ^ f.t = 0 then (c % 2 ^ f.t : Nat) * (2 : Rat) ^ (f.emin - f.t)
  else (c % 2 ^ f.t + 2 ^ f.t : Nat) * (2 : Rat) ^ (f.emin - f.t + ((c / 2 ^ f.t : Nat) - 1 : Int))

/-- Code c is what R113 chooses for the magnitude x > 0 of a number with sign `neg`; lo and lo + 1 are the candidates beside x. In a format
without fraction bits no candidate of a tie above the least number ends in 0, and either may be chosen (log entry 20). -/
def roundsTo (f : Fmt) (m : Rm) (neg : Bool) (x : Real) (c : Nat) : Prop :=
  ∃ lo, let a : Real := magVal f lo
    let b : Real := magVal f (lo + 1)
    a ≤ x ∧ x < b ∧ (x = a → c = lo) ∧ (c = lo ∨ c = lo + 1) ∧
    (x ≠ a → match m with
      | .rz => c = lo
      | .rp => c = if neg then lo else lo + 1
      | .rm => c = if neg then lo + 1 else lo
      | .rne => (2 * x < a + b → c = lo) ∧ (a + b < 2 * x → c = lo + 1) ∧
          (2 * x = a + b → f.t ≠ 0 ∨ lo = 0 → c = if lo % 2 = 0 then lo else lo + 1)
      | .rna => c = if 2 * x < a + b then lo else lo + 1)

/-- What R114 finds of a magnitude x > 0: the code that R113 chooses, overflow beyond the greatest finite code, inexactness, and underflow,
which is inexactness and tininess after rounding, told by the same rounding in a format with a lower least exponent. -/
def rounds (f : Fmt) (m : Rm) (neg : Bool) (x : Real) (r : Rnd) : Prop :=
  roundsTo f m neg x r.code ∧ (r.ovf = true ↔ f.top < r.code) ∧ (r.nx = true ↔ (magVal f r.code : Real) ≠ x) ∧
  ∀ (lowest : Int) (c : Nat), f.t ≠ 0 → (2 : Real) ^ lowest ≤ x → roundsTo ⟨f.t, lowest, f.top⟩ m neg x c →
    (r.uf = true ↔ r.nx = true ∧ (magVal ⟨f.t, lowest, f.top⟩ c : Real) < (2 : Real) ^ f.emin)

/-- The result of R114 for a nonzero number q: the pattern and the sticky bits. -/
def rounded (t : Ty) (m : Rm) (q : Real) (r : Nat × BitVec 6) : Prop :=
  let f := fmtOf t
  let neg := decide (q < 0)
  ∃ y, rounds f m neg |q| y ∧ r =
    if y.ovf then (signed t neg (if ovfInf m neg then f.top + 1 else f.top), ofBit ||| nxBit)
    else (signed t neg y.code, stickyIf y.nx nxBit ||| stickyIf y.uf ufBit)

/-- A magnitude rounded to a whole number by R113, below 2^64. -/
def roundsWhole (m : Rm) (neg : Bool) (x : Real) (n : Nat) : Prop := if x = 0 then n = 0 else roundsTo ⟨64, 64, 0⟩ m neg x n

/-- The number of a finite value. -/
def FV.rat : FV → Rat
  | .num neg m e => (if neg then -(m : Rat) else m) * (2 : Rat) ^ e
  | _ => 0
def FV.finite : FV → Bool
  | .num .. => true
  | _ => false
/-- The place of a value that is no NaN among the numbers and infinities, −0 and +0 at one place. -/
def FV.ext : FV → WithBot (WithTop Rat)
  | .inf n => if n then ⊥ else ((⊤ : WithTop Rat) : WithBot (WithTop Rat))
  | v => ((v.rat : WithTop Rat) : WithBot (WithTop Rat))

/-- The value times 2^k. -/
def FV.shift (v : FV) (k : Int) : FV :=
  match v with
  | .num n p e => .num n p (e + k)
  | v => v

/-- A value becomes a pattern of a floating type (R114, R115, R129): the canonical NaN, with `nv` for a signalling one, the infinity or zero of
its sign, or the number rounded. -/
def becomes (t : Ty) (m : Rm) (v : FV) (r : Nat × BitVec 6) : Prop :=
  match v with
  | .nan s => r = (canonNan t, stickyIf s nvBit)
  | .inf n => r = (finf t n, 0)
  | .num n p _ => if p = 0 then r = (fzero t n, 0) else rounded t m v.rat r

/-- A value becomes a binary8 code (R118), by saturation or with overflow to the format's infinity. -/
def becomesB8 (f : B8) (sat : Bool) (m : Rm) (v : FV) (r : Nat × BitVec 6) : Prop :=
  let beyond (n fromInf : Bool) : Nat × BitVec 6 :=
    if sat then (f.signed n f.fmt.top, ofBit ||| nxBit)
    else if !f.inf then (f.nan, ofBit ||| nxBit)
    else if ovfInf m n then (f.signed n (f.fmt.top + 1), if fromInf then 0 else ofBit ||| nxBit)
    else (f.signed n f.fmt.top, ofBit ||| nxBit)
  match v with
  | .nan s => r = (f.nan, stickyIf s nvBit)
  | .inf n => r = if n && f.uns then (0xFF, nvBit) else beyond n true
  | .num n p _ => if p = 0 then r = (0, 0) else ∃ y, rounds f.fmt m n |(v.rat : Real)| y ∧ r =
      if n && f.uns && y.code != 0 then (0xFF, nvBit)
      else if y.ovf then beyond n false
      else (f.signed n y.code, stickyIf y.nx nxBit ||| stickyIf y.uf ufBit)

/-- A value becomes an E2M1 code (R119). -/
def becomesE2m1 (m : Rm) (v : FV) (r : Nat × BitVec 6) : Prop :=
  match v with
  | .nan _ => r = (0, nvBit)
  | .inf n => r = ((if n then 8 else 0) + 7, ofBit ||| nxBit)
  | .num n p _ => if p = 0 then r = (if n then 8 else 0, 0) else ∃ y, rounds fmtE2m1 m n |(v.rat : Real)| y ∧ r =
      if y.ovf then ((if n then 8 else 0) + 7, ofBit ||| nxBit)
      else ((if n then 8 else 0) + y.code, stickyIf y.nx nxBit ||| stickyIf y.uf ufBit)

/-- A floating value becomes an integer of a type (R115, R136): rounded to a whole number, or the nearer end of the range; NaN gives 0. -/
def becomesInt (t : Ty) (m : Rm) (v : FV) (r : Int × BitVec 6) : Prop :=
  let lo : Int := if t.signed then -2 ^ (t.width - 1) else 0
  let hi : Int := if t.signed then 2 ^ (t.width - 1) - 1 else 2 ^ t.width - 1
  match v with
  | .nan _ => r = (0, nvBit)
  | .inf n => r = (if n then lo else hi, nvBit)
  | .num n _ _ =>
    let x : Real := |(v.rat : Real)|
    if x < 2 ^ 64 then ∃ k : Nat, roundsWhole m n x k ∧
      let y : Int := if n then -(k : Int) else k
      r = if y < lo then (lo, nvBit) else if hi < y then (hi, nvBit) else (y, stickyIf (decide ((y : Rat) ≠ v.rat)) nxBit)
    else r = (if n then lo else hi, nvBit)

/-! ### The matrix datapath -/

/-- Pattern r is the sum of R121 over an accumulator and the products of one chunk (`none`: 0 × ∞): the canonical NaN, an infinity, a zero, or
the terms floored to units 2^(E − 48), E the exponent of the greatest, added exactly and rounded once. -/
def chunkIs (c : FV) (ps : List (Option FV)) (r : Nat) : Prop :=
  let ts := c :: ps.filterMap id
  let bad : Prop := none ∈ ps ∨ (∃ v ∈ ts, v.isNan = true) ∨ (FV.inf false ∈ ts ∧ FV.inf true ∈ ts)
  (bad → r = 0x7FC00000) ∧ (¬bad → ∀ n, FV.inf n ∈ ts → r = finf .f32 n) ∧
  ((∀ v ∈ ts, v.finite = true) → none ∉ ps →
    ((∀ v ∈ ts, v.rat = 0) → r = fzero .f32 (ts.all FV.neg)) ∧
    ∀ E : Int, (∃ v ∈ ts, (2 : Rat) ^ E ≤ |v.rat|) → (∀ v ∈ ts, |v.rat| < (2 : Rat) ^ (E + 1)) →
      let sum : Int := (ts.map fun v => ⌊v.rat / (2 : Rat) ^ (E - 48)⌋).sum
      (sum = 0 → r = 0) ∧ (sum ≠ 0 → ∃ k, rounded .f32 .rne (sum * (2 : Real) ^ (E - 48)) (r, k)))

/-- Pattern r is one step of R122 from accumulator pattern c: a fused multiply-add in FP64, rounded once. -/
def fmaIs (p : Option FV) (c r : Nat) : Prop :=
  let z := fval .f64 c
  match p with
  | none => r = canonNan .f64
  | some p =>
    let bad : Prop := p.isNan = true ∨ z.isNan = true ∨ (p.isInf = true ∧ z.isInf = true ∧ p.neg ≠ z.neg)
    (bad → r = canonNan .f64) ∧ (¬bad → ∀ n, p = .inf n ∨ z = .inf n → r = finf .f64 n) ∧
    (p.finite = true → z.finite = true → (p.rat + z.rat = 0 → r = fzero .f64 (p.neg && z.neg)) ∧
      (p.rat + z.rat ≠ 0 → ∃ k, rounded .f64 .rne ((p.rat + z.rat : Rat) : Real) (r, k)))

/-- A product of two elements, no error observed in it (R120, R216, R220): exact, or without its eave's columns where they are gated off, and
scaled by both scales; a NaN block makes it NaN. -/
def MFmt.term (f : MFmt) (fid sa sb x y : Nat) : Option FV :=
  let v := f.kind.vals x y
  let cut : FV → FV
    | .num n p e => .num n (if fid = 3 then p - p % 2 ^ f.kind.slices.1 else p) e
    | w => w
  if sa = 255 ∨ sb = 255 then some (.nan false) else (fprod v.1 v.2).map fun w => (cut w).shift ((sa : Int) + sb - 254)

/-- Column n of lane L's accumulator row after a tile product, from before it (R121, R122): the chunks, the fused steps or the integer products
in the order of k. `ws`: the lane's A row; `sa`, `sb`: the scales by k. -/
def MFmt.element (f : MFmt) (fid : Nat) (m : Mmx) (ws : List W32) (sa sb : List Nat) (g g' : Gang) (L n : Nat) : Prop :=
  let x (k : Nat) : Nat := elemOf f.kind.bits ws k
  let y (k : Nat) : Nat := bElem f.kind.bits m.b k n
  let term (k : Nat) : Option FV := f.term fid (sa.getD k 127) (sb.getD k 127) (x k) (y k)
  match f.kind with
  | .int p q => g'.vreg L (m.c + n) = BitVec.ofInt 32 ((g.vreg L (m.c + n)).toNat +
      ((List.range 64).map fun k => int8Val p (x k) * int8Val q (y k)).sum)
  | .ieee .f64 => ∃ acc : Nat → Nat, acc 0 = (g.vpair L (m.c + 2 * n)).toNat ∧ acc 4 = (g'.vpair L (m.c + 2 * n)).toNat ∧
      ∀ k, k < 4 → fmaIs (term k) (acc k) (acc (k + 1))
  | kd => ∃ acc : Nat → Nat, acc 0 = (g.vreg L (m.c + n)).toNat ∧ acc (kd.k / 32) = (g'.vreg L (m.c + n)).toNat ∧
      ∀ j, j < kd.k / 32 → chunkIs (fval .f32 (acc j)) ((List.range 32).map fun i => term (32 * j + i)) (acc (j + 1))

/-! ### Moving and dividing -/

/-- The instruction completes with the register writes `ws`, and its whole split goes on at `pc`; nothing else changes. -/
def Cx.goes (c : Cx) (i : Instr) (s : State) (ws : List RegWrite) (pc : W64) : Prop :=
  let g := c.g.writeRegs ws
  ∃ t, exec i s = .next t ∧ t.gang c.r = { g.issuedAt s.tick with run := some { c.stepped g c.sp 0 with pc := pc } } ∧
    sameElsewhere c.s t c.r

/-- One of the two splits after a division: as the divided one stepped, with a pc, a mask and a creation number of its own. -/
def Cx.part (c : Cx) (x : W64 × W32) (born : Nat) : Split :=
  { c.stepped c.g c.sp 0 with pc := x.1, mask := x.2, cover := 0, blk := none, wait := .none, spill := none, born := born }

/-- The state u, in which a split has divided, after the split table's spills; without room for them the instruction has no effect but the
stack-limit trap, or ends the task (R46, R347). -/
def Cx.spilling (c : Cx) (u : State) (n : Nat) : State :=
  match u.spillOver c.r n with
  | .ok t => t
  | .error e => c.noSpill e

/-- The split divides in two: x runs, and y goes to the head of the pending list. -/
def Cx.divides (c : Cx) (i : Instr) (s : State) (x y : W64 × W32) : Prop :=
  ∃ u, exec i s = .next (c.spilling u 66) ∧ (∀ q, gkey q ≠ gkey c.r → u.gang q = c.s.gang q) ∧ gangsOnly c.s u ∧
    u.gang c.r = { c.g.issuedAt s.tick with run := some (c.part x (s.uid + 1)), pend := c.part y s.uid :: c.g.pend }

/-- A two-way branch (R44, R45, R81): lanes for which `go` holds continue at `tgt`, the others at the next instruction; whole when all go to
one place, else divided in the order of HT. -/
def Cx.branches (c : Cx) (i : Instr) (s : State) (ht : Bool) (tgt : W64) (go : Nat → Bool) : Prop :=
  let fall := c.sp.pc + BitVec.ofNat 64 i.bytes
  let m := maskOf (c.vis.filter go)
  ((∀ L ∈ c.vis, go L = true) ∨ tgt = fall → c.goes i s [] tgt) ∧ ((∀ L ∈ c.vis, go L = false) → c.goes i s [] fall) ∧
  ((∃ L ∈ c.vis, go L = true) → (∃ L ∈ c.vis, go L = false) → tgt ≠ fall →
    if ht then c.divides i s (tgt, m) (fall, c.sp.mask &&& ~~~m) else c.divides i s (fall, c.sp.mask &&& ~~~m) (tgt, m))

/-- A branch that sends each active lane to a target of its own (R45, R82, R83), after the register writes `ws`: a target that is no multiple
of 4 traps before any effect, with the lowest such lane's target; one common target moves the split whole; else a split for each target,
the lowest lane's running first, or the highest lane's when `down`, each with its own lanes. -/
def Cx.scatters (c : Cx) (i : Instr) (s : State) (down : Bool) (tgt : Nat → W64) (ws : List RegWrite) : Prop :=
  let g := c.g.writeRegs ws
  let bad := c.vis.filter fun L => decide ((tgt L).toNat % 4 ≠ 0)
  (∀ L rest, bad = L :: rest → exec i s = .next (s.raise c.r ⟨0xD, 2, c.sp.pc, tgt L, maskOf bad, encode i⟩)) ∧
  (bad = [] → ∀ T, (∀ L ∈ c.vis, tgt L = T) → c.goes i s ws T) ∧
  (bad = [] → (∃ L ∈ c.vis, ∃ M ∈ c.vis, tgt L ≠ tgt M) → ∃ u x xs, exec i s = .next (c.spilling u (xs.length + 65)) ∧ gangsOnly c.s u ∧
    (∀ q, gkey q ≠ gkey c.r → u.gang q = c.s.gang q) ∧
    u.gang c.r = { g.issuedAt s.tick with run := some x, pend := xs ++ c.g.pend } ∧
    (∀ L ∈ c.vis, ∃ y ∈ x :: xs, y.pc = tgt L ∧ y.mask.getLsbD L = true) ∧
    (∀ y ∈ x :: xs, (∃ L ∈ c.vis, y.pc = tgt L) ∧ ∀ L, L < 32 → (y.mask.getLsbD L = true ↔ L ∈ c.vis ∧ tgt L = y.pc)) ∧
    ((x :: xs).map Split.pc).Nodup ∧
    ∀ L, (if down then c.vis.getLast? else c.vis.head?) = some L → x.mask.getLsbD L = true)

/-! ### Traps -/

/-- A trap can be entered at once: the gang runs split `sp` outside trap mode with no open window, its context has the handler h, and its save
slot is written at l. -/
structure canTrap (s : State) (r : GangRef) (sp : Split) (q : TrapReq) (h : W64) (l : Loc) : Prop where
  codes : q.cause < 2 ^ 16 ∧ q.sub < 2 ^ 16
  run : (s.gang r).run = some sp
  mode : (s.gang r).trapMode = false
  wins : (s.gang r).openWins sp = false
  handler : (s.ctx (s.grid (s.group r.group).grid).ctx).handler = some h
  slot : s.xlate (s.grid (s.group r.group).grid).ctx true .write
    (saveSlot (s.group r.group) (s.grid (s.group r.group).grid) r.gang) = .ok l

/-- TRAP ENTRY (R281 to R284): the frame stands in the save slot, s63 of every slice names the slot, the gang is in trap mode and its split at
the handler, unguarded; no other register, gang, byte or table changes. -/
def entersTrap (s t : State) (r : GangRef) (sp : Split) (q : TrapReq) (h : W64) (l : Loc) : Prop :=
  let g := s.gang r
  let g' := t.gang r
  let grp := s.group r.group
  let d := s.grid grp.grid
  let word (k : Nat) : Nat := t.rdLoc { l with key := l.key + 4 * k } 4
  let dword (k : Nat) : Nat := t.rdLoc { l with key := l.key + 8 * k } 8
  let p (k : Nat) : Nat := (q.insn.getD k 0).toNat
  word 0 = q.cause + 2 ^ 16 * q.sub ∧ word 1 = q.mask.toNat ∧ dword 1 = q.pc.toNat ∧ dword 2 = q.fa.toNat ∧
  [word 6, word 7, word 8, word 9] = [p 0, p 1, p 2, p 3] ∧
  dword 5 = (g.sreg ((lanesOf sp.mask).headD 0 / 4) 63).toNat ∧ word 12 = (rlvlOf grp false).toNat ∧ word 13 = g.fstat.toNat ∧
  (match sp.blk with
    | none => bitsOf (dword 7) 51 0 = 0
    | some b => bitsOf (dword 7) 31 0 = b.en.toNat ∧ bitsOf (dword 7) 36 32 = 0 ∧ bitsOf (dword 7) 37 37 = 1 ∧
      bitsOf (dword 7) 40 38 = b.cnt % 8 ∧ bitsOf (dword 7) 43 41 = b.slot % 8 ∧ bitsOf (dword 7) 51 44 = b.pat.toNat) ∧
  bitsOf (dword 7) 52 52 = flag (d.ctx == 0) ∧ bitsOf (dword 7) 53 53 = flag d.det ∧
  bitsOf (dword 7) 58 54 = min (g.nsplits - 1) 31 ∧ bitsOf (dword 7) 63 59 = 0 ∧
  g'.trapMode = true ∧ g'.run = some { sp with pc := h, blk := none, wins := [], wait := .none } ∧
  (∀ sl, sl < d.sl → (g'.sreg sl 63).toNat = saveSlot grp d r.gang) ∧
  sameRegs g g' (fun _ _ => false) (fun sl n => decide (sl < d.sl) && n == 63) (fun _ _ => false) ∧
  { g' with run := g.run, s := g.s, trapMode := g.trapMode, trapPc := g.trapPc, trapReq := g.trapReq, trapUid := g.trapUid,
            ntcHold := g.ntcHold } = g ∧
  (∀ x, gkey x ≠ gkey r → t.gang x = s.gang x) ∧ { t with gangs := s.gangs, mem := s.mem, hostMem := s.hostMem, spoiled := s.spoiled, hostWr := s.hostWr } = s ∧
  (∀ a, l.host = true ∨ a < l.key ∨ l.key + 64 ≤ a → rdByte t.mem a = rdByte s.mem a) ∧
  (∀ a, l.host = false ∨ a < l.key ∨ l.key + 64 ≤ a → rdByte t.hostMem a = rdByte s.hostMem a)

/-! ### Memory instructions -/

/-- What a memory instruction does at each place (R104 to R107, R165 to R167, R173, R249): the address and the fault address it would
report, the bytes an address must be a multiple of, what else traps there (cause, subcause, whether), the accesses, what the digest
folds, and whether the gang's key of R175 is used. -/
structure MemForm where
  places : List At
  addr : At → Int
  fa : At → W64
  bytes : Nat
  bad : Nat × Nat × (At → Bool)
  accs : At → List Access
  dig : At → List (W64 × W64)
  ord : Order
  scope : Scope
  keyed : Bool

/-- A form that reaches global memory. -/
def Cx.globForm (c : Cx) (scalar : Bool) (o : Order) (sc : Scope) (n : Nat) (base : Src) (off : SrcB) (accs : At → W64 → List Access)
    (dig : At → W64 → List (W64 × W64)) : MemForm :=
  let a (p : At) : W64 := c.gaddr p base off
  { places := c.places scalar, addr := fun p => (a p).toNat, fa := a, bytes := n, bad := (0, 0, fun _ => false), accs := fun p => accs p (a p),
    dig := fun p => dig p (a p), ord := o, scope := sc, keyed := false }

/-- A form that reaches scratch (`scr`) or the lane store, of so many bytes. -/
def Cx.localForm (c : Cx) (scr : Bool) (o : Order) (sc : Scope) (t : Ty) (base : Src) (off : SrcB) (op : At → AccOp) (land : At → Land) :
    MemForm :=
  let size := if scr then c.grd.scrBytes else c.grd.lstBytes
  let a (p : At) : Int := c.oaddr p base off
  { places := c.places false, addr := a, fa := fun p => BitVec.ofInt 64 (a p % 2 ^ 32), bytes := t.width / 8,
    bad := (9, if scr then 1 else 2, fun p => decide (a p < 0 ∨ size < a p + (t.width / 8 : Nat))),
    accs := fun p => [{ lane := p.lane_, space := if scr then .scr else .lst, addr := (a p).toNat, bytes := t.width / 8, op := op p,
                        land := land p }],
    dig := fun _ => [], ord := o, scope := sc, keyed := false }

/-- The access of a load, a store or a read-modify-write of a type at an address. -/
def accAt (t : Ty) (op : AccOp) (p : At) (a : W64) (land : Land) (kick : Bool := false) : Access :=
  { lane := p.lane_, space := .glob, addr := a.toNat, bytes := t.width / 8, op := op, land := land, kick := kick }

/-- The memory instructions that one form describes. -/
def memForm (c : Cx) : Instr → Option MemForm
  | .ld _ o sc t d b f => some (c.globForm false o sc (t.width / 8) b f (fun p a => [accAt t .rd p a (landAt (.v d) t p)]) fun _ _ => [])
  | .sld _ o sc t d b f => some (c.globForm true o sc (t.width / 8) (.s b) f (fun p a => [accAt t .rd p a (landAt (.s d) t p)]) fun _ _ => [])
  | .st o sc t b f x => some (c.globForm false o sc (t.width / 8) b f
      (fun p a => [accAt t (.wr (c.storeData t p x)) p a .none true]) fun p a => [(a, c.storeData t p x)])
  | .sst o sc t b f x => some (c.globForm true o sc (t.width / 8) (.s b) f
      (fun p a => [accAt t (.wr (c.storeData t p x)) p a .none true]) fun p a => [(a, c.storeData t p x)])
  | .lds _ o sc t d b f => some (c.localForm true o sc t b f (fun _ => .rd) (landAt (.v d) t))
  | .ldl _ o sc t d b f => some (c.localForm false o sc t b f (fun _ => .rd) (landAt (.v d) t))
  | .sts o sc t b f x => some (c.localForm true o sc t b f (fun p => .wr (c.storeData t p x)) fun _ => .none)
  | .stl o sc t b f x => some (c.localForm false o sc t b f (fun p => .wr (c.storeData t p x)) fun _ => .none)
  | .ldm _ o sc d b f n => some (c.globForm false o sc 4 b f (fun p a => (List.range n.toNat).map fun j =>
      accAt .n32 .rd p (a + BitVec.ofNat 64 (4 * j)) (.v p.lane_ (d.toNat + j) .n32)) fun _ _ => [])
  | .stm o sc b f x n =>
    let v (p : At) (j : Nat) : W64 := zext64 (c.g.vreg p.lane_ (x.toNat + j))
    some (c.globForm false o sc 4 b f
      (fun p a => (List.range n.toNat).map fun j => accAt .n32 (.wr (v p j)) p (a + BitVec.ofNat 64 (4 * j)) .none)
      fun p a => (List.range n.toNat).map fun j => (a + BitVec.ofNat 64 (4 * j), v p j))
  | .atom _ op o sc t d b f x => some { c.globForm d.scalar o sc (t.width / 8) b f
      (fun p a => [accAt t (.rmw op t (c.storeData t p x) (c.swapData op t p x)) p a (landAt d t p)]) (fun _ _ => []) with
      bad := (0xD, 7, fun p => c.inD (c.gaddr p b f)) }
  | .red k op o sc t b f x => some { c.globForm k o sc (t.width / 8) b f
      (fun p a => [accAt t (.rmw op t (c.storeData t p x) (c.swapData op t p x)) p a .none]) (fun p a => [(a, c.storeData t p x)]) with
      keyed := (c.places k).any fun p => c.inD (c.gaddr p b f) }
  | _ => none

/-- The state in which a memory instruction's accesses are in flight, and its digest and key are folded in. -/
def Cx.issues (c : Cx) (i : Instr) (o : Order) (sc : Scope) (accs : List Access) (dig : List (W64 × W64)) (keyed : Bool) : State :=
  c.entered (c.s.setGang c.r { c.g with dig := c.fold dig, dcnt := c.g.dcnt + flag keyed })
    { id := 0, path := pathOfInstr i, ord := o, scope := sc, accs := accs, long := (longLA i).isSome, dq := c.g.dcnt }

/-! ### Accesses at memory -/

/-- A byte of the package's memory, or of the host's. -/
def State.byteAt (s : State) (host : Bool) (a : Nat) : Byte := rdByte (if host then s.hostMem else s.mem) a

/-- The bytes of a location that x gives take its values, and every other byte of both memories is as it was. -/
def stored (s t : State) (l : Loc) (n : Nat) (x : Nat → Option Byte) : Prop :=
  ∀ h a, t.byteAt h a = ((if h = l.host ∧ l.key ≤ a ∧ a < l.key + n then x (a - l.key) else none).getD (s.byteAt h a))

/-- Bytes a to a + n − 1 of a context's images lie at the places f gives, eight of an aligned run together, and do so whatever is written there:
the tables that translate them lie elsewhere. -/
def State.steady (s : State) (ctx a n : Nat) (f : Nat → Loc) : Prop :=
  (∀ i j, i < n → j < n → f i = f j → i = j) ∧ (∀ j, j < n → f j = { f (j / 8 * 8) with key := (f (j / 8 * 8)).key + j % 8 }) ∧
  ∀ u : State, u.ctxs = s.ctxs → u.mode = s.mode → u.tick = s.tick →
    (∀ h b, (∃ j, j < n ∧ f j = ⟨h, b⟩) ∨ u.byteAt h b = s.byteAt h b) → ∀ j, j < n → u.xlate ctx true .write (a + j) = .ok (f j)

/-- The bytes at those places hold x, and every other byte of both memories is as it was. -/
def storedAt (s t : State) (n : Nat) (f : Nat → Loc) (x : Nat → Byte) : Prop :=
  ∀ h b, (∀ j, j < n → f j = ⟨h, b⟩ → t.byteAt h b = x j) ∧ ((∀ j, j < n → f j ≠ ⟨h, b⟩) → t.byteAt h b = s.byteAt h b)

/-- Groups but for who pays for one's image traffic (R309): request q's context once something is written, if `wrote`. -/
def paysFor (s t : State) (k : Nat) (q : Req) (wrote : Prop) : Prop :=
  (∀ j, { t.group j with payer := (s.group j).payer, paid := (s.group j).paid } = s.group j) ∧
  (wrote → (t.group k).payer = s.payerOf q) ∧ (¬wrote → t.groups = s.groups)

/-- The machine beside a gang and memory: other gangs, groups, contexts, queues and the rest stand; a grid's early edge may have been
noted, releases that went ahead of other accesses be kept in mind or forgotten (R157), and a suspended group's words be seen written (R277,
R364). -/
def sameBeside (s t : State) (r : GangRef) : Prop :=
  (∀ q, gkey q ≠ gkey r → t.gang q = s.gang q) ∧ (∀ k, { t.grid k with edge := (s.grid k).edge } = s.grid k) ∧
  { t with gangs := s.gangs, grids := s.grids, rels := s.rels, spoiled := s.spoiled, hostWr := s.hostWr, mem := s.mem, hostMem := s.hostMem } = s

/-- A gang but for what its fences follow. -/
def Gang.unheard (g : Gang) : Gang := { g with infl := g.infl.map fun e => { e with sync := [] } }

/-- The same when a read has been applied: what it has seen may have been handed on to full fences of other gangs (R158, R159). -/
def sameButHeard (s t : State) (r : GangRef) : Prop :=
  (∀ q, gkey q ≠ gkey r → (t.gang q).unheard = (s.gang q).unheard) ∧ (∀ k, { t.grid k with edge := (s.grid k).edge } = s.grid k) ∧
  { t with gangs := s.gangs, grids := s.grids, rels := s.rels, spoiled := s.spoiled, hostWr := s.hostWr, mem := s.mem, hostMem := s.hostMem } = s

/-- The state s1 in which a copy has read a byte x at an address or scratch offset b: a page of scratch that it reads is held then, or read in
the image where it cannot be (R240, R241, R267). -/
def copyReads (s s1 : State) (o : Op) (k : CopyKind) (b : Nat) (x : Byte) : Prop :=
  let g := s1.group o.by_.group
  if k = .sg ∨ k = .ss then s.touchPage o.by_.group b true = .ok s1 ∧
    x = if (Sparse.get {} g.pages (b / 256) : Line).out then BitVec.ofNat 8 (s1.imgRead (s1.grid g.grid).ctx (s1.scrVa o.by_.group b) 1)
      else Sparse.get 0 g.scr b
  else s1 = s ∧ ∃ l, s.engLoc o.grid .read b 1 = .ok l ∧ x = s.byteAt l.host l.key

/-- What is left of a gang when one of its accesses is applied: everything but its entries in flight, its marks, and what its splits' reads
have seen of such releases. -/
def sameButEntries (g g' : Gang) : Prop :=
  let known (x : Split) : Split := { x with seen := [] }
  { g' with infl := g.infl, trig := g.trig, trigWait := g.trigWait, run := g'.run.map known, pend := g'.pend.map known,
            parked := g'.parked.map known } =
    { g with run := g.run.map known, pend := g.pend.map known, parked := g.parked.map known }

/-- Access k of entry id is applied with the value v, when its instruction still waits for it. -/
def got (t : State) (r : GangRef) (e : Entry) (id k : Nat) (a : Access) (v : W64) : Prop :=
  e.long = true → ∃ e', (t.gang r).entry? id = some e' ∧ e'.accs[k]? = some { a with done := true, val := v }

/-- Access k of entry id of gang r is the next thing that happens to memory, at place p; the gang's grid is no node of a graph. -/
structure appliesAt (s : State) (r : GangRef) (e : Entry) (id k : Nat) (a : Access) (p : Place) : Prop where
  entry : (s.gang r).entry? id = some e
  acc : e.accs[k]? = some a
  kind : e.kind = .mem
  going : e.done = false
  may : s.mayApply r e a = true
  place : s.place r a = .ok p
  alone : (s.grid (s.group r.group).grid).node = none

/-- One operation started for each selected slice (R237, R238): they take the next numbers of the engine's timeline in slice order, and of
the context nothing else changes, nor of the other contexts, nor of the machine beside `gangs`. -/
def Cx.startsIn (c : Cx) (s t : State) (eng : Nat) (op : Nat → Op) : Prop :=
  let x := s.ctx c.grd.ctx
  let y := t.ctx c.grd.ctx
  y.latest eng = x.latest eng + c.sls.length ∧ (∀ j sl, c.sls[j]? = some sl → y.op eng (x.latest eng + 1 + j) = op sl) ∧
  (∀ k, (∀ j, j < c.sls.length → k ≠ okey eng (x.latest eng + 1 + j)) → Sparse.get {} y.ops k = Sparse.get ({} : Op) x.ops k) ∧
  (∀ e, e ≠ eng → y.latest e = x.latest e) ∧ { y with tl := x.tl, ops := x.ops } = x ∧ (∀ k, k ≠ c.grd.ctx → t.ctx k = s.ctx k) ∧
  t.gang c.r = c.g ∧ (∀ q, gkey q ≠ gkey c.r → t.gang q = s.gang q) ∧ { t with gangs := s.gangs, ctxs := s.ctxs } = s

/-- The instruction does so, completes, and each slice's destination holds the slice's ticket. -/
def Cx.starts (c : Cx) (i : Instr) (s : State) (d : SReg) (eng : Nat) (op : Nat → Op) : Prop :=
  ∃ s1, c.startsIn s s1 eng op ∧ exec i s = .next (({ c with s := s1 }).after
    (c.sls.zipIdx.map fun (y : Nat × Nat) => .s y.1 d.toNat (ticketOf eng ((s.ctx c.grd.ctx).latest eng + 1 + y.2))))

/-- Check 7 of a network instruction passes: targets name packages, addresses are multiples of 4, and the count is in its range. -/
def Cx.netFit (c : Cx) (t : SReg) (rs : List SReg) (wrong : Bool) : Prop :=
  wrong = false ∧ ∀ sl ∈ c.sls, badTarget (c.g.sreg sl t.toNat) = false ∧ ∀ r ∈ rs, (c.g.sreg sl r.toNat).toNat % 4 = 0

/-- Check 7 of a network instruction fails (R75, R200): the misaligned trap with the slices' lanes that have such an address; else the
illegal-operand trap with every lane that raised its cause, and the lower subcause that one of them has (that choice among subcauses is the
model's: log entry 129). -/
def Cx.netTraps (c : Cx) (i : Instr) (s : State) (t : SReg) (rs : List SReg) (wrong : Bool) : Prop :=
  let odd := c.sls.filterMap fun sl => ((rs.map fun r => c.g.sreg sl r.toNat).find? fun x => x.toNat % 4 != 0).map fun x => (sl, x)
  let bad := c.sls.filter fun sl => badTarget (c.g.sreg sl t.toNat)
  let lanes (l : List Nat) : W32 := l.foldl (fun m sl => m ||| c.maskAt (.slice sl)) 0
  let trap (cause sub : Nat) (fa : W64) (m : W32) : Prop := exec i s = .next (s.raise c.r ⟨cause, sub, c.sp.pc, fa, m, encode i⟩)
  (∀ x xs, odd = x :: xs → trap 7 0 x.2 (lanes (odd.map Prod.fst))) ∧
  (odd = [] → bad ≠ [] → trap 0xD 8 0 (if wrong then lanes bad ||| c.visMask else lanes bad)) ∧
  (odd = [] → bad = [] → wrong = true → trap 0xD 9 0 c.visMask)

/-! ### Privileged registers -/

/-- The indices of a register that is written (R298): in range where it has one. -/
def privHas (code k : Nat) : Bool :=
  match privInfo code with
  | some p => p.writable && (match p.range with
    | some (lo, hi) => decide (lo ≤ k) && decide (k ≤ hi)
    | none => true)
  | none => false

/-- The registers of R298 that hold what is written, in the bits they have. -/
def plainRegs : List Nat :=
  [0x000, 0x001, 0x002, 0x003, 0x004, 0x009, 0x010, 0x011, 0x012, 0x013, 0x014, 0x015, 0x016, 0x017, 0x020, 0x021, 0x022, 0x038, 0x040, 0x041,
   0x042, 0x043, 0x044]

/-- What a write leaves in one of them; `none`: its old value, the one written being out of range (R298). -/
def privKept (code : Nat) (x : W64) : Option W64 :=
  let within (lo hi w : Nat) : Option W64 :=
    let v := x.toNat % 2 ^ w
    if lo ≤ v ∧ v ≤ hi then some (BitVec.ofNat 64 v) else none
  match code with
  | 0x001 | 0x002 | 0x003 => some (x &&& ~~~(0xFFF : W64))
  | 0x004 => some (x &&& 6)
  | 0x009 => within 0 399999 19
  | 0x038 => within 1 4800 16
  | 0x040 => if x.toNat % 16 = 12 ∨ x.toNat % 16 = 13 then none else within 0 15 4
  | 0x041 => within 100 5000 32
  | 0x042 => within 20 10000 32
  | 0x043 => within 100 1000000 32
  | 0x044 => within 1000 60000000 32
  | _ => some x

/-! ### A queue at work -/

/-- The queue at work holds a packet of a batten program, and instructions are left (R339, R340). -/
def atWork (s : State) (q : Queue) (it : Interp) : Prop :=
  s.queue (qkey s.curQ.1 s.curQ.2) = q ∧ q.it = some it ∧ q.working = true ∧ (it.std = true ∨ 0 < it.left)

/-- The queue goes on with its interpreter as given. -/
def State.goOn (s : State) (it : Interp) : State :=
  let k := qkey s.curQ.1 s.curQ.2
  s.setQ k { s.queue k with it := some it, qst := 2 }

/-- The queue's packet is complete. -/
def State.packetDone (s : State) (it : Interp) : State :=
  let k := qkey s.curQ.1 s.curQ.2
  s.setQ k ((s.queue k).complete it.slots)

/-- The queue waits. -/
def State.queueWaits (s : State) : State :=
  let k := qkey s.curQ.1 s.curQ.2
  s.setQ k { s.queue k with qst := 3 }

/-- The queue halts. -/
def State.halted (s : State) (reason : Nat) : State := s.haltQueue (qkey s.curQ.1 s.curQ.2) reason

/-! ### The invariant -/

/-- Both memories keep their one canonical form. -/
def State.ok (s : State) : Prop := memWf s.mem = true ∧ memWf s.hostMem = true

/-- The registers with ranges hold values in them (R298, R299, R192, R306, R314). -/
def State.legal (s : State) : Prop :=
  1 ≤ s.pwrlim.toNat ∧ s.pwrlim.toNat ≤ 4800 ∧ s.srcid.toNat < 400000 ∧ s.tsrc ≠ 12 ∧ s.tsrc ≠ 13 ∧
  100 ≤ s.fguard.toNat ∧ s.fguard.toNat ≤ 5000 ∧ 20 ≤ s.fstall.toNat ∧ s.fstall.toNat ≤ 10000 ∧
  100 ≤ s.ntmo.toNat ∧ s.ntmo.toNat ≤ 1000000 ∧ 1000 ≤ s.ctmo.toNat ∧ s.ctmo.toNat ≤ 60000000 ∧
  8 ≤ s.ceil ∧ s.ceil ≤ 34 ∧ s.events.length ≤ 1024 ∧
  ∀ x ∈ s.clusters, inTable x.2.rt x.2.fq = true ∧ 2 ≤ x.2.slope ∧ x.2.slope ≤ 32

end Sys2Proof.Machine
end

