-- ==== Sys2Proof/Certificates/Slice0/Obligations.lean ====
section
/-!
DEFINITION. The statements for the provers: what the Forwyn 9's manual says of encodings, of issuing, of each instruction and each event, in
terms of `exec` and `step`.
-/
open Sys2Proof Sys2Proof.Machine

/-! ### Encoding -/

/-- O1 (R339, R340): a batten instruction's word reads back as that instruction, and a word that reads as an instruction is its word. -/
def Obligations.BattenRoundTrip : Prop :=
  (∀ i w, encodeBatten i = some w → decodeBatten w = some i) ∧ (∀ w i, decodeBatten w = some i → encodeBatten i = some w)

/-- O2 (R54 to R66, and the instruction chapters): the parcels of every well-formed gang instruction, whatever follows them, read back as that
instruction, in a predicate-block slot too where the instruction may stand in one. -/
def Obligations.GangRoundTrip : Prop :=
  ∀ (W : Nat) (b : Bool) (i : Instr) (rest : List W32), (fieldsOf i).isSome = true → WellFormed W i = true →
    (b && slotIllegal i) = false → decode W b (encode i ++ rest) = .ok (i, rest)

/-- O3: words that the manual writes out, with the instructions it gives them. -/
def Obligations.WordsOfTheManual : Prop :=
  decode 32 false [0x08080040, 0x0000000C] = .ok (.add .n32 (.v 8) (.v 8) (.v 12), []) ∧
  decode 32 false [0x08080840, 0x0000000C] = .error .badValue ∧
  decode 32 false [0x08080040, 0x000F000C] = .error .badValue ∧
  decode 32 false [0x08080040, 0x0000010C] = .error .notZero ∧
  decode 32 false [0x000000EC, 0x00000000] = .error .reservedOp ∧
  decode 32 false [0x04040095, 0x40000000, 0x00000002] = .ok (.shl .n32 (.v 4) (.v 4) (.imm 2), []) ∧
  decode 32 false [0x01000004, 0x00000003] = .ok (.pb 0 1 3, []) ∧
  decode 32 false [0x0A080E00, 0x10000004] = .ok (.ld 3 .rlx .group .n32 8 (.s 10) (.v 4), []) ∧
  decode 32 false [0x020100C1, 0x40100000, 0x00000000] = .ok (.cmp .ne .n32 1 (.v 2) (.imm 0), []) ∧
  decode 32 false [0x03040058, 0x00000002] = .ok (.div 0 .n32 (.v 4) (.v 3) (.v 2), []) ∧
  decode 32 false [0x0402010C, 0x01040806] = .ok (.fma .rz .f32 2 (.v 4) (.v 6) 8, []) ∧
  decode 32 false [0x02030180, 0x01410000] = .ok (.cvt .rz .f32 .s32 3 (.v 2), []) ∧
  decode 32 false [0x030401DC, 0x00060001] = .ok (.mxix 0 .f16 4 3 (.v 1), []) ∧
  decode 32 false [0x08060280, 0x10700401] = .ok (.atom 0 .cas .rlx .group .n32 (.v 6) (.s 8) (.v 1) (.v 4), []) ∧
  decode 32 false [0x00000230, 0x0A000000] = .ok (.fence .rel .dev, []) ∧
  decode 32 false [0x0814434D, 0x3E000A09, 0x80000100] = .ok (.nput true .rel .sys 20 8 9 10 256, []) ∧
  decode 32 false [0x0B104358, 0x10040000] = .ok (.ncoll .ared .rlx .group .f32 16 11, []) ∧
  decode 32 false [0x00200300, 0x2010000C] = .ok (.mmxNar 32 0 12, []) ∧
  decode 32 false [0x10000304, 0x80000000] = .ok (.bpub 0 0 16 0, []) ∧
  decode 32 false [0x08010348, 0x30000009] = .ok (.gcond 1 8 9, []) ∧
  decode 32 false [0x14004389, 0x50020000, 0x00003004] = .ok (.pwr 4 (.imm 3) 20, [])

/-! ### Fetch -/

/-- O4 (R55): where fetch meets a pad parcel it goes on at the next 32-byte boundary, and the instruction found there issues in the split as it
was but for its pc, with its block and its windows; a parcel of LEN 3 that is no pad is the illegal encoding 0x0001, subcause 0x0002. -/
def Obligations.PadParcels : Prop :=
  (∀ (s : State) (ctx W n : Nat) (b : Bool) (pc : W64) (l : Loc), s.xlate ctx (ctx == 0) .fetch pc.toNat = .ok l →
    s.parcels l 1 = [0xFFFFFFFF] →
    s.fetchAt ctx W b (n + 1) pc = s.fetchAt ctx W b n (BitVec.ofNat 64 ((pc.toNat / 32 + 1) * 32))) ∧
  (∀ (s : State) (ctx W n : Nat) (b : Bool) (pc : W64) (l : Loc) (p : W32), s.xlate ctx (ctx == 0) .fetch pc.toNat = .ok l →
    s.parcels l 1 = [p] → p.toNat % 4 = 3 → p ≠ 0xFFFFFFFF → s.fetchAt ctx W b (n + 1) pc = .trap pc 1 2 [p]) ∧
  (∀ (s : State) (r : GangRef) (x : Split) (pc : W64) (i : Instr), ((s.settle r).gang r).run = some x →
    ((s.settle r).gang r).trapReq = none → { s.settle r with cur := r }.noticeReady r = false →
    { s.settle r with cur := r }.nextInstr r x = .ok pc i →
    s.issueGang r = exec i ({ s.settle r with cur := r }.runAs r { x with pc := pc }))

/-- O5 (R56): an instruction whose length in bytes exceeds what is left of its 32-byte block is the fetch-boundary trap at its own address,
whatever else its word holds; and no instruction that fetch finds crosses a boundary. -/
def Obligations.FetchBoundary : Prop :=
  (∀ (s : State) (ctx W n : Nat) (b : Bool) (pc : W64) (l : Loc) (p : W32), s.xlate ctx (ctx == 0) .fetch pc.toNat = .ok l →
    s.parcels l 1 = [p] → p.toNat % 4 ≠ 3 → pc.toNat % 4 = 0 → 32 - pc.toNat % 32 < 4 * (p.toNat % 4 + 2) →
    ∃ ps, s.fetchAt ctx W b (n + 1) pc = .trap pc 2 0 ps) ∧
  (∀ (s : State) (ctx W n : Nat) (b : Bool) (pc pc' : W64) (i : Instr), pc.toNat % 4 = 0 → s.fetchAt ctx W b n pc = .ok pc' i →
    ∃ l p, s.xlate ctx (ctx == 0) .fetch pc'.toNat = .ok l ∧ s.parcels l 1 = [p] ∧ p.toNat % 4 ≠ 3 ∧
      pc'.toNat % 4 = 0 ∧ pc'.toNat % 32 + 4 * (p.toNat % 4 + 2) ≤ 32)

/-! ### Steps -/

/-- O6: one step is one turn: the first listed, else a free one; an event's turn runs it, an engine's advances an operation, time
passes, a line chosen to go does so, and firmware exports a window.
(How turns are listed is the model's own: log entry 2.) -/
def Obligations.StepTakesATurn : Prop :=
  (∀ (s : State) (t : Turn) (ts : List Turn), s.agenda = t :: ts →
    step s = { s with agenda := ts, tick := s.tick + 1 }.turn t) ∧
  (∀ s : State, s.agenda = [] → step s = { s with tick := s.tick + 1 }.turn s.freeTurn) ∧
  (∀ (s : State) (e : Instr), Instr.isEvent e = true → s.turn (.event e) = exec e s) ∧
  (∀ (s : State) (core quad : Nat), s.turn (.issue core quad) = s.issueTurn core quad) ∧
  (∀ (s : State) (part q : Nat), s.turn (.queue part q) = s.queueTurn part q) ∧
  (∀ (s : State) (c k n : Nat), s.turn (.engine c k n) = .next (s.engineTurn c k n)) ∧
  (∀ (s : State) (ns : Nat), s.turn (.elapse ns) = .next (s.elapse ns)) ∧
  (∀ (s : State) (r : GangRef) (key : Nat), s.turn (.evict r key) = .next (s.evictDue r key)) ∧
  (∀ (s : State) (part ctx first bytes : Nat),
    ∃ w, s.turn (.window part ctx first bytes) = .next { s with exported := w } ∧ Sparse.get (0, 0, 0) w part = (ctx, first, bytes) ∧
      ∀ k, k ≠ part → Sparse.get (0, 0, 0) w k = Sparse.get (0, 0, 0) s.exported k)

/-- O7 (R41, R54, R57): when a quadrant's turn picks a gang and the parcels at its running split's pc lie in one block and decode to a
well-formed instruction, the step is exec of that instruction, with nothing around it but the choice of the split. (That fetch reads
memory as it stands is the model's choice: log entry 88.) -/
def Obligations.StepRunsGangInstruction : Prop :=
  ∀ (s : State) (core quad : Nat) (ts : List Turn) (r : GangRef) (x : Split) (l : Loc) (i : Instr) (rest : List W32),
    s.agenda = .issue core quad :: ts →
    let s1 := ({ s with agenda := ts, tick := s.tick + 1 }.rotateCore core).chooseDet core
    let naps := (s1.gangsOf core).filter fun q => q.gang % 4 == quad && !(s1.gridRef q).det && (s1.gang q).napping
    let s2 := (s1.wake (naps.filter fun q => q != r) .none).settle r
    let d := s2.grid (s2.group r.group).grid
    s1.pickGang core quad = some r → (s2.gang r).run = some x → (s2.gang r).trapReq = none →
    { s2 with cur := r }.noticeReady r = false →
    s2.xlate d.ctx (d.ctx == 0) .fetch x.pc.toNat = .ok l →
    (∀ p, s2.parcels l 1 = [p] → p.toNat % 4 ≠ 3 ∧ x.pc.toNat % 32 / 4 + (p.toNat % 4 + 2) ≤ 8) →
    s2.parcels l (i.bytes / 4) = encode i → decode d.w x.blk.isSome (encode i) = .ok (i, rest) →
    step s = exec i ({ s2 with cur := r }.runAs r x)

/-- O8 (R338, R339): a queue's turn at a packet of its program runs the batten instruction that its word at the interpreter's place decodes
to; at a standard packet, that packet; with no packet in progress, the start of the next. (The packet waits while the queue's context is not the
partition's: log entry 146.) -/
def Obligations.StepRunsBattenInstruction : Prop :=
  ∀ (s : State) (part q : Nat) (ts : List Turn), s.agenda = .queue part q :: ts →
    let s1 := { s with agenda := ts, tick := s.tick + 1, curQ := (part, q) }
    let x := s.queue (qkey part q)
    let own := s.ownsCtx part x.ctx = true
    (own ↔ x.ctx = 0 ∨ ((s.ctx x.ctx).asg = true ∧ (s.ctx x.ctx).part = part)) ∧
    (∀ it i, x.it = some it → own → x.working = true → it.std = false → decodeBatten (x.prog.getD it.pc 0) = some i → step s = exec i s1) ∧
    (∀ it i, x.it = some it → own → x.working = true → it.std = true → stdPacket it.words = some i → step s = exec i s1) ∧
    (∀ it, x.it = some it → ¬own ∨ x.working = false → step s = .next s1) ∧
    (x.it = none → step s = exec (.battenPacketStart part q) s1)

/-- O9: no step is refused, and the only fault a step can end in is that of an instruction issued for a gang that does not run. -/
def Obligations.EveryStepGoesOn : Prop := ∀ s : State, (∃ t, step s = .next t) ∨ step s = .fault .noGang


/-! ### Reset and invariants -/

/-- O10 (R298, R299): what the privileged registers read after reset, for the resets that the map states; no group, grid, graph or queue
exists, and the host's mailbox is idle. -/
def Obligations.ResetValues : Prop :=
  let s := State.reset
  (∀ core, [0x009, 0x038, 0x040, 0x041, 0x042, 0x043, 0x044].map (fun code => s.privRead core code 0) =
    [0, 4800, 15, 200, 100, 10000, 1000000]) ∧
  (∀ core k code, code ∈ [0x000, 0x001, 0x002, 0x003, 0x004, 0x005, 0x010, 0x048] → s.privRead core code k = 0) ∧
  (∀ core k, k < 32 → s.privRead core 0x030 k = 0x800000802 ∧ s.privRead core 0x031 k = 0 ∧ s.privRead core 0x032 k = 1) ∧
  s.groups = [] ∧ s.grids = [] ∧ s.graphs = [] ∧ (∀ k, (s.queue k).qst = 0) ∧ s.bst = 0 ∧ s.mbCmd = 0 ∧ s.events = []

/-- O11: both memories keep their one canonical form (addresses strictly rising, no listed zero byte) whatever step the machine takes. (The
form is the model's; log entry 3.) -/
def Obligations.StepKeepsMemory : Prop := ∀ s t : State, s.ok → step s = .next t → t.ok

/-- O12 (R298, R299, R306, R314): whatever step the machine takes, the registers with ranges stay in them, the clusters' targets stay points of
their ratios' tables, the ceiling stays between 8 and 34, and the event queue holds at most 1,024. -/
def Obligations.StepKeepsRanges : Prop := ∀ s t : State, s.legal → step s = .next t → t.legal

/-- O13: both invariants hold after reset. -/
def Obligations.ResetInvariants : Prop := State.reset.ok ∧ State.reset.legal

/-! ### Integer and logic instructions -/

/-- O14 (R79, R87 to R89, R94): an integer, logic or move instruction that runs completes at once: every visited lane, or selected slice for a
scalar form, receives its exact result modulo 2^w, extended by its type; no other register, flag or byte changes. The bit counts and reversals
are what the tables say: leading zeros, one bits, bit i at w − 1 − i. -/
def Obligations.IntegerResults : Prop :=
  (∀ (i : Instr) (s : State) (c : Cx) (t : Ty) (d : Dst) (f : At → Int), runs i s = some c → intResult c i = some (t, d, f) →
    c.puts i s 0 fun g => ∀ p ∈ c.places d.scalar, holds g t p d (f p)) ∧
  (∀ w x, x < 2 ^ w → leadingZeros w x ≤ w ∧ x < 2 ^ (w - leadingZeros w x) ∧ (x ≠ 0 → 2 ^ (w - leadingZeros w x - 1) ≤ x)) ∧
  (∀ x, oneBits 0 x = 0) ∧ (∀ w x, oneBits (w + 1) x = oneBits w (x / 2) + x % 2) ∧
  (∀ w x i, i < w → (reverseBits w x).testBit i = x.testBit (w - 1 - i))

/-- O15 (R129): the exponential and the logarithm in base 2. Integral operands of the one, and powers of 2 of the other, give exact results
rounded once. Every other result is the rounding, with `nx`, of a number closer to the exact one than 2^-190 (of it, for the exponential).
(That the manual's correctly rounded result is that one is log entry 23.) -/
def Obligations.ExponentialAndLogarithm : Prop :=
  ∀ (t : Ty) (m : Rm) (a : Nat) (n : Bool) (p : Nat) (e : Int), t.floating = true → fval t a = .num n p e →
    let x : Real := (FV.num n p e).rat
    let most : Nat × BitVec 6 := (signed t false (if ovfInf m false then (fmtOf t).top + 1 else (fmtOf t).top), ofBit ||| nxBit)
    (∀ k : Int, x = k → k.natAbs ≤ 2 ^ 40 → rounded t m ((2 : Real) ^ k) (fex2v t m a)) ∧
    (2 ^ 16 ≤ x → fex2v t m a = most) ∧
    (x ≤ -2 ^ 16 → fex2v t m a = (if m = .rp then 1 else 0, nxBit ||| ufBit)) ∧
    ((∀ k : Int, x ≠ k) → |x| < 2 ^ 16 → ∃ q : Real, |q - (2 : Real) ^ x| ≤ (2 : Real) ^ x / 2 ^ 190 ∧ rounded t m q (fex2v t m a) ∧
      (fex2v t m a).2.getLsbD 4 = true) ∧
    (x = 1 → flg2v t m a = (fzero t false, 0)) ∧
    (∀ k : Int, k ≠ 0 → x = (2 : Real) ^ k → rounded t m k (flg2v t m a)) ∧
    (0 < x → (∀ k : Int, x ≠ (2 : Real) ^ k) → ∃ q : Real, |q - Real.logb 2 x| ≤ 1 / 2 ^ 190 ∧ rounded t m q (flg2v t m a) ∧
      (flg2v t m a).2.getLsbD 4 = true)

/-- O16 (R79, R89): `n32` arithmetic on vector registers is arithmetic of 32-bit words, lane by lane. -/
def Obligations.WordArithmetic : Prop :=
  ∀ (s : State) (c : Cx) (i : Instr) (d a b : VReg) (f : W32 → W32 → W32), runs i s = some c →
    (i, f) ∈ ([(.add .n32 (.v d) (.v a) (.v b), (· + ·)), (.sub .n32 (.v d) (.v a) (.v b), (· - ·)),
      (.mul .n32 (.v d) (.v a) (.v b), (· * ·)), (.and .n32 (.v d) (.v a) (.v b), (· &&& ·)),
      (.or .n32 (.v d) (.v a) (.v b), (· ||| ·)), (.xor .n32 (.v d) (.v a) (.v b), (· ^^^ ·)),
      (.andn .n32 (.v d) (.v a) (.v b), (fun x y => x &&& ~~~y)), (.not .n32 (.v d) (.v a), (fun x _ => ~~~x)),
      (.neg .n32 (.v d) (.v a), (fun x _ => -x)), (.mov .n32 (.v d) (.v a), (fun x _ => x))] : List (Instr × (W32 → W32 → W32))) →
    ∃ t, exec i s = .next t ∧ ∀ L ∈ c.vis, (t.gang c.r).vreg L d.toNat = f (c.g.vreg L a.toNat) (c.g.vreg L b.toNat)

/-- O17 (R93): `addc` and `subb` chain wide unsigned arithmetic through a predicate. -/
def Obligations.CarryChain : Prop :=
  (∀ (t : Ty) (d : VReg) (a : Src) (b : SrcB) (q : PReg) (s : State) (c : Cx), runs (.addc t d a b q) s = some c →
    c.puts (.addc t d a b q) s 0 fun g => ∀ L ∈ c.vis,
      let x := c.opA t (.lane L) a + c.opB t (.lane L) b + (if c.g.preg L q.toNat then 1 else 0)
      holds g t (.lane L) (.v d) x ∧ g.preg L q.toNat = decide (2 ^ t.width ≤ x)) ∧
  (∀ (t : Ty) (d : VReg) (a : Src) (b : SrcB) (q : PReg) (s : State) (c : Cx), runs (.subb t d a b q) s = some c →
    c.puts (.subb t d a b q) s 0 fun g => ∀ L ∈ c.vis,
      let x := c.opA t (.lane L) a - c.opB t (.lane L) b - (if c.g.preg L q.toNat then 1 else 0)
      holds g t (.lane L) (.v d) x ∧ g.preg L q.toNat = decide (x < 0))

/-- O18 (R90): `div` and `rem` go into flight with the quotient truncated toward zero and its remainder, all ones and the dividend for a zero
divisor, the dividend and 0 for the one overflow; `idz` comes with the results when any place divides by zero. -/
def Obligations.Division : Prop :=
  ∀ (la : BitVec 4) (t : Ty) (d : Dst) (a : Src) (b : SrcB) (s : State) (c : Cx),
    let idz := stickyIf ((c.places d.scalar).any fun p => c.opB t p b == 0) idzBit
    let corner (p : At) : Prop := t.signed = true ∧ c.opA t p a = -2 ^ (t.width - 1) ∧ c.opB t p b = -1
    (runs (.div la t d a b) s = some c → c.putsLater (.div la t d a b) s idz fun g => ∀ p ∈ c.places d.scalar,
      ∃ q : Int, holds g t p d q ∧ (c.opB t p b = 0 → q = 2 ^ t.width - 1) ∧ (corner p → q = c.opA t p a) ∧
        (c.opB t p b ≠ 0 → ¬corner p → q = (c.opA t p a).tdiv (c.opB t p b))) ∧
    (runs (.rem la t d a b) s = some c → c.putsLater (.rem la t d a b) s idz fun g => ∀ p ∈ c.places d.scalar,
      ∃ r : Int, holds g t p d r ∧ (c.opB t p b = 0 → r = c.opA t p a) ∧ (corner p → r = 0) ∧
        (c.opB t p b ≠ 0 → ¬corner p → r = c.opA t p a - c.opB t p b * (c.opA t p a).tdiv (c.opB t p b)))

/-- O19 (R91): the shifts and rotations, for counts below the width, at it and above. -/
def Obligations.Shifts : Prop :=
  ∀ (t : Ty) (d : Dst) (a : Src) (b : SrcB) (s : State) (c : Cx),
    let w := t.width
    let at_ (i : Instr) (f : At → Nat → Nat → Gang → Prop) : Prop := runs i s = some c →
      c.puts i s 0 fun g => ∀ p ∈ c.places d.scalar, f p (c.pattern t p a) (c.count p b) g
    at_ (.shl t d a b) (fun p x k g => holds g t p d (if k < w then x * 2 ^ k else 0)) ∧
    at_ (.shr t d a b) (fun p x k g => holds g t p d (if k < w then (x / 2 ^ k : Nat) else 0)) ∧
    at_ (.sar t d a b) (fun p x k g => ∃ y : Nat, holds g t p d y ∧ y < 2 ^ w ∧
      ∀ j, j < w → y.testBit j = x.testBit (if j + k < w then j + k else w - 1)) ∧
    at_ (.rot false t d a b) (fun p x k g => ∃ y : Nat, holds g t p d y ∧ y < 2 ^ w ∧
      ∀ j, j < w → y.testBit ((j + k) % w) = x.testBit j) ∧
    at_ (.rot true t d a b) (fun p x k g => ∃ y : Nat, holds g t p d y ∧ y < 2 ^ w ∧
      ∀ j, j < w → y.testBit j = x.testBit ((j + k) % w))

/-- O20 (R92): `bfx` reads a field and extends it by its type, `bfi` replaces a field of the destination; an empty field gives 0, or leaves
the destination. -/
def Obligations.BitFields : Prop :=
  ∀ (t : Ty) (d : Dst) (a : Src) (b : SrcB) (e : SrcC) (s : State) (c : Cx),
    let w := t.width
    let n (p : At) : Nat := if w ≤ c.count p b ∨ c.countC p e = 0 then 0 else min (c.countC p e) (w - c.count p b)
    (runs (.bfx t d a b e) s = some c → c.puts (.bfx t d a b e) s 0 fun g => ∀ p ∈ c.places d.scalar,
      let x := c.pattern t p a / 2 ^ c.count p b % 2 ^ n p
      holds g t p d (if n p = 0 then 0 else if t.signed then (x : Int).bmod (2 ^ n p) else x)) ∧
    (runs (.bfi t d a b e) s = some c → c.puts (.bfi t d a b e) s 0 fun g => ∀ p ∈ c.places d.scalar,
      ∃ y : Nat, holds g t p d y ∧ y < 2 ^ w ∧ ∀ j, j < w → y.testBit j =
        if c.count p b ≤ j ∧ j < c.count p b + n p then (c.pattern t p a).testBit (j - c.count p b) else (c.dstVal t p d).testBit j)

/-- O21 (R88, R142): `sel` takes either source by the lane's predicate; `sext` extends from a position that its second source names. -/
def Obligations.SelectAndExtend : Prop :=
  (∀ (t : Ty) (d : VReg) (a : Src) (b : SrcB) (q : PReg) (s : State) (c : Cx), runs (.sel t d a b q) s = some c →
    c.puts (.sel t d a b q) s 0 fun g => ∀ L ∈ c.vis,
      holds g t (.lane L) (.v d) (if c.g.preg L q.toNat then c.opA t (.lane L) a else c.opB t (.lane L) b)) ∧
  (∀ (t : Ty) (d : VReg) (a : Src) (b : SrcB) (s : State) (c : Cx), runs (.sext t d a b) s = some c →
    c.puts (.sext t d a b) s 0 fun g => ∀ L ∈ c.vis,
      let n := c.byteB L b
      let x := c.pattern t (.lane L) a
      holds g t (.lane L) (.v d) (if n = 0 then 0 else if t.width ≤ n then x else ((x % 2 ^ n : Nat) : Int).bmod (2 ^ n)))

/-! ### Predicates -/

/-- O22 (R95, R96): comparisons and the predicate instructions, in every visited lane. -/
def Obligations.Predicates : Prop :=
  ∀ (s : State) (c : Cx) (d a b : PReg) (v : VReg),
    let lanes (i : Instr) (f : Nat → Bool) : Prop := runs i s = some c →
      c.puts i s 0 fun g => ∀ L ∈ c.vis, g.preg L d.toNat = f L
    (∀ (cc : Cond) (t : Ty) (x : Src) (y : SrcB), lanes (.cmp cc t d x y) fun L =>
      let m := c.opA t (.lane L) x
      let n := c.opB t (.lane L) y
      match cc with
      | .eq => m == n | .ne => m != n | .lt => decide (m < n) | .le => decide (m ≤ n) | .gt => decide (m > n) | .ge => decide (m ≥ n)) ∧
    lanes (.pand d a b) (fun L => c.g.preg L a.toNat && c.g.preg L b.toNat) ∧
    lanes (.por d a b) (fun L => c.g.preg L a.toNat || c.g.preg L b.toNat) ∧
    lanes (.pxor d a b) (fun L => c.g.preg L a.toNat ^^ c.g.preg L b.toNat) ∧
    lanes (.pnot d a) (fun L => !c.g.preg L a.toNat) ∧
    (runs (.ppack v) s = some c → c.puts (.ppack v) s 0 fun g => ∀ L ∈ c.vis, ∀ k, k < 32 →
      (g.vreg L v.toNat).getLsbD k = (decide (k < 8) && c.g.preg L k)) ∧
    (runs (.punpk v) s = some c → c.puts (.punpk v) s 0 fun g => ∀ L ∈ c.vis, ∀ k, k < 8 →
      g.preg L k = (c.g.vreg L v.toNat).getLsbD k)

/-- O23 (R97): `vote` over the visited lanes. -/
def Obligations.Votes : Prop :=
  ∀ (s : State) (c : Cx) (d : Byte) (a : PReg),
    let lanes (k : Vote) (x : Prop) : Prop := runs (.vote k d a) s = some c →
      c.puts (.vote k d a) s 0 fun g => ∀ L ∈ c.vis, (g.preg L (d.toNat % 8) = true ↔ x)
    lanes .all (∀ M ∈ c.vis, c.g.preg M a.toNat = true) ∧
    lanes .any (∃ M ∈ c.vis, c.g.preg M a.toNat = true) ∧
    lanes .uni (∀ M ∈ c.vis, ∀ N ∈ c.vis, c.g.preg M a.toNat = c.g.preg N a.toNat) ∧
    (runs (.vote .ballot d a) s = some c → c.puts (.vote .ballot d a) s 0 fun g => ∀ L ∈ c.vis, ∀ k, k < 32 →
      (g.vreg L d.toNat).getLsbD k = (c.vis.contains k && c.g.preg k a.toNat))

/-! ### Floating point -/

/-- O24 (R100, R111, R115 to R120, R127, R129 to R131, R133, R136 to R141): a floating instruction or conversion that completes at once gives
every visited lane its result, element by element, and ORs the sticky bits of all lanes into `fstat`; no other register or byte changes. The
results of minimum and maximum, rounding to an integral value, class, scaling, the two-element dot product, conversions, packing and block
scales are what the manual's tables say; those of sums and products are in O29. -/
def Obligations.FloatResults : Prop :=
  (∀ (i : Instr) (s : State) (c : Cx) (t : Ty) (d : VReg) (f : Nat → W64 × BitVec 6), runs i s = some c → fltResult c i = some (t, d, f) →
    formatsValid c i = true →
    c.puts i s (orBits (c.vis.map fun L => (f L).2)) fun g => ∀ L ∈ c.vis, holdsF g t L d (f L).1) ∧
  (∀ (k : Cvt8) (m : Rm) (t : Ty) (d : VReg) (a : Src) (b : SrcB) (s : State) (c : Cx), runs (.cvt8 k m t d a b) s = some c →
    let bad := c.vis.filter fun L => decide (c.byteB L b / 32 ≠ 0 ∨ c.byteB L b % 8 = 0)
    bad ≠ [] → exec (.cvt8 k m t d a b) s = .next (s.raise c.r ⟨0xD, 4, c.sp.pc, 0, maskOf bad, encode (.cvt8 k m t d a b)⟩)) ∧
  (∀ (big prop : Bool) (t : Ty) (a b : Nat), t.floating = true →
    let x := fval t a
    let y := fval t b
    let w := 2 ^ fwidth t
    let r := fminmax big prop t a b
    let le (u v : Nat) : Prop := (fval t u).ext < (fval t v).ext ∨
      (fval t u).ext = (fval t v).ext ∧ ((fval t u).neg = true ∨ (fval t v).neg = false)
    r.2 = stickyIf (x.isSig || y.isSig) nvBit ∧
    ((x.isNan = true ∧ y.isNan = true) ∨ (prop = true ∧ (x.isNan = true ∨ y.isNan = true)) → r.1 = canonNan t) ∧
    (prop = false → x.isNan = true → y.isNan = false → r.1 = b % w) ∧ (prop = false → x.isNan = false → y.isNan = true → r.1 = a % w) ∧
    (x.isNan = false → y.isNan = false → (r.1 = a % w ∨ r.1 = b % w) ∧
      (big = false → le r.1 a ∧ le r.1 b) ∧ (big = true → le a r.1 ∧ le b r.1))) ∧
  (∀ (t : Ty) (m : Rm) (a : Nat), t.floating = true →
    let r := frndv t m a
    (∀ s, fval t a = .nan s → r = (canonNan t, stickyIf s nvBit)) ∧ (∀ n, fval t a = .inf n → r = (finf t n, 0)) ∧
    ((fval t a).finite = true → r.2 = 0 ∧ (fval t r.1).finite = true ∧ (fval t r.1).neg = (fval t a).neg ∧
      (|(fval t a).rat| < 2 ^ 64 → ∃ n : Nat, |(fval t r.1).rat| = n ∧ roundsWhole m (fval t a).neg |((fval t a).rat : Real)| n) ∧
      (2 ^ 64 ≤ |(fval t a).rat| → (fval t r.1).rat = (fval t a).rat))) ∧
  (∀ (t : Ty) (a : Nat), t.floating = true → fclassv t a = (match fval t a with
    | .nan s => if s then 2 ^ 0 else 2 ^ 1
    | .inf n => if n then 2 ^ 2 else 2 ^ 9
    | .num n p e =>
      let x := |(FV.num n p e).rat|
      if x = 0 then if n then 2 ^ 5 else 2 ^ 6
      else if x < (2 : Rat) ^ (fmtOf t).emin then if n then 2 ^ 4 else 2 ^ 7
      else if n then 2 ^ 3 else 2 ^ 8)) ∧
  (∀ (t : Ty) (m : Rm) (a : Nat) (k : Int), t.floating = true → becomes t m ((fval t a).shift k) (fscalev t m a k)) ∧
  (∀ (t : Ty) (m : Rm) (a0 a1 b0 b1 c : Nat), t = .f16x2 ∨ t = .bf16x2 →
    let srcs := [fval t a0, fval t a1, fval t b0, fval t b1, fval .f32 c]
    let p := [fprod (fval t a0) (fval t b0), fprod (fval t a1) (fval t b1)]
    let vs := p.filterMap id ++ [fval .f32 c]
    let r := fdotv t m a0 a1 b0 b1 c
    let bad := none ∈ p ∨ (FV.inf true ∈ vs ∧ FV.inf false ∈ vs)
    let nan := ∃ v ∈ srcs, v.isNan = true
    let sum : Rat := (vs.map FV.rat).sum
    (bad → r = (0x7FC00000, nvBit)) ∧ (¬bad → nan → r = (0x7FC00000, stickyIf (srcs.any FV.isSig) nvBit)) ∧
    (¬bad → ¬nan → (∀ n, FV.inf n ∈ vs → r = (finf .f32 n, 0)) ∧
      ((∀ v ∈ vs, v.finite = true) → (sum ≠ 0 → rounded .f32 m sum r) ∧
        (sum = 0 → r = (fzero .f32 (if vs.all FV.neg then true else m == .rm), 0))))) ∧
  (∀ (m : Rm) (st dt : Ty) (x : W64),
    let u := x.toNat % 2 ^ st.width
    let r := cvtValue m st dt x
    (st.floating = true → dt.floating = true → ∃ y, becomes dt m (fval st u) y ∧ r = (BitVec.ofNat 64 y.1, y.2)) ∧
    (st.floating = true → dt.floating = false → ∃ y, becomesInt dt m (fval st u) y ∧ r = (extV dt y.1, y.2)) ∧
    (st.floating = false → dt.floating = true → ∃ y, becomes dt m (.num (decide (tyVal st x < 0)) (tyVal st x).natAbs 0) y ∧
      r = (BitVec.ofNat 64 y.1, y.2)) ∧
    (st.floating = false → dt.floating = false →
      let lo : Int := if dt.signed then -2 ^ (dt.width - 1) else 0
      let hi : Int := if dt.signed then 2 ^ (dt.width - 1) - 1 else 2 ^ dt.width - 1
      r = (extV dt (if tyVal st x < lo then lo else if hi < tyVal st x then hi else tyVal st x), 0))) ∧
  (∀ (t : Ty) (x : Int), (t.signed = true → t.width < 32 → (extV t x).toInt = x.bmod (2 ^ t.width)) ∧
    (t.signed = false ∨ 32 ≤ t.width → ((extV t x).toNat : Int) = x % 2 ^ t.width)) ∧
  (∀ (m : Rm) (t : Ty) (f : B8) (x : W64), t = .f32 ∨ t = .f16 ∨ t = .bf16 → 1 ≤ f.p → f.p ≤ 7 →
    let v := fval t (x.toNat % 2 ^ t.width)
    (∃ y, becomesB8 f true m v y ∧ cvt8Value .sat m t f x = (BitVec.ofNat 64 y.1, y.2)) ∧
    (∃ y, becomesB8 f false m v y ∧ cvt8Value .inf m t f x = (BitVec.ofNat 64 y.1, y.2)) ∧
    (∃ y, becomes t m (f.val (x.toNat % 256)) y ∧ cvt8Value .dec m t f x = (BitVec.ofNat 64 y.1, y.2)) ∧
    (∀ k, k ≤ f.fmt.top → (f.val k).rat = magVal f.fmt k) ∧
    (∀ k, f.uns = false → 1 ≤ k → k ≤ f.fmt.top → (f.val (k + 128)).rat = -magVal f.fmt k)) ∧
  (∀ (m : Rm) (t : Ty) (a : Nat), t = .f32 ∨ t = .f16 ∨ t = .bf16 → becomesE2m1 m (fval t a) (toE2m1 m (fval t a))) ∧
  (∀ (t : Ty) (c : Nat), c < 16 → t = .f32 ∨ t = .f16 ∨ t = .bf16 →
    let r := fput t .rne (e2m1Val c)
    r.2 = 0 ∧ (fval t r.1).neg = decide (8 ≤ c) ∧ |(fval t r.1).rat| = ([0, 1 / 2, 1, 3 / 2, 2, 3, 4, 6] : List Rat).getD (c % 8) 0) ∧
  (∀ (c : Cx) (a : Src) (b : SrcB) (e : SrcC) (L : Nat) (m : Rm),
    let x := (c.g.src false (.lane L) a).toNat % 2 ^ 32
    let y := (c.g.srcB false zext64 (.lane L) b).toNat % 2 ^ 32
    let z := (c.g.srcC false zext64 (.lane L) e).toNat
    (∀ t h, (t, h) = (Ty.f16x2, Ty.f16) ∨ (t, h) = (Ty.bf16x2, Ty.bf16) → ∃ p q, becomes h m (fval .f32 x) p ∧ becomes h m (fval .f32 y) q ∧
      c.pkValue (.cvt m t b) a L = (BitVec.ofNat 64 (p.1 + 65536 * q.1), p.2 ||| q.2)) ∧
    c.pkValue (.h b) a L = (BitVec.ofNat 64 (x % 65536 + 65536 * (y % 65536)), 0) ∧
    c.pkValue (.b b e) a L = (BitVec.ofNat 64 (x % 256 + 256 * (y % 256) + 65536 * (z % 65536)), 0)) ∧
  (∀ (x : Nat) (m : Rm) (k : BitVec 1) (j : BitVec 2),
    (∀ t h, (t, h) = (Ty.f16x2, Ty.f16) ∨ (t, h) = (Ty.bf16x2, Ty.bf16) → ∃ y, becomes .f32 m (fval h (x / 65536 ^ k.toNat % 65536)) y ∧
      upkValue (.cvt m t k) x = (BitVec.ofNat 64 y.1, y.2)) ∧
    (upkValue (.b false j) x).1.toNat = x / 256 ^ j.toNat % 256 ∧
    (upkValue (.b true j) x).1.toInt = ((x / 256 ^ j.toNat % 256 : Nat) : Int).bmod 256 ∧
    (upkValue (.h false k) x).1.toNat = x / 65536 ^ k.toNat % 65536 ∧
    (upkValue (.h true k) x).1.toInt = ((x / 65536 ^ k.toNat % 65536 : Nat) : Int).bmod 65536 ∧
    ∀ g, (upkValue (.b g j) x).2 = 0 ∧ (upkValue (.h g k) x).2 = 0) ∧
  (∀ (m : Rm) (t : Ty) (a c k : Nat), t = .f32 ∨ t = .f16 ∨ t = .bf16 → c < 256 →
    bsclValue m t false 255 a = (canonNan t, 0) ∧ bsclValue m t true 255 a = (canonNan t, 0) ∧
    (c ≠ 255 → becomes t m ((fval t a).shift ((c : Int) - 127)) (bsclValue m t false c a) ∧
      becomes t m ((fval t a).shift (127 - (c : Int))) (bsclValue m t true c a)) ∧
    ((fval t a).finite = false → bsclFit t k a = 0xFF) ∧ ((fval t a).finite = true → (fval t a).rat = 0 → bsclFit t k a = 0) ∧
    (∀ l : Int, (2 : Rat) ^ l ≤ |(fval t a).rat| → |(fval t a).rat| < (2 : Rat) ^ (l + 1) →
      (bsclFit t k a : Int) = max 0 (min 254 (l - k + 127))))

/-- O25 (R68, R127, R129): division, roots, reciprocals, exponential and logarithm go into flight with their results and sticky bits. Roots and
reciprocals are exact results rounded once; the special operands of each give what the table says. The numbers of `fdiv` are in O29, those of
`fex2` and `flg2` in O15. -/
def Obligations.FloatLateResults : Prop :=
  (∀ (i : Instr) (s : State) (c : Cx) (t : Ty) (d : VReg) (f : Nat → W64 × BitVec 6), runs i s = some c → fltLate c i = some (t, d, f) →
    c.putsLater i s (orBits (c.vis.map fun L => (f L).2)) fun g => ∀ L ∈ c.vis, holdsF g t L d (f L).1) ∧
  (∀ (t : Ty) (m : Rm) (a : Nat), t.floating = true →
    let x : Real := (fval t a).rat
    (∀ s, fval t a = .nan s → ∀ f ∈ [fsqrt1 t m, frcp1 t m, frsq1 t m, fex2v t m, flg2v t m], f a = (canonNan t, stickyIf s nvBit)) ∧
    (fval t a = .inf false → fsqrt1 t m a = (finf t false, 0) ∧ frcp1 t m a = (fzero t false, 0) ∧ frsq1 t m a = (fzero t false, 0) ∧
      fex2v t m a = (finf t false, 0) ∧ flg2v t m a = (finf t false, 0)) ∧
    (fval t a = .inf true → fsqrt1 t m a = finvalid t ∧ frcp1 t m a = (fzero t true, 0) ∧ frsq1 t m a = finvalid t ∧
      fex2v t m a = (fzero t false, 0) ∧ flg2v t m a = finvalid t) ∧
    (∀ n e, fval t a = .num n 0 e → fsqrt1 t m a = (fzero t n, 0) ∧ frcp1 t m a = (finf t n, dzBit) ∧ frsq1 t m a = (finf t n, dzBit) ∧
      rounded t m 1 (fex2v t m a) ∧ flg2v t m a = (finf t true, dzBit)) ∧
    ((fval t a).finite = true → x < 0 → fsqrt1 t m a = finvalid t ∧ frsq1 t m a = finvalid t ∧ flg2v t m a = finvalid t) ∧
    (0 < x → rounded t m (Real.sqrt x) (fsqrt1 t m a) ∧ rounded t m (1 / Real.sqrt x) (frsq1 t m a)) ∧
    (x ≠ 0 → rounded t m (1 / x) (frcp1 t m a)))

/-- O26 (R132): `fabs` clears sign bits, `fneg` inverts them, `fsgn` takes them from b but gives the canonical NaN for a NaN a; none sets a sticky
bit, and MO changes nothing. -/
def Obligations.FloatSigns : Prop :=
  ∀ (m : Rm) (t : Ty) (d : VReg) (a : Src) (b : SrcB) (s : State) (c : Cx), t.floating = true →
    let w := fwidth t
    let bits (i : Instr) (f : Nat → Nat → Bool) : Prop := runs i s = some c → c.puts i s 0 fun g => ∀ L ∈ c.vis, ∃ x, holdsF g t L d x ∧
      ∀ j, j < 64 → x.getLsbD j = (decide (j < t.width) && f L j)
    let sign (j : Nat) : Bool := j % w == w - 1
    let nan (L j : Nat) : Bool := (fval t ((c.fa t L a).toNat / 2 ^ (j / w * w) % 2 ^ w)).isNan
    bits (.fabs m t d a) (fun L j => !sign j && (c.fa t L a).getLsbD j) ∧
    bits (.fneg m t d a) (fun L j => sign j ^^ (c.fa t L a).getLsbD j) ∧
    bits (.fsgn m t d a b) (fun L j => if nan L j then (canonNan t).testBit (j % w)
      else if sign j then (c.fb t L b).getLsbD j else (c.fa t L a).getLsbD j)

/-- O27 (R74, R134): `cmpf` writes the condition of the exact comparison in every visited lane, infinities beyond every number, −0 equal to +0, and
false or true for NaNs as the condition says; an sNaN sets `nv`, a quiet NaN only under `lt`, `le`, `gt` and `ge`. -/
def Obligations.FloatCompare : Prop :=
  (∀ (cc : FCond) (m : Rm) (t : Ty) (d : PReg) (a : Src) (b : SrcB) (s : State) (c : Cx), runs (.cmpf cc m t d a b) s = some c →
    let r (L : Nat) := fcondv cc t (c.fa t L a).toNat (c.fb t L b).toNat
    c.puts (.cmpf cc m t d a b) s (orBits (c.vis.map fun L => (r L).2)) fun g => ∀ L ∈ c.vis, g.preg L d.toNat = (r L).1) ∧
  (∀ (cc : FCond) (t : Ty) (a b : Nat), (fval t a).isNan = false → (fval t b).isNan = false →
    let x := (fval t a).ext
    let y := (fval t b).ext
    fcondv cc t a b = (match cc with
      | .eq => decide (x = y) | .ne => decide (x ≠ y) | .lt => decide (x < y) | .le => decide (x ≤ y) | .gt => decide (y < x)
      | .ge => decide (y ≤ x) | .un => false | .ord => true, 0)) ∧
  (∀ (cc : FCond) (t : Ty) (a b : Nat), (fval t a).isNan = true ∨ (fval t b).isNan = true →
    fcondv cc t a b = (decide (cc = .ne ∨ cc = .un),
      if (fval t a).isSig ∨ (fval t b).isSig ∨ cc = .lt ∨ cc = .le ∨ cc = .gt ∨ cc = .ge then nvBit else 0))

/-- O28 (R113, R114): the one rounding function gives, for every nonzero magnitude, sign, mode and format, the candidate that R113 chooses, and
finds overflow, inexactness and tininess after rounding; for the IEEE formats the overflow value of R114's table, and the bits `nx`, `of`
and `uf`. -/
def Obligations.Rounding : Prop :=
  (∀ (f : Fmt) (m : Rm) (neg : Bool) (k : Nat) (e : Int), k ≠ 0 → rounds f m neg (k * (2 : Real) ^ e) (roundMag f m neg ⟨k, e, false⟩)) ∧
  ∀ (t : Ty) (m : Rm) (neg : Bool) (k : Nat) (e : Int), t.floating = true → k ≠ 0 →
    rounded t m ((if neg then -(k : Real) else k) * (2 : Real) ^ e) (fround t m neg ⟨k, e, false⟩)

/-- O29 (R112, R114, R127, R129): sums, differences, products, fused products and quotients of finite numbers are their exact values rounded
once; the signs of zero results; infinities, invalid operations and division by zero as the table says; and NaN operands. -/
def Obligations.FloatArithmetic : Prop :=
  (∀ (t : Ty) (m : Rm) (a b c : Nat), t.floating = true → (fval t a).finite = true → (fval t b).finite = true → (fval t c).finite = true →
    let x : Real := (fval t a).rat
    let y : Real := (fval t b).rat
    let z : Real := (fval t c).rat
    let p := (fval t a).neg
    let q := (fval t b).neg
    let zero (n n' : Bool) : Nat × BitVec 6 := (fzero t (if n = n' then n else m == .rm), 0)
    (x + y ≠ 0 → rounded t m (x + y) (fadd2 t m a b)) ∧ (x - y ≠ 0 → rounded t m (x - y) (fsub2 t m a b)) ∧
    (x + y = 0 → fadd2 t m a b = zero p q) ∧ (x - y = 0 → fsub2 t m a b = zero p (!q)) ∧
    (x * y ≠ 0 → rounded t m (x * y) (fmul2 t m a b)) ∧ (x * y = 0 → fmul2 t m a b = (fzero t (p != q), 0)) ∧
    (x * y + z ≠ 0 → rounded t m (x * y + z) (fma3 t m a b c)) ∧ (x * y + z = 0 → fma3 t m a b c = zero (p != q) (fval t c).neg) ∧
    (x ≠ 0 → y ≠ 0 → rounded t m (x / y) (fdiv2 t m a b)) ∧ (x = 0 → y ≠ 0 → fdiv2 t m a b = (fzero t (p != q), 0)) ∧
    (x ≠ 0 → y = 0 → fdiv2 t m a b = (finf t (p != q), dzBit)) ∧ (x = 0 → y = 0 → fdiv2 t m a b = finvalid t)) ∧
  (∀ (t : Ty) (m : Rm) (a b c : Nat) (n n' : Bool), t.floating = true →
    let x := fval t a
    let y := fval t b
    let z := fval t c
    let inf (n : Bool) : Nat × BitVec 6 := (finf t n, 0)
    (x = .inf n → y.finite = true → fadd2 t m a b = inf n ∧ fsub2 t m a b = inf n ∧ fadd2 t m b a = inf n ∧ fsub2 t m b a = inf (!n) ∧
      fdiv2 t m a b = inf (n != y.neg) ∧ fdiv2 t m b a = (fzero t (n != y.neg), 0) ∧
      (y.rat ≠ 0 → fmul2 t m a b = inf (n != y.neg) ∧ fmul2 t m b a = inf (n != y.neg)) ∧
      (y.rat = 0 → fmul2 t m a b = finvalid t ∧ fmul2 t m b a = finvalid t ∧ fma3 t m a b c = finvalid t ∧ fma3 t m b a c = finvalid t)) ∧
    (x = .inf n → y = .inf n' → fmul2 t m a b = inf (n != n') ∧ fdiv2 t m a b = finvalid t ∧
      fadd2 t m a b = (if n = n' then inf n else finvalid t) ∧ fsub2 t m a b = if n = n' then finvalid t else inf n) ∧
    (x = .inf n → y.isNan = false → y.rat ≠ 0 ∨ y.isInf = true →
      (z.finite = true ∨ z = .inf (n != y.neg) → fma3 t m a b c = inf (n != y.neg) ∧ fma3 t m b a c = inf (n != y.neg)) ∧
      (z = .inf !(n != y.neg) → fma3 t m a b c = finvalid t ∧ fma3 t m b a c = finvalid t)) ∧
    (x.finite = true → y.finite = true → z = .inf n → fma3 t m a b c = inf n) ∧
    (x.isNan = true ∨ y.isNan = true → ∀ f ∈ [fadd2 t m, fsub2 t m, fmul2 t m, fdiv2 t m],
      f a b = (canonNan t, stickyIf (x.isSig || y.isSig) nvBit)) ∧
    ((x.isNan = true ∨ y.isNan = true) ∨ (z.isNan = true ∧ ∃ p, fprod x y = some p) →
      fma3 t m a b c = (canonNan t, stickyIf (x.isSig || y.isSig || z.isSig) nvBit))) ∧
  (∀ x y : FV, (x.isNan = true ∨ y.isNan = true → ∃ s, fprod x y = some (.nan s)) ∧
    (x.finite = true → y.finite = true → ∃ z, fprod x y = some z ∧ z.finite = true ∧ z.rat = x.rat * y.rat ∧ z.neg = (x.neg != y.neg)) ∧
    (x.isInf = true → y.isNan = false → fprod x y = if y.finite = true ∧ y.rat = 0 then none else some (.inf (x.neg != y.neg))) ∧
    (x.isNan = false → y.isInf = true → fprod x y = if x.finite = true ∧ x.rat = 0 then none else some (.inf (x.neg != y.neg)))) ∧
  (∀ t : Ty, finvalid t = (canonNan t, nvBit))

/-! ### Lanes together -/

/-- O30 (R101, R102): every visited lane receives the register, or pair, of the source lane that its index names as it stood before, or its own
where the index names no lane of the gang. -/
def Obligations.Shuffles : Prop :=
  ∀ (t : Ty) (d a : VReg) (b : SrcB) (s : State) (c : Cx),
    let k (L : Nat) : Nat := (c.g.srcB false zext64 (.lane L) b).toNat % 256
    let from_ (i : Instr) (j : Nat → Int) : Prop := runs i s = some c → c.puts i s 0 fun g => ∀ L ∈ c.vis,
      holdsF g t L d (c.g.src t.is64 (.lane (if 0 ≤ j L ∧ j L < c.W then (j L).toNat else L)) (.v a))
    from_ (.shfl t d a b) (fun L => k L) ∧ from_ (.shup t d a b) (fun L => (L : Int) - k L) ∧
    from_ (.shdn t d a b) (fun L => (L : Int) + k L) ∧ from_ (.shxor t d a b) (fun L => (L ^^^ k L : Nat)) ∧
    from_ (.bcast t d a b) (fun L => k L)

/-- O31 (R123, R124, R143): `redg` and `scang` go into flight with the tree's results for every visited lane. The tree combines slot i with slot
i + d for d from half the lanes down to 1; the scan combines slot i − d with slot i for d = 1, 2, 4 and so on; an empty slot leaves the other
as it is, and every combination's sticky bits count. Over integers both are the plain combination of the visited lanes, for `scang` of those
up to each lane. -/
def Obligations.Reductions : Prop :=
  (∀ (la : BitVec 4) (op : Comb) (m : Rm) (t : Ty) (d a : VReg) (s : State) (c : Cx), runs (.redg la op m t d a) s = some c →
    let r := redTree (combine op m t) 6 (c.slots t a)
    c.putsLater (.redg la op m t d a) s r.2 fun g => ∀ L ∈ c.vis, holdsF g t L d (laneVal t (r.1.getD 0))) ∧
  (∀ (la : BitVec 4) (x : Bool) (op : Comb) (m : Rm) (t : Ty) (d a : VReg) (s : State) (c : Cx), runs (.scang la x op m t d a) s = some c →
    let r := scanTree (combine op m t) 6 1 (c.slots t a)
    let below (L : Nat) := (c.vis.filter fun j => decide (j < L)).getLast?
    let first : Nat := match op with
      | .and => 2 ^ t.width - 1
      | .min => if t.floating then finf t false else if t.signed then 2 ^ (t.width - 1) - 1 else 2 ^ t.width - 1
      | .max => if t.floating then finf t true else if t.signed then 2 ^ (t.width - 1) else 0
      | _ => 0
    c.putsLater (.scang la x op m t d a) s r.2 fun g => ∀ L ∈ c.vis, holdsF g t L d (laneVal t
      (if x then (match below L with
        | some j => (r.1.getD j none).getD 0
        | none => first)
      else (r.1.getD L none).getD 0))) ∧
  (∀ (c : Cx) (t : Ty) (a : VReg), (c.slots t a).length = c.W ∧ ∀ L, L < c.W → (c.slots t a).getD L none =
    if L ∈ c.vis then some ((c.g.src t.is64 (.lane L) (.v a)).toNat % 2 ^ t.width) else none) ∧
  (∀ (f : Nat → Nat → Nat × BitVec 6) (n : Nat) (l : List (Option Nat)), n ≤ 5 → l.length = 2 ^ n →
    let comb (x y : Option Nat) : Option Nat × BitVec 6 := match x, y with
      | some x, some y => (some (f x y).1, (f x y).2)
      | some x, none => (some x, 0)
      | none, y => (y, 0)
    (∃ t : Nat → List (Option Nat), t 0 = l ∧
      let at_ (j i : Nat) := comb ((t j).getD i none) ((t j).getD (i + 2 ^ (n - j - 1)) none)
      (∀ j, j < n → t (j + 1) = (List.range (2 ^ (n - j - 1))).map fun i => (at_ j i).1) ∧
      redTree f 6 l = ((t n).headD none, orBits ((List.range n).flatMap fun j => (List.range (2 ^ (n - j - 1))).map fun i => (at_ j i).2))) ∧
    ∃ t : Nat → List (Option Nat), t 0 = l ∧
      let at_ (j i : Nat) := if i < 2 ^ j then ((t j).getD i none, 0) else comb ((t j).getD (i - 2 ^ j) none) ((t j).getD i none)
      (∀ j, j < n → t (j + 1) = (List.range (2 ^ n)).map fun i => (at_ j i).1) ∧
      scanTree f 6 1 l = (t n, orBits ((List.range n).flatMap fun j => (List.range (2 ^ n)).map fun i => (at_ j i).2))) ∧
  (∀ (op : Comb) (m : Rm) (t : Ty) (x y : Nat), combine op m t x y = (match op with
    | .and => (x &&& y, 0)
    | .or => (x ||| y, 0)
    | .xor => (x ^^^ y, 0)
    | .add => if t.floating then fadd2 t m x y else ((x + y) % 2 ^ t.width, 0)
    | .min => if t.floating then fminmax false false t x y
        else (if tyVal t (BitVec.ofNat 64 y) < tyVal t (BitVec.ofNat 64 x) then y else x, 0)
    | .max => if t.floating then fminmax true false t x y
        else (if tyVal t (BitVec.ofNat 64 x) < tyVal t (BitVec.ofNat 64 y) then y else x, 0))) ∧
  (∀ (op : Comb) (m : Rm) (t : Ty) (l : List (Option Nat)) (n : Nat), t.floating = false → l.length = 4 * 2 ^ n → n ≤ 3 →
    (∀ x, some x ∈ l → x < 2 ^ t.width) →
    let all (l : List (Option Nat)) : Option Nat := (l.filterMap id).foldl (fun b x => some (match b with
      | none => x
      | some y => (combine op m t y x).1)) none
    redTree (combine op m t) 6 l = (all l, 0) ∧ (scanTree (combine op m t) 6 1 l).2 = 0 ∧
    ∀ L, L < l.length → (∃ x, l.getD L none = some x) → (scanTree (combine op m t) 6 1 l).1.getD L none = all (l.take (L + 1)))

/-- O32 (R125, R144, R145, R147): `mxix` gives every visited lane the greatest packed key; `sieve` records the lanes whose predicate is true and
gives the count; `elect` picks the lowest visited lane. (That `sieve` records and counts as it issues is the model's choice: log entry 87.) -/
def Obligations.KeysSievesElection : Prop :=
  (∀ (la : BitVec 4) (t : Ty) (d a : VReg) (b : SrcB) (s : State) (c : Cx), runs (.mxix la t d a b) s = some c →
    let key (L : Nat) : Nat := mxKey t (c.g.vreg L a.toNat).toNat * 2 ^ 32 +
      (2 ^ 32 - 1 - (c.g.srcB false zext64 (.lane L) b).toNat % 2 ^ 32)
    c.putsLater (.mxix la t d a b) s 0 fun g => ∀ L ∈ c.vis, (∃ M ∈ c.vis, (g.vpair L d.toNat).toNat = key M) ∧
      ∀ M ∈ c.vis, key M ≤ (g.vpair L d.toNat).toNat) ∧
  (∀ (la : BitVec 4) (d : VReg) (q : PReg) (s : State) (c : Cx), runs (.sieve la d q) s = some c →
    let took (M : Nat) : Bool := (c.vis.filter fun L => c.g.preg L q.toNat).any fun L => M == c.r.gang * c.W + L
    (c.grd.survArea ≠ 0 → ∃ grp ws, (∀ M, Sparse.get false grp.sieve M = (Sparse.get false c.grp.sieve M || took M)) ∧
      { grp with sieve := c.grp.sieve } = c.grp ∧
      (∀ g : Gang, (∀ L ∈ c.vis, (g.writeRegs ws).vreg L d.toNat = BitVec.ofNat 32 grp.sieve.length) ∧ c.onlyWrites g (g.writeRegs ws)) ∧
      exec (.sieve la d q) s =
        .next (c.entered (c.s.setGroup c.r.group grp) { id := 0, kind := .alu, rw := ws, long := true })) ∧
    (c.grd.survArea = 0 → exec (.sieve la d q) s =
      .next (s.raise c.r ⟨0xD, 5, c.sp.pc, 0, c.visMask, encode (.sieve la d q)⟩))) ∧
  (∀ (q : PReg) (s : State) (c : Cx), runs (.elect q) s = some c →
    c.puts (.elect q) s 0 fun g => ∀ L ∈ c.vis, (g.preg L q.toNat = true ↔ ∀ M ∈ c.vis, L ≤ M))

/-- O33 (R13, R14, R68, R69, R100, R174): when a long-latency instruction completes, its results and its sticky bits land, no other register
changes, and its windows are open no longer. A result whose register line is out brings the line back first, line by line, and ends the
task with code 3 where the image cannot be read; the old value of an atomic lands without that. A load lands once its accesses are applied
and no acquire before it is under way. -/
def Obligations.LongLatencyLands : Prop :=
  (∀ (s : State) (r : GangRef) (id : Nat) (e : Entry) (ws : List RegWrite), (s.gang r).entry? id = some e → s.landing r e = some ws →
    let lands (g : Gang) : Prop := ∃ t, exec (.longLatencyCompletion r id) s = .next t ∧
      (∀ L n, (t.gang r).vreg L n = g.vreg L n) ∧ (∀ sl n, (t.gang r).sreg sl n = g.sreg sl n) ∧
      (∀ L n, (t.gang r).preg L n = g.preg L n) ∧
      (t.gang r).fstat = (s.gang r).fstat ||| e.sticky ∧ (t.gang r).run = (s.gang r).run ∧ (t.gang r).open_ id = false
    (e.path = some .atr ∨ (∀ w ∈ ws, ∀ k, w.line = some k → (s.gang r).isOut k = false) → lands ((s.gang r).writeRegs ws)) ∧
    (∀ u, e.path ≠ some .atr → s.landIn r ws = .ok u → lands (u.gang r)) ∧
    (∀ a, e.path ≠ some .atr → s.landIn r ws = .error a → exec (.longLatencyCompletion r id) s = .next (s.endTaskOf r 3 a))) ∧
  (∀ (s : State) (r : GangRef) (ws : List RegWrite) (ks : List Nat) (f : Nat → State),
    (∀ w ∈ ws, ∃ k ∈ ks, w.line = some k) → ks = (ws.filterMap RegWrite.line).eraseDups → (∃ k ∈ ks, (s.gang r).isOut k = true) → f 0 = s →
    (∀ j k, ks[j]? = some k → ∃ u, (f j).refill r k = .ok u ∧ f (j + 1) = u.land r (ws.filter fun w => w.line == some k)) →
    s.landIn r ws = .ok (f ks.length)) ∧
  (∀ (s : State) (r : GangRef) (id : Nat) (e : Entry), (s.gang r).entry? id = some e →
    (s.landing r e = none → exec (.longLatencyCompletion r id) s = .next s) ∧
    (e.kind = .alu → e.long = true → e.done = false → s.landing r e = some e.rw) ∧
    (e.kind = .mem → e.long = true → e.done = false →
      let quiet : Prop := ∀ b ∈ e.before.filterMap (s.gang r).entry?, s.acquiring r (s.gang r) b = false
      ((∀ a ∈ e.accs, a.done = true) → quiet → s.landing r e = some (e.accs.flatMap Access.lands)) ∧
      ((∃ a ∈ e.accs, a.done = false) ∨ ¬quiet → s.landing r e = none)))

/-! ### Special registers -/

/-- O34 (R34, R98 to R100): `gsr` reads a special register, zero-extended, into the visited lanes or the selected slices; `ssr` of `fstat` takes
bits [5:0] from the lowest visited lane, or its slice; of any other register it is the illegal operand 0x0003. (The group
index in a scalar register, log entry 130, and `ntc` of a notice whose enable or handler is gone, log entry 125, are the model's choices.) -/
def Obligations.SpecialRegisters : Prop :=
  (∀ (t : Ty) (d : Dst) (code : Byte) (s : State) (c : Cx), runs (.gsr t d code) s = some c →
    c.puts (.gsr t d code) s 0 fun g => ∀ p ∈ c.places d.scalar, holds g t p d (c.special p code)) ∧
  (∀ (c : Cx) (p : At), [0x01, 0x02, 0x03, 0x04, 0x05, 0x06, 0x07, 0x08, 0x09, 0x0A, 0x0B, 0x10, 0x18, 0x19, 0x1B, 0x1C, 0x20, 0x21, 0x22,
      0x24, 0x28].map (fun k => c.special p k) =
    [p.slice_, c.r.gang, c.grp.lin, c.grp.lin % c.grd.nx, c.grp.lin / c.grd.nx % c.grd.ny, c.grp.lin / c.grd.nx / c.grd.ny,
     c.grd.nx, c.grd.ny, c.grd.nz, c.grd.gangs, c.grd.depth, (rlvlOf c.grp (c.s.ntc c.r)).toNat, c.grd.fid, flag c.grd.det,
     c.grd.cls, c.grd.ctx, c.g.fstat.toNat, (c.s.ctx c.grd.ctx).ecnt.toNat, (c.s.ctx c.grd.ctx).fidev.toNat, c.s.ftime.toNat,
     (Sparse.get 0 c.g.slim p.slice_).toNat]) ∧
  (∀ (c : Cx) (p : At), c.grd.elems.length ≤ 8 → c.special p 0x1A < 2 ^ 8 ∧ (c.grd.elems = [] → c.special p 0x1A = 1) ∧
    (c.grd.elems ≠ [] → ∀ j, (c.special p 0x1A).testBit j = true ↔
      ∃ h, c.grd.elems[j]? = some h ∧ c.grd.linear (h.act c.grd (c.grd.coord c.grp.lin)) = c.grp.lin)) ∧
  (∀ (s : State) (r : GangRef), s.ntc r = true ↔ ∃ n ∈ (s.gang r).due,
    (s.ctx (s.grid (s.group r.group).grid).ctx).noticeen.getLsbD n = true ∧ (s.ctx (s.grid (s.group r.group).grid).ctx).handler ≠ none) ∧
  (∀ (c : Cx) (p : At), c.special p 0x23 = (c.s.cluster (c.grp.core / 8)).clk20 / 20 % 2 ^ 64) ∧
  (∀ (s : State) (n k : Nat), k < 32 → (s.cluster k).pwr ≠ .gated →
    ((s.elapse n).cluster k).clk20 = (s.cluster k).clk20 + n * (s.cluster k).f) ∧
  (∀ (c : Cx) (L sl : Nat), c.special (.lane L) 0x00 = L ∧ c.special (.slice sl) 0x00 = (sliceLanes c.visMask sl).headD 0) ∧
  (∀ (code : Byte) (a : Src) (s : State) (c : Cx), runs (.ssr code a) s = some c →
    (code = 0x20 → ∃ t, exec (.ssr code a) s = .next t ∧ sameElsewhere c.s t c.r ∧
      t.gang c.r = { c.g.issuedAt s.tick with
        fstat := (c.g.src false (.lane c.low) a).setWidth 6, run := some (c.stepped c.g c.sp 0) }) ∧
    (code ≠ 0x20 → exec (.ssr code a) s = .next (s.raise c.r ⟨0xD, 3, c.sp.pc, 0, c.visMask, encode (.ssr code a)⟩)))

/-! ### Issuing and control -/

/-- O35 (R13, R14, R66, R67, R69, R72, R75, R262, R266, R271): what holds a gang instruction or stops it before its own effect, in the order of
the checks; a slot with no enabled lane only passes; the register lines that an instruction touches are held before its effect: those that
are out come back from the image, each in exchange for the slice's line with the oldest access, which goes at once, or, when it waits
for a result, once that has landed. (That an instruction's own wait comes before check 7, log entry 127, a slot with no enabled lane and
its window, log entry 70, and which line goes among equals or from a pool, log entry 79, are the model's choices.) -/
def Obligations.IssueOrder : Prop :=
  (∀ (i : Instr) (s : State) (c : Cx), (fieldsOf i).isSome = true → cxOf i s = some c → c.g.trapReq = none →
    let trap (cause sub : Nat) : Prop := exec i s = .next (s.raise c.r ⟨cause, sub, c.sp.pc, 0, c.sp.mask, encode i⟩)
    let barred := privileged i && !c.priv && !(i == .rft && c.g.trapMode)
    (c.sp.blk.isSome = true → slotIllegal i = true → trap 1 6) ∧
    ((c.sp.blk.isSome && slotIllegal i) = false → barred = true → trap 3 0) ∧
    ((c.sp.blk.isSome && slotIllegal i) = false → barred = false →
      (c.capBad = true → trap 4 0) ∧
      (c.capBad = false →
        (c.g.winHolds c.sp = true → exec i s = .next s) ∧
        (c.g.winHolds c.sp = false →
          (c.breach = true → trap 5 0) ∧ (c.breach = false → c.locked = true → trap 6 0) ∧
          (c.breach = false → c.locked = false → c.vis = [] → exec i s = .next (c.retire s 0)) ∧
          (c.breach = false → c.locked = false → c.vis ≠ [] → c.waits = true → exec i s = .next s) ∧
          (c.breach = false → c.locked = false → c.vis ≠ [] → c.waits = false → match c.touch with
            | .error a => exec i s = .next (s.endTaskOf c.r 0x03 a)
            | .ok c1 => runs i s = some c1))))) ∧
  (∀ (i : Instr) (s : State) (c c1 : Cx), cxOf i s = some c → c.touch = .ok c1 →
    sameButLines s c1.s ∧ c1.g = c1.s.gang c.r ∧ { c1 with s := c.s, g := c.g, grp := c.grp } = c ∧
    (c.linesIn = true → c1.s = s.setGang c.r c1.g ∧ { c1.g with lines := c.g.lines } = c.g ∧
      (∀ k ∈ c.lineKeys, (Sparse.get {} c1.g.lines k : Line).last = s.tick ∧ c1.g.isOut k = false) ∧
      ∀ k, k ∉ c.lineKeys → Sparse.get ({} : Line) c1.g.lines k = Sparse.get {} c.g.lines k) ∧
    ∀ L n, L < 32 → n < 256 → lkey (L / 4) (n / 4) ∉ c.lineKeys → c1.g.vreg L n = c.g.vreg L n) ∧
  (∀ (s : State) (r : GangRef) (key : Nat), key < 512 →
    let g := s.gang r
    let ctx := (s.grid (s.group r.group).grid).ctx
    let held (g : Gang) : Gang := g.setLine key fun l => { l with out := false }
    let back (g' : Gang) : Prop := s.refill r key = .ok ((s.setGang r (held g')).makeRoom r key)
    (g.isOut key = false → s.refill r key = .ok s) ∧
    (g.isOut key = true → s.imgReads ctx (s.lineVa r key) = true → back g ∨ back (s.loadLine r key)) ∧
    (g.isOut key = true → s.imgReads ctx (s.lineVa r key) = false → back g ∨ s.refill r key = .error (s.lineVa r key)) ∧
    (∀ L n, L < 32 → n < 256 → (s.loadLine r key).vreg L n = if L / 4 = key / 64 ∧ n / 4 = key % 64
      then BitVec.ofNat 32 (s.imgRead ctx (s.lineVa r key + 16 * (n % 4) + 4 * (L % 4)) 4) else g.vreg L n) ∧
    { s.loadLine r key with v := g.v } = g) ∧
  (∀ (s : State) (r : GangRef) (key : Nat),
    let d := s.grid (s.group r.group).grid
    let g := s.gang r
    let most := linesAt d.slices d.cap (s.group r.group).regsLv
    let line (g : Gang) (k : Nat) : Line := Sparse.get {} g.lines k
    let held := g.staying (g.heldLines d.cap (key / 64))
    let all (q : GangRef) : List Nat := (s.gang q).staying ((s.gang q).linesHeld d)
    let total := ((List.range d.gangs).map fun j => (all ⟨r.group, j⟩).length).sum
    (∀ k, k ∈ held ↔ k ∈ g.heldLines d.cap (key / 64) ∧ (line g k).going = false) ∧
    (most / d.slices ≠ 0 → held.length ≤ most / d.slices → s.makeRoom r key = s) ∧
    (∀ k, most / d.slices ≠ 0 → most / d.slices < held.length → k ∈ held → k ≠ key →
      (∀ j, j ∈ held → j ≠ key → (line g k).last < (line g j).last ∨ ((line g k).last = (line g j).last ∧ j ≤ k)) →
      s.makeRoom r key = s.sendLine r k) ∧
    (most / d.slices = 0 → total ≤ most → s.makeRoom r key = s) ∧
    (most / d.slices = 0 → r.gang < d.gangs → most < total → ∃ q k, q.group = r.group ∧ q.gang < d.gangs ∧ k ∈ all q ∧
      (q.gang = r.gang → k ≠ key ∧ ∀ j, j < d.gangs → j ≠ r.gang → all ⟨r.group, j⟩ = []) ∧
      (∀ x ∈ all q, (q.gang = r.gang → x ≠ key) → (line (s.gang q) k).last ≤ (line (s.gang q) x).last) ∧ s.makeRoom r key = s.sendLine q k)) ∧
  (∀ (s : State) (r : GangRef) (key : Nat),
    let goes (b : Bool) : State := s.setGang r ((s.gang r).setLine key fun l => { l with going := b })
    let going := (Sparse.get ({} : Line) (s.gang r).lines key : Line).going
    (s.pinned r (key % 64) = true → s.sendLine r key = goes true ∧ s.evictDue r key = s) ∧
    (s.pinned r (key % 64) = false → s.sendLine r key = s.evictLine r key ∧ s.evictDue r key = if going then s.evictLine r key else s) ∧
    (s.imgWrites (s.grid (s.group r.group).grid).ctx (s.lineVa r key) = false →
      s.evictLine r key = (goes false).imgFault (s.group r.group).grid (s.group r.group).lin (s.lineVa r key))) ∧
  (∀ (s : State) (r : GangRef) (key : Nat),
    let d := s.grid (s.group r.group).grid
    let t := s.evictLine r key
    (s.imgWrites d.ctx (s.lineVa r key) = true → (t.gang r).isOut key = true ∧ (t.gang r).isGoing key = false ∧ (t.gang r).v = (s.gang r).v ∧
      (∀ k, k ≠ key → Sparse.get ({} : Line) (t.gang r).lines k = Sparse.get {} (s.gang r).lines k) ∧
      (∀ q, gkey q ≠ gkey r → t.gang q = s.gang q) ∧ (t.ctx d.ctx).linewr = (s.ctx d.ctx).linewr + 1 ∧
      t.mem = (s.imageLine r key).mem ∧ t.hostMem = (s.imageLine r key).hostMem)) ∧
  (∀ (s : State) (c : Cx) (own : Nat) (sp : Split), (s.gang c.r).run = some sp → c.retire s own = s.setGang c.r
    { s.gang c.r with last := s.tick, issues := (s.gang c.r).issues + 1, ntcHold := (s.gang c.r).ntcAfter sp.mask, run := some (c.stepped (s.gang c.r) sp own) })

/-- O36 (R80, R168, R170, R253, R296): instructions whose only effect, once their waits are over, is to be passed: `nop`, `pf`, `waitc`, `bwait`,
a `fence` with nothing outstanding before it, and a privileged `rft` outside trap mode. -/
def Obligations.OnlyPassed : Prop :=
  ∀ (i : Instr) (s : State) (c : Cx), runs i s = some c →
    (match i with
      | .nop | .pf .. | .waitc .. | .bwait .. => True
      | .fence o sc => c.settled = true ∧ c.fenceSync o sc = []
      | .rft => c.g.trapMode = false
      | _ => False) →
    c.puts i s 0 fun _ => True

/-- O37 (R65 to R67): `pb` samples its predicate in the active lanes and opens a block; in it, each instruction that completes moves on by one
slot, and the last ends it; a slot's lanes are those whose sample equals its letter. -/
def Obligations.PredicateBlocks : Prop :=
  (∀ (q : PReg) (cnt : BitVec 3) (pat : Byte) (s : State) (c : Cx), runs (.pb q cnt pat) s = some c →
    ∃ t en, exec (.pb q cnt pat) s = .next t ∧ sameElsewhere c.s t c.r ∧
      t.gang c.r = { c.g.issuedAt s.tick with run := some { c.stepped c.g c.sp 0 with blk := some ⟨en, pat, cnt.toNat, 0⟩ } } ∧
      ∀ L, L < 32 → en.getLsbD L = (c.vis.contains L && c.g.preg L q.toNat)) ∧
  (∀ (c : Cx) (g : Gang) (own : Nat) (b : Blk), c.sp.blk = some b →
    (c.stepped g c.sp own).blk = if b.slot < b.cnt then some { b with slot := b.slot + 1 } else none) ∧
  (∀ (c : Cx) (b : Blk) (L : Nat), c.sp.blk = some b → L < 32 →
    (L ∈ c.vis ↔ c.sp.mask.getLsbD L = true ∧ b.en.getLsbD L = b.pat.getLsbD b.slot))

/-- O38 (R44 to R46, R81, R347): `bra` moves its split; `brp` and `brs` send the lanes for which the predicate, or the condition on the lane's
slice, holds to the target and the others on. A division that leaves more than 16 entries in the split table spills the oldest to the stack
of its lowest lane's slice; one that does not fit there is the stack-limit trap of the instruction, with nothing divided. -/
def Obligations.Branches : Prop :=
  (∀ (ht : Bool) (off : W32) (s : State) (c : Cx),
    (runs (.bra ht off) s = some c → c.goes (.bra ht off) s [] (c.sp.pc + sext64 off)) ∧
    (∀ q : PReg, runs (.brp ht q off) s = some c →
      c.branches (.brp ht q off) s ht (c.sp.pc + sext64 off) fun L => c.g.preg L q.toNat) ∧
    (∀ (cc : Cond) (t : Ty) (a b : SReg), runs (.brs ht cc t a b off) s = some c →
      c.branches (.brs ht cc t a b off) s ht (c.sp.pc + sext64 off) fun L =>
        condHolds cc (tyVal t (c.g.sreg (L / 4) a.toNat)) (tyVal t (c.g.sreg (L / 4) b.toNat))) ∧
    (∀ (cc : Cond) (t : Ty) (a : SReg) (imm : W32), runs (.brsImm ht cc t a imm off) s = some c →
      c.branches (.brsImm ht cc t a imm off) s ht (c.sp.pc + sext64 off) fun L =>
        condHolds cc (tyVal t (c.g.sreg (L / 4) a.toNat)) (tyVal t (sext64 imm)))) ∧
  (∀ (s : State) (r : GangRef) (n : Nat) (x : Split),
    let g := s.gang r
    let ctx := (s.grid (s.group r.group).grid).ctx
    let table := (g.pend ++ g.parked).filter fun y => y.spill == none
    let sl := (lanesOf x.mask).headD 0 / 4
    let a := (g.slimOf sl).toNat + 16 * g.spilledIn sl
    let parked := g.parked.any fun y => y.born == x.born
    (table.length ≤ 16 → s.spillOver r n = .ok s) ∧
    (16 < table.length → x ∈ table → (∀ y ∈ table, y = x ∨ x.born < y.born) →
      ((g.sreg sl 62).toNat < a + 16 → s.spillOver r (n + 1) = .error (.full a)) ∧
      (∀ k, a + 16 ≤ (g.sreg sl 62).toNat → s.xlate ctx (ctx == 0) .write a = .error k → s.spillOver r (n + 1) = .error (.bad k a)) ∧
      (∀ l, a + 16 ≤ (g.sreg sl 62).toNat → s.xlate ctx (ctx == 0) .write a = .ok l →
        ∃ u, s.spillOver r (n + 1) = (({ u with uid := s.uid + 1 } : State).setGang r
            (g.mapEntry x.born fun y => { y with spill := some ⟨sl, a, s.uid⟩ })).spillOver r n ∧
          stored s u l 16 (fun i => some (if i < 8 then byteOf x.pc i else if i < 12 then byteOf (zext64 x.mask) (i - 8)
            else if i = 12 ∧ parked = true then 1 else 0)) ∧
          { u with mem := s.mem, hostMem := s.hostMem, spoiled := s.spoiled, hostWr := s.hostWr } = s))) ∧
  (∀ (c : Cx) (a k : Nat), c.noSpill (.full a) = c.s.raise c.r ⟨8, 1, c.sp.pc, BitVec.ofNat 64 a, c.sp.mask, encode c.i⟩ ∧
    c.noSpill (.bad k a) = c.s.endTaskOf c.r k a)

/-- O39 (R82, R83): `brx`, `callx` and `ret` send each lane to the target of its own or of its slice; `call` moves the split; the calls leave the
address after them in s61 of every selected slice, and `callx` reads its targets before that. -/
def Obligations.FarBranches : Prop :=
  ∀ (s : State) (c : Cx),
    let link (x : W64) : List RegWrite := c.sls.map fun sl => .s sl 61 x
    (∀ (ht : Bool) (a : Src), runs (.brx ht a) s = some c →
      c.scatters (.brx ht a) s ht (fun L => c.sp.pc + sext64 (lo32 (c.g.src false (.lane L) a))) []) ∧
    (∀ off : W32, runs (.call off) s = some c → c.goes (.call off) s (link (c.sp.pc + 12)) (c.sp.pc + sext64 off)) ∧
    (∀ a : SReg, runs (.callx a) s = some c →
      c.scatters (.callx a) s false (fun L => c.g.sreg (L / 4) a.toNat) (link (c.sp.pc + 8))) ∧
    (runs .ret s = some c → c.scatters .ret s false (fun L => c.g.sreg (L / 4) 61) [])

/-- O40 (R43, R45, R48 to R50): `yield` naps; a `regang` whose split is the only one and holds its cover is a `nop`; else the split parks, and
with it those parked there merge when their lanes hold every cover; when all are parked and none merge, the split with the lowest live lane
traps; then the first pending split that is ready runs. `exit` ends its lanes, which leave every mask and cover, and may complete a merge or
leave all splits parked. In deterministic mode a split that has yielded gives way to the first pending split that is ready. (That windows
end at a `regang`, log entry 124, and that a parked entry's age counts from its parking, log entry 84, are the model's choices.) -/
def Obligations.SplitsEnd : Prop :=
  (∀ (s : State) (c : Cx),
    let then_ (u : State) : Out := .next (match (u.chooseSplit c.r).spillOver c.r 64 with
      | .ok t => t
      | .error e => c.noSpill e)
    let traps (u : State) (x : Split) (rest : List Split) (g : Gang) : State :=
      let v := u.setGang c.r { g with run := some x, parked := rest }
      v.raise c.r ⟨0xD, 1, x.pc, 0, x.mask, v.parcelsAt c.grd.ctx x.pc⟩
    (runs .yield s = some c → ∃ t, exec .yield s = .next t ∧ sameElsewhere c.s t c.r ∧
      t.gang c.r = { c.g.issuedAt s.tick with run := some { c.stepped c.g c.sp 0 with wait := .nap s.tick } }) ∧
    (∀ m : SReg, runs (.regang m) s = some c →
      let cover := (c.sAct m).setWidth 32 &&& widthMask c.W &&& c.g.live
      let me : Split := { c.sp with cover := cover, wins := [], wait := .none, born := s.uid }
      let all := c.g.parkedAt c.sp.pc ++ [me]
      let away := c.g.parked.filter fun x => x.pc != c.sp.pc
      let met := all.all fun x => contains (maskUnion all) (x.cover &&& c.g.live)
      let quiet : Prop := ∀ x ∈ away, c.g.meets x.pc = false
      let g : Gang := { c.g.issuedAt s.tick with run := none }
      let one := c.g.nsplits = 1 ∧ contains c.sp.mask cover = true
      (one → c.puts (.regang m) s 0 fun _ => True) ∧
      (¬one → met = false → c.g.pend ≠ [] → quiet → exec (.regang m) s =
        then_ (({ c.s with uid := s.uid + 1 } : State).setGang c.r { g with parked := c.g.parked ++ [me] })) ∧
      (∀ x, ¬one → met = false → c.g.pend = [] → quiet → x ∈ c.g.parked ++ [me] → x.spill = none →
        x.mask.getLsbD ((lanesOf c.g.live).headD 0) = true →
        (∀ y ∈ c.g.parked ++ [me], y.mask.getLsbD ((lanesOf c.g.live).headD 0) = true → y = x) →
        exec (.regang m) s = then_ (traps { c.s with uid := s.uid + 1 } x ((c.g.parked ++ [me]).filter fun y => y.born != x.born) g)) ∧
      (¬one → met = true → quiet → ∃ x, exec (.regang m) s =
          then_ (({ c.s with uid := s.uid + 2 } : State).setGang c.r { g with run := some x, parked := away }) ∧
        x.pc = c.sp.pc + 8 ∧ x.mask = maskUnion all ∧ x.wins = [] ∧ x.wait = .none ∧ x.spill = none)) ∧
    (runs .exit s = some c →
      let m := c.visMask
      let cut (x : Split) : Split := { x with mask := x.mask &&& ~~~m, cover := x.cover &&& ~~~m }
      let kept (l : List Split) : List Split := (l.map cut).filter fun x => x.mask != 0
      let live := c.g.live &&& ~~~m
      let left := c.sp.mask &&& ~~~m
      let here (pc : W64) : List Split := (kept c.g.parked).filter fun x => x.pc == pc
      let due (pc : W64) : Prop := here pc ≠ [] ∧ ∀ x ∈ here pc, contains (maskUnion (here pc)) (x.cover &&& live) = true
      let ends (u : State) : Prop := exec .exit s = .next (match u.spillOver c.r 64 with
        | .ok t => t.markCheck c.r
        | .error e => c.noSpill e)
      let after (u : State) (run : Prop) (pend parked : List Split) : Prop := ends u ∧ (u.gang c.r).live = live ∧ run ∧
        (u.gang c.r).pend = pend ∧ (u.gang c.r).parked = parked ∧ sameMem c.s u
      (c.g.others = [] → live ≠ 0 → ∃ u, after u ((u.gang c.r).run.map Split.mask = if left = 0 then none else some left) [] []) ∧
      (live = 0 → ∃ t, exec .exit s = .next t ∧ (t.gang c.r).live = 0 ∧ (t.gang c.r).batch = [] ∧
        (c.grd.node = none → sameMem c.s t)) ∧
      (live ≠ 0 → (∀ pc, ¬due pc) → left ≠ 0 ∨ kept c.g.pend ≠ [] → ∃ u, after u
        ((u.gang c.r).run.map Split.mask = if left = 0 then none else some left) (kept c.g.pend) (kept c.g.parked)) ∧
      (∀ pc, live ≠ 0 → due pc → (∀ q, q ≠ pc → ¬due q) → ∃ u x, x.pc = pc + 8 ∧ x.mask = maskUnion (here pc) ∧
        after u ((u.gang c.r).run.map Split.mask = some (if left = 0 then x.mask else left))
          (if left = 0 then kept c.g.pend else x :: kept c.g.pend) ((kept c.g.parked).filter fun y => y.pc != pc)) ∧
      (∀ x, live ≠ 0 → (∀ pc, ¬due pc) → left = 0 → kept c.g.pend = [] → x ∈ kept c.g.parked →
        x.spill = none → x.mask.getLsbD ((lanesOf live).headD 0) = true →
        (∀ y ∈ kept c.g.parked, y.mask.getLsbD ((lanesOf live).headD 0) = true → y = x) →
        ∃ u g, ends u ∧ u.gangs = (traps c.s x ((kept c.g.parked).filter fun y => y.born != x.born) g).gangs ∧
          u.mem = (traps c.s x ((kept c.g.parked).filter fun y => y.born != x.born) g).mem ∧ g.live = live ∧ g.pend = [] ∧ g.s = c.g.s ∧
          g.trapMode = false))) ∧
  (∀ (s : State) (r : GangRef), (s.gang r).run = none →
    (∀ k x, (s.gang r).pend[k]? = some x → (s.gang r).mayRun x = true → x.spill = none → s.splitReady r x = true →
      (∀ j y, j < k → (s.gang r).pend[j]? = some y → (s.gang r).mayRun y = true → s.splitReady r (s.readBack r y) = false) →
      s.chooseSplit r = s.setGang r { s.gang r with run := some x, pend := (s.gang r).pend.eraseIdx k }) ∧
    ((∀ y ∈ (s.gang r).pend, (s.gang r).mayRun y = true → s.splitReady r (s.readBack r y) = false) → s.chooseSplit r = s)) ∧
  (∀ (s : State) (r : GangRef) (z x : Split) (k : Nat), (s.gang r).run = some z → (∃ n, z.wait = .nap n) →
    (s.grid (s.group r.group).grid).det = true → (s.gang r).pend[k]? = some x → (s.gang r).mayRun x = true → x.spill = none →
    s.splitReady r x = true →
    (∀ j y, j < k → (s.gang r).pend[j]? = some y → (s.gang r).mayRun y = true → s.splitReady r (s.readBack r y) = false) →
    let pend := { z with born := s.uid, wait := .none } :: (s.gang r).pend.eraseIdx k
    ((pend ++ (s.gang r).parked).filter fun y => y.spill.isNone).length ≤ 16 →
    s.chooseSplit r = { s with uid := s.uid + 1 }.setGang r { s.gang r with run := some x, pend := pend })

/-! ### Stack frames and traps -/

/-- O41 (R84): `enter` lowers the stack pointer of every selected slice by 16n, unless it would pass some slice's limit, which traps for the
lanes of those slices; `leave` raises it without a check. Neither touches memory. -/
def Obligations.StackFrames : Prop :=
  ∀ (n : Byte) (s : State) (c : Cx),
    let k : W64 := BitVec.ofNat 64 (16 * n.toNat)
    let fails (sl : Nat) : Bool :=
      let lim := c.g.slimOf sl + BitVec.ofNat 64 (16 * c.g.spilledIn sl)
      decide ((c.g.sreg sl 62).toNat < 16 * n.toNat ∨ (c.g.sreg sl 62 - k).toNat < lim.toNat)
    (runs (.enter n) s = some c → (∀ sl ∈ c.sls, fails sl = false) →
      c.puts (.enter n) s 0 fun g => ∀ sl ∈ c.sls, g.sreg sl 62 = c.g.sreg sl 62 - k) ∧
    (∀ sl rest, runs (.enter n) s = some c → c.sls.filter fails = sl :: rest → exec (.enter n) s = .next (s.raise c.r
      ⟨8, 0, c.sp.pc, c.g.sreg sl 62 - k, maskOf (c.vis.filter fun L => fails (L / 4)), encode (.enter n)⟩)) ∧
    (runs (.leave n) s = some c → c.puts (.leave n) s 0 fun g => ∀ sl ∈ c.sls, g.sreg sl 62 = c.g.sreg sl 62 + k)

/-- O42 (R85, R257, R281 to R284): a trap raised where it can be entered writes its frame and enters the handler; `trap` and `brk` raise
theirs, with the next and with their own address; a trap that waited for windows and a notice that is due are entered in the same way, while
their group is resident. (That windows end at trap entry, log entry 124, and when exactly a notice is delivered, log entry 125, are the
model's choices.) -/
def Obligations.TrapEntry : Prop :=
  (∀ (s : State) (r : GangRef) (sp : Split) (q : TrapReq) (h : W64) (l : Loc), canTrap s r sp q h l →
    entersTrap s (s.raise r q) r sp q h l) ∧
  (∀ (k : Byte) (s : State) (c : Cx) (h : W64) (l : Loc),
    let t : TrapReq := ⟨0xA, k.toNat, c.sp.pc + BitVec.ofNat 64 (Instr.trap k).bytes, 0, c.sp.mask, encode (.trap k)⟩
    let b : TrapReq := ⟨0xB, k.toNat, c.sp.pc, 0, c.sp.mask, encode (.brk k)⟩
    (runs (.trap k) s = some c → canTrap s c.r c.sp t h l → ∃ t', exec (.trap k) s = .next t' ∧ entersTrap s t' c.r c.sp t h l) ∧
    (runs (.brk k) s = some c → canTrap s c.r c.sp b h l → ∃ t', exec (.brk k) s = .next t' ∧ entersTrap s t' c.r c.sp b h l)) ∧
  (∀ (s : State) (r : GangRef) (sp : Split) (q : TrapReq), (s.gang r).run = some sp → (s.gang r).trapMode = false →
    (s.gang r).openWins sp = true → s.raise r q = s.setGang r { s.gang r with trapReq := some q }) ∧
  (∀ (s : State) (r : GangRef) (sp : Split) (q : TrapReq) (h : W64) (l : Loc), (s.gang r).trapReq = some q → (s.group r.group).st = .resident →
    canTrap s r sp q h l → ∃ t, exec (.trapEntry r) s = .next t ∧ entersTrap s t r sp q h l) ∧
  (∀ (s : State) (r : GangRef) (sp : Split) (n : Nat) (h : W64) (l : Loc),
    let q : TrapReq := ⟨0xC, n, s.noticePc r sp, 0, sp.mask, []⟩
    let x := s.ctx (s.grid (s.group r.group).grid).ctx
    let s1 := s.setGang r { s.gang r with due := (s.gang r).due.erase n }
    s.noticeReady r = true → (s.gang r).due.find? (fun k => x.noticeen.getLsbD k) = some n → canTrap s r sp q h l →
    ∃ t, exec (.noticeDelivery r) s = .next t ∧ entersTrap s1 t r sp q h l) ∧
  (∀ (s : State) (r : GangRef) (sp : Split) (pc : W64) (i : Instr), s.nextInstr r sp = .ok pc i → s.noticePc r sp = pc) ∧
  (∀ (s : State) (r : GangRef), (s.group r.group).st ≠ .resident →
    exec (.trapEntry r) s = .next s ∧ exec (.noticeDelivery r) s = .next s) ∧
  (∀ (s : State) (r : GangRef) (sp : Split), (s.gang r).run = some sp → (s.noticeReady r = true ↔
    (s.group r.group).st = .resident ∧ s.ntc r = true ∧ (s.gang r).trapMode = false ∧ (s.gang r).trapReq = none ∧ (s.gang r).ntcHold = 0 ∧
      sp.blk = none ∧ (sp.wait = .none ∨ sp.wait = .gave ∨ ∃ n, sp.wait = .nap n))) ∧
  (∀ (g : Gang) (m : W32), (m &&& g.ntcHold ≠ 0 → g.ntcAfter m = 0) ∧ (m &&& g.ntcHold = 0 → g.ntcAfter m = g.ntcHold))

/-- O43 (R280, R287, R288, R296): with no handler a trap ends the task with code 5, but a notice is dropped; in trap mode a trap ends it with code
4; `rft` restores from the frame what R287 and R296 say, and leaves trap mode. (That a notice without a handler is dropped, log entry 81, that
the second trap's cause is kept for the record's fourth word, log entry 74, and that windows end at the return, log entry 124, are the model's
choices.) -/
def Obligations.TrapReturn : Prop :=
  (∀ (s : State) (r : GangRef) (sp : Split) (q : TrapReq), (s.gang r).run = some sp → (s.gang r).trapMode = false →
    (s.gang r).openWins sp = false → (s.ctx (s.grid (s.group r.group).grid).ctx).handler = none →
    s.raise r q = if q.cause = 0xC then s.setGang r { s.gang r with trapReq := none } else s.endTaskOf r 5 q.fa.toNat) ∧
  (∀ (s : State) (r : GangRef) (q : TrapReq), (s.gang r).trapMode = true →
    let k := (s.group r.group).grid
    s.raise r q = (s.setGrid k { s.grid k with trap2 := q.cause + 2 ^ 16 * q.sub }).endTaskOf r 4 q.fa.toNat) ∧
  (∀ x : Ctx, x.handler = if x.tvec = 0 ∨ x.tvec.toNat % 4 ≠ 0 then none else some x.tvec) ∧
  (∀ (s : State) (c : Cx) (l : Loc), runs .rft s = some c → c.g.trapMode = true → c.frameBusy = false →
    s.xlate c.grd.ctx true .read (saveSlot c.grp c.grd c.r.gang) = .ok l →
    let dword (k : Nat) : Nat := s.rdLoc { l with key := l.key + 8 * k } 8
    let w := dword 7
    let pc : W64 := BitVec.ofNat 64 (dword 1)
    let blk : Option Blk := if bitsOf w 37 37 = 1 ∧ bitsOf w 43 41 ≤ bitsOf w 40 38 ∧ pc = c.g.trapPc
      then some ⟨BitVec.ofNat 32 w, BitVec.ofNat 8 (bitsOf w 51 44), bitsOf w 40 38, bitsOf w 43 41⟩ else none
    (pc.toNat % 4 = 0 → ∃ t, exec .rft s = .next t ∧ sameElsewhere c.s t c.r ∧
      let g := t.gang c.r
      g.trapMode = false ∧ g.fstat = BitVec.ofNat 6 (dword 6 / 2 ^ 32) ∧ (∀ sl, sl < c.grd.sl → (g.sreg sl 63).toNat = dword 5) ∧
      g.run = some { c.sp with pc := pc, wins := [], wait := .none, blk := blk } ∧
      sameRegs c.g g (fun _ _ => false) (fun sl n => decide (sl < c.grd.sl) && n == 63) (fun _ _ => false) ∧
      { g with trapMode := true, fstat := c.g.fstat, s := c.g.s, run := c.g.run } = c.g.issuedAt s.tick) ∧
    (pc.toNat % 4 ≠ 0 → exec .rft s = .next (s.raise c.r ⟨0xD, 2, c.sp.pc, pc, c.visMask, encode .rft⟩)))

/-! ### Memory instructions -/

/-- O44 (R75, R104 to R107, R148, R165 to R169, R173, R175, R177, R232, R249, R250): a load, store or read-modify-write whose addresses pass
check 7 goes into flight with its accesses in lane order, and nothing but the digest and the key of R175 beside; else it traps with the
lowest cause, for exactly the lanes that raise it. A `fence` before which accesses are outstanding goes into flight. `sti` stores its
element and the images of it. -/
def Obligations.MemoryIssue : Prop :=
  (∀ (i : Instr) (s : State) (c : Cx) (f : MemForm), runs i s = some c → memForm c i = some f →
    let odd := f.places.filter fun p => decide (f.addr p % f.bytes ≠ 0)
    let out := f.places.filter f.bad.2.2
    let raised (cause sub : Nat) (ps : List At) : Prop := ∀ p rest, ps = p :: rest → exec i s = .next
      (s.raise c.r ⟨cause, sub, c.sp.pc, f.fa p, ps.foldl (fun m p => m ||| c.maskAt p) 0, encode i⟩)
    raised 7 0 odd ∧ (odd = [] → raised f.bad.1 f.bad.2.1 out) ∧ (odd = [] → out = [] →
      exec i s = .next (c.issues i f.ord f.scope (f.places.flatMap f.accs) (f.places.flatMap f.dig) f.keyed))) ∧
  (∀ (o : Order) (sc : Scope) (s : State) (c : Cx), runs (.fence o sc) s = some c → c.settled = false ∨ c.fenceSync o sc ≠ [] →
    exec (.fence o sc) s = .next (c.entered c.s { id := 0, kind := .fence, ord := o, scope := sc, sync := c.fenceSync o sc })) ∧
  (∀ (o : Order) (sc : Scope) (k : BitVec 2) (a : Src) (b : SrcB) (x : VReg) (s : State) (c : Cx),
    let i : Instr := .sti o sc k a b x
    let m := dImg c.grd.d k.toNat
    let row (L : Nat) : Nat := (lo32 (c.g.src false (.lane L) a)).toNat
    let col (L : Nat) : Nat := (lo32 (c.g.srcB false zext64 (.lane L) b)).toNat
    let bad := c.vis.filter fun L => !m.present || decide (m.th ≤ row L) || decide (m.tw ≤ col L) || (m.size == 8 && x.toNat % 2 == 1)
    let set (L : Nat) := imageSet c.grd c.grp.lin m (row L) (col L) (trunc (8 * m.size) (c.g.vpair L x.toNat))
    runs i s = some c →
    (bad ≠ [] → exec i s = .next (s.raise c.r ⟨0xD, 0xC, c.sp.pc, 0, maskOf bad, encode i⟩)) ∧
    (bad = [] → exec i s = .next (c.issues i o sc (c.vis.flatMap fun L => (set L).zipIdx.map fun z =>
      { lane := L, space := .glob, addr := z.1.1.toNat, bytes := m.size, op := .wr z.1.2, img := z.2 != 0 })
      (c.vis.flatMap fun L => foldOrder (set L)) false))) ∧
  (∀ (d : Grid) (lin : Nat) (m : ImgDesc) (i j : Nat) (v : W64),
    let g := d.coord lin
    let fine (n : Nat) : Nat := if n = m.ma then g.getD n 0 * m.th + i else g.getD n 0 * m.tw + j
    let set := imageSet d lin m i j v
    set.head? = some (m.addr (fine m.ma) (fine m.mb), v) ∧ (set.map Prod.fst).Nodup ∧
    (∀ y ∈ set.tail, ∃ h ∈ d.elems, d.linear (h.act d g) ≠ lin ∧
      y = (m.addr (h.fine d m fine m.ma) (h.fine d m fine m.mb), h.data m.size v)) ∧
    ∀ h ∈ d.elems, d.linear (h.act d g) ≠ lin → m.addr (h.fine d m fine m.ma) (h.fine d m fine m.mb) ∈ set.map Prod.fst)

/-- O45 (R105, R106, R148, R151, R153, R154, R160, R162, R167, R267): an access applied reads or writes exactly its own bytes, at its place; a
store leaves the bytes that a higher lane of its instruction has written; when every access of a load is applied, the values land, extended by
their type. A page of scratch that is accessed is held, or comes back, from the image or as it still stands in the cache, in exchange for the
page with the oldest access. -/
def Obligations.AccessesLand : Prop :=
  (∀ (s : State) (r : GangRef) (e : Entry) (id k : Nat) (a : Access) (p : Place), appliesAt s r e id k a p →
    (∀ l, p = .mem l → a.op = .rd →
      (∀ b ∈ (s.gang r).infl, ∀ y ∈ b.accs, y.done = true ∨ y.writes = false ∨ s.meets r a y = false) →
      ∃ t, exec (.accessApplied r id k) s = .next t ∧ sameMem s t ∧ got t r e id k a (BitVec.ofNat 64 (s.rdLoc l a.bytes)) ∧
        sameButEntries (s.gang r) (t.gang r) ∧ sameButHeard s t r) ∧
    (∀ l x, p = .mem l → a.op = .wr x → (∀ y ∈ s.queues, y.2.kick ≠ some l.key) →
      ∃ t, exec (.accessApplied r id k) s = .next t ∧
        stored s t l a.bytes (fun i => if (s.freshBytes r e a).contains i then some (byteOf x i) else none) ∧
        sameButEntries (s.gang r) (t.gang r) ∧ sameBeside s t r) ∧
    (∀ q o x, p = .lst q o → a.op = .wr x →
      ∃ t, exec (.accessApplied r id k) s = .next t ∧ sameMem s t ∧
        (∀ n, Sparse.get 0 (t.gang r).lst n =
          if o ≤ n ∧ n < o + a.bytes ∧ n - o ∈ s.freshBytes r e a then byteOf x (n - o) else Sparse.get 0 (s.gang r).lst n) ∧
        sameButEntries (s.gang r) { t.gang r with lst := (s.gang r).lst } ∧ sameBeside s t r) ∧
    (∀ g o x, p = .scr g o → a.op = .wr x → (s.group g).st = .resident → (s.group g).scrLv ≠ 0 →
      (∀ i, i < a.bytes → (Sparse.get {} (s.group g).pages ((o + i) / 256) : Line).out = false) →
      (Sparse.get {} (s.group g).pages (o / 256) : Line).out = false →
      ∃ t, exec (.accessApplied r id k) s = .next t ∧ sameMem s t ∧
        (∀ n, Sparse.get 0 (t.group g).scr n =
          if o ≤ n ∧ n < o + a.bytes ∧ n - o ∈ s.freshBytes r e a then byteOf x (n - o) else Sparse.get 0 (s.group g).scr n) ∧
        { t.group g with scr := (s.group g).scr, pages := (s.group g).pages } = s.group g ∧ (∀ n, n ≠ g → t.group n = s.group n) ∧
        sameButEntries (s.gang r) (t.gang r))) ∧
  (∀ (s : State) (r : GangRef) (e : Entry) (a : Access), (∀ b ∈ e.accs, b.done = true → b.lane ≤ a.lane) →
    s.freshBytes r e a = List.range a.bytes) ∧
  (∀ (s : State) (r : GangRef) (id : Nat) (e : Entry), (s.gang r).entry? id = some e → e.kind = .mem → e.long = true → e.done = false →
    (∀ a ∈ e.accs, a.done = true) → (∀ b ∈ e.before.filterMap (s.gang r).entry?, s.acquiring r (s.gang r) b = false) →
    let ws := e.accs.flatMap Access.lands
    e.path = some .atr ∨ (∀ w ∈ ws, ∀ k, w.line = some k → (s.gang r).isOut k = false) →
    ∃ t, exec (.longLatencyCompletion r id) s = .next t ∧ (∀ L n, (t.gang r).vreg L n = ((s.gang r).writeRegs ws).vreg L n) ∧
      (∀ sl n, (t.gang r).sreg sl n = ((s.gang r).writeRegs ws).sreg sl n) ∧ (∀ L n, (t.gang r).preg L n = (s.gang r).preg L n) ∧
      (t.gang r).open_ id = false) ∧
  (∀ (s : State) (k o : Nat) (rd : Bool),
    let g := s.group k
    let d := s.grid g.grid
    let p := o / 256
    let most := pagesAt d.scrBytes g.scrLv
    let page (g : Group) (q : Nat) : Line := Sparse.get {} g.pages q
    let image (o : Nat) : Nat := g.img.toNat + d.scrOff o
    let held := (List.range (d.scrBytes / 256)).filter fun q => q == p || !(page g q).out
    let same (t : State) (qs : List Nat) : Prop := (∀ q, q ∉ qs → page (t.group k) q = page g q) ∧ (∀ n, n ≠ k → t.group n = s.group n) ∧
      { t.group k with scr := g.scr, pages := g.pages } = g
    let back (t : State) : Prop := page (t.group k) p = { page g p with last := s.tick, out := false } ∧
      (∀ n, n / 256 ≠ p → Sparse.get 0 (t.group k).scr n = Sparse.get (0 : Byte) g.scr n) ∧
      ((∀ n, Sparse.get 0 (t.group k).scr n = Sparse.get (0 : Byte) g.scr n) ∨
        ∀ j, j < 256 → Sparse.get 0 (t.group k).scr (256 * p + j) = BitVec.ofNat 8 (s.imgRead d.ctx (image (256 * p) + j) 1))
    ((page g p).out = false → ∃ t, s.touchPage k o rd = .ok t ∧ same t [p] ∧ (t.group k).scr = g.scr ∧
      page (t.group k) p = { page g p with last := s.tick } ∧ { t with groups := s.groups } = s) ∧
    ((page g p).out = true → most = 0 ∨ g.st.placed = false →
      s.touchPage k o rd = if rd && !s.imgReads d.ctx (image o) then .error (image o) else .ok s) ∧
    ((page g p).out = true → most ≠ 0 → g.st.placed = true → (∀ j, j < 256 → s.imgReads d.ctx (image (256 * p) + j) = true) →
      (held.length ≤ most → ∃ t, s.touchPage k o rd = .ok t ∧ back t ∧ same t [p] ∧ { t with groups := s.groups } = s) ∧
      (∀ q, most < held.length → q ∈ held → q ≠ p → (∀ j, j < 256 → s.imgWrites d.ctx (image (256 * q) + j) = true) →
        (∀ x, x ∈ held → x ≠ p → (page g q).last < (page g x).last ∨ ((page g q).last = (page g x).last ∧ x ≤ q)) →
        ∃ t, s.touchPage k o rd = .ok t ∧ back t ∧ same t [p, q] ∧ page (t.group k) q = { page g q with out := true } ∧
          t.mem = (s.saveScr (t.group k) d (256 * q) 256).mem ∧ t.hostMem = (s.saveScr (t.group k) d (256 * q) 256).hostMem ∧
          (t.ctx d.ctx).scrwr = (s.ctx d.ctx).scrwr + 256))) ∧
  (∀ (a : Access) (g : Gang) (L : Nat) (d : VReg) (t : Ty), a.land = .v L d.toNat t → holds (g.writeRegs a.lands) t (.lane L) (.v d) a.val.toNat) ∧
  (∀ (a : Access) (g : Gang) (sl : Nat) (d : SReg) (t : Ty), a.land = .s sl d.toNat t →
    holds (g.writeRegs a.lands) t (.slice sl) (.s d) a.val.toNat)

/-- O46 (R107, R172, R173, R175): an atomic reads its bytes and writes the new value in one step, and one that only writes and lies in a D
range is put off while the ordered-update area has room or it combines with an entry there; the new values over integers, bits and keys. -/
def Obligations.ReadModifyWrite : Prop :=
  (∀ (s : State) (r : GangRef) (e : Entry) (id k : Nat) (a : Access) (l : Loc) (op : Amo) (ty : Ty) (x y : W64),
    appliesAt s r e id k a (.mem l) → a.op = .rmw op ty x y →
    let g := (s.group r.group).grid
    let put : DRed := ⟨(s.group r.group).lin, r.gang, e.dq, a.lane, l.key, op, ty, x, y⟩
    let later := { s.grid g with dred := (s.grid g).dred ++ [put] }
    let m : W64 := BitVec.ofNat 64 (s.rdLoc l a.bytes)
    let may := s.xlate (s.grid g).ctx (s.prvAt r a) .write a.addr
    ((s.inD (s.grid g).ctx a.addr && a.land == .none) = false → may.isOk = true ∨ amoNew op ty m x y = none →
      ∃ t, exec (.accessApplied r id k) s = .next t ∧
      got t r e id k a m ∧ stored s t l a.bytes (fun i => (amoNew op ty m x y).map fun v => byteOf v i) ∧
      sameButEntries (s.gang r) (t.gang r) ∧ sameButHeard s t r) ∧
    (∀ z, (s.inD (s.grid g).ctx a.addr && a.land == .none) = false → may = .error z → amoNew op ty m x y ≠ none →
      exec (.accessApplied r id k) s = .next (s.endTaskOf r z a.addr)) ∧
    ((s.inD (s.grid g).ctx a.addr && a.land == .none) = true → may.isOk = true →
      (s.setGrid g later).ouaUsed (s.grid g).ctx * (Config.ouaEntry + 1) ≤ (s.ctx (s.grid g).ctx).ouasz.toNat ∨
        (s.setGrid g later).ouaUsed (s.grid g).ctx = s.ouaUsed (s.grid g).ctx →
      ∃ t, exec (.accessApplied r id k) s = .next t ∧ sameMem s t ∧ (t.grid g).dred = (s.grid g).dred ++ [put])) ∧
  (∀ (t : Ty) (m c e : W64), t.floating = false → m.toNat < 2 ^ t.width → c.toNat < 2 ^ t.width →
    (amoNew .add t m c e).map BitVec.toNat = some ((m.toNat + c.toNat) % 2 ^ t.width) ∧
    (∃ z, amoNew .min t m c e = some z ∧ z.toNat < 2 ^ t.width ∧ tyVal t z = min (tyVal t m) (tyVal t c)) ∧
    (∃ z, amoNew .max t m c e = some z ∧ z.toNat < 2 ^ t.width ∧ tyVal t z = max (tyVal t m) (tyVal t c)) ∧
    amoNew .and t m c e = some (m &&& c) ∧ amoNew .or t m c e = some (m ||| c) ∧ amoNew .xor t m c e = some (m ^^^ c) ∧
    amoNew .exch t m c e = some c ∧ amoNew .cas t m c e = (if m = c then some e else none) ∧
    (amoNew .mxi t m c e).map BitVec.toNat = some (max m.toNat c.toNat)) ∧
  (∀ (t : Ty) (m c e : W64), t.floating = true → t ≠ .f16x2 → t ≠ .bf16x2 →
    amoNew .add t m c e = some (BitVec.ofNat 64 (fadd2 t .rne m.toNat c.toNat).1))

/-! ### Barriers, tickets, engines -/

/-- O47 (R251 to R254): `arrive` makes one arrival and gives the phase it arrived in; `bar` makes one and goes on at once when that completes
the phase, else waits for it; a misused unit traps; a default phase completes with the last live gang, a counted one with its count. `trig`
marks the visited lanes, at once when nothing earlier is outstanding. -/
def Obligations.Barriers : Prop :=
  (∀ (k : BitVec 4) (cnt : Option SReg) (s : State) (c : Cx),
    let b := c.grp.bar k.toNat
    let n := cnt.map fun r => (c.g.sreg c.sl0 r.toNat).toNat
    let b' := b.arrive (s.liveGangs c.r.group) c.r.gang n
    let bad := decide (1 < c.g.nsplits) || b.misused c.r.gang n
    let s1 := c.s.setGroup c.r.group { c.grp with bars := Sparse.put c.grp.bars k.toNat b' }
    let trap (i : Instr) : Prop := exec i s = .next (s.raise c.r ⟨0xD, 0xE, c.sp.pc, 0, c.visMask, encode i⟩)
    (∀ d : SReg, runs (.arrive d k cnt) s = some c →
      (bad = true → trap (.arrive d k cnt)) ∧
      (bad = false → exec (.arrive d k cnt) s =
        .next (({ c with s := s1 }).after (c.sls.map fun sl => .s sl d.toNat (b.phase.setWidth 64))))) ∧
    (runs (.bar k cnt) s = some c →
      (∀ p, c.sp.wait = .phase p → b.phase ≠ p ∧ exec (.bar k cnt) s = .next (c.retire c.s 0)) ∧
      ((∀ p, c.sp.wait ≠ .phase p) → (bad = true → trap (.bar k cnt)) ∧
        (bad = false → b'.phase ≠ b.phase → exec (.bar k cnt) s = .next (c.retire s1 0)) ∧
        (bad = false → b'.phase = b.phase → exec (.bar k cnt) s =
          .next (s1.setGang c.r { c.g with last := s.tick, run := some { c.sp with wait := .phase b.phase } }))))) ∧
  (∀ (b : Bar) (live : List Nat) (j : Nat), b.mode ≠ 2 → b.arr.testBit j = false →
    (b.arrive live j none).phase = b.phase + (if ∀ x ∈ live, x = j ∨ b.arr.testBit x = true then 1 else 0) ∧
    ((b.arrive live j none).phase ≠ b.phase → b.arrive live j none = ⟨b.phase + 1, 0, 0, 0⟩) ∧
    ((b.arrive live j none).phase = b.phase → b.arrive live j none = { b with mode := 1, arr := b.arr + 2 ^ j })) ∧
  (∀ (b : Bar) (live : List Nat) (j e : Nat), b.arrive live j (some e) =
    if b.arr + 1 = e then ⟨b.phase + 1, 0, 0, 0⟩ else { b with mode := 2, expct := e, arr := b.arr + 1 }) ∧
  (∀ (b : Bar) (j e : Nat), (b.misused j none = true ↔ b.mode = 2 ∨ b.mode = 1 ∧ b.arr.testBit j = true) ∧
    (b.misused j (some e) = true ↔ b.mode = 1 ∨ b.mode = 2 ∧ b.expct ≠ e ∨ e = 0 ∨ 65535 < e)) ∧
  (∀ (s : State) (c : Cx), runs .trig s = some c → c.grd.node = none → c.g.trigWait = [] →
    let new := c.visMask &&& ~~~c.g.trig
    let g : Gang := { c.g.issuedAt s.tick with run := some (c.stepped c.g c.sp 0) }
    ∃ t, exec .trig s = .next t ∧ sameBeside c.s t c.r ∧ sameMem c.s t ∧
      (c.settled = true ∨ new = 0 → t.gang c.r = { g with trig := c.g.trig ||| c.visMask }) ∧
      (c.settled = false → new ≠ 0 → t.gang c.r = { g with trigWait := [(new, c.sp.hist)] }))

/-- O48 (R213, R237 to R241, R178, R179): `wtl` and `tst` tell whether each slice's ticket has completed and is resolved, and end the locks
that R213 names; `cancel` cancels what is still queued; `copy` and `pvop` start one operation for each selected slice, with consecutive
numbers, unless an address or count of a slice is misaligned or reaches outside, which traps before any effect; the completion
moves every byte, to and from scratch too, or computes every element, that is left. (The fault address of a count that is no multiple of 4 is
free, log entry 85; the subcause of sources and destinations on different dies, log entry 86, and the lower of several subcauses, log
entry 129, are the model's choices.) -/
def Obligations.TicketsAndEngines : Prop :=
  (∀ (p : PReg) (tk : SReg) (i : Instr) (s : State) (c : Cx), i = .wtl p tk ∨ i = .tst p tk → runs i s = some c →
    let x := s.ctx c.grd.ctx
    let ticket (sl : Nat) := x.ticket (c.g.sreg sl tk.toNat)
    let bad := c.sls.filter fun sl => (ticket sl).isNone
    (bad ≠ [] → exec i s = .next (s.raise c.r ⟨0xD, 0xD, c.sp.pc, 0, bad.foldl (fun m sl => m ||| c.maskAt (.slice sl)) 0, encode i⟩)) ∧
    (bad = [] → ∃ g, { g with closed := c.g.closed } = c.g ∧
      (∀ l, l ∈ g.closed ↔ l ∈ c.g.closed ∧ ∀ sl ∈ c.sls, ∀ n, ticket sl = some (3, n) →
        (x.done (c.g.sreg sl tk.toNat) = true → n < l.num) ∧ (x.opSt 3 n = .failed ∨ x.opSt 3 n = .cancelled → l.num ≠ n)) ∧
      exec i s = .next (({ c with s := c.s.setGang c.r g, g := g }).after
        (c.vis.map fun L => .p L p.toNat (x.done (c.g.sreg (L / 4) tk.toNat)))))) ∧
  (∀ (x : Ctx) (tk : W64) (e n : Nat), x.ticket tk = some (e, n) →
    (x.done tk = true ↔ x.opSt e n = .completed ∧
      ∀ y ∈ x.ops, okeyEng y.1 = e → okeyNum y.1 ≤ n → y.2.st = .completed ∨ y.2.st = .failed ∨ y.2.st = .cancelled)) ∧
  (∀ (p : PReg) (tk : SReg) (s : State) (c : Cx), runs (.cancel p tk) s = some c →
    let x := s.ctx c.grd.ctx
    let key (sl : Nat) : Option Nat := (x.ticket (c.g.sreg sl tk.toNat)).bind fun y =>
      if x.opSt y.1 y.2 = .queued then some (okey y.1 y.2) else none
    let first (sl : Nat) : Prop := (key sl).isSome = true ∧ ∀ j ∈ c.sls, j < sl → key j ≠ key sl
    (∀ sl ∈ c.sls, (x.ticket (c.g.sreg sl tk.toNat)).isSome = true) →
    ∃ t, exec (.cancel p tk) s = .next t ∧ sameMem s t ∧ c.onlyWrites c.g (t.gang c.r) ∧
      (∀ L ∈ c.vis, (t.gang c.r).preg L p.toNat = true ↔ first (L / 4)) ∧
      (∀ k, (∀ sl ∈ c.sls, key sl ≠ some k) → Sparse.get {} (t.ctx c.grd.ctx).ops k = Sparse.get ({} : Op) x.ops k) ∧
      (∀ sl ∈ c.sls, ∀ k, key sl = some k → (Sparse.get ({} : Op) (t.ctx c.grd.ctx).ops k).st = .cancelled) ∧
      { t with gangs := s.gangs, ctxs := s.ctxs } = s) ∧
  (∀ (k : CopyKind) (d a b : SReg) (n : SrcC) (s : State) (c : Cx), runs (.copy k d a b n) s = some c →
    let side (scr : Bool) (x : W64) : Nat := if scr then (lo32 x).toNat else x.toNat
    let dst (sl : Nat) := side (k == .gs || k == .ss) (c.g.sreg sl a.toNat)
    let src (sl : Nat) := side (k == .sg || k == .ss) (c.g.sreg sl b.toNat)
    let cnt (sl : Nat) := (c.g.srcC true zext64 (.slice sl) n).toNat
    let far (scr : Bool) (o n : Nat) : Bool := scr && n != 0 && decide (c.grd.scrBytes < o + n)
    let odd := c.sls.filter fun sl => dst sl % 4 != 0 || src sl % 4 != 0 || cnt sl % 4 != 0
    let out := c.sls.filter fun sl => far (k == .gs || k == .ss) (dst sl) (cnt sl) || far (k == .sg || k == .ss) (src sl) (cnt sl)
    let lanes (l : List Nat) : W32 := l.foldl (fun m sl => m ||| c.maskAt (.slice sl)) 0
    let trap (cause sub fa : Nat) (m : W32) : Prop := exec (.copy k d a b n) s = .next (s.raise c.r
      ⟨cause, sub, c.sp.pc, BitVec.ofNat 64 fa, m, encode (.copy k d a b n)⟩)
    (∀ sl rest, odd = sl :: rest → ∃ fa, trap 7 0 fa (lanes odd) ∧
      (dst sl % 4 ≠ 0 → fa = dst sl) ∧ (dst sl % 4 = 0 → src sl % 4 ≠ 0 → fa = src sl)) ∧
    (∀ sl rest, odd = [] → out = sl :: rest →
      trap 9 1 (if far (k == .gs || k == .ss) (dst sl) (cnt sl) then dst sl else src sl) (lanes out)) ∧
    (odd = [] → out = [] → c.starts (.copy k d a b n) s d engCopy fun sl =>
      { st := if cnt sl = 0 then .completed else .queued, kind := .copy k (dst sl) (src sl) (cnt sl), grid := c.grp.grid, by_ := c.r,
        before := c.sp.hist, t0 := s.now, at_ := s.tick })) ∧
  (∀ (op : PvOp) (o : Order) (sc : Scope) (t : Ty) (d a : SReg) (b : SrcB) (n : SrcC) (s : State) (c : Cx),
    runs (.pvop op o sc t d a b n) s = some c →
    let w := t.width / 8
    let dst (sl : Nat) := (c.g.sreg sl a.toNat).toNat
    let cnt (sl : Nat) := (c.g.srcC true zext64 (.slice sl) n).toNat
    let src (sl : Nat) : Option Nat := match b with
      | .s r => some (c.g.sreg sl r.toNat).toNat
      | _ => none
    let const : W64 := match b with
      | .imm x => trunc t.width (if t.floating then immF t x else immInt t x)
      | _ => 0
    let all (sl : Nat) := dst sl :: (src sl).toList
    let far (sl x : Nat) : Bool := cnt sl != 0 &&
      !(decide (x < 2 ^ 48 ∧ x / 2 ^ 45 % 2 = 1 ∧ x % 2 ^ 45 + cnt sl * w ≤ Config.plateBytes ∧ x / 2 ^ 46 = dst sl / 2 ^ 46))
    let odd := c.sls.filter fun sl => (all sl).any fun x => x % w != 0
    let out := c.sls.filter fun sl => (all sl).any (far sl)
    let trap (cause sub fa : Nat) (l : List Nat) : Prop := exec (.pvop op o sc t d a b n) s = .next (s.raise c.r
      ⟨cause, sub, c.sp.pc, BitVec.ofNat 64 fa, l.foldl (fun m sl => m ||| c.maskAt (.slice sl)) 0, encode (.pvop op o sc t d a b n)⟩)
    (∀ sl rest fa, odd = sl :: rest → (all sl).find? (fun x => x % w != 0) = some fa → trap 7 0 fa odd) ∧
    (∀ sl rest fa, odd = [] → out = sl :: rest → (all sl).find? (far sl) = some fa → trap 0xD 6 fa out) ∧
    (odd = [] → out = [] → c.starts (.pvop op o sc t d a b n) s d engPlate fun sl =>
      { st := if cnt sl = 0 then .completed else .queued, kind := .pvop op o t (dst sl) (src sl) const (cnt sl), grid := c.grp.grid,
        by_ := c.r, before := c.sp.hist, t0 := s.now, at_ := s.tick })) ∧
  (∀ (s : State) (ctx num n eng : Nat) (e : Instr) (o : Op) (f : State → Nat → Except (Nat × Nat) State),
    (eng, e) = (engCopy, .copyCompletion ctx num) ∨ (eng, e) = (engPlate, .pvopCompletion ctx num) →
    s.op ctx eng num = o → o.parts = some (n, f) → s.atWork o = true →
    (∀ i, i ∈ o.rest ↔ i < n ∧ i ∉ o.moved) ∧
    (∀ s1, s.moveAll f o.rest = .ok s1 → exec e s = .next
      (s1.setCtx ctx ((s1.ctx ctx).setOp eng num { o with st := .completed, moved := o.moved ++ o.rest }))) ∧
    (∀ c a, s.moveAll f o.rest = .error (c, a) → exec e s = .next ((s.endTaskOf o.by_ c a).failOp ctx eng num))) ∧
  (∀ (s : State) (o : Op) (k : CopyKind) (dst src i : Nat) (x : Byte),
    let a := (dst + i) % 2 ^ 64
    let b := (src + i) % 2 ^ 64
    (∀ l, k = .gg ∨ k = .sg → s.engLoc o.grid .write a 1 = .ok l → ∀ s1, copyReads s s1 o k b x → ∃ t, s.copyByte o k dst src i = .ok t ∧
      stored s1 t l 1 (fun _ => some x) ∧ { t with mem := s1.mem, hostMem := s1.hostMem, spoiled := s1.spoiled, hostWr := s1.hostWr } = s1) ∧
    (∀ s1, k = .gs ∨ k = .ss → copyReads s s1 o k b x →
      let g := s1.group o.by_.group
      let ctx := (s1.grid g.grid).ctx
      let out : Bool := (Sparse.get {} g.pages (a / 256) : Line).out
      let put (t : State) : Prop := (∀ n, Sparse.get 0 (t.group o.by_.group).scr n = if n = a then x else Sparse.get 0 g.scr n) ∧
        { t.group o.by_.group with scr := g.scr, pages := g.pages } = g ∧ (∀ n, n ≠ o.by_.group → t.group n = s1.group n) ∧
        (Sparse.get {} (t.group o.by_.group).pages (a / 256) : Line).last = s.tick
      (out = false → ∃ t, s.copyByte o k dst src i = .ok t ∧ put t ∧ { t with groups := s1.groups } = s1) ∧
      (out = true → s1.imgWrites ctx (s1.scrVa o.by_.group a) = true → ∃ t, s.copyByte o k dst src i = .ok t ∧ put t ∧
        t.mem = (s1.imgWrite ctx (s1.scrVa o.by_.group a) 1 x.toNat).mem ∧
        t.hostMem = (s1.imgWrite ctx (s1.scrVa o.by_.group a) 1 x.toNat).hostMem ∧ (t.ctx ctx).scrwr = (s1.ctx ctx).scrwr + 1)) ∧
    (∀ z l, k = .sg → s.engLoc o.grid .write a 1 = .ok l → s.touchPage o.by_.group b true = .error z →
      s.copyByte o k dst src i = .error (3, z)) ∧
    (∀ z, k = .ss → s.touchPage o.by_.group b true = .error z → s.copyByte o k dst src i = .error (3, z))) ∧
  (∀ (s : State) (o : Op) (op : PvOp) (ty : Ty) (dst i : Nat) (src : Option Nat) (const x : W64) (l : Loc),
    let w := ty.width / 8
    s.engLoc o.grid .write ((dst + i * w) % 2 ^ 64) w = .ok l →
    (match src with
      | none => x = const
      | some b => ∃ l2, s.engLoc o.grid .read ((b + i * w) % 2 ^ 64) w = .ok l2 ∧ x = BitVec.ofNat 64 (s.rdLoc l2 w)) →
    ∃ t, s.pvElem o op ty dst src const i = .ok t ∧
      stored s t l w (fun j => some (byteOf (pvNew op ty (BitVec.ofNat 64 (s.rdLoc l w)) x) j)) ∧
      { t with mem := s.mem, hostMem := s.hostMem, spoiled := s.spoiled, hostWr := s.hostWr } = s) ∧
  (∀ (t : Ty) (x y : W64), pvNew .mov t x y = y ∧ pvNew .and t x y = x &&& y ∧ pvNew .or t x y = x ||| y ∧ pvNew .xor t x y = x ^^^ y ∧
    (t.floating = false → x.toNat < 2 ^ t.width → y.toNat < 2 ^ t.width →
      (pvNew .add t x y).toNat = (x.toNat + y.toNat) % 2 ^ t.width ∧ (pvNew .mul t x y).toNat = x.toNat * y.toNat % 2 ^ t.width))

/-- O49 (R208, R209, R212, R213, R215, R221, R223, R243 to R247): `mmx` puts a tile product with its rows and the four slots as they stand into the
open batch, of at most eight; `mfence` closes the batch and gives its ticket; a batch executed without errors gives each accumulator the sum of R121
over products that are exact, or cut at fidelity 3, scaled by its format block (R120), the fused steps of R122 in FP64, or integer sums modulo
2^32; an invalid block writes nothing (R217), and what an error may change of a product is bounded (R220); `bpub` writes its cells when it
completes; `mzero` clears and `mtr` transposes. -/
def Obligations.MatrixInstructions : Prop :=
  (∀ (s : State) (c : Cx) (d a : VReg),
    let tile (t : Ty) (block : Option (List W64)) (n : Nat) : Mmx :=
      { ty := t, block := block, c := d.toNat, rows := c.vis.map fun L => (L, (List.range n).map fun k => c.g.vreg L (a.toNat + k)),
        b := c.grp.slots (c.r.gang / 4), before := c.sp.hist }
    let joins (m : Mmx) : Out := .next (c.retire (c.mirror (c.s.setGang c.r { c.g with batch := c.g.batch ++ [m] })) 0)
    let full (i : Instr) : Prop := exec i s = .next (s.raise c.r ⟨0xD, 0xA, c.sp.pc, 0, c.visMask, encode i⟩)
    (∀ t : Ty, runs (.mmx t d a) s = some c →
      (c.g.batch.length < 8 → exec (.mmx t d a) s = joins (tile t none (fragLen t))) ∧ (8 ≤ c.g.batch.length → full (.mmx t d a))) ∧
    (∀ (f : SReg) (l : Loc), runs (.mmxNar d a f) s = some c → c.g.batch.length < 8 →
      let at_ := c.g.sreg c.sl0 f.toNat
      let read := (blockRead c.sp.hist at_).2
      (at_.toNat % 32 ≠ 0 → exec (.mmxNar d a f) s = .next (s.raise c.r ⟨7, 0, c.sp.pc, at_, c.visMask, encode (.mmxNar d a f)⟩)) ∧
      (at_.toNat % 32 = 0 → c.s.place c.r read = .ok (.mem l) → c.s.relsAt (c.s.where_ c.r read) 32 = [] →
        (∀ b ∈ c.g.infl, ∀ y ∈ b.accs, y.done = true ∨ y.writes = false ∨ c.s.meets c.r read y = false) →
        exec (.mmxNar d a f) s = joins (tile .n32
          (some ((List.range 4).map fun k => BitVec.ofNat 64 (c.s.rdLoc { l with key := l.key + 8 * k } 8))) 16))) ∧
    (∀ f : SReg, runs (.mmxNar d a f) s = some c → 8 ≤ c.g.batch.length → (c.g.sreg c.sl0 f.toNat).toNat % 32 = 0 →
      full (.mmxNar d a f))) ∧
  (∀ (la : BitVec 4) (q : BitVec 2) (a : VReg) (o : Byte) (s : State) (c : Cx), runs (.bpub la q a o) s = some c →
    (o.toNat % c.W = 0 → o.toNat + c.W ≤ 32 → exec (.bpub la q a o) s = .next (c.entered c.s
      { id := 0, kind := .bpub (c.r.gang / 4 * 4 + q.toNat) a.toNat o.toNat c.visMask, long := true })) ∧
    (¬(o.toNat % c.W = 0 ∧ o.toNat + c.W ≤ 32) →
      exec (.bpub la q a o) s = .next (s.raise c.r ⟨0xD, 0xB, c.sp.pc, 0, c.visMask, encode (.bpub la q a o)⟩))) ∧
  (∀ (s : State) (r : GangRef) (id slot base off : Nat) (lanes : W32) (e : Entry), (s.gang r).entry? id = some e →
    e.kind = .bpub slot base off lanes → e.done = false → (s.grid (s.group r.group).grid).node = none →
    ∃ t, exec (.bpubCompletion r id) s = .next t ∧ sameMem s t ∧ (t.gang r).open_ id = false ∧ (t.gang r).v = (s.gang r).v ∧
      (∀ L k, L ∈ lanesOf lanes → k < 4 →
        Sparse.get 0 (t.group r.group).bs ((slot * 32 + L + off) * 4 + k) = (s.gang r).vreg L (base + k)) ∧
      (∀ n, (∀ L k, L ∈ lanesOf lanes → k < 4 → n ≠ (slot * 32 + L + off) * 4 + k) →
        Sparse.get 0 (t.group r.group).bs n = Sparse.get 0 (s.group r.group).bs n)) ∧
  (∀ (d : SReg) (s : State) (c : Cx), runs (.mfence d) s = some c →
    let x := s.ctx c.grd.ctx
    let n := if c.g.batch = [] then x.latest 3 else x.latest 3 + 1
    ∃ t, exec (.mfence d) s = .next t ∧ (∀ sl ∈ c.sls, (t.gang c.r).sreg sl d.toNat = ticketOf 3 n) ∧ c.onlyWrites c.g (t.gang c.r) ∧
      (t.gang c.r).batch = [] ∧ (t.ctx c.grd.ctx).latest 3 = n ∧ { t with gangs := s.gangs, ctxs := s.ctxs } = s ∧
      (c.g.batch = [] → (t.gang c.r).closed = c.g.closed ∧ t.ctxs = s.ctxs) ∧
      (c.g.batch ≠ [] → (t.gang c.r).closed = c.g.closed ++ [⟨n, c.g.batch.map fun m => (m.c, 32)⟩] ∧
        (t.ctx c.grd.ctx).op 3 n = { kind := .batch c.g.batch, grid := c.grp.grid, by_ := c.r, t0 := s.now,
                                     at_ := s.tick, before := (c.g.batch.flatMap Mmx.before).eraseDups })) ∧
  (∀ (d : VReg) (s : State) (c : Cx), runs (.mzero d) s = some c →
    c.puts (.mzero d) s 0 fun g => ∀ L ∈ c.vis, ∀ k, k < 32 → g.vreg L (d.toNat + k) = 0) ∧
  (∀ (t : Ty) (d a : VReg) (s : State) (c : Cx), runs (.mtr t d a) s = some c →
    c.puts (.mtr t d a) s 0 fun g => ∀ L ∈ c.vis, ∀ j, j < c.W → g.vreg L (d.toNat + j) = c.g.vreg j (a.toNat + L)) ∧
  (∀ (s : State) (ctx num : Nat) (o : Op) (ms : List Mmx) (errs : List SliceObs), s.batchAt ctx num = some (o, ms) →
    let fid := (s.grid o.grid).fid
    let es := formed ms errs
    let core := (s.group o.by_.group).core
    let before (n : Nat) : ErrCount := errCount fid (es.filter fun x => decide (x.o.mmx < n))
    (∀ x, fatalAt fid es = none → s.tiles o.by_ o.grid fid es 0 ms = .ok x →
      ∃ t, exec (.batchExecution ctx num errs) s = .next t ∧ t.gangs = x.1.gangs ∧ sameMem x.1 t ∧
        (t.op ctx 3 num).st = (if x.2 then .completed else .failed)) ∧
    (∀ i c a, fatalAt fid es = none → s.tiles o.by_ o.grid fid es 0 ms = .error (i, c, a) →
      exec (.batchExecution ctx num errs) s = .next ((s.countErrs core ctx (before i)).endTaskOf o.by_ c a)) ∧
    (∀ j x, fatalAt fid es = some j → s.tiles o.by_ o.grid fid es 0 (ms.take (j + 1)) = .ok x →
      exec (.batchExecution ctx num errs) s = .next ((s.countErrs core ctx (before (j + 1))).endTaskOf o.by_ 7 0))) ∧
  (∀ (fid : Nat) (es : List Obs), (fatalAt fid es = none ↔ ∀ x ∈ es, uncorrectable fid es x = false) ∧
    ∀ j, fatalAt fid es = some j → (∃ x ∈ es, uncorrectable fid es x = true ∧ x.o.mmx = j) ∧
      ∀ x ∈ es, uncorrectable fid es x = true → j ≤ x.o.mmx) ∧
  (∀ (s : State) (core ctx : Nat) (n : ErrCount),
    let t := s.countErrs core ctx n
    (t.core core).oeave = (s.core core).oeave + BitVec.ofNat 64 n.eave ∧ (t.core core).ocourse = (s.core core).ocourse + BitVec.ofNat 64 n.course ∧
    (t.core core).orepeat = (s.core core).orepeat + BitVec.ofNat 64 n.rep ∧
    (t.ctx ctx).fidev = (s.ctx ctx).fidev + BitVec.ofNat 64 (n.eave + n.course + n.rep) ∧ t.gangs = s.gangs ∧ sameMem s t) ∧
  (∀ (s : State) (r : GangRef) (grid fid i : Nat) (es : List Obs) (m : Mmx) (ms : List Mmx),
    s.tiles r grid fid es i (m :: ms) = (match s.tiles r grid fid es i [m] with
      | .error e => .error e
      | .ok x => match x.1.tiles r grid fid es (i + 1) ms with
        | .error e => .error e
        | .ok y => .ok (y.1, x.2 && y.2))) ∧
  (∀ (s : State) (r : GangRef) (grid fid i : Nat) (es : List Obs) (m : Mmx), m.fmt = none → s.tiles r grid fid es i [m] = .ok (s, false)) ∧
  (∀ (s : State) (r : GangRef) (grid fid i : Nat) (m : Mmx) (f : MFmt) (sa sb : Nat → List Nat), m.fmt = some f →
    (m.rows.map Prod.fst).Nodup → m.c + 32 ≤ 256 → (∀ L ∈ m.rows.map Prod.fst, s.scales grid f f.scla L = .ok (sa L)) →
    (∀ n, n < f.kind.n → s.scales grid f f.sclb n = .ok (sb n)) →
    ∃ t, s.tiles r grid fid [] i [m] = .ok (t, true) ∧ (∀ q, gkey q ≠ gkey r → t.gang q = s.gang q) ∧
      sameRegs (s.gang r) (t.gang r) (fun L n => (m.rows.map Prod.fst).contains L && decide (m.c ≤ n ∧ n < m.c + 32))
        (fun _ _ => false) (fun _ _ => false) ∧
      ∀ L ws n, (L, ws) ∈ m.rows → n < f.kind.n → f.element fid m ws (sa L) (sb n) (s.gang r) (t.gang r) L n) ∧
  (∀ (s : State) (r : GangRef) (grid fid i : Nat) (es : List Obs) (m : Mmx) (f : MFmt), m.fmt = some f →
    let failed (e : Nat × Nat) : Prop := (∃ L ∈ m.rows.map Prod.fst, s.scales grid f f.scla L = .error e) ∨
      ∃ n, n < f.kind.n ∧ s.scales grid f f.sclb n = .error e
    (∃ e, failed e) → ∃ e, failed e ∧ s.tiles r grid fid es i [m] = .error (i, e)) ∧
  (∀ (s : State) (grid : Nat) (f : MFmt) (base i : Nat), (f.len = 0 → s.scales grid f base i = .ok []) ∧
    let nb := f.kind.k / f.len
    let at_ (j : Nat) : Nat := (base + i * nb + j) % 2 ^ 64
    (∀ b : Nat → Byte, 0 < f.len → f.len ∣ f.kind.k →
      (∀ j, j < nb → ∃ l, s.engLoc grid .read (at_ j) 1 = .ok l ∧ b j = BitVec.ofNat 8 (s.rdLoc l 1)) →
      ∃ l, s.scales grid f base i = .ok l ∧ ∀ k, k < f.kind.k → l.getD k 127 = (b (k / f.len)).toNat) ∧
    (∀ j c, 0 < f.len → j < nb → s.engLoc grid .read (at_ j) 1 = .error c →
      (∀ n, n < j → ∃ l, s.engLoc grid .read (at_ n) 1 = .ok l) → s.scales grid f base i = .error (c, at_ j))) ∧
  (∀ (ws : List W64) (f : MFmt),
    let w := (ws.getD 0 0).toNat
    let len := bitsOf w 31 24
    let ac := bitsOf w 15 8
    let bc := bitsOf w 23 16
    let kinds (a b : Nat) : Prop := bitsOf w 3 0 = a ∧ bitsOf w 7 4 = b
    fmtBlock ws = some f ↔ bitsOf w 63 32 = 0 ∧ ws.getD 1 0 = 0 ∧ len ≤ 3 ∧ f.len = (if len = 0 then 0 else 8 * 2 ^ len) ∧
      f.scla = (ws.getD 2 0).toNat ∧ f.sclb = (ws.getD 3 0).toNat ∧ match f.kind with
      | .b8 a b => kinds 0 0 ∧ b8Of ac = some a ∧ b8Of bc = some b
      | .int p q => kinds (if p then 1 else 2) (if q then 1 else 2) ∧ len = 0 ∧ ac = 0 ∧ bc = 0
      | .e2 => kinds 3 3 ∧ ac = 0 ∧ bc = 0
      | .ieee _ => False) ∧
  (MKind.slices (.ieee .bf16) = (6, 4) ∧ MKind.slices (.ieee .f16) = (9, 6) ∧ MKind.slices (.ieee .f64) = (40, 26) ∧
    MKind.slices .e2 = (0, 0) ∧ (∀ a b, MKind.slices (.int a b) = (0, 0)) ∧ ∀ a b : B8,
      MKind.slices (.b8 a b) = (a.fmt.t + 1 + (b.fmt.t + 1) - 10, min 4 (a.fmt.t + 1 + (b.fmt.t + 1) - 6))) ∧
  (∀ (e k P : Nat) (obs : List Obs) (rep : Bool), perturbed 0 e k P obs rep = P ∧ perturbed 1 e k P obs rep / 2 ^ e = P / 2 ^ e ∧
    perturbed 2 e k P obs rep / 2 ^ (e + k) = P / 2 ^ (e + k) ∧ perturbed 3 e k P obs rep = P - P % 2 ^ e ∧
    perturbed 1 e k P [] rep = P ∧ perturbed 2 e k P [] rep = P)

/-! ### Launches and the network -/

/-- O50 (R161, R199 to R201, R335): `launch` gives each selected slice the next handle and submits its descriptor one level deeper;
`gwait` says whether the slice's grid retired; `gcond` posts to a decision node that has not decided; the network and collective
instructions start one operation for each selected slice, with consecutive numbers, once check 7 passes. (Which address and which subcause a
trap of check 7 reports where several could be is the model's choice: log entries 90 and 129.) -/
def Obligations.LaunchesAndNetwork : Prop :=
  (∀ (d a : SReg) (s : State) (c : Cx), runs (.launch d a) s = some c → c.sp.wait = .none →
    let x := s.ctx c.grd.ctx
    let odd := c.sls.filter fun sl => decide ((c.g.sreg sl a.toNat).toNat % 64 ≠ 0)
    (∀ sl rest, odd = sl :: rest → exec (.launch d a) s = .next (s.raise c.r
      ⟨7, 0, c.sp.pc, c.g.sreg sl a.toNat, odd.foldl (fun m k => m ||| c.maskAt (.slice k)) 0, encode (.launch d a)⟩)) ∧
    (odd = [] → x.unretired + c.sls.length ≤ 4096 → (∀ n ∈ x.children, n.1 ≤ x.handles) → ∃ t, exec (.launch d a) s = .next t ∧
      (t.ctx c.grd.ctx).handles = x.handles + c.sls.length ∧ c.onlyWrites c.g (t.gang c.r) ∧
      (∀ j sl, c.sls[j]? = some sl → (t.gang c.r).sreg sl d.toNat = handleOf (x.handles + 1 + j) ∧
        Sparse.get (0, GridSt.retired) (t.ctx c.grd.ctx).children (x.handles + 1 + j) = (0, .waiting)) ∧
      t.subs = s.subs ++ c.sls.zipIdx.map (fun y =>
        { daddr := c.g.sreg y.1 a.toNat, ctx := c.grd.ctx, part := c.grd.part, depth := c.grd.depth + 1, parent := some c.grp.grid,
          handle := some (x.handles + 1 + y.2), queue := c.grd.queue, by_ := c.r, before := c.sp.hist }) ∧
      { t with gangs := s.gangs, ctxs := s.ctxs, subs := s.subs } = s)) ∧
  (∀ (p : PReg) (h : SReg) (s : State) (c : Cx), runs (.gwait p h) s = some c → c.puts (.gwait p h) s 0 fun g => ∀ L ∈ c.vis,
    g.preg L p.toNat = decide ((s.ctx c.grd.ctx).child (c.g.sreg (L / 4) h.toNat) = some .retired)) ∧
  (∀ (p : PReg) (n v : SReg) (s : State) (c : Cx), runs (.gcond p n v) s = some c →
    (c.grd.node = none → c.puts (.gcond p n v) s 0 fun g => ∀ L ∈ c.vis, g.preg L p.toNat = false) ∧
    (∀ ref, c.grd.node = some ref →
      let g := s.graph ref.graph
      let node (sl : Nat) : Nat := (c.g.sreg sl n.toNat).toNat % 256
      let ok (k : Nat) : Bool := decide (k < g.nn) && nodeKind g.t k == 1 && !(g.node k).decided
      ∃ t, exec (.gcond p n v) s = .next t ∧ (∀ L ∈ c.vis, (t.gang c.r).preg L p.toNat = ok (node (L / 4))) ∧
        c.onlyWrites c.g (t.gang c.r) ∧ { t with gangs := s.gangs, graphs := s.graphs } = s ∧
        (∀ k, (∀ sl ∈ c.sls, node sl = k → ok k = false) → t.node ref.graph k = s.node ref.graph k) ∧
        (∀ sl ∈ c.sls, ok (node sl) = true → ∃ y, (t.node ref.graph (node sl)).posted = some y ∧
          (c.g.sreg sl v.toNat).toNat % 2 ^ 32 ≤ y ∧ (g.node (node sl)).posted.getD 0 ≤ y ∧
          (y = (g.node (node sl)).posted.getD 0 ∨ ∃ j ∈ c.sls, node j = node sl ∧ y = (c.g.sreg j v.toNat).toNat % 2 ^ 32)))) ∧
  (∀ (b : Bool) (o : Order) (sc : Scope) (d t r l : SReg) (n : BitVec 24) (s : State) (c : Cx),
    runs (.nput b o sc d t r l n) s = some c →
    let x := s.ctx c.grd.ctx
    let num (k : Nat) : Nat := x.latest 5 + 1 + k
    let wrong := decide (n = 0 ∨ (b = true ∧ 4096 < n.toNat))
    c.netTraps (.nput b o sc d t r l n) s t [r, l] wrong ∧ (c.netFit t [r, l] wrong → ∃ s1, c.startsIn s s1 engNet (fun sl =>
        { st := .running, kind := .put b (c.g.sreg sl t.toNat) (c.g.sreg sl r.toNat).toNat (c.g.sreg sl l.toNat).toNat n.toNat,
          grid := c.grp.grid, by_ := c.r, before := c.sp.hist, t0 := s.now, at_ := s.tick }) ∧
      exec (.nput b o sc d t r l n) s = .next (c.entered
        (s1.setGang c.r (c.g.writeRegs (c.sls.zipIdx.map fun y => .s y.1 d.toNat (ticketOf 5 (num y.2)))))
        { id := 0, kind := .put c.grd.ctx (c.sls.zipIdx.map fun y => num y.2), path := some .net, ord := o, scope := sc }))) ∧
  (∀ (la : BitVec 4) (o : Order) (sc : Scope) (ty : Ty) (d t r : SReg) (s : State) (c : Cx), runs (.nget la o sc ty d t r) s = some c →
    let x := s.ctx c.grd.ctx
    c.netTraps (.nget la o sc ty d t r) s t [r] false ∧ (c.netFit t [r] false → ∃ s1, c.startsIn s s1 engNet (fun sl =>
        { st := .running, kind := .get (c.g.sreg sl t.toNat) (c.g.sreg sl r.toNat).toNat ty, grid := c.grp.grid, by_ := c.r,
          before := c.sp.hist, t0 := s.now, at_ := s.tick }) ∧
      exec (.nget la o sc ty d t r) s = .next (c.entered s1
        { id := 0, kind := .ticket c.grd.ctx (c.sls.zipIdx.map fun y => (x.latest 5 + 1 + y.2, y.1, d.toNat)), path := some .net, ord := o,
          scope := sc, long := true }))) ∧
  (∀ (la : BitVec 4) (op : Amo) (o : Order) (sc : Scope) (ty : Ty) (d t r : SReg) (v : SrcC) (s : State) (c : Cx),
    runs (.natm la op o sc ty d t r v) s = some c →
    let x := s.ctx c.grd.ctx
    let new (sl : Nat) : W64 := match op, v with
      | .cas, .s k => trunc ty.width (c.g.sreg sl (k.toNat + 1))
      | _, _ => 0
    c.netTraps (.natm la op o sc ty d t r v) s t [r] false ∧ (c.netFit t [r] false → ∃ s1, c.startsIn s s1 engNet (fun sl =>
        { st := .running, kind := .natm op ty (c.g.sreg sl t.toNat) (c.g.sreg sl r.toNat).toNat
            (trunc ty.width (c.g.srcC ty.is64 sext64 (.slice sl) v)) (new sl), grid := c.grp.grid, by_ := c.r,
          before := c.sp.hist, t0 := s.now, at_ := s.tick }) ∧
      exec (.natm la op o sc ty d t r v) s = .next (c.entered s1
        { id := 0, kind := .ticket c.grd.ctx (c.sls.zipIdx.map fun y => (x.latest 5 + 1 + y.2, y.1, d.toNat)), path := some .net, ord := o,
          scope := sc, long := true }))) ∧
  (∀ (k : CollKind) (o : Order) (sc : Scope) (ty : Ty) (d a : SReg) (s : State) (c : Cx), runs (.ncoll k o sc ty d a) s = some c →
    c.starts (.ncoll k o sc ty d a) s d engColl fun sl =>
      { st := .running, kind := .coll k ty (c.g.sreg sl a.toNat).toNat [] [] [], grid := c.grp.grid, by_ := c.r, before := c.sp.hist,
        t0 := s.now, at_ := s.tick }) ∧
  (∀ x : W64, badTarget x = true ↔ 2 ^ 21 ≤ x.toNat ∨ 400000 ≤ x.toNat % 2 ^ 19)

/-! ### Privileged instructions and registers -/

/-- O51 (R196, R297 to R300, R308, R319): `psr` reads each privileged register, and `pwr` writes it, in the bits and ranges of its own,
leaving every other one; the writes that do more (`clkctl`, `gatectl`, `ctxasg`, `ecnt`) do it, from `pwr` and from the management core
alike, and a port is fenced and readmitted by its own. (The watermark of a readmitted port, and which fields of a context a write of `ctxasg`
resets and keeps, are the model's: log entries 93 and 92.) -/
def Obligations.PrivilegedRegisters : Prop :=
  (∀ (t : Ty) (d : Dst) (code : BitVec 12) (k : PIdx) (s : State) (c : Cx), runs (.psr t d code k) s = some c →
    let x (p : At) : W64 :=
      if code = 6 then c.g.slimOf p.slice_ else if code = 7 then c.physlane p else s.privRead c.grp.core code.toNat (c.pidx k)
    c.puts (.psr t d code k) s 0 fun g => ∀ p ∈ c.places d.scalar, match d, p with
      | .v r, .lane L => if t.is64 then g.vpair L r.toNat = x p else g.vreg L r.toNat = lo32 (x p)
      | .s r, p => g.sreg p.slice_ r.toNat = x p
      | .v _, .slice _ => True) ∧
  (∀ (code : BitVec 12) (k : PIdx) (v : SReg) (s : State) (c : Cx), runs (.pwr code k v) s = some c →
    (code ≠ 6 → exec (.pwr code k v) s = .next (c.retire (c.s.privWrite code.toNat (c.pidx k) (c.sAct v)) 0)) ∧
    (code = 6 → ∃ t, exec (.pwr code k v) s = .next t ∧ sameElsewhere c.s t c.r ∧
      (∀ sl ∈ c.sls, (t.gang c.r).slimOf sl = c.g.sreg sl v.toNat) ∧ (∀ sl, sl ∉ c.sls → (t.gang c.r).slimOf sl = c.g.slimOf sl) ∧
      { t.gang c.r with slim := c.g.slim } = { c.g.issuedAt s.tick with run := some (c.stepped c.g c.sp 0) })) ∧
  (∀ (s : State) (core code k : Nat) (x : W64),
    let t := s.privWrite code k x
    (privHas code k = false → t = s) ∧
    (privHas code k = true → code ∈ plainRegs →
      t.privRead core code k = (privKept code x).getD (s.privRead core code k) ∧
      (∀ core' code' k', code' ≠ code ∨ k' ≠ k ∧ code < 0x38 ∧ code ≠ 9 → t.privRead core' code' k' = s.privRead core' code' k') ∧
      (∀ j, j ≠ k → t.ctx j = s.ctx j ∧ t.core j = s.core j) ∧
      { t with ctxs := s.ctxs, cores := s.cores, pwrlim := s.pwrlim, srcid := s.srcid, tsrc := s.tsrc, fguard := s.fguard,
               fstall := s.fstall, ntmo := s.ntmo, ctmo := s.ctmo } = s) ∧
    (privHas code k = true →
      (code = 0x005 → exec (.ctxasgWrite k x) s = .next t) ∧ (code = 0x010 → exec (.energyCounterWrite k x) s = .next t) ∧
      (code = 0x030 → exec (.clkctlTargetWrite k x) s = .next t) ∧ (code = 0x032 → exec (.gatectlWrite k x) s = .next t)) ∧
    ∀ c12 : BitVec 12, c12.toNat = code → exec (.registerWrite (.priv c12 k) x) s = .next t) ∧
  (∀ (s : State) (k : Nat) (x : W64), k < 32 →
    let y := s.cluster k
    let rt := x.toNat % 4
    let fq := x.toNat / 2 ^ 8 % 2 ^ 8
    let slope := x.toNat / 2 ^ 32 % 2 ^ 8
    let good := (rt = 0 ∧ 22 ≤ fq ∧ fq ≤ 34) ∨ (rt = 1 ∧ 14 ≤ fq ∧ fq ≤ 26) ∨ (rt = 2 ∧ 8 ≤ fq ∧ fq ≤ 18)
    ∃ t, exec (.clkctlTargetWrite k x) s = .next t ∧ (∀ j, j ≠ k → t.cluster j = s.cluster j) ∧ { t with clusters := s.clusters } = s ∧
      (good → t.cluster k = { y with rt := rt, fq := fq, st := 0, busy := true, slope := (t.cluster k).slope }) ∧
      (¬good → t.cluster k = { y with st := if rt = 3 ∨ fq < 8 then 1 else 2, slope := (t.cluster k).slope }) ∧
      (t.cluster k).slope = if 2 ≤ slope ∧ slope ≤ 32 then slope else y.slope) ∧
  (∀ (s : State) (k : Nat) (x : W64), k < 32 →
    let y := s.cluster k
    let woken : Power := match y.pwr with
      | .intent _ => .powered
      | .gated => .waking s.now
      | p => p
    let z : Cluster := if x.getLsbD 0 then { y with gate := true } else { y with gate := false, pwr := woken }
    exec (.gatectlWrite k x) s = .next (s.setCluster k z)) ∧
  (∀ (s : State) (k : Nat) (x : W64), k < 64 →
    exec (.energyCounterWrite k x) s = .next (s.setCtx k { s.ctx k with ecnt := x, pj := [] })) ∧
  (∀ (s : State) (k : Nat) (x : W64), 1 ≤ k → k < 64 →
    (s.hasGroups k = true → exec (.ctxasgWrite k x) s = .next s) ∧
    (s.hasGroups k = false → ∃ t, exec (.ctxasgWrite k x) s = .next t ∧ (∀ j, j ≠ k → t.ctx j = s.ctx j) ∧
      (x.getLsbD 31 = true →
        t.ctx k = { imgbase := (s.ctx k).imgbase, imgsz := (s.ctx k).imgsz, ouasz := (s.ctx k).ouasz, out := (s.ctx k).out,
                    noticeen := (s.ctx k).noticeen, asg := true, part := x.toNat % 4, tabs := s.mem }) ∧
      (x.getLsbD 31 = false → t.ctx k = { s.ctx k with asg := false, part := x.toNat % 4 }) ∧
      (x.getLsbD 31 = false → ∀ y ∈ t.clusters, y.2.dep ≠ k) ∧ (x.getLsbD 31 = true → t.clusters = s.clusters) ∧
      { t with ctxs := s.ctxs, clusters := s.clusters } = s)) ∧
  (∀ (s : State) (k : Nat), k < 12 → (s.port k).fenced = false → ∃ t, exec (.portFence k) s = .next t ∧
    (t.port k).fenced = true ∧ (t.port k).inq = [] ∧ k ∉ t.orderedPorts ∧
    (∀ p ∈ (s.port k).inq, (p.src = s.srcid → (t.op p.ctx engNet p.num).st ≠ .running) ∧
      (p.src ≠ s.srcid → Flit.refusal p ∈ (t.port (Config.route p.src % 12)).msgs)) ∧
    (∀ j, j ≠ k → { t.port j with msgs := (s.port j).msgs } = s.port j) ∧ sameMem s t ∧
    { t with ports := s.ports, ctxs := s.ctxs, gangs := s.gangs } = s) ∧
  (∀ (s : State) (k : Nat), k < 12 → (s.port k).fenced = true →
    exec (.portReadmit k) s = .next (s.setPort k
      { s.port k with fenced := false, wm := s.boundM, wmAt := s.now, floorM := some s.boundM, stalled := false }))

/-- O52 (R301 to R306): `tlbgen` raises the generation, and every address translates by the tables from then on; `sqz` reads its record, each word
where its own address lies, and queues it on the core it names, `xpand` frees a grant, `imgsv` takes a context out and queues each of its cores,
`imgld` lets it come back; `digc` reads a task's or a gang's digest; `wfe` takes the event of its turn, or zeros, or waits and gives up. (That every
translation is by the tables of now or of the generation's start is the model's choice: log entry 4.) -/
def Obligations.FirmwareServices : Prop :=
  (∀ (d x : SReg) (s : State) (c : Cx), runs (.tlbgen d x) s = some c →
    let k := (c.sAct x).toNat % 64
    let n := (s.ctx k).gen + 1
    ∃ t, exec (.tlbgen d x) s = .next t ∧ (∀ sl ∈ c.sls, (t.gang c.r).sreg sl d.toNat = n) ∧ c.onlyWrites c.g (t.gang c.r) ∧
      sameGang (s.gang c.r) (t.gang c.r) ∧ t.ctx k = { s.ctx k with gen := n, tabs := s.mem } ∧ (∀ j, j ≠ k → t.ctx j = s.ctx j) ∧
      (∀ va, t.leaf k va = t.newLeaf k va) ∧ { t with gangs := s.gangs, ctxs := s.ctxs } = s) ∧
  (∀ (s : State) (k va : Nat), s.leaf k va = s.newLeaf k va ∨ s.leaf k va = s.genLeaf k va) ∧
  (∀ (a : SReg) (s : State) (c : Cx), runs (.sqz a) s = some c →
    let at_ := c.sAct a
    let read (k : Nat) : Access := { (blockRead c.sp.hist (at_ + BitVec.ofNat 64 (8 * k))).2 with bytes := 8 }
    let waiting (t : State) (w : Wait) : Prop := (∀ q, gkey q ≠ gkey c.r → t.gang q = s.gang q) ∧
      t.gang c.r = { c.g with last := s.tick, run := some { c.sp with wait := w } }
    (∀ id, c.sp.wait = .req id → c.puts (.sqz a) s 0 fun _ => True) ∧
    ((∀ id, c.sp.wait ≠ .req id) → at_.toNat % 8 ≠ 0 →
      exec (.sqz a) s = .next (s.raise c.r ⟨7, 0, c.sp.pc, at_, c.visMask, encode (.sqz a)⟩)) ∧
    (∀ k e, (∀ id, c.sp.wait ≠ .req id) → at_.toNat % 8 = 0 → k < 4 → (∀ j, j < k → ∃ p, c.s.place c.r (read j) = .ok p) →
      c.s.place c.r (read k) = .error e → exec (.sqz a) s = .next (s.endTaskOf c.r e (read k).addr)) ∧
    (∀ l : Nat → Loc, (∀ id, c.sp.wait ≠ .req id) → at_.toNat % 8 = 0 → (∀ k, k < 4 → c.s.place c.r (read k) = .ok (.mem (l k))) →
      (∀ k, k < 4 → ∀ b ∈ c.g.infl, ∀ y ∈ b.accs, y.done = true ∨ y.writes = false ∨ c.s.meets c.r (read k) y = false) →
      let w (k : Nat) : Nat := s.rdLoc (l k) 8
      let core := w 0 / 2 ^ 12 % 2 ^ 8
      let mask := w 0 / 2 ^ 20 % 2 ^ 4
      ∃ t q, exec (.sqz a) s = .next t ∧ t.core core = { s.core core with reqs := (s.core core).reqs ++ [q] } ∧
        (∀ j, j ≠ core → t.core j = s.core j) ∧ q.by_ = .sqz at_ c.grd.ctx ∧ q.id = s.uid ∧ q.at_ = s.tick ∧ q.cls = w 0 % 2 ^ 4 ∧
        q.nsl = w 0 / 2 ^ 32 ∧ q.nln = w 1 % 2 ^ 32 ∧ q.nscr = w 1 / 2 ^ 32 ∧ q.qmask = (if mask = 0 then 15 else mask) ∧
        (q.susp = true ↔ w 0 / 2 ^ 24 % 2 = 1) ∧ q.rpt.toNat = w 2 ∧
        (q.valid = true ↔ w 3 = 0 ∧ w 2 % 8 = 0 ∧ w 1 / 2 ^ 32 % 256 = 0 ∧ w 1 / 2 ^ 32 ≤ 786432 ∧ w 1 % 2 ^ 32 ≤ 8192 ∧ w 0 / 2 ^ 32 ≤ 32 ∧
          w 0 / 2 ^ 25 % 2 ^ 7 = 0 ∧ w 0 / 2 ^ 4 % 2 ^ 8 = 0 ∧ w 0 % 2 ^ 4 < 4 ∧ s.mode.hasDie c.grd.part (core / 64) = true) ∧
        waiting t (.req s.uid) ∧
        { t with gangs := s.gangs, cores := s.cores, uid := s.uid } = s)) ∧
  (∀ (a : SReg) (s : State) (c : Cx), runs (.xpand a) s = some c →
    let key := c.sAct a
    let waiting (t : State) (w : Wait) : Prop := (∀ q, gkey q ≠ gkey c.r → t.gang q = s.gang q) ∧
      t.gang c.r = { c.g with last := s.tick, run := some { c.sp with wait := w } }
    ((∃ id, c.sp.wait = .req id) ∨ (∀ k, k < 256 → ∀ g ∈ (s.core k).grants, g.key ≠ key) →
      c.puts (.xpand a) s 0 fun _ => True) ∧
    (∀ k, (∀ id, c.sp.wait ≠ .req id) → k < 256 → (∃ g ∈ (s.core k).grants, g.key = key) →
      (∀ j, j < k → ∀ g ∈ (s.core j).grants, g.key ≠ key) →
      ∃ t, exec (.xpand a) s = .next t ∧ (∀ g, g ∈ (t.core k).grants ↔ g ∈ (s.core k).grants ∧ g.key ≠ key) ∧
        { t.core k with grants := (s.core k).grants } =
          { s.core k with freed := true, freedAt := if (s.core k).freed then (s.core k).freedAt else s.tick } ∧
        (∀ j, j ≠ k → t.core j = s.core j) ∧ waiting t (.req (k + 1)) ∧
        (∀ g, { t.grid g with reqHold := (s.grid g).reqHold } = s.grid g) ∧
        { t with gangs := s.gangs, cores := s.cores, grids := s.grids } = s)) ∧
  (∀ (d x : SReg) (s : State) (c : Cx), runs (.imgsv d x) s = some c →
    let k := (c.sAct x).toNat % 64
    let waiting (t : State) (w : Wait) : Prop := (∀ q, gkey q ≠ gkey c.r → t.gang q = s.gang q) ∧
      t.gang c.r = { c.g with last := s.tick, run := some { c.sp with wait := w } }
    let mine (y : Nat × Group) : Bool := y.2.st.placed && (s.grid y.2.grid).ctx == k
    (∀ id, c.sp.wait = .req id → c.puts (.imgsv d x) s 0 fun g => ∀ sl ∈ c.sls,
      g.sreg sl d.toNat = BitVec.ofNat 64 (Sparse.get 0 (s.ctx k).saves id)) ∧
    ((∀ id, c.sp.wait ≠ .req id) →
      (k = 0 ∨ (s.ctx k).asg = false ∨ (s.ctx k).out = true → c.puts (.imgsv d x) s 0 fun g => ∀ sl ∈ c.sls, g.sreg sl d.toNat = 0) ∧
      (k ≠ 0 → (s.ctx k).asg = true → (s.ctx k).out = false → ∃ t, exec (.imgsv d x) s = .next t ∧
        t.ctx k = { s.ctx k with out := true } ∧ (∀ j, j ≠ k → t.ctx j = s.ctx j) ∧
        (∀ n, t.core n = { s.core n with reqs := (s.core n).reqs ++
          (if s.groups.any (fun y => mine y && y.2.core == n) then [{ id := s.uid, by_ := .save k, at_ := s.tick }] else []) }) ∧
        waiting t (.req s.uid) ∧
        { t with gangs := s.gangs, cores := s.cores, ctxs := s.ctxs, uid := s.uid } = s))) ∧
  (∀ (d x : SReg) (s : State) (c : Cx), runs (.imgld d x) s = some c →
    let k := (c.sAct x).toNat % 64
    let mine (y : Nat × Group) : Bool := y.2.st == .saved && (s.grid y.2.grid).ctx == k
    ((s.ctx k).out = false → c.puts (.imgld d x) s 0 fun g => ∀ sl ∈ c.sls, g.sreg sl d.toNat = 0) ∧
    ((s.ctx k).out = true → ∃ t, exec (.imgld d x) s = .next t ∧
      (∀ sl ∈ c.sls, (t.gang c.r).sreg sl d.toNat = BitVec.ofNat 64 (s.groups.filter mine).length) ∧ c.onlyWrites c.g (t.gang c.r) ∧
      sameGang (s.gang c.r) (t.gang c.r) ∧ t.ctx k = { s.ctx k with out := false } ∧ (∀ j, j ≠ k → t.ctx j = s.ctx j) ∧
      (∀ n, t.group n = { s.group n with queuedLd := (s.group n).queuedLd || s.groups.any fun y => mine y && y.1 == n }) ∧
      (∀ y ∈ s.groups, mine y = true → ∀ n, n / 64 = y.2.core / 64 → (t.core n).freed = true) ∧
      { t with gangs := s.gangs, groups := s.groups, cores := s.cores, grids := s.grids, ctxs := s.ctxs } = s)) ∧
  (∀ (d a : SReg) (s : State) (c : Cx), runs (.digcTask d a) s = some c → d.toNat ≤ 62 →
    let gives (x : W64) (b : W64) : Prop := c.puts (.digcTask d a) s 0 fun g => ∀ sl ∈ c.sls, g.sreg sl d.toNat = x ∧
      g.sreg sl (d.toNat + 1) = b
    (∀ g, s.gridFrom c.grd.part (c.sAct a) = some g → g.st = .retired → g.det = true → gives g.tdig 1) ∧
    ((∀ g, s.gridFrom c.grd.part (c.sAct a) = some g → g.st ≠ .retired ∨ g.det = false) → gives 0 0)) ∧
  (∀ (s : State) (part : Nat) (a : W64) (g : Grid), s.gridFrom part a = some g →
    (∃ k, (k, g) ∈ s.grids) ∧ g.part = part ∧ g.daddr = a ∧ g.st ≠ .refused ∧
    ∀ x ∈ s.grids, x.2.part = part → x.2.daddr = a → x.2.st ≠ .refused → x.2.acc ≤ g.acc) ∧
  (∀ (d a b : SReg) (s : State) (c : Cx), runs (.digcGang d a b) s = some c → d.toNat ≤ 62 →
    let gives (x : W64) (m : W64) : Prop := c.puts (.digcGang d a b) s 0 fun g => ∀ sl ∈ c.sls, g.sreg sl d.toNat = x ∧
      g.sreg sl (d.toNat + 1) = m
    let n := (c.sAct b).toNat % 2 ^ 40
    let live (k : Nat) (y : Nat × Group) : Prop := y ∈ s.groups ∧ y.2.grid = k ∧ y.2.st ≠ .absent ∧ y.2.st ≠ .ended ∧
      y.2.lin = n / (s.grid k).gangs
    (∀ k y, s.gridNo c.grd.part (c.sAct a) = some k → (s.grid k).det = true → live k y → (∀ z, live k z → z = y) →
      gives (s.gang ⟨y.1, n % (s.grid k).gangs⟩).dig 1) ∧
    ((∀ k, s.gridNo c.grd.part (c.sAct a) = some k → (s.grid k).det = false ∨ ∀ y, ¬live k y) → gives 0 0)) ∧
  (∀ (d t : SReg) (s : State) (c : Cx), runs (.wfe d t) s = some c → d.toNat ≤ 61 →
    let out (g : Gang) (e : FwEvent) : Prop := ∀ sl ∈ c.sls, g.sreg sl d.toNat = e.w0 ∧ g.sreg sl (d.toNat + 1) = e.w1 ∧
      g.sreg sl (d.toNat + 2) = e.w2
    (c.sp.wait = .finished → c.puts (.wfe d t) s 0 fun g => out g ⟨0, 0, 0⟩) ∧
    (∀ e, c.sp.wait ≠ .finished → s.events[c.wfeRank]? = some e → ∃ u, exec (.wfe d t) s = .next u ∧ out (u.gang c.r) e ∧
      c.onlyWrites c.g (u.gang c.r) ∧
      u.events = s.events.eraseIdx c.wfeRank ++ (if s.dropped = 0 then [] else [⟨0xFF, BitVec.ofNat 64 s.dropped, 0⟩]) ∧
      u.dropped = 0 ∧ { u with gangs := s.gangs, events := s.events, dropped := s.dropped } = s) ∧
    (c.sp.wait ≠ .finished → s.events.length ≤ c.wfeRank →
      (c.sAct t = 0 → c.puts (.wfe d t) s 0 fun g => out g ⟨0, 0, 0⟩) ∧
      (c.sAct t ≠ 0 → exec (.wfe d t) s = .next (s.setGang c.r { c.g with last := s.tick, run := some { c.sp with
        wait := .deadline s.tick (if c.sAct t = BitVec.allOnes 64 then 0 else s.now + (c.sAct t).toNat) } })))) ∧
  (∀ (s : State) (r : GangRef), ∃ t, exec (.wfeTimeout r) s = .next t ∧ sameElsewhere s t r ∧
    (∀ x, (s.gang r).run = some x →
      (∀ since u, x.wait = .deadline since u → u ≠ 0 → u ≤ s.now → (t.gang r).run = some { x with wait := .finished }) ∧
      ((∀ since u, x.wait = .deadline since u → u = 0 ∨ s.now < u) → (t.gang r).run = some x)) ∧
    { t.gang r with run := (s.gang r).run, pend := (s.gang r).pend } = s.gang r)

/-! ### The squeeze controller -/

/-- O53 (R260, R261, R263 to R266, R269 to R277, R364, R365): the scheduler's request goes to the core that lacks least; a core takes its requests
in order, decides levels by R263 and reports; a fold writes what it picks, and what was written to since once more, and then takes effect whole;
folds, suspensions and expansions change levels, resources, counters and the image, and never a register; a group comes back with what the image
holds; an image write that fails leaves the levels and is reported. (The model's choices: log entries 91, 95, 100, 101, 102, 123 and 136.) -/
def Obligations.SqueezeController : Prop :=
  (∀ (s : State) (grid k lin : Nat),
    let d := s.grid grid
    let may (j : Nat) : Prop := j < 256 ∧ s.mode.hasDie d.part (j / 64) = true ∧ (∀ p, s.pool = some p → p.ctx = d.ctx → p.core = j)
    let key (j : Nat) : Nat × Nat × Nat := ((s.shortfall j d).sl, (s.shortfall j d).ln, (s.shortfall j d).scr)
    let x := s.shortfall k d
    d.req = none → d.reqHold = false → s.waitingGroup d = some lin → (∀ j, may j → s.fits j d = false) →
    may k → s.victims k d.cls ≠ [] → (∀ j, may j → s.victims j d.cls ≠ [] → keyLt (key j) (key k) = false ∧ (j < k → keyLt (key k) (key j) = true)) →
    let q : Req := { id := s.uid, by_ := .sched grid, at_ := s.tick, cls := d.cls, nsl := x.sl, nln := x.ln, nscr := x.scr,
                     qmask := if x.qmask = 0 then 15 else x.qmask }
    exec (.squeezeRequest grid) s = .next ((({ s with uid := s.uid + 1 } : State).setCore k
      { s.core k with reqs := (s.core k).reqs ++ [q] }).setGrid grid { d with req := some s.uid })) ∧
  (∀ (s : State) (core : Nat) (r : Req),
    let c := s.core core
    let key (q : Req) : Nat × Nat × Nat := (q.at_, q.cls, match q.by_ with
      | .sqz .. => 1
      | _ => 0)
    let rest := c.reqs.filter fun q => q.id != r.id
    c.taken = none → r ∈ c.reqs → (∀ q ∈ c.reqs, q = r ∨ keyLt (key r) (key q) = true) →
    (c.freed = true → c.freedAt ≤ r.at_ → exec (.requestTaken core) s = .next s) ∧
    (c.freed = false ∨ r.at_ < c.freedAt →
      (∀ a ctx, r.by_ = .sqz a ctx → r.valid = false ∨ s.grantClash core r = true →
        let s1 := s.setCore core { c with reqs := rest, grants := c.grants.filter fun g =>
          !(g.slices.isEmpty && g.lines == [0, 0, 0, 0] && g.scr == 0) }
        exec (.requestTaken core) s = .next ([(0, 3), (1, 0), (2, 0), (3, 0)].foldl
          (fun (s : State) (x : Nat × Nat) => s.vaWrite ctx ((r.rpt.toNat + 8 * x.1) % 2 ^ 64) 8 x.2) s1)) ∧
      (r.valid = true → s.grantClash core r = false →
        let gs : List Grant := match r.by_ with
          | .sqz a _ => c.grants ++ [{ key := a }]
          | _ => c.grants
        exec (.requestTaken core) s =
          .next ((s.setCore core { c with reqs := rest, taken := some (s.planFor core r), grants := gs }).settleReq core)))) ∧
  (∀ (s : State) (core : Nat) (t : Taken), (s.core core).taken = some t →
    let opened (p : Plan) : Prop := p.done = false ∧ (s.group p.group).st.placed = true ∧ (s.group p.group).core = core
    let kept := { s.core core with taken := none, grants := (s.core core).grants.filter fun g =>
      !(g.slices.isEmpty && g.lines == [0, 0, 0, 0] && g.scr == 0) }
    let nov := t.nov || t.plans.any fun p => !p.done
    let lacks : Nat × Nat × Nat := (t.req.nsl - t.gsl, t.req.nln - t.gln, t.req.nscr - t.gscr)
    let st := if lacks = (0, 0, 0) then 0 else if (t.gsl, t.gln, t.gscr) = (0, 0, 0) then 2 else 1
    let word (k : Nat) : Nat := match k with
      | 0 => st + 2 ^ 8 * flag (st != 0 && t.flr) + 2 ^ 9 * flag (st != 0 && nov) + 2 ^ 10 * flag (st != 0 && t.img) + 2 ^ 16 * t.nvic +
          2 ^ 32 * t.gsl
      | 1 => t.gln + 2 ^ 32 * t.gscr
      | 2 => lacks.1 + 2 ^ 32 * lacks.2.1
      | _ => lacks.2.2
    exec (.requestTaken core) s = .next (s.settleReq core) ∧ ((∃ p ∈ t.plans, opened p) → s.settleReq core = s) ∧
    ((∀ p ∈ t.plans, ¬opened p) → t.req.valid = true →
      (∀ a ctx, t.req.by_ = .sqz a ctx → s.settleReq core = [0, 1, 2, 3].foldl
        (fun (s : State) k => s.vaWrite ctx ((t.req.rpt.toNat + 8 * k) % 2 ^ 64) 8 (word k)) (s.setCore core kept)) ∧
      (∀ grid, t.req.by_ = .sched grid → s.settleReq core =
        (s.setCore core kept).setGrid grid { s.grid grid with req := none, reqHold := st != 0 }) ∧
      (∀ ctx, t.req.by_ = .save ctx → s.settleReq core = s.setCore core kept))) ∧
  (∀ (c need got : Nat) (vs : List Vic),
    let r := lowerPass c need got vs
    let freed (n : Nat) : Nat := (((vs.zip r.1).take n).map fun x => x.1.amt x.1.lv - x.1.amt x.2.lv).sum
    r.1.length = vs.length ∧ r.2 = (need - freed vs.length, got + freed vs.length) ∧
    ∀ (i : Nat) (v v' : Vic), vs[i]? = some v → r.1[i]? = some v' →
      v' = if v.cls = c ∧ v.lv ≠ 0 ∧ freed i < need then { v with lv := v.lv - 1 } else v) ∧
  (∀ (cls need : Nat) (vs : List Vic),
    let pass (c : Nat) (x : List Vic × Nat × Nat) : List Vic × Nat × Nat := lowerPass c x.2.1 x.2.2 x.1
    let class_ (c : Nat) (x : List Vic × Nat × Nat) : List Vic × Nat × Nat := if cls < c then pass c (pass c (pass c (pass c x))) else x
    let r := class_ 1 (class_ 2 (class_ 3 (vs, need, 0)))
    lowerAll cls need vs = (r.1, r.2.1)) ∧
  (∀ (cls need : Nat) (vs : List Vic), (∀ v ∈ vs, v.lv ≤ 4 ∧ ∀ a b, a ≤ b → v.amt a ≤ v.amt b) →
    let r := lowerAll cls need vs
    r.1.length = vs.length ∧
    (∀ (i : Nat) (v v' : Vic), vs[i]? = some v → r.1[i]? = some v' → v' = { v with lv := v'.lv } ∧ v'.lv ≤ v.lv ∧ (v.cls ≤ cls → v'.lv = v.lv)) ∧
    r.2 = need - ((vs.zip r.1).map fun x => x.1.amt x.1.lv - x.1.amt x.2.lv).sum ∧
    (∀ (i j : Nat) (v v' w w' : Vic), vs[i]? = some v → r.1[i]? = some v' → vs[j]? = some w → r.1[j]? = some w' → v.cls ≤ 3 → w.cls ≤ 3 → v'.lv < v.lv →
      v.cls < w.cls → w'.lv = 0)) ∧
  (∀ (s : State) (core cls : Nat), ∃ l : List (Nat × Group), s.victims core cls = l.map Prod.fst ∧
    (∀ x, x ∈ l ↔ x ∈ s.groups ∧ x.2.st.placed = true ∧ x.2.core = core ∧ cls < (s.grid x.2.grid).cls ∧ (s.grid x.2.grid).ctx ≠ 0) ∧
    l.Pairwise fun x y => keyLt ((s.grid x.2.grid).cls, x.2.seq, x.2.lin) ((s.grid y.2.grid).cls, y.2.seq, y.2.lin) = false) ∧
  (∀ (s : State) (q : Req) (need : Nat × Nat × Nat) (vs : List Nat), vs.Nodup →
    let vic (lv : Nat × Nat × Nat → Nat) (amt : Nat → Nat → Nat) : List Vic := vs.map fun k =>
      { group := k, cls := (s.grid (s.group k).grid).cls, lv := lv (s.group k).levels, amt := amt k }
    let a := lowerAll q.cls need.1 (vic (·.1) fun k n => s.countedSlices k q.qmask n)
    let b := lowerAll q.cls need.2.1 (vic (·.2.1) fun k n => (s.grid (s.group k).grid).countedLines q.qmask n)
    let c := lowerAll q.cls need.2.2 (vic (·.2.2) fun k n => scratchAt (s.grid (s.group k).grid).scrBytes n)
    let lv (x : List Vic × Nat) (i : Nat) : Nat := (x.1[i]?.map Vic.lv).getD 0
    (s.lowered q need vs).2 = (a.2, b.2, c.2) ∧ ∀ i k, vs[i]? = some k → (s.lowered q need vs).1 k = (lv a i, lv b i, lv c i)) ∧
  (∀ (s : State) (core : Nat) (r : Req), (∀ ctx, r.by_ ≠ .save ctx) →
    let vs := s.victims core r.cls
    let f := s.lowered r (r.nsl, r.nln, r.nscr) vs
    (∀ p ∈ (s.planFor core r).plans, p.done = false ∧ p.picks = none ∧ p.group ∈ vs ∧
      (p.suspend = true → (s.grid (s.group p.group).grid).cls = 3)) ∧
    (∃ xs ys, (s.planFor core r).plans = xs ++ ys ∧ (∀ p ∈ xs, p.suspend = r.susp) ∧ ∀ p ∈ ys, p.suspend = !r.susp) ∧
    (r.susp = false → ((s.planFor core r).plans.filter fun p => !p.suspend) = (vs.filter fun k => f.1 k != (s.group k).levels).map fun k =>
      { group := k, lanes := (f.1 k).1, regs := (f.1 k).2.1, scr := (f.1 k).2.2 }) ∧
    (r.susp = false → f.2 = (0, 0, 0) → ∀ p ∈ (s.planFor core r).plans, p.suspend = false)) ∧
  (∀ (s : State) (k : Nat) (r : GangRef) (key : Nat) (f : Nat → Loc),
    let ctx := (s.grid (s.group r.group).grid).ctx
    let word (n : Nat) : W64 := zext64 ((s.gang r).vreg (4 * (key / 64) + n % 4) (4 * (key % 64) + n / 4))
    s.steady ctx (s.lineVa r key) 64 f →
    let t := s.writePick k (.line r key)
    storedAt s t 64 f (fun j => byteOf (word (j / 4)) (j % 4)) ∧ t.ctx ctx = { s.ctx ctx with linewr := (s.ctx ctx).linewr + 1 } ∧
    { t with mem := s.mem, hostMem := s.hostMem, spoiled := s.spoiled, hostWr := s.hostWr, ctxs := s.ctxs } = s) ∧
  (∀ (s : State) (k p : Nat) (f : Nat → Loc),
    let ctx := (s.grid (s.group k).grid).ctx
    s.steady ctx (s.scrVa k (256 * p)) 256 f →
    let t := s.writePick k (.page p)
    storedAt s t 256 f (fun j => Sparse.get 0 (s.group k).scr (256 * p + j)) ∧
    t.ctx ctx = { s.ctx ctx with scrwr := (s.ctx ctx).scrwr + 256 } ∧
    { t with mem := s.mem, hostMem := s.hostMem, spoiled := s.spoiled, hostWr := s.hostWr, ctxs := s.ctxs } = s) ∧
  (∀ (s : State) (ctx n : Nat) (a x : Nat → Nat) (f : Nat → Nat → Loc),
    (∀ i, i < n → ∀ u : State, u.ctxs = s.ctxs → u.mode = s.mode → u.tick = s.tick →
      (∀ h b, (∃ i j, i < n ∧ j < 8 ∧ f i j = ⟨h, b⟩) ∨ u.byteAt h b = s.byteAt h b) → ∀ j, j < 8 → u.xlate ctx true .write (a i + j) = .ok (f i j)) →
    (∀ i j, i < n → j < 8 → f i j = { f i 0 with key := (f i 0).key + j }) →
    (∀ i j i' j', i < n → j < 8 → i' < n → j' < 8 → f i j = f i' j' → i = i' ∧ j = j') →
    let t := s.imgWords ctx ((List.range n).map fun i => (a i, x i))
    storedAt s t (8 * n) (fun m => f (m / 8) (m % 8)) (fun m => byteOf (BitVec.ofNat 64 (x (m / 8))) (m % 8)) ∧
    { t with mem := s.mem, hostMem := s.hostMem, spoiled := s.spoiled, hostWr := s.hostWr } = s) ∧
  (∀ (s : State) (k : Nat) (x : Pick),
    let n := match x with
      | .line .. => 64
      | .page _ => 256
    s.pickBad k x = none ↔ ∀ j, j < n → s.imgWrites (s.grid (s.group k).grid).ctx (s.pickAddr k x + j) = true) ∧
  (∀ (s : State) (k qmask n : Nat),
    let cs := (List.range (s.grid (s.group k).grid).gangs).flatMap fun j => s.carried k j
    let key (x : Nat × Option Nat) : Nat × Nat × Nat := (flag !(qmask.testBit (quadOf x.1)), (x.2.map fun j => 1024 - j).getD 0, 31 - x.1)
    (cs.map Prod.fst).Nodup → (∀ x ∈ cs, x.1 < 32 ∧ ∀ j, x.2 = some j → j < 1024) →
    (s.released k qmask n).length = cs.length - n ∧ (s.released k qmask n).Nodup ∧ (∀ p ∈ s.released k qmask n, p ∈ cs.map Prod.fst) ∧
    ∀ x ∈ cs, ∀ y ∈ cs, x.1 ∈ s.released k qmask n → y.1 ∉ s.released k qmask n → keyLt (key x) (key y) = true) ∧
  (∀ (s : State) (k : Nat) (t : Taken) (p : Plan), s.planOf k = some (t, p) → p.suspend = false →
    let d := s.grid (s.group k).grid
    let core := (s.group k).core
    let l := s.foldList k p
    let again := s.foldAgain k l
    let wrote (u : State) (ps : List Pick) : Prop :=
      let pages := (ps.filter fun x => match x with
        | .page _ => true
        | .line .. => false).length
      u.mem = (s.writePicks k ps).mem ∧ u.hostMem = (s.writePicks k ps).hostMem ∧
      (u.ctx d.ctx).linewr = (s.ctx d.ctx).linewr + BitVec.ofNat 64 (ps.length - pages) ∧
      (u.ctx d.ctx).scrwr = (s.ctx d.ctx).scrwr + BitVec.ofNat 64 (256 * pages)
    (p.picks = none → l = (s.linePicks k p.regs ++ s.pagePicks k p.scr).map fun x => (x, none)) ∧
    (∀ x, x ∈ s.foldDue l ↔ (x, none) ∈ l ∧ s.pickPinned x = false) ∧
    (∀ x, x ∈ again ↔ ∃ at_, (x, some at_) ∈ l ∧ at_ < s.pickWr k x) ∧
    (∀ ps rest, (∃ x, (x, none) ∈ l) → s.foldDue l = ps ++ rest → (∀ x ∈ ps, s.pickBad k x = none) →
      (∀ x xs, rest = x :: xs → s.pickBad k x ≠ none) → ∃ u, exec (.fold k) s = .next u ∧ u.gangs = s.gangs ∧
      paysFor s u k t.req (ps ≠ []) ∧ wrote u ps ∧ (u.core core).taken = some { t with plans := planStep k (fun q =>
        { q with picks := some (l.map fun y => if y.1 ∈ ps then (y.1, some s.tick) else y) }) t.plans }) ∧
    ((∀ x, (x, none) ∉ l) → (∃ x ∈ again, s.pickPinned x = true ∨ s.pickBad k x ≠ none) → exec (.fold k) s = .next s) ∧
    ((∀ x, (x, none) ∉ l) → (∀ x ∈ again, s.pickPinned x = false ∧ s.pickBad k x = none) →
      let q := t.req.qmask
      let old := s.counted k q (s.group k).levels
      let new := s.counted k q (p.lanes, p.regs, p.scr)
      let gone := s.released k q (slicesAt d.slices p.lanes)
      ∃ v : State, exec (.fold k) s = .next (v.settleReq core) ∧ (v.group k).levels = (p.lanes, p.regs, p.scr) ∧
        (v.group k).epoch = (s.group k).epoch + 1 ∧ (v.group k).payer = s.payerOf t.req ∧ (∀ j, j ≠ k → v.group j = s.group j) ∧
        (∀ r, (v.gang r).v = (s.gang r).v ∧ (v.gang r).s = (s.gang r).s ∧ (v.gang r).p = (s.gang r).p) ∧
        (∀ j x, j < d.gangs → (x ∈ (v.gang ⟨k, j⟩).held ↔ x ∈ (s.gang ⟨k, j⟩).held ∧ x ∉ gone)) ∧
        (∀ r key at_, (Pick.line r key, at_) ∈ l → (v.gang r).isOut key = true) ∧ (v.ctx d.ctx).sqfold = (s.ctx d.ctx).sqfold + 1 ∧
        wrote v again ∧ (v.core core).taken = some { t.handled k with
          gsl := t.gsl + (old.1 - new.1), gln := t.gln + (old.2.1 - new.2.1), gscr := t.gscr + (old.2.2 - new.2.2),
          nvic := t.nvic + flag (t.untouched k) })) ∧
  (∀ (s : State) (k : Nat), let img := (s.group k).img.toNat
    let g := s.group k
    let d := s.grid g.grid
    let ws := s.floorWords k
    (ws.map Prod.fst).Nodup ∧
    (∀ i, i < 16 → (img + 16 * i, (g.bar i).phase.toNat + 2 ^ 32 * (g.bar i).mode) ∈ ws ∧
      (img + 16 * i + 8, (g.bar i).arr % 2 ^ 32 + 2 ^ 32 * (g.bar i).expct) ∈ ws) ∧
    (∀ i, i < 256 * d.quartets → (img + 256 + 8 * i,
      (Sparse.get (0 : W32) g.bs (2 * i)).toNat + 2 ^ 32 * (Sparse.get (0 : W32) g.bs (2 * i + 1)).toNat) ∈ ws) ∧
    ∀ j, j < d.gangs → let y := s.gang ⟨k, j⟩
      let a := img + d.gangOff j
      (∀ x, y.run = some x → (a + 0x140, x.pc.toNat) ∈ ws ∧ (a + 0x148, x.mask.toNat) ∈ ws) ∧
      (a + 0x150, y.fstatRead.toNat + 2 ^ 32 * (rlvlOf g (s.ntc ⟨k, j⟩)).toNat) ∈ ws ∧
      (∀ x, x ∈ y.inTable → ∃ i, i < y.inTable.length ∧ (i < 16 → (a + 16 * i, x.pc.toNat) ∈ ws ∧
        (a + 16 * i + 8, x.mask.toNat + 2 ^ 32 * flag (y.parked.any fun z => z.born == x.born)) ∈ ws)) ∧
      ∀ sl, sl < d.sl → let b := img + d.sliceOff (j * d.sl + sl)
        (∀ n, n < 64 → (b + 8 * n, (y.sreg sl n).toNat) ∈ ws) ∧
        ∃ w, (b + 512, w) ∈ ws ∧ w < 2 ^ 32 ∧ ∀ q n, q < 4 → n < 8 → w.testBit (8 * q + n) = y.preg (4 * sl + q) n) ∧
  (∀ (s : State) (core : Nat) (t : Taken) (p : Plan), s.nextSuspend core = some (t, p) →
    let k := p.group
    let d := s.grid (s.group k).grid
    let saving : Bool := match t.req.by_ with
      | .save _ => true
      | _ => false
    let can : Prop := s.quiet k = true ∧ (∀ x ∈ s.allPicks k, s.pickBad k x = none) ∧ ∀ w ∈ s.floorWords k, s.imgWrites d.ctx w.1 = true
    let at0 := if saving then s else s.setGroup k { s.group k with lanesLv := 0, regsLv := 0, scrLv := 0 }
    let written := (s.writePicks k (s.allPicks k)).imgWords d.ctx (at0.floorWords k)
    (¬can → exec (.suspension core) s = .next s) ∧
    (can → ∃ v : State, exec (.suspension core) s = .next (v.settleReq core) ∧ (v.group k).st = (if saving then .saved else .suspended) ∧
      (v.group k).levels = (if saving then (s.group k).levels else (0, 0, 0)) ∧ (v.group k).epoch = (s.group k).epoch ∧
      (∀ j, j < d.gangs → (v.gang ⟨k, j⟩).held = []) ∧ (∀ j, j ≠ k → v.group j = s.group j) ∧
      (∀ r, (v.gang r).v = (s.gang r).v ∧ (v.gang r).s = (s.gang r).s ∧ (v.gang r).p = (s.gang r).p) ∧
      (∀ r key, Pick.line r key ∈ s.allPicks k → (v.gang r).isOut key = true) ∧ v.mem = written.mem ∧ v.hostMem = written.hostMem ∧
      (v.ctx d.ctx).sqsusp = (s.ctx d.ctx).sqsusp + (if saving then 0 else 1) ∧
      (∀ id, Sparse.get 0 (v.ctx d.ctx).saves id = Sparse.get 0 (s.ctx d.ctx).saves id + (if saving ∧ id = t.req.id then 1 else 0)) ∧
      (∀ w l, w ∈ s.guarded k → v.xlate d.ctx true .write w.1 = .ok l → (k, l, w.1) ∈ v.watched))) ∧
  (∀ (s : State) (l m : Loc) (n x k a : Nat), (k, m, a) ∈ s.watched → m.host = l.host → m.key < l.key + n → l.key < m.key + 8 →
    (k, a) ∈ (s.wrLoc l n x).spoiled) ∧
  (∀ (s : State) (k : Nat), s.tampered k = none ↔ ∀ a, (k, a) ∉ s.spoiled) ∧
  (∀ (s : State) (k : Nat) (p : Plan),
    let l := s.foldList k p
    let at_ (x : Pick) : Option Nat × Option Pick := (s.pickBad k x, some x)
    (p.suspend = true → s.planWrites k p = (s.allPicks k).map at_ ++
      (s.floorWords k).map fun w => (if s.imgWrites (s.grid (s.group k).grid).ctx w.1 then none else some w.1, none)) ∧
    (p.suspend = false → (∃ x, (x, none) ∈ l) → s.planWrites k p = (s.foldDue l).map at_) ∧
    (p.suspend = false → (∀ x, (x, none) ∉ l) →
      s.planWrites k p = if (s.foldAgain k l).any s.pickPinned then [] else (s.foldAgain k l).map at_)) ∧
  (∀ (s : State) (k : Nat) (t : Taken) (p : Plan) (addr : W64) (pre post : List (Option Nat × Option Pick)) (x : Option Pick),
    s.planOf k = some (t, p) → (p.suspend = true → s.quiet k = true) → s.planWrites k p = pre ++ (some addr.toNat, x) :: post →
    let d := s.grid (s.group k).grid
    let written := (s.writePicks k (pre.filterMap Prod.snd)).imgWords d.ctx
      ((s.floorOut k t).take (pre.filter fun w => w.2.isNone).length)
    (∀ w ∈ pre, w.1 = none) → s.events.length < 1024 →
    ∃ v : State, exec (.imageWriteFault k addr) s = .next (v.settleReq (s.group k).core) ∧ v.gangs = s.gangs ∧ paysFor s v k t.req (pre ≠ []) ∧
      v.mem = written.mem ∧ ((Sparse.get {} s.err d.part : ErrRing).set = false → v.hostMem = written.hostMem) ∧
      (v.core (s.group k).core).taken = some { t.dropped k with img := true } ∧
      (v.ctx d.ctx).imgflt = (s.ctx d.ctx).imgflt + 1 ∧
      v.events = s.events ++ [⟨eventWord 0x04 0 d.ctx 0 d.part, BitVec.ofNat 64 (s.group k).lin, addr⟩]) ∧
  (∀ (s : State) (core : Nat), s.givesOut core = true ↔ (s.core core).freed = true ∧ (s.core core).taken = none ∧
    (∀ q ∈ (s.core core).reqs, (s.core core).freedAt ≤ q.at_) ∧
    ∀ j, j < core → j / 64 = core / 64 → (s.core j).freed = true → (s.core j).freedAt ≠ (s.core core).freedAt) ∧
  (∀ (s : State) (core : Nat) (key : Nat × Nat × Nat) (c : Cand), s.nextCand core = some (key, c) →
    (key, c) ∈ s.cands core ∧ ∀ x ∈ s.cands core, keyLt x.1 key = false) ∧
  (∀ (s : State) (core k : Nat) (key : Nat × Nat × Nat),
    let mine (g : Group) : Prop := (k, g) ∈ s.groups ∧ key = ((s.grid g.grid).cls, 0, g.seq)
    ((key, Cand.raise k) ∈ s.cands core ↔ ∃ g, mine g ∧ g.st.placed = true ∧ g.core = core ∧ s.raised core k true (4, 4, 4) ≠ g.levels) ∧
    ((key, Cand.resume k) ∈ s.cands core ↔ ∃ g, mine g ∧ (g.st = .suspended ∨ (g.st = .saved ∧ g.queuedLd = true)) ∧
      (s.ctx (s.grid g.grid).ctx).out = false ∧ g.core / 64 = core / 64 ∧ ((s.grid g.grid).redo = true → g.core = core) ∧
      s.floorFits core k = true) ∧
    ((key, Cand.launch) ∈ s.cands core ↔ ∃ n d, (n, d) ∈ s.grids ∧ s.mode.hasDie d.part (core / 64) = true ∧ s.waitingGroup d ≠ none ∧
      s.fits core d = true ∧ s.slotExists d = true ∧ key = (d.cls, 1, d.acc))) ∧
  (∀ (s : State) (k core : Nat) (key : Nat × Nat × Nat), s.givesOut core = true → s.nextCand core = some (key, .resume k) →
    let d := s.grid (s.group k).grid
    let img := (s.group k).img.toNat
    d.gangs ≤ 32 → (∀ x ∈ (s.group k).floor, x.1 < d.gangs) →
    (∀ a, s.unreadable k = some a → exec (.resumption k core) s = .next (s.endTaskOf ⟨k, 0⟩ 0x03 a)) ∧
    (∀ a, s.unreadable k = none → s.tampered k = some a → exec (.resumption k core) s = .next (s.endTaskOf ⟨k, 0⟩ 0x09 a)) ∧
    (s.unreadable k = none → s.tampered k = none → ∃ u, exec (.resumption k core) s = .next u ∧ (u.group k).core = core ∧
        (u.group k).st = (match (s.cluster (core / 8)).pwr with
          | .powered | .intent _ => .resident
          | _ => .landing) ∧
        ((s.group k).st ≠ .saved → (u.group k).levels = (s.group k).levels) ∧
        ((s.group k).st = .saved → (u.group k).levels = s.raised core k false (s.group k).levels) ∧
        (∀ j x, j < d.gangs → x ∈ (u.gang ⟨k, j⟩).held → x ∈ s.freeSlices d.ctx core) ∧
        (∀ j sl, j < d.gangs → sl < d.sl →
          let a := img + d.sliceOff (j * d.sl + sl)
          (∀ n, n < 64 → (u.gang ⟨k, j⟩).sreg sl n = BitVec.ofNat 64 (s.imgRead d.ctx (a + 8 * n) 8)) ∧
          ∀ q n, q < 4 → n < 8 → (u.gang ⟨k, j⟩).preg (4 * sl + q) n = (s.imgRead d.ctx (a + 512) 4).testBit (8 * q + n)) ∧
        (∀ j x, j < d.gangs → (s.gang ⟨k, j⟩).run = some x → (u.gang ⟨k, j⟩).run = some { x with
          pc := BitVec.ofNat 64 (s.imgRead d.ctx (img + d.gangOff j + 0x140) 8),
          mask := BitVec.ofNat 32 (s.imgRead d.ctx (img + d.gangOff j + 0x148) 4) &&& (s.gang ⟨k, j⟩).live }) ∧
        (∀ n, n < 512 * d.quartets → Sparse.get 0 (u.group k).bs n = BitVec.ofNat 32 (s.imgRead d.ctx (img + 256 + 4 * n) 4)) ∧
        (∀ j key n, (j, key) ∈ (s.group k).floor → n < 16 → (u.gang ⟨k, j⟩).isOut key = false ∧
          (u.gang ⟨k, j⟩).vreg (4 * (key / 64) + n % 4) (4 * (key % 64) + n / 4) =
            BitVec.ofNat 32 (s.imgRead d.ctx (s.lineVa ⟨k, j⟩ key + 4 * n) 4)) ∧
        (∀ j, j ≠ k → u.group j = s.group j) ∧ (∀ q, q.group ≠ k → q.gang < 32 → u.gang q = s.gang q) ∧ sameMem s u)) ∧
  (∀ (s : State) (core : Nat), s.givesOut core = true →
    (s.nextCand core = none → exec (.expansion core) s = .next (s.setCore core { s.core core with freed := false })) ∧
    (∀ key k, s.nextCand core = some (key, .raise k) →
      let d := s.grid (s.group k).grid
      ∃ u, exec (.expansion core) s = .next u ∧ (u.group k).levels = s.raised core k true (4, 4, 4) ∧
        (u.group k).epoch = (s.group k).epoch + 1 ∧ (u.ctx d.ctx).sqexp = (s.ctx d.ctx).sqexp + 1 ∧
        (s.group k).lanesLv ≤ (u.group k).lanesLv ∧ (s.group k).regsLv ≤ (u.group k).regsLv ∧ (s.group k).scrLv ≤ (u.group k).scrLv ∧
        (∀ j, j ≠ k → u.group j = s.group j) ∧
        (∀ r, (u.gang r).v = (s.gang r).v ∧ (u.gang r).s = (s.gang r).s ∧ (u.gang r).p = (s.gang r).p) ∧ sameMem s u))

/-! ### The front end -/

/-- O54 (R174, R175, R185, R187 to R189, R241, R254, R289, R293, R323 to R334, R351, R366): the end of a task, of a group and of a grid, nodes of
graphs among them; acceptance and refusal of a descriptor, for the first of R324's reasons; residency; what a dispatched group's gangs start
with; the survivor area; deliveries, releases, decisions and skips in a graph, its tile-mapped edges and its end; what ends the waits of proof
runs and restrikes, and firmware's re-execution. (The model's choices: launches of a context that is not the partition's wait, log entry 146; what
of a launch with a misaligned indirect extent is checked, and against which leases, log entry 109; stack areas, log entry 139; how a task is run
again, log entry 138.) -/
def Obligations.FrontEnd : Prop :=
  (∀ (s : State) (code : Byte) (r : GangRef) (fa : W64),
    let grid := (s.group r.group).grid
    let d := s.grid grid
    let live (st : GroupSt) : Prop := st = .resident ∨ st = .suspended ∨ st = .saved ∨ st = .landing
    grid < s.uid → 1 ≤ code.toNat → code.toNat ≤ 9 → live (s.group r.group).st → Sparse.has s.grids grid = true → d.st = .waiting ∨ d.st = .running →
    ∃ t, exec (.taskEnd code r fa) s = .next t ∧ (t.grid grid).st = .failed ∧ (t.grid grid).code = code.toNat ∧ (t.grid grid).dred = [] ∧
      (∀ k, Sparse.has s.groups k = true → (s.group k).grid = grid → live (s.group k).st → (t.group k).st = .ended) ∧
      (s.events.length < 1024 → (∀ q, ∀ e ∈ (s.gang q).infl, ∀ a ∈ e.accs, a.done = true ∨ a.space ≠ .scr) →
        t.events = s.events ++ [⟨eventWord 0x01 code.toNat d.ctx r.gang d.part, BitVec.ofNat 64 (s.group r.group).lin, fa⟩])) ∧
  (∀ (s : State) (u : Sub) (pre post : List Sub), s.subs = pre ++ u :: post → (∀ x ∈ pre, s.subReady x = false) → s.subReady u = true →
    u.node = none →
    let s1 := { s with subs := pre ++ post }
    let d := s1.gridOf u
    let code := s1.refusal u d
    let noted (x : State) (k : Nat) (st : GridSt) (w : Nat) : State :=
      let y := (x.vaWrite u.ctx (u.daddr.toNat + 0x38) 8 w).vaWrite u.ctx (u.daddr.toNat + 0x40) 8 0
      match u.handle with
      | none => y
      | some h => y.setCtx u.ctx { y.ctx u.ctx with children := Sparse.put (y.ctx u.ctx).children h (k, st) }
    (code = 0 → exec .launchAcceptance s = .next (noted (({ s1 with uid := s.uid + 1 } : State).setGrid s.uid
      { d with st := .waiting, acc := s.uid, elems := d.symElems.getD [{}] }) s.uid .waiting 1)) ∧
    (code ≠ 0 → exec .launchAcceptance s = .next (noted s1 0 .refused (4 + 256 * code)))) ∧
  (∀ (s : State) (u : Sub),
    let g := s.gridOf u
    let own := dfield g.d 0x008 19 16
    let idiv := dfield g.d 0x020 47 32
    let v := s.vaRead u.ctx (g.d.getD 5 0).toNat 4
    g.d = s.vaWords u.ctx u.daddr.toNat 80 ∧ (u.parent = none → g.cls = own ∧ (g.det = true ↔ dfield g.d 0x008 22 22 = 1)) ∧
    (∀ p, u.parent = some p → g.cls = max own (s.grid p).cls ∧ (g.det = true ↔ dfield g.d 0x008 22 22 = 1 ∨ (s.grid p).det = true)) ∧
    (dfield g.d 0x008 23 23 = 0 → g.nx = dfield g.d 0x018 31 0) ∧
    (dfield g.d 0x008 23 23 = 1 → idiv ≠ 0 → v ≤ g.nx * idiv ∧ g.nx * idiv < v + idiv)) ∧
  (∀ (s : State) (u : Sub) (d : Grid),
    let code := s.refusal u d
    let leases := s.subLeases d.d u.parent
    let odd : Bool := dfield d.d 0x008 23 23 == 1 && (d.d.getD 5 0).toNat % 4 != 0
    let why (n : Nat) : Prop := match n with
      | 1 => 3 < dfield d.d 0x008 19 16
      | 2 => fieldsBad d.d = true
      | 3 => 32 < (d.gangs + 3) / 4 * d.w
      | 4 => odd = false ∧ 2 ^ 40 < d.count
      | 5 => d.symBad !odd = true
      | 6 => (d.fid = 1 ∨ d.fid = 2) ∧ ∃ l ∈ leases, ∃ a ∈ pagesOf l.1 l.2, ∃ x, s.genLeaf d.ctx a = some x ∧ x.d = true
      | 7 => 10 < d.depth
      | 8 => d.cls < u.floor
      | 9 => d.survArea ≠ 0 ∧ (d.survArea % 64 ≠ 0 ∨ ∀ l ∈ leases, ¬(l.1 ≤ d.survArea ∧ d.survArea + d.survBytes ≤ l.1 + l.2))
      | 10 => ∃ l ∈ dLeases d.d ++ [((s.ctx d.ctx).imgbase.toNat, (s.ctx d.ctx).imgsz.toNat)], ∃ a ∈ pagesOf l.1 l.2,
          s.genLeaf d.ctx a = none
      | 11 => (d.d.getD 0 0).toNat % 32 ≠ 0
      | 12 => odd = true
      | 13 => s.produces d = true ∧ s.bmpPlace d = none
      | _ => False
    code ≤ 13 ∧ (code = 0 ↔ ∀ n, ¬why n) ∧ ∀ n, n ≠ 0 → (code = n ↔ why n ∧ ∀ m, m < n → ¬why m)) ∧
  (∀ (s : State) (k : Nat) (stks : List (Nat × Nat)),
    let d := s.grid k
    let pages := (dLeases d.d ++ [((s.ctx d.ctx).imgbase.toNat, (s.ctx d.ctx).imgsz.toNat)] ++ stks).flatMap fun l => pagesOf l.1 l.2
    let run := exec (.residencyComplete ⟨k, stks⟩) s
    (d.st ≠ .waiting ∨ s.ownsCtx d.part d.ctx = false ∨ s.stksGood d stks = false → run = .next s) ∧
    (d.st = .waiting → s.ownsCtx d.part d.ctx = true → s.stksGood d stks = true →
      ((∀ a ∈ pages, ∃ l, s.genLeaf d.ctx a = some l ∧ l.m = false) →
        run = .next (((s.setGrid k { d with st := .running, stks := stks }).groupsDone k).vaWrite d.ctx (d.daddr.toNat + 0x38) 8 2)) ∧
      ((∀ a ∈ pages, ∃ l, s.genLeaf d.ctx a = some l) → (∃ a ∈ pages, ∃ l, s.genLeaf d.ctx a = some l ∧ l.m = true) → run = .next s) ∧
      ((∃ a ∈ pages, s.genLeaf d.ctx a = none) → d.node = none → d.handle = none →
        run = .next (((s.setGrid k { d with st := .refused, code := 0x0A }).vaWrite d.ctx (d.daddr.toNat + 0x38) 8
          (4 + 256 * 0x0A)).vaWrite d.ctx (d.daddr.toNat + 0x40) 8 0)))) ∧
  (∀ (s : State) (k : Nat),
    let d := s.grid k
    (d.ended.length ≠ d.count → s.groupsDone k = s) ∧
    (d.ended.length = d.count → s.groupsDone k = s.writeMap d)) ∧
  (∀ (s : State) (d : Grid) (l : List (Nat × List Nat)),
    let q := l.flatMap fun x => x.2.map fun i => x.1 * (d.gangs * d.w) + i
    (d.survArea = 0 → s.writeMap d = s) ∧ (d.survArea ≠ 0 → l.Perm d.surv → l.Pairwise (fun x y => x.1 < y.1) →
      s.writeMap d = (q.zipIdx.foldl (fun s x => s.vaWrite d.ctx (d.survArea + 64 + 4 * x.2) 4 x.1) s).vaWrite d.ctx d.survArea 4 q.length)) ∧
  (∀ (s : State) (d : Grid) (lin : Nat) (qs : List Nat),
    let a := d.survArea + 64 + 4 * (d.count * d.gangs * d.w) + lin * ((4 + 4 * (d.gangs * d.w) + 63) / 64 * 64)
    (d.survArea = 0 → s.writeSeg d lin qs = s) ∧ (d.survArea ≠ 0 → s.writeSeg d lin qs =
      (qs.zipIdx.foldl (fun s x => s.vaWrite d.ctx (a + 4 + 4 * x.2) 4 x.1) s).vaWrite d.ctx a 4 qs.length)) ∧
  (∀ (s : State) (d : Grid), (d.node = none ∨ d.redo = true → ∀ ls, s.setBmp d ls = s) ∧ s.setBmp d [] = s ∧
    (∀ r off n l ls, d.node = some r → d.redo = false → ((s.graph r.graph).node r.node).bmp = some (off, n) →
      let g := s.graph r.graph
      let a := (g.t.getD 2 0).toNat + off + l / 8
      s.setBmp d (l :: ls) = (s.vaWrite g.ctx a 1 (s.vaRead g.ctx a 1 ||| 2 ^ (l % 8))).setBmp d ls) ∧
    (∀ r ls, d.node = some r → ((s.graph r.graph).node r.node).bmp = none → s.setBmp d ls = s)) ∧
  (∀ (s : State) (k core lin : Nat) (slices : List (List Nat)) (img stk : W64),
    let d := s.grid k
    let p := (s.cluster (core / 8)).pwr
    let up : Bool := match p with
      | .powered | .intent _ => true
      | _ => false
    let grp : Group := { st := if up then .resident else .landing, grid := k, lin := lin, core := core, seq := s.uid, img := img, stk := stk }
    s.waitingGroup d = some lin → s.mayDispatch k core slices img.toNat stk.toNat = true →
    ∃ t, exec (.groupDispatch k core slices img stk) s = .next t ∧ t.group s.uid = grp ∧ (∀ j, j ≠ s.uid → t.group j = s.group j) ∧
      t.grid k = { d with next := lin + 1, dispatched := d.dispatched + 1 } ∧ slices.length = d.gangs ∧
      (∀ q, q.group ≠ s.uid → q.gang < 32 → t.gang q = s.gang q) ∧
      (∀ j hs, slices[j]? = some hs →
        let g := t.gang ⟨s.uid, j⟩
        (∃ b, g.run = some { pc := d.entry, mask := BitVec.ofNat 32 (2 ^ d.w - 1), born := b }) ∧
        g.live = BitVec.ofNat 32 (2 ^ d.w - 1) ∧ g.held = hs ∧ (∀ L n, g.vreg L n = 0) ∧ (∀ L n, g.preg L n = false) ∧ g.fstat = 0 ∧
        (∀ sl n, sl < d.sl → n < 8 → g.sreg sl n = d.sinit n) ∧ (∀ sl n, sl < d.sl → 8 ≤ n → n < 62 → g.sreg sl n = 0) ∧
        (∀ sl, sl < d.sl → g.sreg sl 62 = BitVec.ofNat 64 (stk.toNat + (j * d.sl + sl + 1) * d.stack) ∧
          g.sreg sl 63 = BitVec.ofNat 64 (saveSlot grp d j) ∧
          g.slimOf sl = BitVec.ofNat 64 (stk.toNat + (j * d.sl + sl + 1) * d.stack - d.stack)) ∧
        g.dig = (if d.det then BitVec.ofNat 64 (lin * d.gangs + j + 1) else 0)) ∧
      (t.cluster (core / 8)).pwr = (if up then .powered else if p = .gated then .waking s.now else p) ∧
      { t with gangs := s.gangs, groups := s.groups, grids := s.grids, clusters := s.clusters, uid := s.uid } = s) ∧
  (∀ (s : State) (k : Nat),
    let grp := s.group k
    let d := s.grid grp.grid
    let x := grp.grid
    let orbit := d.orbit grp.lin
    let marked (j : Nat) : W32 := (s.gang ⟨k, j⟩).trigWait.foldl (fun m y => m ||| y.1) (s.gang ⟨k, j⟩).trig
    let segs := orbit.foldl (fun s l => s.writeSeg d l (if l = grp.lin then grp.survivors else [])) s
    s.groupOver k = true → ∃ v : State, exec (.groupEnd k) s = .next (((v.earlyCheck x d.issued).groupsDone x).nodeCheck x) ∧
      (v.group k).st = .ended ∧ (∀ j, j ≠ k → v.group j = s.group j) ∧
      (∀ j, j < 32 → v.gang ⟨k, j⟩ = {}) ∧ (∀ q, q.group ≠ k → q.gang < 32 → v.gang q = s.gang q) ∧
      { v.grid x with reqHold := d.reqHold } = { d with
        ended := d.ended ++ orbit, surv := d.surv ++ [(grp.lin, grp.survivors)],
        marked := d.marked + ((List.range d.gangs).map fun j => (lanesOf (marked j)).length).sum,
        tdig := d.tdig + (if d.det then ((List.range d.gangs).map fun j =>
          (s.gang ⟨k, j⟩).dig ^^^ BitVec.ofNat 64 ((grp.lin * d.gangs + j) * 0x9E3779B97F4A7C15)).sum else 0) } ∧
      (grp.st.placed = true → (v.core grp.core).freed = true) ∧ sameMem (segs.setBmp d orbit) v) ∧
  (∀ (s : State) (k issued : Nat),
    let d := s.grid k
    let fires := d.edge = false ∧ d.st = .running ∧ issued ≤ d.dispatched ∧ issued * d.gangs * d.w ≤ s.marksOf k
    (¬fires → s.earlyCheck k issued = s) ∧
    (fires → (d.node = none ∨ d.redo = true → s.earlyCheck k issued = s.setGrid k { d with edge := true }) ∧
      ∀ r, d.node = some r → d.redo = false → s.earlyCheck k issued = (s.setGrid k { d with edge := true }).graphStep r.graph
        (((nodeEdges (s.graph r.graph).t r.node).filter fun e => e.kind == 2).map fun e => (e.dest, true)))) ∧
  (∀ (s : State) (k : Nat), ((s.grid k).node = none → s.nodeCheck k = s) ∧
    ∀ r, (s.grid k).node = some r → s.nodeCheck k = s.graphCheck r.graph) ∧
  (∀ (s : State) (k : Nat),
    let d := s.grid k
    let applied := ((s.applyDeferred d.dred).descState d.ctx d.daddr 3 0).vaWrite d.ctx (d.daddr.toNat + 0x40) 8 (if d.det then d.tdig.toNat else 0)
    let done (v : State) : Prop := v.grid k = { d with st := .retired, dred := [] } ∧ v.gangs = s.gangs ∧ v.groups = s.groups ∧
      (∀ h, d.handle = some h → Sparse.get (0, GridSt.waiting) (v.ctx d.ctx).children h = (k, .retired)) ∧
      (∀ p, d.parent = some p → d.det = true → (s.grid p).det = true → (v.grid p).tdig = (s.grid p).tdig + d.tdig) ∧
      (d.parent = none → sameMem applied v)
    s.gridOver k = true → d.parent ≠ some k →
      (d.node = none → ∃ v, exec (.completionEvent k) s = .next v ∧ done v) ∧
      (∀ r, d.node = some r → d.redo = false → ∃ v : State, done v ∧
        exec (.completionEvent k) s = .next (v.nodeDone r.graph r.node (if d.det then some d.tdig else none) d.edge)) ∧
      (∀ r, d.node = some r → d.redo = true → ∃ v : State, done v ∧
        exec (.completionEvent k) s = .next (v.redone r.graph r.node (some d.tdig)))) ∧
  (∀ (s : State) (gi k : Nat) (early : Bool),
    let g := s.graph gi
    let edges := ((nodeEdges g.t k).filter fun e => e.kind == 0 || (e.kind == 2 && !early)).map fun e => (e.dest, true)
    let finish (t : State) : State := ((t.setNode gi k { t.node gi k with held := false }).nodeSt gi k 2).graphStep gi edges
    (s.nodeDone gi k none early = finish s) ∧
    (∀ dig, g.ls = .off → s.nodeDone gi k (some dig) early = finish s) ∧
    (∀ dig, g.ls = .recording → (g.node k).reserved = true → s.nodeDone gi k (some dig) early = finish (s.logEntry gi 1 k dig)) ∧
    (∀ dig, g.ls = .checking → (s.findEntry g.ctx 1 k g.log0 segFuel = .none → s.nodeDone gi k (some dig) early = finish s) ∧
      (s.findEntry g.ctx 1 k g.log0 segFuel = .value dig → s.nodeDone gi k (some dig) early = finish (s.logCount gi 0x20)) ∧
      (∀ x, s.findEntry g.ctx 1 k g.log0 segFuel = .value x → x ≠ dig → ∃ t, s.nodeDone gi k (some dig) early = t ∧
        (t.graph gi).ls = .halted ∧ (t.graph gi).bad = some (k, false) ∧ (∀ j, (t.node gi j) = s.node gi j)))) ∧
  (∀ (s : State) (gi f k : Nat) (dn : Bool) (rest : List (Nat × Bool)),
    let g := s.graph gi
    let n := g.node k
    let n1 : Node := { n with cnt := n.cnt - 1, gotDone := n.gotDone || dn }
    let s1 := s.setNode gi k n1
    (g.failed = true → s.deliver gi (f + 1) ((k, dn) :: rest) = s) ∧
    (g.failed = false → s.deliver gi (f + 1) ((k, dn) :: rest) =
      if n1.cnt ≠ 0 then s1.deliver gi f rest
      else if n1.gotDone then (s1.release gi k).1.deliver gi f (rest ++ (s1.release gi k).2)
      else (s1.skip gi k).1.deliver gi f (rest ++ (s1.skip gi k).2))) ∧
  (∀ (s : State) (gi k : Nat),
    let g := s.graph gi
    let all (b : Bool) : List (Nat × Bool) := (nodeEdges g.t k).map fun e => (e.dest, b)
    let skipped := s.nodeSt gi k 3
    let held := s.setNode gi k { g.node k with held := true }
    let free := s.setNode gi k { g.node k with held := false }
    let sub : Sub := { daddr := BitVec.ofNat 64 (nodeAddr g.t k), ctx := g.ctx, part := g.part, node := some ⟨gi, k⟩, queue := g.queue,
                       floor := g.floor }
    let submitted (t : State) : State := { t with subs := t.subs ++ [sub] }
    let det : Bool := bitsOf (s.vaRead g.ctx (nodeAddr g.t k + 8) 8) 22 22 = 1
    let plain : Prop := g.ls = .off ∨ g.ls = .truncated
    s.skip gi k = (if nodeKind g.t k = 0 then skipped.descState g.ctx (BitVec.ofNat 64 (nodeAddr g.t k)) 6 0 else skipped, all false) ∧
    (g.stopped = true → s.release gi k = (held, [])) ∧
    (g.stopped = false → nodeKind g.t k = 2 → s.release gi k = (free.nodeSt gi k 2, all true)) ∧
    (g.stopped = false → nodeKind g.t k = 1 → s.mayDecide gi k = false → s.release gi k = (held, [])) ∧
    (g.stopped = false → nodeKind g.t k = 1 → s.mayDecide gi k = true →
      (plain → s.release gi k = s.decided gi k (s.choice gi k)) ∧
      (g.ls = .recording → (s.reserve gi k).1 = false → s.release gi k = ((s.reserve gi k).2.hold gi k, [])) ∧
      (g.ls = .recording → (s.reserve gi k).1 = true → s.release gi k =
        let t := (s.reserve gi k).2
        (t.logEntry gi 2 k (BitVec.ofNat 64 (t.choice gi k))).decided gi k (t.choice gi k)) ∧
      (g.ls = .checking → (s.findEntry g.ctx 2 k g.log0 segFuel = .none → s.release gi k = s.decided gi k (s.choice gi k)) ∧
        (∀ x, s.findEntry g.ctx 2 k g.log0 segFuel = .value x → x.toNat = s.choice gi k →
          s.release gi k = (s.logCount gi 0x20).decided gi k x.toNat) ∧
        (∀ x, s.findEntry g.ctx 2 k g.log0 segFuel = .value x → x.toNat ≠ s.choice gi k →
          (s.release gi k).2 = [] ∧ ((s.release gi k).1.graph gi).ls = .halted ∧ ((s.release gi k).1.graph gi).bad = some (k, true)))) ∧
    (g.stopped = false → nodeKind g.t k = 0 →
      (plain ∨ det = false → s.release gi k = (submitted free, [])) ∧
      (g.ls = .recording → det = true → (s.reserve gi k).1 = false → s.release gi k = ((s.reserve gi k).2.hold gi k, [])) ∧
      (g.ls = .recording → det = true → (s.reserve gi k).1 = true → ∃ t, s.release gi k = (t, []) ∧ t.subs = s.subs ++ [sub]) ∧
      (g.ls = .checking → det = true → s.snapSize gi k ≤ g.snapN → s.release gi k = match s.snapshot gi k with
        | none => (held, [])
        | some t => (submitted (t.setNode gi k { t.node gi k with held := false }), []))) ∧
    (∀ set, (s.decided gi k set).2 = (nodeEdges g.t k).map (fun e => (e.dest, e.set == set)) ∧
      (s.decided gi k set).1 = (s.setNode gi k { g.node k with decided := true, set := set, held := false }).nodeSt gi k 2) ∧
    (∀ v, (g.node k).posted = some v ∨ ((g.node k).posted = none ∧ v = s.vaRead g.ctx (nodeAddr g.t k) 4) →
      s.choice gi k = if nodeDm g.t k = 0 then (if v = 0 then 0 else 1) else min v (nodeNs g.t k))) ∧
  (∀ (s : State) (d : Grid) (lin : Nat),
    (d.node = none → s.boxReady d lin = true) ∧
    (∀ r, d.node = some r →
      let g := s.graph r.graph
      let feeds (p : Nat) : Prop := p < g.nn ∧ ∃ e ∈ nodeEdges g.t p, e.dest = r.node ∧ e.kind = 1
      s.boxReady d lin = true ↔ ∀ p, feeds p → (g.node p).st ≠ 4 ∧ (g.node p).st ≠ 5 ∧ s.boxDone g r.node p d lin = true) ∧
    (s.waitingGroup d = some lin ↔ d.st = .running ∧ (s.ctx d.ctx).out = false ∧ s.ownsCtx d.part d.ctx = true ∧
      d.nextIssued (d.count - d.next) d.next = some lin ∧ s.boxReady d lin = true)) ∧
  (∀ (s : State) (g : Graph) (k p : Nat) (d : Grid) (lin x : Nat), (g.node p).st ≠ 3 → (g.node p).grid = some x →
    let P := s.grid x
    let tw := nodeWord g.t k 0x20
    let lo (m : Nat) : Int := bitsOf tw (15 + 4 * m) (12 + 4 * m) * (d.coord lin).getD m 0 +
      (BitVec.ofNat 16 (bitsOf (nodeWord g.t k 0x28) (15 + 16 * m) (16 * m))).toInt
    let boxed (m c : Nat) : Prop := c < P.extent m ∧ lo m ≤ c ∧ (c : Int) < lo m + bitsOf tw (31 + 8 * m) (24 + 8 * m) + 1
    (∀ m, m < 3 → 0 < P.extent m) →
    (s.boxDone g k p d lin = true ↔ ∀ a b c, boxed 0 a → boxed 1 b → boxed 2 c → P.linear [a, b, c] ∈ P.ended)) ∧
  (∀ (s : State) (gi : Nat),
    let g := s.graph gi
    let st (k : Nat) : Nat := (g.node k).st
    let bad (k : Nat) : Prop := k < g.nn ∧ (st k = 4 ∨ st k = 5)
    let ends (gst fnode : Nat) : State := (s.graphSt gi gst fnode).setGraph gi { g with finished := true }
    let quits : Prop := g.finished = false ∧ ∀ k, k < g.nn → s.nodeRuns g k = false
    (¬quits → s.graphCheck gi = s) ∧ (quits →
      (∀ c, g.ls = .ended c → s.graphCheck gi = ends 5 0) ∧
      ((∀ c, g.ls ≠ .ended c) →
        (∀ k, g.failed = true → bad k → (∀ j, bad j → k ≤ j) →
          s.graphCheck gi = if g.ls = .checking then (ends 3 k).logState gi 3 else ends 3 k) ∧
        (g.failed = false → (∀ k, k < g.nn → st k = 2 ∨ st k = 3) → s.graphCheck gi =
          if g.ls = .recording then (ends 2 0).logState gi 1 else if g.ls = .checking then (ends 2 0).logState gi 3 else ends 2 0) ∧
        (g.failed = false → (∃ k, k < g.nn ∧ st k ≠ 2 ∧ st k ≠ 3) → s.graphCheck gi = s)))) ∧
  (∀ (s : State) (g : Graph) (k : Nat), ((g.node k).st ≠ 1 → s.nodeRuns g k = false) ∧
    ((g.node k).st = 1 → s.dispatchedAll g k = true ∨ (∃ x, (g.node k).grid = some x ∧ s.gridLive x = true) → s.nodeRuns g k = true) ∧
    (0 < g.nn → s.dispatchedAll g k = false → (∀ x, (g.node k).grid = some x → s.gridLive x = false) → g.starved k = true →
      s.nodeRuns g k = false)) ∧
  (∀ (s : State) (gi k st : Nat), st = 4 ∨ st = 5 → ∃ v : State, s.nodeFail gi k st = v.graphCheck gi ∧ (v.node gi k).st = st ∧
    (v.graph gi).failed = true ∧ ∀ u, u ∈ v.subs ↔ u ∈ s.subs ∧ ∀ r, u.node = some r → r.graph ≠ gi) ∧
  (∀ (s : State) (ds es : List DRed), ds.Perm es → (ds.map DRed.key).Nodup → s.applyDeferred ds = s.applyDeferred es) ∧
  (∀ (s : State) (k since : Nat),
    let g := s.graph k
    let limit := since + 1000 * ((g.t.getD 0 0).toNat / 2 ^ 16 % 2 ^ 16)
    g.ls = .waiting since →
    (s.now < limit → exec (.patienceExpiry k) s = .next s) ∧ (limit ≤ s.now → s.pollLog k = s) ∧
    (limit ≤ s.now → (∀ j, j < g.nn → (g.node j).held = false) → (∃ j, j < g.nn ∧ s.nodeRuns g j = true) →
      exec (.patienceExpiry k) s = .next ((s.setGraph k { g with ls := .truncated }).vaWrite g.ctx g.log0.toNat 1 2))) ∧
  (∀ (s : State) (gi k x : Nat) (ok : Bool),
    let g := s.graph gi
    let d := (s.grid x).again s.uid
    g.ls = .halted → g.bad = some (k, false) → g.redo = none → (s.node gi k).grid = some x →
    ∃ t, exec (.serialReExecutionResult gi ok) s = .next t ∧ (t.graph gi).redo = some { todo := [], grid := some s.uid } ∧ t.grid s.uid = d ∧
      sameMem ((s.restore gi k).descState d.ctx d.daddr 1 0) t ∧ (∀ j, j ≠ s.uid → t.grid j = s.grid j) ∧ t.gangs = s.gangs) ∧
  (∀ (s : State) (gi k : Nat) (dec : Bool) (x : Redo),
    let g := s.graph gi
    g.ls = .halted → g.bad = some (k, dec) → g.redo = some x →
    (∀ ok, x.grid ≠ none ∨ x.todo ≠ [] ∨ ok ≠ s.agrees gi k dec x.got → exec (.serialReExecutionResult gi ok) s = .next s) ∧
    (x.grid = none → x.todo = [] → s.agrees gi k dec x.got = false → (∀ j, (g.node j).digest = none) →
      ∃ t, exec (.serialReExecutionResult gi false) s = .next t ∧ (t.graph gi).ls = .ended 4 ∧ (dec = false → (t.node gi k).st = 2) ∧
        (∀ j, j ≠ k → (t.node gi j).st = (s.node gi j).st) ∧ t.gangs = s.gangs ∧ t.grids = s.grids) ∧
    (∀ y, x.grid = none → x.todo = [] → s.agrees gi k dec x.got = true → dec = false → (s.node gi k).grid = some y →
      let s1 := (s.setGraph gi { g with redo := none }).logCount gi 0x30
      let s2 := s1.setGraph gi { s1.graph gi with ls := .checking, bad := none }
      exec (.serialReExecutionResult gi true) s = .next ((s2.nodeDone gi k none (s2.grid y).edge).lateNodes gi)) ∧
    (s.agrees gi k dec x.got = true ↔ (∀ p ∈ x.got, ∃ v, p.2 = some v ∧ ∀ w, s.logged gi 1 p.1 = some w → v = w) ∧
      (dec = true → s.logged gi 2 k = some (BitVec.ofNat 64 (s.choice gi k)))))

/-! ### The fabric -/

/-- O55 (R191, R193 to R197): the time protocol's messages and corrections, holdover; ordered packets join their port's queue, or are refused
at a fenced port and when late; the lowest stamp leaves when it is the bound, after an ordered collective that precedes it; beacons never go
back, and one a quarter of the range or more away is ignored; stalls are reported to the port's partition, and widths change within 2 µs, in
which the port sends nothing. (On which ports TSYNC goes: log entry 104; the partition of the holdover's event: 103; half a nanosecond of an
offset: 42.) -/
def Obligations.FabricTimeAndOrder : Prop :=
  (∀ s : State, s.tsrc ≠ 15 → s.tsyncTx + 100000 ≤ s.now → ∃ t, exec .tsync s = .next t ∧ t.tsyncTx = s.now ∧
    (∀ k, t.port k = { s.port k with msgs := (s.port k).msgs ++ (if k < 12 ∧ k ≠ s.tsrc.toNat then [.tsync s.ftime] else []) }) ∧
    { t with ports := s.ports, tsyncTx := s.tsyncTx } = s) ∧
  (∀ (s : State) (t1 : BitVec 48), s.tsrc.toNat < 12 →
    let p := s.port s.tsrc.toNat
    exec (.tsyncReceive t1) s = .next (({ s with tsync := ⟨t1, s.ftime, s.ftime, true⟩, tsyncAt := s.now,
                                                  holdover := false } : State).setPort s.tsrc.toNat { p with msgs := p.msgs ++ [.treq s.ftime] })) ∧
  (∀ (s : State) (k : Nat) (t3 : BitVec 48), s.tsrc ≠ 15 → k ≠ s.tsrc.toNat → k < 12 →
    exec (.treq k t3) s = .next (s.setPort k { s.port k with msgs := (s.port k).msgs ++ [.tresp s.ftime] })) ∧
  (∀ (s : State) (t4 : BitVec 48), s.tsync.open_ = true →
    let twice := (s.tsync.t2 - s.tsync.t1).toInt - (t4 - s.tsync.t3).toInt
    ∃ t off, exec (.tresp t4) s = .next t ∧ 2 * off - 1 ≤ twice ∧ twice ≤ 2 * off + 1 ∧ t.tsync.open_ = false ∧
      (off < -1000 → t.ftime = s.ftime + BitVec.ofInt 48 (-off) ∧ t.slew = 0) ∧ (-1000 ≤ off → t.ftime = s.ftime ∧ t.slew = off) ∧ t.slewRem = 0 ∧
      { t with tsync := s.tsync, ftime := s.ftime, slew := s.slew, slewRem := s.slewRem } = s) ∧
  (∀ (s : State) (n : Nat),
    let t := s.elapse n
    let k := slewStep s.slew (s.slewRem + n)
    t.now = s.now + n ∧ t.ftime = s.ftime + BitVec.ofInt 48 (n - k) ∧ t.slew = s.slew - k ∧
    (t.slew ≠ 0 → t.slewRem + 2000 * k.natAbs = s.slewRem + n) ∧ (t.slew = 0 → t.slewRem = 0) ∧
    (∀ x : Packet, x ∈ t.outbox ↔ x ∈ s.outbox ∧ (x.pkg = s.srcid ∨ s.now < (s.port (Config.route x.pkg % 12)).quietTo)) ∧
    ∀ j, j < 12 → (s.now < (s.port j).quietTo → t.port j = s.port j) ∧
      ((s.port j).quietTo ≤ s.now → (t.port j).outq = [] ∧ (t.port j).msgs = [])) ∧
  (∀ (x : Int) (n : Nat),
    let k := slewStep x n
    let most : Int := (n / 2000 : Nat)
    k ≤ most ∧ -most ≤ k ∧ (-most ≤ x → x ≤ most → k = x) ∧ 0 ≤ k * x) ∧
  (∀ s : State, s.tsrc.toNat < 12 → s.holdover = false → s.tsyncAt + 10000000 ≤ s.now → s.events.length < 1024 →
    ∃ t, exec .holdover s = .next t ∧ t.holdover = true ∧ t.events = s.events ++ [⟨eventWord 0x06 0 0 0 0, 0, s.ftime.setWidth 64⟩] ∧
      { t with holdover := s.holdover, events := s.events, err := s.err, hostMem := s.hostMem } = s) ∧
  (∀ (s : State) (k : Nat) (pkt : Packet) (w : Stamp), k < 12 →
    let p := s.port k
    let age := (s.ftime - pkt.stamp.t).toNat
    let late := (2 ^ 46 ≤ age ∧ age ≤ 2 ^ 47 - 1) ∨ ∃ m, p.floorM = some m ∧ Stamp.before pkt.stamp m = true
    let q : Port := if Stamp.before p.wm w then { p with wm := w, wmAt := s.now, stalled := false } else { p with wm := w }
    (p.fenced = false → ¬late → exec (.orderedPacketArrival k pkt w) s = .next (s.setPort k { q with inq := q.inq ++ [pkt] })) ∧
    (p.fenced = true ∨ late → pkt.src ≠ s.srcid → exec (.orderedPacketArrival k pkt w) s =
      .next ((s.setPort k q).send pkt.src (.refusal pkt))) ∧
    (p.fenced = true ∨ late → pkt.src = s.srcid → exec (.orderedPacketArrival k pkt w) s =
      .next ((s.setPort k q).failOp pkt.ctx engNet pkt.num))) ∧
  (∀ (s : State) (k : Nat) (w : Stamp), k < 12 →
    let p := s.port k
    let behind := (s.ftime - w.t).toNat
    let ahead := (w.t - s.ftime).toNat
    let q : Port := if Stamp.before p.wm w then { p with wm := w, wmAt := s.now, stalled := false } else { p with wm := w }
    (behind < 2 ^ 46 ∨ ahead < 2 ^ 46 → exec (.beacon k w) s = .next (s.setPort k q)) ∧
    (2 ^ 46 ≤ behind → 2 ^ 46 ≤ ahead → exec (.beacon k w) s = .next s)) ∧
  (∀ (s : State) (k : Nat), k < 12 →
    let p := s.port k
    let guard : Stamp := ⟨s.ftime - s.fguard.setWidth 48, 0, 0⟩
    let bound := match p.outq with
      | x :: _ => if Stamp.before s.boundM x.stamp then s.boundM else x.stamp
      | [] => s.boundM
    let low := if Stamp.before (s.outMark k) guard then s.outMark k else guard
    let w := if Stamp.before low p.outW then p.outW else low
    (s.outMark k = if Stamp.before bound p.outW then p.outW else bound) ∧
    (p.enabled = true → p.sentAt + 1000 ≤ s.now → p.quietTo ≤ s.now →
      exec (.beaconTimer k) s = .next (s.setPort k { p with outW := w, sentAt := s.now, msgs := p.msgs ++ [.beacon w] })) ∧
    (p.enabled = false ∨ s.now < p.sentAt + 1000 ∨ s.now < p.quietTo → exec (.beaconTimer k) s = .next s)) ∧
  (∀ s : State, s.collBefore s.boundM = true → exec .orderedDelivery s = .next s) ∧
  (∀ (s : State) (x : Packet) (rest : List Packet), s.collBefore s.boundM = false → s.localq = x :: rest → x.stamp = s.boundM →
    exec .orderedDelivery s = .next (({ s with localq := rest } : State).delivered x)) ∧
  (∀ (s : State) (k : Nat) (x : Packet) (rest : List Packet), s.collBefore s.boundM = false → (∀ y, s.localq.head? = some y → y.stamp ≠ s.boundM) →
    k ∈ s.orderedPorts → (s.port k).inq = x :: rest → x.stamp = s.boundM →
    (∀ j ∈ s.orderedPorts, j < k → ∀ y, (s.port j).inq.head? = some y → y.stamp ≠ s.boundM) →
    exec .orderedDelivery s = .next ((s.setPort k { s.port k with inq := rest }).delivered x)) ∧
  (∀ (s : State) (x : Packet), x.pkg ≠ s.srcid →
    let k := Config.route x.pkg % 12
    s.delivered x = ({ s with lastDel := some x.stamp } : State).setPort k { s.port k with outq := (s.port k).outq ++ [x] }) ∧
  (∀ (s : State) (x : Packet), x.pkg = s.srcid → s.delivered x = ({ s with lastDel := some x.stamp } : State).arrive x) ∧
  (∀ (s : State) (k : Nat), k ∈ s.orderedPorts → (s.port k).stalled = false → (s.port k).wmAt + 1000 * s.fstall.toNat ≤ s.now →
    s.events.length < 1024 → ∃ t, exec (.watermarkStall k) s = .next t ∧ t.port k = { s.port k with stalled := true } ∧
      t.events = s.events ++ [⟨eventWord 0x05 k 0 0 (s.mode.partOf (k / 3)), 0, (s.port k).wm.t.setWidth 64⟩] ∧ (∀ j, j ≠ k → t.port j = s.port j) ∧
      { t with ports := s.ports, events := s.events, err := s.err, hostMem := s.hostMem } = s) ∧
  (∀ (m : PartMode) (k : Nat), k < 12 → m.hasDie (m.partOf (k / 3)) (k / 3) = true) ∧
  (∀ (s : State) (k n : Nat), k < 12 → n = 1 ∨ n = 2 ∨ n = 4 → n ≠ (s.port k).lanes →
    ∃ q, exec (.laneShedding k n) s = .next (s.setPort k { s.port k with lanes := n, quietTo := q }) ∧ s.now ≤ q ∧ q ≤ s.now + 2000)

/-- O56 (R175, R199, R201): a packet at its target is applied whole, or rejected with nothing written; its source learns which, and its
operation completes or fails; time limits fail what still runs; a collective completes when every member has contributed, those of this
package by operations of their own, and fails for all when one differs, or does not come in time. (What members elsewhere send comes with the
event: log entry 133; when an ordered one may complete: 98; which operations belong together: 148; the exported window: 89.) -/
def Obligations.NetworkEnds : Prop :=
  (∀ (s : State) (pkt : Packet), pkt.pkg = s.srcid → pkt.src ≠ s.srcid →
    let part := pkt.part.toNat
    let answer (t : State) (m : Flit) : Prop :=
      let k := Config.route pkt.src % 12
      t.port k = { s.port k with msgs := (s.port k).msgs ++ [m] } ∧ (∀ j, j ≠ k → t.port j = s.port j) ∧
      { t with ports := s.ports, mem := s.mem, hostMem := s.hostMem, spoiled := s.spoiled, hostWr := s.hostWr } = s
    (s.applyPkt pkt = none → ∃ t, exec (.unorderedPacketArrival pkt) s = .next t ∧ answer t (.refusal pkt) ∧ sameMem s t) ∧
    (∀ a ty l, pkt.op = .get a ty → s.remoteLoc part .read a.toNat (ty.width / 8) = some l → ∃ t,
      exec (.unorderedPacketArrival pkt) s = .next t ∧ sameMem s t ∧
      answer t (.ack pkt.src pkt.ctx pkt.num (BitVec.ofNat 64 (s.rdLoc l (ty.width / 8))))) ∧
    (∀ op ty a c e l, pkt.op = .atom op ty a c e →
      s.remoteLoc part (if op = .cas then .read else .write) a.toNat (ty.width / 8) = some l →
      let old : W64 := BitVec.ofNat 64 (s.rdLoc l (ty.width / 8))
      (amoNew op ty old c e = none →
        ∃ t, exec (.unorderedPacketArrival pkt) s = .next t ∧ answer t (.ack pkt.src pkt.ctx pkt.num old) ∧ sameMem s t) ∧
      (∀ v m, amoNew op ty old c e = some v → s.remoteLoc part .write a.toNat (ty.width / 8) = some m →
        ∃ t, exec (.unorderedPacketArrival pkt) s = .next t ∧ answer t (.ack pkt.src pkt.ctx pkt.num old) ∧
          stored s t m (ty.width / 8) (fun i => some (byteOf v i)))) ∧
    (∀ x, s.applyPkt pkt = some x → ∃ t,
      exec (.unorderedPacketArrival pkt) s = .next t ∧ answer t (.ack pkt.src pkt.ctx pkt.num x.2) ∧ sameMem x.1 t)) ∧
  (∀ (s : State) (pkt : Packet) (a : W64) (b : Byte) (bs : List Byte),
    let rest : Packet := { pkt with op := .put (a + 1) bs }
    (pkt.op = .put a [] → s.applyPkt pkt = some (s, 0)) ∧
    (pkt.op = .put a (b :: bs) → a.toNat + 1 < 2 ^ 64 →
      (s.remoteLoc pkt.part.toNat .write a.toNat 1 = none → s.applyPkt pkt = none) ∧
      (∀ l, s.remoteLoc pkt.part.toNat .write a.toNat 1 = some l → ∃ u, stored s u l 1 (fun _ => some b) ∧
        { u with mem := s.mem, hostMem := s.hostMem, spoiled := s.spoiled, hostWr := s.hostWr } = s ∧ s.applyPkt pkt = u.applyPkt rest))) ∧
  (∀ (s : State) (pkt : Packet), pkt.pkg ≠ s.srcid →
    exec (.unorderedPacketArrival pkt) s = .next (if pkt.src = s.srcid then s else { s with outbox := s.outbox ++ [pkt] })) ∧
  (∀ (s : State) (pkt : Packet), pkt.pkg = s.srcid → pkt.src = s.srcid → pkt ∈ s.outbox →
    exec (.unorderedPacketArrival pkt) s = .next (({ s with outbox := s.outbox.erase pkt } : State).arrive pkt)) ∧
  (∀ (s : State) (part a : Nat) (need : Need) (n : Nat) (l : Loc), s.remoteLoc part need a n = some l →
    let w := Sparse.get (0, 0, 0) s.exported part; w.2.1 ≤ a ∧ a + n ≤ w.2.1 + w.2.2 ∧ s.mode.hasPart part = true ∧
      w.1 ≠ 0 ∧ (s.ctx w.1).asg = true ∧ (s.ctx w.1).part = part ∧ s.xlate w.1 false need a = .ok l ∧
      ∃ m, s.xlate w.1 false need (a + n - 1) = .ok m) ∧
  (∀ (s : State) (ctx num : Nat) (v : W64),
    let o := s.op ctx engNet num
    let final (t : State) (st : OpSt) : Prop := (t.op ctx engNet num).st = st ∧ sameMem s t ∧
      (∀ eng n, okey eng n ≠ okey engNet num → t.op ctx eng n = s.op ctx eng n) ∧ (∀ k, k ≠ ctx → t.ctx k = s.ctx k) ∧
      { t with ctxs := s.ctxs, gangs := s.gangs } = s ∧ ∀ r, (t.gang r).v = (s.gang r).v ∧ (t.gang r).s = (s.gang r).s
    o.st = .running →
    (o.pos ≠ 0 → tgtPkg o.kind.target ≠ s.srcid → ∃ t, exec (.packetRefusal ctx num) s = .next t ∧ final t .failed) ∧
    (o.sent = true → tgtPkg o.kind.target ≠ s.srcid → ∃ t, exec (.networkAck ctx num v) s = .next t ∧ final t .completed ∧
      (t.op ctx engNet num).val = v) ∧
    (o.t0 + 1000 * s.ntmo.toNat ≤ s.now → ∃ t, exec (.networkTimeout ctx num) s = .next t ∧ final t .failed) ∧
    (s.now < o.t0 + 1000 * s.ntmo.toNat → exec (.networkTimeout ctx num) s = .next s)) ∧
  (∀ (s : State) (ctx num : Nat) (cs : List Contrib) (k : CollKind) (ty : Ty) (addr : Nat) (d : List W64) (tbl : List W32)
      (snd : List Byte) (st : Stamp),
    let was := s.op ctx engColl num
    let late (x : Stamp) : Prop := collOrd d = true ∧ ∃ m, s.lastDel = some m ∧ Stamp.before x m = true
    let o := { was with heard := was.heard ++ cs.filter fun c =>
      (s.collHere tbl c.rank).isNone && collFits k ty d c && !(collOrd d && s.passed c.stamp) }
    let s0 := s.setCtx ctx ((s.ctx ctx).setOp engColl num o)
    let all := s0.collIn o
    let fails (u t : State) (x : Op) : Prop := (t.op ctx engColl num).st = .failed ∧
      ∀ y ∈ u.collPeers x, (u.op y.ctx engColl y.num).st = .running → (t.op y.ctx engColl y.num).st = .failed
    was.kind = .coll k ty addr d tbl snd → was.stamp = some st → was.st = .running →
    let rows := (List.range (collM d)).map fun r =>
      if r = collRank d then snd else ((all.find? fun c => c.rank == r).map Contrib.data).getD []
    let latest := latestStamp (all.map Contrib.stamp) st
    let turn := ¬late latest ∧ (collOrd d = true → Stamp.before s.boundM latest = false)
    let skew := if collSk d then leBytes (latest.t - st.t).toNat 8 else []
    (∀ x, x ∈ o.heard ↔ x ∈ was.heard ∨ (x ∈ cs ∧ s.collHere tbl x.rank = none ∧ collFits k ty d x = true ∧ ¬late x.stamp)) ∧
    ((∃ c ∈ all, c.agrees = false) → ∃ t, exec (.collectiveCompletion ctx num cs) s = .next t ∧ fails s0 t o) ∧
    (∀ s1 s2, (∀ c ∈ all, c.agrees = true) → collWhole k ty d all = true → turn →
      s0.engWrite o.grid (d.getD 1 0).toNat (collResult k ty d rows) = .ok s1 → s1.engWrite o.grid (d.getD 6 0).toNat skew = .ok s2 →
      ∃ t, exec (.collectiveCompletion ctx num cs) s = .next t ∧ (t.op ctx engColl num).st = .completed ∧ sameMem s2 t) ∧
    (∀ e, (∀ c ∈ all, c.agrees = true) → collWhole k ty d all = true → turn →
      s0.engWrite o.grid (d.getD 1 0).toNat (collResult k ty d rows) = .error e →
      ∃ t, exec (.collectiveCompletion ctx num cs) s = .next t ∧ (t.op ctx engColl num).st = .failed) ∧
    ((∀ c ∈ all, c.agrees = true) → collWhole k ty d all = false ∨ ¬turn → exec (.collectiveCompletion ctx num cs) s = .next s0) ∧
    (collResult .bcst ty d rows = rows.getD (collRoot d) [] ∧ collResult .agath ty d rows = rows.flatten ∧ collResult .pbar ty d rows = []) ∧
    (was.t0 + 1000 * s.ctmo.toNat ≤ s.now → s.collStamp was = none →
      ∃ t, exec (.collectiveTimeout ctx num) s = .next t ∧ fails s t was) ∧
    (s.now < was.t0 + 1000 * s.ctmo.toNat ∨ s.collStamp was ≠ none → exec (.collectiveTimeout ctx num) s = .next s)) ∧
  (∀ (s : State) (o : Op) (k : CollKind) (ty : Ty) (addr : Nat) (d : List W64) (tbl : List W32) (snd : List Byte) (st : Stamp),
    let all := s.collIn o
    o.kind = .coll k ty addr d tbl snd → o.stamp = some st →
    (∀ l, s.collStamp o = some l ↔ (∀ c ∈ all, c.agrees = true) ∧ collWhole k ty d all = true ∧ l = latestStamp (all.map Contrib.stamp) st) ∧
    (∀ c ∈ all, c ∈ s.collLocal o ∨ c ∈ o.heard ∨ ∃ y ∈ s.collPeers o, c ∈ y.op.heard) ∧ (∀ c ∈ s.collLocal o, c ∈ all) ∧
    (∀ c ∈ o.heard, ∃ x ∈ all, x.rank = c.rank)) ∧
  (∀ (s : State) (o : Op) (k : CollKind) (ty : Ty) (addr : Nat) (d : List W64) (tbl : List W32) (snd : List Byte) (c : Contrib),
    o.kind = .coll k ty addr d tbl snd → c ∈ s.collLocal o → c.rank < collM d ∧ c.rank ≠ collRank d ∧
      ∃ p, s.collHere tbl c.rank = some p ∧
      ∃ x ∈ s.ctxs, ∃ y ∈ x.2.ops, ∃ k' ty' a' d', y.2.kind = .coll k' ty' a' d' tbl c.data ∧ collRank d' = c.rank ∧
        y.2.stamp = some c.stamp ∧ (s.grid y.2.grid).part = p ∧ (c.agrees = true ↔ (y.2.st = .running ∨ y.2.st = .completed) ∧
          (k', ty', collCnt d', collOp d', collM d') = (k, ty, collCnt d, collOp d, collM d)))

/-! ### Power -/

/-- O57 (R308, R310 to R317, R319): a cluster moves to its target, or to the ceiling, by frequencies that both ratios' tables hold; the ceiling
moves by one step a window; samples come from what the quadrants have counted, and charges go to those who pay, and lose nothing; filler starts
on a fall of more than a quarter that no step of the point explains, falls by the slope, and ends when it meets real work's current; gating takes its times, and a
group held for a cluster lands when it has woken. (The remainder of a division of static power: log entry 140.) -/
def Obligations.PowerControl : Prop :=
  (∀ (s : State) (k : Nat), k < 32 → (s.cluster k).pwr ≠ .gated →
    let c := s.cluster k
    let goal : Nat × Nat := if c.fq ≤ s.ceil then (c.rt, c.fq) else (if 22 ≤ s.ceil then 0 else if 14 ≤ s.ceil then 1 else 2, s.ceil)
    let next := if goal.1 < c.r then c.r - 1 else c.r + 1
    let lo := if c.r + next = 3 then 14 else 22
    let hi := if c.r + next = 3 then 18 else 26
    let at_ (r f : Nat) : Cluster := { c with r := r, f := f, busy := decide ((r, f) ≠ goal), stepAt := some s.now }
    let f := if c.r = goal.1 then goal.2 else if lo ≤ c.f ∧ c.f ≤ hi then c.f else if lo ≤ goal.2 ∧ goal.2 ≤ hi then goal.2
      else if c.f < lo then lo else hi
    exec (.frequencyChange k) s = .next (s.setCluster k (at_ c.r f)) ∧
    (c.r ≠ goal.1 → lo ≤ c.f → c.f ≤ hi → exec (.ratioSwitch k) s = .next (s.setCluster k (at_ next c.f)))) ∧
  (∀ (s : State) (watts : Nat), s.pwAt + 10000 ≤ s.now →
    let lim := min s.pwrlim.toNat s.board.toNat
    let high := lim < watts ∨ (s.lowering = true ∧ lim ≤ watts)
    let low := 20 * watts < 19 * lim ∧ ∃ x ∈ s.clusters, s.ceil < x.2.fq
    (high → exec (.powerWindow watts) s = .next { s with pwAt := s.now, lowering := true, ceil := max 8 (s.ceil - 1) }) ∧
    (¬high → low → exec (.powerWindow watts) s = .next { s with pwAt := s.now, lowering := false, ceil := s.ceil + 1 }) ∧
    (¬high → ¬low → exec (.powerWindow watts) s = .next { s with pwAt := s.now, lowering := false })) ∧
  (∀ (s : State) (w : BitVec 16), exec (.boardPowerLimitInput w) s = .next { s with board := w }) ∧
  (∀ (s : State) (k : Nat), k < 32 →
    let c := s.cluster k
    (c.stallAt + 10000 ≤ s.now → ∃ x : BitVec 16,
      exec (.stallSample k c.stallNum c.stallDen) s = .next (s.setCluster k { c with stall := x, stallAt := s.now, stallNum := 0, stallDen := 0 }) ∧
      (c.stallDen = 0 → x = 0) ∧ (c.stallDen ≠ 0 → x.toNat = min 65535 (65536 * c.stallNum / c.stallDen))) ∧
    (∀ num den, s.now < c.stallAt + 10000 ∨ num ≠ c.stallNum ∨ den ≠ c.stallDen → exec (.stallSample k num den) s = .next s)) ∧
  (∀ (s : State) (k n : Nat), k < 32 →
    let u := s.pollLogs.ripenAll
    let c := u.cluster k
    let x := u.stallCounts k (n * c.f)
    let d := (s.elapse n).cluster k
    d.stallNum = c.stallNum + x.1 ∧ d.stallDen = c.stallDen + x.2 ∧
    (∀ l, c.filler = some l → d.filler = some (l - c.slope * n)) ∧ (c.filler = none → d.filler = none) ∧
    (c.pwr = .gated → d.clk20 = c.clk20) ∧ (c.pwr ≠ .gated → d.clk20 = c.clk20 + n * c.f) ∧
    (u.clusterBusy k = true → d.idleAt = u.now + n) ∧ (u.clusterBusy k = false → d.idleAt = c.idleAt) ∧
    { d with stallNum := c.stallNum, stallDen := c.stallDen, filler := c.filler, clk20 := c.clk20, idleAt := c.idleAt } = c) ∧
  (∀ (s : State) (k t : Nat),
    let x := s.stallCounts k t
    x.1 ≤ x.2 ∧ (s.clusterGangs k = [] → x = (0, 0)) ∧ ((∀ y ∈ s.clusterGangs k, s.memWaits y.2 = false) → x.1 = 0) ∧
    ((∀ y ∈ s.clusterGangs k, s.memWaits y.2 = true ∧ (s.gang y.2).issues = 0) → x.1 = x.2)) ∧
  (∀ (s : State) (cs : List Charge), s.energyAt + 1000 ≤ s.now → (∀ x ∈ cs, x.unit < 37) →
    let u := cs.foldl State.addCharge { s with energyAt := s.now }
    exec (.energyTick cs) s = .next { u with groups := u.groups.map fun x => (x.1, { x.2 with paid := [] }) }) ∧
  (∀ (s : State) (x : Charge), (∀ y ∈ s.payers x, y.1 < 64) →
    s.addCharge x = (s.payers x).foldl (fun u y => u.charge x.unit y.1 y.2) s) ∧
  (∀ (s : State) (unit pj : Nat),
    let pays (k : Cause) (l : List (Nat × Nat)) : Prop := s.payers ⟨unit, k, pj⟩ = l
    let c := s.cluster unit
    let cs := s.clusterSlices unit
    let total := (cs.map Prod.snd).sum
    (∀ r, pays (.gang r) [((s.grid (s.group r.group).grid).ctx, pj)]) ∧ (∀ ctx, pays (.engine ctx) [(ctx, pj)]) ∧ pays .other [(0, pj)] ∧
    (∀ k ctx, ctx ∈ (s.group k).paid → pays (.image k ctx) [(ctx, pj)]) ∧
    (∀ k ctx, ctx ∉ (s.group k).paid → pays (.image k ctx) [((s.group k).payer, pj)]) ∧
    pays .filler [(if (s.ctx c.dep).asg then c.dep else 0, pj)] ∧
    (c.pwr = .gated → pays .static []) ∧ (c.pwr ≠ .gated → cs = [] → pays .static [(0, pj)]) ∧
    (∀ x xs, c.pwr ≠ .gated → cs = x :: xs → ∃ rest, rest ≤ xs.length ∧
      pays .static ((x.1, pj * x.2 / total + rest) :: xs.map fun y => (y.1, pj * y.2 / total)) ∧
      ((s.payers ⟨unit, .static, pj⟩).map Prod.snd).sum = pj)) ∧
  (∀ (s : State) (k ctx n : Nat), (ctx, n) ∈ s.clusterSlices k ↔ ctx < 64 ∧ n ≠ 0 ∧
    n = ((s.groups.filter fun x => x.2.st == .resident && x.2.core / 8 == k && (s.grid x.2.grid).ctx == ctx).map fun x =>
      (s.slicesOfGroup x.1).length).sum) ∧
  (∀ (s : State) (unit ctx pj : Nat),
    let t := s.charge unit ctx pj
    ∃ whole rest, (s.ctx ctx).ecnt + BitVec.ofNat 64 whole = (t.ctx ctx).ecnt ∧ Sparse.get 0 (t.ctx ctx).pj unit = rest ∧ rest < 1000000 ∧
      whole * 1000000 + rest = Sparse.get 0 (s.ctx ctx).pj unit + pj ∧
      (∀ u, u ≠ unit → Sparse.get 0 (t.ctx ctx).pj u = Sparse.get 0 (s.ctx ctx).pj u) ∧ (∀ j, j ≠ ctx → t.ctx j = s.ctx j) ∧
      { t.ctx ctx with ecnt := (s.ctx ctx).ecnt, pj := (s.ctx ctx).pj } = s.ctx ctx ∧ { t with ctxs := s.ctxs } = s) ∧
  (∀ (s : State) (k before after byStep : Nat) (drops : List (Nat × Nat)), k < 32 →
    let c := s.cluster k
    let own := match c.stepAt with
      | some t => if s.now < t + 1000 then byStep else 0
      | none => 0
    (c.filler = none → c.pwr ≠ .gated → 4 * (after + own) < 3 * before → exec (.fillerStart k before ⟨after, byStep⟩ drops) s =
      .next (s.setCluster k { c with filler := some before, dep := mostFallen drops % 64, idleAt := s.now })) ∧
    (c.filler.isSome = true ∨ c.pwr = .gated ∨ 3 * before ≤ 4 * (after + own) → exec (.fillerStart k before ⟨after, byStep⟩ drops) s = .next s)) ∧
  (∀ (s : State) (k real l : Nat), k < 32 → (s.cluster k).filler = some l →
    (l ≤ real → exec (.fillerEnd ⟨k, real⟩) s = .next (s.setCluster k { s.cluster k with filler := none, idleAt := s.now })) ∧
    (real < l → exec (.fillerEnd ⟨k, real⟩) s = .next s)) ∧
  (∀ (drops : List (Nat × Nat)) (x : Nat × Nat), x ∈ drops → 0 < x.2 →
    ∃ y ∈ drops, y.1 = mostFallen drops ∧ ∀ z ∈ drops, z.2 ≤ y.2) ∧
  (∀ (s : State) (k since : Nat), k < 32 →
    let c := s.cluster k
    (c.gate = true → c.pwr = .powered → s.clusterBusy k = false → c.idleAt + 50000 ≤ s.now →
      exec (.gateIntent k) s = .next (s.setCluster k { c with pwr := .intent s.now })) ∧
    (c.gate = false ∨ s.clusterBusy k = true ∨ s.now < c.idleAt + 50000 → exec (.gateIntent k) s = .next s) ∧
    (c.pwr = .intent since → since + 1000 ≤ s.now → exec (.gated k) s = .next (s.setCluster k { c with pwr := .gated })) ∧
    (c.pwr = .intent since → s.now < since + 1000 → exec (.gated k) s = .next s) ∧
    (c.pwr = .waking since → since + 10000 ≤ s.now →
      ∃ t, exec (.wakingComplete k) s = .next t ∧ t.clusters = (s.setCluster k { c with pwr := .powered, idleAt := s.now }).clusters ∧
        (∀ j, t.group j = if (s.group j).st = .landing ∧ (s.group j).core / 8 = k then { s.group j with st := .resident } else s.group j) ∧
        { t with clusters := s.clusters, groups := s.groups } = s) ∧
    (c.pwr = .waking since → s.now < since + 10000 → exec (.wakingComplete k) s = .next s))

/-! ### Queues, packets and battens -/

/-- O58 (R329, R336 to R338, R341): kicks within the window of R337 move the write index; a packet is checked against the opcode table, and halts
its queue or goes to its handler, when one of its partition's interpreters is free and its turn among the queues has come; each of the standard
packets does its work, waits, or halts; a completed packet moves `rd` on. (A launch of the queue counts as retired once it has ended: log entry 60;
the halt of a kick too far: 114; addresses go through the queue's context: 112; a queue whose context is not its partition's starts nothing: 146;
a waiting packet keeps its interpreter: 154.) -/
def Obligations.QueuesAndPackets : Prop :=
  (∀ (s : State) (part n : Nat) (w : W32), part < 4 → n < 64 →
    let k := qkey part n
    let q := s.queue k
    let d := (w - q.cur).toNat
    let new : Queue := if 1 ≤ d ∧ d ≤ 2 ^ 31 - 1 then { q with cur := w, wr := w, qst := if q.qst = 1 ∧ w ≠ q.rd then 2 else q.qst } else q
    let far := new.it = none ∧ new.qst = 2 ∧ 2 ^ q.lsz < (new.wr - new.rd).toNat
    (q.qst = 0 ∨ q.qst = 5 → exec (.kickRegisterWrite part n w) s = .next s) ∧
    (q.qst ≠ 0 → q.qst ≠ 5 → ∃ t, exec (.kickRegisterWrite part n w) s = .next t ∧ (∀ j, j ≠ k → t.queue j = s.queue j) ∧
      t.gangs = s.gangs ∧ (¬far → t.queue k = new) ∧
      (far → t.queue k = { new with qst := 4, hrsn := 7, hoff := BitVec.ofNat 64 (64 * (q.rd.toNat % 2 ^ q.lsz)) }))) ∧
  (∀ (s : State) (part n : Nat),
    let k := qkey part n
    let q := s.queue k
    let h := (s.packetWords q 1).getD 0 0
    let size := h.toNat / 2 ^ 6 % 4 + 1
    let e := (q.table.getD (h.toNat % 64) 0).toNat
    let it : Interp := { slots := size, words := s.packetWords q size, std := q.std, pc := e % 2 ^ 16 }
    let halts (t : State) (r : Nat) : Prop := (t.queue k).qst = 4 ∧ (t.queue k).hrsn = r ∧
      (t.queue k).hoff = BitVec.ofNat 64 (64 * (q.rd.toNat % 2 ^ q.lsz)) ∧ (t.queue k).rd = q.rd ∧ ∀ j, j ≠ k → t.queue j = s.queue j
    let undefd := e % 2 ^ 16 = 0xFFFF
    let reserved := (h.toNat / 2 ^ 8 % 2 ^ 24) &&& (e / 2 ^ 32 % 2 ^ 24) ≠ 0
    let odd := size ≠ e / 2 ^ 16 % 4 + 1
    (s.nextQueue part ≠ some n → exec (.battenPacketStart part n) s = .next s) ∧
    (s.nextQueue part = some n → n < 64 ∧ q.qst = 2 ∧ q.it = none ∧ q.rd ≠ q.wr ∧ s.stopping part n = false ∧
      s.ownsCtx part q.ctx = true ∧ (∀ a, q.kick = some a → s.relHolds part ⟨false, a⟩ 4 = false) ∧
      s.interpreting part < 16 * s.mode.dies ∧
      ∀ i j, i < j → j < 64 → n = (Sparse.get 63 s.rot part + 1 + j) % 64 → s.startable part ((Sparse.get 63 s.rot part + 1 + i) % 64) = false) ∧
    (s.nextQueue part = some n →
    (q.tooFar = true → ∃ t, exec (.battenPacketStart part n) s = .next t ∧ halts t 7) ∧
    (q.tooFar = false →
      (undefd → ∃ t, exec (.battenPacketStart part n) s = .next t ∧ halts t 1) ∧
      (¬undefd → reserved → ∃ t, exec (.battenPacketStart part n) s = .next t ∧ halts t 2) ∧
      (¬undefd → ¬reserved → odd → ∃ t, exec (.battenPacketStart part n) s = .next t ∧ halts t 8) ∧
      (¬undefd → ¬reserved → ¬odd → exec (.battenPacketStart part n) s =
        .next ({ s with rot := Sparse.set 63 s.rot part n }.setQueue k { q with it := some it }))))) ∧
  (∀ (s : State) (q : Queue) (it : Interp), atWork s q it →
    let k := qkey s.curQ.1 s.curQ.2
    let ends (u : State) : Out := .next (u.setQ k ((u.queue k).complete it.slots))
    let told (irq : Bool) (addr x : W64) : State :=
      let u := s.vaWrite q.ctx addr.toNat 8 x.toNat
      if irq then u.sendInt q.cvec else u
    exec .nopPacket s = .next (s.packetDone it) ∧
    (∀ (serial : Bool) (desc : W64), (serial = false ∨ s.queueLaunches s.curQ = false →
        exec (.launchPacket serial desc) s = ends { s with subs := s.subs ++
          [{ daddr := desc, ctx := q.ctx, part := q.part, queue := some s.curQ, floor := q.floor }] }) ∧
      (serial = true → s.queueLaunches s.curQ = true → exec (.launchPacket serial desc) s = .next s.queueWaits)) ∧
    (∀ (table log snap bytes : W64), exec (.graph 3 table log snap bytes) s = .next (s.halted 5)) ∧
    (∀ (mode : BitVec 2) (table log snap bytes : W64), mode ≠ 3 →
      exec (.graph mode table log snap bytes) s = ends (s.startGraph q mode.toNat table log snap bytes)) ∧
    (∀ (irq : Bool) (addr x : W64), exec (.signal irq addr x) s = ends (told irq addr x)) ∧
    (∀ addr x : W64,
      let may := s.acquires s.curQ.1 q.ctx addr.toNat 8
      (may = true → x.toNat ≤ s.vaRead q.ctx addr.toNat 8 → exec (.waitv addr x) s = .next (s.packetDone it)) ∧
      (may = false ∨ s.vaRead q.ctx addr.toNat 8 < x.toNat → exec (.waitv addr x) s = .next s.queueWaits)) ∧
    (s.queueDrained s.curQ = true → exec .fencePacket s = .next (s.packetDone it)) ∧
    (s.queueDrained s.curQ = false → exec .fencePacket s = .next s.queueWaits)) ∧
  (∀ (s : State) (pq : Nat × Nat), (s.queueDrained pq = true ↔
    (∀ u ∈ s.subs, u.queue = some pq → u.node.isSome = true ∨ u.parent.isSome = true) ∧
    (∀ x ∈ s.grids, x.2.queue = some pq → x.2.node.isSome = true ∨ x.2.parent.isSome = true ∨ x.2.st.finished = true) ∧
    ∀ x ∈ s.graphs, x.2.queue = some pq → x.2.finished = true)) ∧
  (∀ (s : State) (q : Queue) (mode : Nat) (table log a n : W64),
    let hdr := s.vaWords q.ctx table.toNat 8
    let t := hdr ++ s.vaWords q.ctx (table.toNat + 64) (8 * min 256 ((hdr.getD 0 0).toNat % 2 ^ 9))
    graphBad table t = true →
      s.startGraph q mode table log a n = s.vaWrite q.ctx (table.toNat + 8) 8 (4 + 256 * s.badNode t)) ∧
  (∀ (s : State) (it : Interp),
    let k := qkey s.curQ.1 s.curQ.2
    let q := s.queue k
    let y := (s.packetDone it).queue k
    y.rd = q.rd + BitVec.ofNat 32 it.slots ∧ y.ndone = q.ndone + 1 ∧ y.it = none ∧ (y.rd = y.wr → y.qst = 1) ∧ (y.rd ≠ y.wr → y.qst = 2) ∧
    { y with rd := q.rd, ndone := q.ndone, it := q.it, qst := q.qst } = q ∧ ∀ j, j ≠ k → (s.packetDone it).queue j = s.queue j)

/-- O59 (R339, R340): each batten instruction, run by the queue at work: its register, its window access within bounds, its branch, its
repeats; and the halts of `halt`, of a window access out of bounds, of `sgr`, and of the 513th instruction. (The reason of a `halt` whose
immediate names none is free: log entry 63; the other words of the packet that `sgr` uses: 64; what `ldq` reads, and the context of addresses:
112.) -/
def Obligations.BattenInstructions : Prop :=
  (∀ (s : State) (q : Queue) (it : Interp), atWork s q it →
    let k := qkey s.curQ.1 s.curQ.2
    let sets (i : Instr) (d : BitVec 3) (x : W64) : Prop := exec i s = .next (s.goOn ((it.setReg d x).step 1))
    let onward (u : State) : Out := .next (u.setQ k { u.queue k with it := some (it.step 1), qst := 2 })
    (∀ d a b, sets (.battenAdd d a b) d (it.reg a + it.reg b) ∧ sets (.battenSub d a b) d (it.reg a - it.reg b) ∧
      sets (.battenAnd d a b) d (it.reg a &&& it.reg b) ∧ sets (.battenOr d a b) d (it.reg a ||| it.reg b) ∧
      sets (.battenXor d a b) d (it.reg a ^^^ it.reg b) ∧ sets (.battenShl d a b) d (it.reg a <<< ((it.reg b).toNat % 64)) ∧
      sets (.battenShr d a b) d (it.reg a >>> ((it.reg b).toNat % 64))) ∧
    (∀ d a i, sets (.battenAddi d a i) d (it.reg a + i.signExtend 64) ∧ sets (.battenLi d i) d (i.signExtend 64)) ∧
    (∀ d i, i.toNat < it.words.length → sets (.battenLdp d i) d (it.words.getD i.toNat 0)) ∧
    (∀ d i, i.toNat < 16 → sets (.battenLdq d i) d (q.ro.getD i.toNat 0)) ∧
    (∀ d i, 16 ≤ i.toNat → i.toNat < 32 → sets (.battenLdq d i) d (q.mutable.getD (i.toNat - 16) 0)) ∧
    (∀ a i, ∃ t, exec (.battenStq a i) s = .next t ∧ (t.queue k).pw = q.pw.set i.toNat (it.reg a) ∧ (t.queue k).it = some (it.step 1) ∧
      (t.queue k).qst = 2 ∧ { t.queue k with pw := q.pw, it := q.it, qst := q.qst } = q ∧ ∀ j, j ≠ k → t.queue j = s.queue j) ∧
    (∀ (a : BitVec 3) (w : BitVec 1) (o : BitVec 16),
      let off := (it.reg a + o.setWidth 64).toNat
      let base := (q.win w.toNat).1
      let at_ := (base + (it.reg a + o.setWidth 64)).toNat
      let ok := off < (q.win w.toNat).2.toNat ∧ off % 8 = 0
      (ok → ∀ d b, sets (.battenLdw d a w o) d (BitVec.ofNat 64 (s.vaRead q.ctx at_ 8)) ∧
        exec (.battenStw a b w o) s = onward (s.vaWrite q.ctx at_ 8 (it.reg b).toNat)) ∧
      (¬ok → ∀ d b, exec (.battenLdw d a w o) s = .next (s.halted 3) ∧ exec (.battenStw a b w o) s = .next (s.halted 3))) ∧
    (∀ a b i, exec (.battenBeq a b i) s = .next (s.goOn (it.step (if it.reg a = it.reg b then i.toNat else 1))) ∧
      exec (.battenBne a b i) s = .next (s.goOn (it.step (if it.reg a = it.reg b then 1 else i.toNat)))) ∧
    (∀ t n : BitVec 6, exec (.battenRpt t n) s = .next (s.goOn
      { it with pc := it.pc + 1, rpt := (it.pc + 1, it.pc + 2 + n.toNat, t.toNat) :: it.rpt, left := it.left - 1 })) ∧
    exec .battenDone s = .next (s.packetDone it) ∧
    (∀ i, 0x80 ≤ i.toNat → i.toNat ≤ 0xFF → exec (.battenHalt i) s = .next (s.halted i.toNat)) ∧
    (∀ i, ∃ r, 0x80 ≤ r ∧ r ≤ 0xFF ∧ exec (.battenHalt i) s = .next (s.halted r)) ∧
    (∀ a, exec (.battenSubm a) s = onward { s with subs := s.subs ++
      [{ daddr := it.reg a, ctx := q.ctx, part := q.part, queue := some s.curQ, floor := q.floor }] }) ∧
    (∀ a b, ((it.reg b).toNat ≤ 2 → exec (.battenSgr a b) s = onward (s.startGraph q (it.reg b).toNat (it.reg a) (it.words.getD 2 0)
        (it.words.getD 3 0) (it.words.getD 4 0))) ∧
      (3 ≤ (it.reg b).toNat → exec (.battenSgr a b) s = .next (s.halted 5))) ∧
    (∀ a b,
      let may := s.acquires s.curQ.1 q.ctx (it.reg a).toNat 8
      (may = true → (it.reg b).toNat ≤ s.vaRead q.ctx (it.reg a).toNat 8 → exec (.battenWgeq a b) s = .next (s.goOn (it.step 1))) ∧
      (may = false ∨ s.vaRead q.ctx (it.reg a).toNat 8 < (it.reg b).toNat → exec (.battenWgeq a b) s = .next s.queueWaits)) ∧
    (s.queueDrained s.curQ = true → exec .battenFnc s = .next (s.goOn (it.step 1))) ∧
    (s.queueDrained s.curQ = false → exec .battenFnc s = .next s.queueWaits) ∧
    (∀ (a b : BitVec 3) (i : BitVec 1),
      let u := s.vaWrite q.ctx (it.reg a).toNat 8 (it.reg b).toNat
      exec (.battenSig a b i) s = onward (if i = 1 then u.sendInt q.cvec else u))) ∧
  (∀ (it : Interp) (d : BitVec 3) (x : W64), it.b.length = 8 → (it.setReg d x).reg d = x ∧
    ∀ e, e ≠ d → (it.setReg d x).reg e = it.reg e) ∧
  (∀ (it : Interp) (n : Nat), (it.step n).left = it.left - 1 ∧ (it.step n).b = it.b ∧
    (it.rpt = [] → (it.step n).pc = it.pc + n ∧ (it.step n).rpt = []) ∧
    (∀ a e m r, it.rpt = (a, e, m) :: r → (it.pc + n ≠ e → (it.step n).pc = it.pc + n ∧ (it.step n).rpt = it.rpt) ∧
      (it.pc + n = e → m ≠ 0 → (it.step n).pc = a ∧ (it.step n).rpt = (a, e, m - 1) :: r) ∧
      (it.pc + n = e → m = 0 → r = [] → (it.step n).pc = e ∧ (it.step n).rpt = []))) ∧
  (∀ (s : State) (q : Queue) (it : Interp) (i : Instr), s.queue (qkey s.curQ.1 s.curQ.2) = q → q.it = some it → q.working = true →
    it.std = false → it.left = 0 → (encodeBatten i).isSome = true → exec i s = .next (s.halted 6)) ∧
  (∀ (s : State) (r : Nat),
    let k := qkey s.curQ.1 s.curQ.2
    let q := s.queue k
    let y := (s.halted r).queue k
    y.qst = 4 ∧ y.hrsn = r ∧ y.hoff = BitVec.ofNat 64 (64 * (q.rd.toNat % 2 ^ q.lsz)) ∧ y.bovr = (if r = 6 then q.bovr + 1 else q.bovr) ∧
    { y with qst := q.qst, hrsn := q.hrsn, hoff := q.hoff, bovr := q.bovr } = q)

/-! ### The host link -/

/-- O60 (R355 to R363): the control aperture's words, windows, the download buffer and DMA; the record of a window access that fails, and the
error ring; the boot ROM's answers; the mailbox's commands; and what a failed link reads as. (The model's choices: an 8-byte access of the
control aperture is two words, a misaligned one does nothing, and power keeps host memory: log entry 117; commands and their arguments: 112 to
116 and 142; offsets that hold no field: 156; the ring of a failure: 66; when the ring is full: 30; a transfer's bytes move at once: 143; the
boot image and its areas: 9, 69 and 145; translations: 4 and 5.) -/
def Obligations.HostLink : Prop :=
  (∀ (s : State) (off : BitVec 20) (wide : Bool) (x : W64),
    let o := off.toNat
    let ok := o % (if wide then 8 else 4) = 0
    (s.link = .up → ok → wide = false → exec (.registerWrite (.control off wide) x) s = .next (s.ctlWrite o (x.setWidth 32))) ∧
    (s.link = .up → ok → wide = true → exec (.registerWrite (.control off wide) x) s =
      .next ((s.ctlWrite o (x.setWidth 32)).ctlWrite (o + 4) ((x >>> 32).setWidth 32))) ∧
    (s.link ≠ .up ∨ ¬ok → exec (.registerWrite (.control off wide) x) s = .next s)) ∧
  (∀ (s : State) (o : Nat) (w : W32), o % 4 = 0 →
    let kept := (0x208 ≤ o ∧ o < 0x240) ∨ (0x5000 ≤ o ∧ o < 0x5800) ∨ (0x6000 ≤ o ∧ o < 0x7000) ∨
      (0x8000 ≤ o ∧ o < 0x8200 ∧ (o % 64 = 0 ∨ o % 64 = 4))
    (kept → (s.ctlWrite o w).ctlRead o = w ∧ ∀ p, p % 4 = 0 → p ≠ o → (s.ctlWrite o w).ctlRead p = s.ctlRead p) ∧
    (o = 0x200 → s.ctlWrite o w = if s.mbCmd = 0 then { s with mbCmd := w } else s) ∧
    (o < 0x200 → o ≠ 8 → s.ctlWrite o w = s) ∧
    (∀ p k, p < 4 → k < 64 → o = 0x1000 * (p + 1) + 4 * k → s.ctlWrite o w = s.kickQueue (qkey p k) w ∧
      s.ctlRead o = (s.queue (qkey p k)).cur)) ∧
  (∀ (s : State) (off : W64) (wide : Bool),
    let o := off.toNat
    let n := if wide then 8 else 4
    let ones : W64 := if wide then BitVec.allOnes 64 else 0xFFFFFFFF
    let told := s.errRecord (match s.winFor o with
      | some e => if e.ctx = 0 then 0 else (s.ctx e.ctx).part
      | none => 0) 0x10 (BitVec.ofNat 64 o) 0 0
    o % n = 0 →
    (o < 2 ^ 38 → s.link ≠ .up → exec (.hostWindowAccess false off wide none) s = .next { s with hostRd := ones } ∧
      ∀ x, exec (.hostWindowAccess false off wide (some x)) s = .next s) ∧
    (o < 2 ^ 20 → s.link = .up → wide = false →
      exec (.hostWindowAccess true off wide none) s = .next { s with hostRd := (s.ctlRead o).setWidth 64 } ∧
      ∀ x, exec (.hostWindowAccess true off wide (some x)) s = .next (s.ctlWrite o (x.setWidth 32))) ∧
    (o < 2 ^ 38 → s.link = .up → s.buffer o = false →
      (∀ l, s.winLoc o false = some l →
        exec (.hostWindowAccess false off wide none) s = .next { s with hostRd := BitVec.ofNat 64 (s.rdLoc l n) }) ∧
      (∀ l x, s.winLoc o true = some l → ∃ t, exec (.hostWindowAccess false off wide (some x)) s = .next t ∧ t.fromHost l n = true ∧
        stored s t l n (fun i => some (byteOf x i)) ∧ { t with mem := s.mem, hostMem := s.hostMem, spoiled := s.spoiled, hostWr := s.hostWr } = s) ∧
      (s.winLoc o false = none → exec (.hostWindowAccess false off wide none) s = .next { told with hostRd := ones }) ∧
      (∀ x, s.winLoc o true = none → exec (.hostWindowAccess false off wide (some x)) s = .next told)) ∧
    (s.link = .up → s.buffer o = true →
      let l : Loc := ⟨false, bufferAt + o⟩
      exec (.hostWindowAccess false off wide none) s = .next { s with hostRd := BitVec.ofNat 64 (s.rdLoc l n) } ∧
      (s.bst = 2 → ∀ x, exec (.hostWindowAccess false off wide (some x)) s = .next s) ∧
      (s.bst = 1 → ∀ x, ∃ t, exec (.hostWindowAccess false off wide (some x)) s = .next t ∧ stored s t l n (fun i => some (byteOf x i)) ∧
        { t with mem := s.mem, hostMem := s.hostMem, spoiled := s.spoiled, hostWr := s.hostWr } = s))) ∧
  (∀ (s : State) (o : Nat), s.buffer o = true ↔ (s.bst = 1 ∨ s.bst = 2) ∧ o < 67108864) ∧
  (∀ (s : State) (part : Nat) (a b c d : W64),
    let r : ErrRing := Sparse.get {} s.err part
    let base := r.base.toNat + 32 * (r.wr % 2 ^ r.lsz)
    let lost (n : Nat) : State := { s with err := Sparse.put s.err part { r with dropped := n } }
    (r.wr < 2 ^ r.lsz → s.errFull part = false) ∧
    (r.set = false → s.errRecord part a b c d = s) ∧
    (r.set = true → r.dropped ≠ 0 → s.errRecord part a b c d = if s.errFull part then lost (r.dropped + 1)
      else ((lost 0).errRecord part 0x12 (BitVec.ofNat 64 r.dropped) 0 0).errRecord part a b c d) ∧
    (r.set = true → r.dropped = 0 → ∃ v : State, s.errRecord part a b c d = (if s.errFull part then lost 1 else v.sendInt r.vec) ∧
      (Sparse.get {} v.err part : ErrRing) = { r with wr := r.wr + 1 } ∧
      [rdLE v.hostMem base 8, rdLE v.hostMem (base + 8) 8, rdLE v.hostMem (base + 16) 8, rdLE v.hostMem (base + 24) 8] =
        [a, b, c, d].map BitVec.toNat ∧
      (∀ x, x < base ∨ base + 32 ≤ x → rdByte v.hostMem x = rdByte s.hostMem x) ∧ { v with hostMem := s.hostMem, err := s.err } = s)) ∧
  (∀ (s : State) (o : Nat) (write : Bool) (l : Loc), s.winLoc o write = some l → ∃ e, s.winFor o = some e ∧ e.on = true ∧
    e.hoff.toNat ≤ o ∧ o < e.hoff.toNat + e.len.toNat ∧ (write = true → e.wr = true) ∧
    (e.ctx = 0 ∨ (s.ctx e.ctx).asg = true) ∧
    s.xlate e.ctx (e.ctx == 0) (if write then .write else .read) ((e.vbase.toNat + o - e.hoff.toNat) % 2 ^ 64) = .ok l) ∧
  (∀ (s : State) (ch : Nat) (w : W32), ch < 8 →
    let d : Dma := Sparse.get {} s.dma ch
    let n := (w - d.tail).toNat
    exec (.dmaTailWrite ch w) s = .next { s with dma := Sparse.put s.dma ch (if 1 ≤ n ∧ n ≤ 2 ^ 31 - 1 then { d with tail := w } else d) }) ∧
  (∀ (s : State) (ch : Nat), ch < 8 →
    let d : Dma := Sparse.get {} s.dma ch
    let a := d.ring.toNat + 32 * (d.head.toNat % 2 ^ d.lsz)
    let word (k n : Nat) : Nat := rdLE s.hostMem (a + k) n
    let out := word 24 4 / 2 ^ 6 % 2 = 1
    let ctx := word 24 4 % 2 ^ 6
    4 ≤ d.lsz → d.lsz ≤ 16 → d.ring.toNat % 4096 = 0 → d.head ≠ d.tail → 1 ≤ word 16 8 → word 16 8 ≤ 2 ^ 26 → word 24 4 / 2 ^ 7 % 2 = 0 →
    (∀ i, i < word 16 8 → (s.hostLoc ctx (if out then .read else .write) (word 8 8 + i)).isSome = true) →
    ∃ t, exec (.dmaDescriptorCompletion ch) s = .next t ∧ (Sparse.get {} t.dma ch : Dma) = { d with head := d.head + 1 } ∧
      rdLE t.hostMem (a + 28) 4 = 1 ∧
      (∀ x, x < a + 28 ∨ a + 32 ≤ x → rdByte t.hostMem x =
        rdByte (s.dmaMove ctx (decide out) (word 8 8) (word 0 8) (word 16 8)).hostMem x) ∧
      t.mem = (s.dmaMove ctx (decide out) (word 8 8) (word 0 8) (word 16 8)).mem) ∧
  (∀ (s : State) (ctx va ha n : Nat), (∀ i, i < n → ∃ l, s.hostLoc ctx .read (va + i) = some l ∧ l.host = false) →
    let t := s.dmaMove ctx true va ha n
    t.mem = s.mem ∧ (∀ x, x < ha ∨ ha + n ≤ x → rdByte t.hostMem x = rdByte s.hostMem x) ∧
    ∀ i l, i < n → s.hostLoc ctx .read (va + i) = some l → rdByte t.hostMem (ha + i) = rdByte s.mem l.key) ∧
  (∀ (s : State) (x : W32),
    (s.link ≠ .up → exec (.dlen x) s = .next s) ∧
    (s.link = .up →
      (s.bst = 1 → 4096 ≤ x.toNat → x.toNat ≤ 67108864 → exec (.dlen x) s = .next { s with dlen := x, bst := 2 }) ∧
      (s.bst = 1 → ¬(4096 ≤ x.toNat ∧ x.toNat ≤ 67108864) → exec (.dlen x) s = .next { s with dlen := x, brsn := 1 }) ∧
      (s.bst = 2 → exec (.dlen x) s = .next s))) ∧
  (∀ (s : State) (data : List Byte), (s.bst = 3 → exec (.m3Extend data) s = .next { s with m3 := shake256 (bytes512 s.m3 ++ data) }) ∧
    (s.bst ≠ 3 → exec (.m3Extend data) s = .next s)) ∧
  (∀ s : State, ∃ t, exec .powerUp s = .next t ∧ t.mem = [] ∧ t.gangs = [] ∧ t.bst = 0 ∧ t.link = .down ∧ t.hostMem = s.hostMem ∧
    { t with hostMem := [], hostRd := 0, tick := 0, now := 0, uid := 1, agenda := [] } = State.reset) ∧
  (∀ s : State, (s.linkLog = false → exec .linkTrained s = .next { s with link := .up, bst := if s.bst = 0 then 1 else s.bst }) ∧
    (∃ t, exec .linkTrained s = .next t ∧ t.link = .up ∧ t.linkLog = false ∧ t.mem = s.mem) ∧
    exec .linkFailure s = .next { s with link := .failed, linkLog := true }) ∧
  (∀ s : State, s.bst = 2 →
    let reason := s.imageReason
    let body := rdLE s.mem (bufferAt + 8) 8
    let bad := rdLE s.mem bufferAt 4 ≠ 0x49395746 ∨ 0x74B0 + body ≠ s.dlen.toNat
    let wrongKey := (shake256 (s.imageBytes 0x10 64)).setWidth 256 ≠ Config.keyHash
    (∃ t, exec .bootVerification s = .next t ∧ (reason ≠ 0 → t = { s with bst := 1, brsn := reason, m1 := 0, m2 := 0, m3 := 0 }) ∧
      (reason = 0 → t.bst = 3 ∧ t.m0 = shake256 Config.bootRom ∧
      t.m1 = shake256 (s.imageBytes 0 s.dlen.toNat) ∧ t.m2 = shake256 (s.imageBytes 0x10 64 ++ s.imageBytes 4 4) ∧ t.m3 = 0 ∧
      (∀ i, i < s.dlen.toNat - 0x74B0 → rdByte t.mem (firmwareAt + i) = rdByte s.mem (bufferAt + 0x74B0 + i)) ∧
      t.ctx 0 = { s.ctx 0 with tabs := t.mem } ∧ (∀ j, j ≠ 0 → t.ctx j = s.ctx j) ∧
      { t with bst := s.bst, m0 := s.m0, m1 := s.m1, m2 := s.m2, m3 := s.m3, mem := s.mem, ctxs := s.ctxs } = s)) ∧
    (4096 ≤ bufferAt ∧ bufferAt + 2 ^ 26 ≤ 144 * 10 ^ 9 ∧ 4096 ≤ firmwareAt ∧ firmwareAt + 2 ^ 26 ≤ 144 * 10 ^ 9) ∧
    (reason = 3 ↔ ¬bad ∧ ¬wrongKey ∧ slhVerify (s.imageBytes 0x10 64) (s.imageBytes 0 0x50 ++ s.imageBytes 0x74B0 body)
      (s.imageBytes 0x50 29792) = false) ∧
    (reason = 1 ↔ bad) ∧ (reason = 2 ↔ ¬bad ∧ wrongKey) ∧
    (reason = 4 → ¬bad ∧ ¬wrongKey ∧ rdLE s.mem (bufferAt + 4) 4 < Config.minSvn.toNat) ∧
    (reason = 0 → ¬bad ∧ ¬wrongKey ∧ Config.minSvn.toNat ≤ rdLE s.mem (bufferAt + 4) 4)) ∧
  (∀ s : State, s.idle = true → s.subs = [] ∧ (∀ x ∈ s.queues, x.2.working = false ∧ (x.2.qst = 2 → x.2.rd = x.2.wr)) ∧
    (∀ x ∈ s.graphs, x.2.finished = true) ∧ ∀ c ∈ s.ctxs, ∀ o ∈ c.2.ops, o.2.st.final = true) ∧
  (∀ s : State, s.bst = 3 →
    let answers (i : Instr) (t : State) (st : W32) : Prop := exec i s = .next { t with mbSt := st, mbCmd := 0 }
    let arg (i : Nat) : Nat := s.arg i
    (s.mbCmd = 1 → (3 ≤ arg 0 → answers .setMode s 5) ∧ (arg 0 < 3 → s.idle = false → answers .setMode s 1) ∧
      (s.idle = true → (arg 0 = 0 → answers .setMode { s with mode := .whole } 0) ∧ (arg 0 = 1 → answers .setMode { s with mode := .halves } 0) ∧
        (arg 0 = 2 → answers .setMode { s with mode := .quarters } 0))) ∧
    (s.mbCmd = 2 → (arg 0 = 0 ∨ 64 ≤ arg 0 ∨ s.mode.hasPart (arg 1) = false → answers .assignContext s 5) ∧
      (arg 0 ≠ 0 → arg 0 < 64 → s.mode.hasPart (arg 1) = true →
        (s.hasGroups (arg 0) = true → answers .assignContext s 2) ∧
        (s.hasGroups (arg 0) = false → answers .assignContext (s.ctxasgWrite (arg 0) (BitVec.ofNat 64 (2 ^ 31 + arg 1))) 0))) ∧
    (s.mbCmd = 3 →
      let cb : W64 := Sparse.get 0 s.mbArg 2
      let k := qkey (arg 0) (arg 1)
      let ro := s.vaWords 0 cb.toNat 16
      let q := s.queue k
      (s.mode.hasPart (arg 0) = false ∨ 64 ≤ arg 1 → answers .enableQueue s 5) ∧
      (s.mode.hasPart (arg 0) = true → arg 1 < 64 →
        (s.enableFails (arg 0) (arg 1) ro = true → answers .enableQueue s 3) ∧
        (s.enableFails (arg 0) (arg 1) ro = false → (s.enabling k cb ro).2 = none → ∃ t, exec .enableQueue s = .next t ∧
          t.queue k = (s.enabling k cb ro).1 ∧ (∀ j, j ≠ k → t.queue j = s.queue j) ∧ t.mbSt = 0 ∧ t.mbCmd = 0) ∧
        (∀ i, s.enableFails (arg 0) (arg 1) ro = false → (s.enabling k cb ro).2 = some i → ∃ t, exec .enableQueue s = .next t ∧ (t.queue k).qst = 5 ∧
          (t.queue k).hrsn = 9 ∧ (t.queue k).hoff = BitVec.ofNat 64 i ∧ t.mbSt = 4 ∧ t.mbCmd = 0) ∧
        (s.enableFails (arg 0) (arg 1) ro = false →
          let ctx := (ro.getD 1 0).toNat / 2 ^ 8 % 2 ^ 6
          (ro.getD 1 0).toNat / 2 ^ 14 % 4 = arg 0 ∧ (ctx = 0 → Config.tenantQueue (arg 0) (arg 1) = false) ∧
            (ctx ≠ 0 → (s.ctx ctx).asg = true ∧ (s.ctx ctx).part = arg 0)) ∧
        (s.enabling k cb ro).1.cur = 0 ∧
        (q.qst ≠ 4 ∨ q.cb ≠ cb → ro.getD 2 0 = s.stdProg →
          s.enabling k cb ro = ({ cb := cb, ro := ro, qst := 1, kick := s.kickKey ro, std := true, table := stdTable }, none)))) ∧
    (s.mbCmd = 4 →
      let k := qkey (arg 0) (arg 1)
      (s.mode.hasPart (arg 0) = false ∨ 64 ≤ arg 1 → answers .disableQueue s 5) ∧
      (s.mode.hasPart (arg 0) = true → arg 1 < 64 →
        ((s.queue k).working = true → exec .disableQueue s = .next s) ∧
        ((s.queue k).working = false → ∃ t, exec .disableQueue s = .next t ∧ (t.queue k).qst = 0 ∧ (t.queue k).it = none ∧
          (t.queue k).kick = none ∧ (∀ j, j ≠ k → t.queue j = s.queue j) ∧ t.mbSt = 0 ∧ t.mbCmd = 0))) ∧
    (s.mbCmd = 5 → (s.mode.hasPart (arg 0) = false ∨ arg 2 < 4 ∨ 12 < arg 2 ∨ 65536 ≤ arg 3 → answers .errorLog s 5) ∧
      (s.mode.hasPart (arg 0) = true → 4 ≤ arg 2 → arg 2 ≤ 12 → arg 3 < 65536 →
        let r : ErrRing := { set := true, base := Sparse.get 0 s.mbArg 1, lsz := arg 2, vec := arg 3 }
        answers .errorLog { s with err := Sparse.put s.err (arg 0) r } 0)) ∧
    (5 < s.mbCmd.toNat → answers .unknownCommand s 0xFF))
end

