-- ==== Sys2Proof/Laws/Decode.lean ====
section
/-!
SUPPORT. Decoding one opcode at a time: the rules an opcode's word must keep and the instruction it reads, and the small laws of field values
that a proof about decoding uses.
-/
namespace Sys2Proof

/-- A fold that keeps the first element found keeps one. -/
theorem fold_some (F : Option DecodeError → DecodeError → Option DecodeError) (hF : ∀ x e, ∃ y, F (some x) e = some y)
    (l : List DecodeError) (x : DecodeError) : ∃ y, l.foldl F (some x) = some y := by
  induction l generalizing x with
  | nil => exact ⟨x, rfl⟩
  | cons e l ih => obtain ⟨y, hy⟩ := hF x e; rw [List.foldl_cons, hy]; exact ih y

/-- A word breaks no rule exactly when its list is empty. -/
theorem lowest_none (l : List DecodeError) : lowest l = none ↔ l = [] := by
  cases l with
  | nil => simp [lowest]
  | cons e l =>
    obtain ⟨y, hy⟩ := fold_some (fun m e => match m with
      | none => some e
      | some x => if e.subcause < x.subcause then some e else some x)
      (by intro x e; dsimp only; split <;> exact ⟨_, rfl⟩) l e
    constructor
    · intro h; have h2 : some y = none := hy.symm.trans h; cases h2
    · intro h; cases h

theorem need_nil (e : DecodeError) (ok : Bool) : need e ok = [] ↔ ok = true := by cases ok <;> simp [need]

/-- Decoding, from the rules of an opcode, its instruction, and that no rule is broken. -/
theorem decodeFields_ok (W : Nat) (b : Bool) (f : Fields) (l : List DecodeError) (i : Instr) (hb : broken W f = some l)
    (hi : f.instr = some i) (hl : lowest (l ++ need .inBlock (!(b && notInBlock f.op.toNat))) = none) :
    decodeFields W b f = .ok i := by
  simp only [decodeFields, hb, hl, hi]

theorem okS_setWidth (r : SReg) : okS (r.setWidth 8) = true := by
  have := r.isLt; simp only [okS, BitVec.toNat_setWidth, decide_eq_true_eq]; omega
theorem okP_setWidth (r : PReg) : okP (r.setWidth 8) = true := by
  have := r.isLt; simp only [okP, BitVec.toNat_setWidth, decide_eq_true_eq]; omega
theorem setWidth_back {k : Nat} (h : k ≤ 8) (r : BitVec k) : BitVec.setWidth k (BitVec.setWidth 8 r) = r := by
  apply BitVec.eq_of_toNat_eq
  have h1 := r.isLt
  have h2 : 2 ^ k ≤ 2 ^ 8 := Nat.pow_le_pow_right (by decide) h
  simp only [BitVec.toNat_setWidth]
  rw [Nat.mod_eq_of_lt (a := r.toNat) (by omega), Nat.mod_eq_of_lt h1]

/-- The type rule on a word that carries a type's own code. -/
theorem tyIn_code (l : List Ty) (f : Fields) (t : Ty) (h : f.ty = BitVec.ofNat 4 t.code) :
    tyIn l f = need .badValue (l.contains t) := by
  unfold tyIn codeIn; rw [h]; congr 1
  induction l with
  | nil => rfl
  | cons x l ih =>
    simp only [List.map_cons, List.contains_cons, ih]; congr 1
    cases x <;> cases t <;> rfl
theorem ofCode_code (t : Ty) : Ty.ofCode (BitVec.ofNat 4 t.code).toNat = some t := by cases t <;> rfl
theorem wide_code (t : Ty) : codeIn (BitVec.ofNat 4 t.code) [2, 3, 5] = t.is64 := by cases t <;> rfl
theorem orderOf_code (o : Order) (s : Scope) : orderOf ((BitVec.ofNat 4 (o.code + 4 * s.code)).toNat % 4) = o := by
  cases o <;> cases s <;> rfl
theorem scopeOf_code (o : Order) (s : Scope) : scopeOf ((BitVec.ofNat 4 (o.code + 4 * s.code)).toNat / 4) = s := by
  cases o <;> cases s <;> rfl
theorem rmOf_code (m : Rm) : rmOf (BitVec.ofNat 4 m.code).toNat = m := by cases m <;> rfl
theorem rm_code_le (m : Rm) : (BitVec.ofNat 4 m.code).toNat ≤ 4 := by cases m <;> decide

/-! ### Opcodes -/

theorem broken_00 (W : Nat) (f : Fields) (h : f.op = 0x00) :
        broken W f = some (laNone f ++ tyNone f ++ fnNone f ++ moNone f ++ scIs false f ++ (need .badValue (!f.ht) ++ len2 f ++
      dNone f ++ noABC f)) := by
    unfold broken; rw [h]; rfl

theorem instr_00 (f : Fields) (h : f.op = 0x00) : f.instr = (some .nop) := by
    unfold Fields.instr; rw [h]; rfl

theorem broken_01 (W : Nat) (f : Fields) (h : f.op = 0x01) :
        broken W f = some (laNone f ++ tyNone f ++ fnNone f ++ moNone f ++ scIs false f ++ (need .badValue (!f.ht) ++ len2 f ++
      lowBits 3 f.dst ++ need .badValue (!f.xfsa) ++ lowBits 3 f.sa ++ need .badValue (!f.xfsb) ++ lowBits (f.sa.toNat % 8 + 1)
      f.sb ++ cNone f)) := by
    unfold broken; rw [h]; rfl

theorem instr_01 (f : Fields) (h : f.op = 0x01) : f.instr = (some (.pb f.pD (f.sa.setWidth 3) f.sb)) := by
    unfold Fields.instr; rw [h]; rfl

theorem broken_02 (W : Nat) (f : Fields) (h : f.op = 0x02) :
        broken W f = some (laNone f ++ tyNone f ++ fnNone f ++ moNone f ++ scIs false f ++ (len3 f ++ dNone f ++ noABC f ++
      shapeOff f.imm)) := by
    unfold broken; rw [h]; rfl

theorem instr_02 (f : Fields) (h : f.op = 0x02) : f.instr = (some (.bra f.ht f.imm)) := by
    unfold Fields.instr; rw [h]; rfl

theorem broken_03 (W : Nat) (f : Fields) (h : f.op = 0x03) :
        broken W f = some (laNone f ++ tyNone f ++ fnNone f ++ moNone f ++ scIs false f ++ (len3 f ++ dNone f ++ aP f ++ bNone f
      ++ cNone f ++ shapeOff f.imm)) := by
    unfold broken; rw [h]; rfl

theorem instr_03 (f : Fields) (h : f.op = 0x03) : f.instr = (some (.brp f.ht f.pA f.imm)) := by
    unfold Fields.instr; rw [h]; rfl

theorem broken_04 (W : Nat) (f : Fields) (h : f.op = 0x04) :
        broken W f = some (laNone f ++ tyIn Ty.wide f ++ fnIn [0, 1, 2, 3, 4, 5] f ++ moNone f ++ scIs true f ++ dNone f ++ aS f
      ++ cNone f ++ need .badValue ((f.len == 3 && !f.xfib && f.xfsb) || (f.len == 4 && f.xfib && !f.xfsb)) ++ (if f.xfib then
      need .notZero (f.sb == 0) else need .badRegister (okS f.sb)) ++ shapeOff (if f.len == 4 then f.immb else f.imm)) := by
    unfold broken; rw [h]; rfl

theorem instr_04 (f : Fields) (t : Ty) (h : f.op = 0x04) (ht : Ty.ofCode f.ty.toNat = some t) :
        f.instr = (some (if f.xfib then .brsImm f.ht (condOf f.fn.toNat) t f.sA f.imm f.immb else .brs f.ht (condOf f.fn.toNat) t
      f.sA f.sB f.imm)) := by
    unfold Fields.instr; rw [h, ht]; rfl

theorem broken_05 (W : Nat) (f : Fields) (h : f.op = 0x05) :
        broken W f = some (laNone f ++ tyNone f ++ fnNone f ++ moNone f ++ scIs false f ++ (len2 f ++ dNone f ++ aVS false f ++
      bNone f ++ cNone f)) := by
    unfold broken; rw [h]; rfl

theorem instr_05 (f : Fields) (h : f.op = 0x05) : f.instr = (some (.brx f.ht f.srcA)) := by
    unfold Fields.instr; rw [h]; rfl

theorem broken_06 (W : Nat) (f : Fields) (h : f.op = 0x06) :
        broken W f = some (laNone f ++ tyNone f ++ fnNone f ++ moNone f ++ scIs false f ++ (need .badValue (!f.ht) ++ len3 f ++
      dNone f ++ noABC f ++ shapeOff f.imm)) := by
    unfold broken; rw [h]; rfl

theorem instr_06 (f : Fields) (h : f.op = 0x06) : f.instr = (some (.call f.imm)) := by
    unfold Fields.instr; rw [h]; rfl

theorem broken_07 (W : Nat) (f : Fields) (h : f.op = 0x07) :
        broken W f = some (laNone f ++ tyNone f ++ fnNone f ++ moNone f ++ scIs false f ++ (need .badValue (!f.ht) ++ len2 f ++
      dNone f ++ aS f ++ bNone f ++ cNone f)) := by
    unfold broken; rw [h]; rfl

theorem instr_07 (f : Fields) (h : f.op = 0x07) : f.instr = (some (.callx f.sA)) := by
    unfold Fields.instr; rw [h]; rfl

theorem broken_08 (W : Nat) (f : Fields) (h : f.op = 0x08) :
        broken W f = some (laNone f ++ tyNone f ++ fnNone f ++ moNone f ++ scIs false f ++ (need .badValue (!f.ht) ++ len2 f ++
      dNone f ++ noABC f)) := by
    unfold broken; rw [h]; rfl

theorem instr_08 (f : Fields) (h : f.op = 0x08) : f.instr = (some .ret) := by
    unfold Fields.instr; rw [h]; rfl

theorem broken_09 (W : Nat) (f : Fields) (h : f.op = 0x09) :
        broken W f = some (laNone f ++ tyNone f ++ fnNone f ++ moNone f ++ scIs false f ++ (need .badValue (!f.ht) ++ len2 f ++
      dNone f ++ aS f ++ bNone f ++ cNone f)) := by
    unfold broken; rw [h]; rfl

theorem instr_09 (f : Fields) (h : f.op = 0x09) : f.instr = (some (.regang f.sA)) := by
    unfold Fields.instr; rw [h]; rfl

theorem broken_0A (W : Nat) (f : Fields) (h : f.op = 0x0A) :
        broken W f = some (laNone f ++ tyNone f ++ fnNone f ++ moNone f ++ scIs false f ++ (need .badValue (!f.ht) ++ len2 f ++
      dNone f ++ noABC f)) := by
    unfold broken; rw [h]; rfl

theorem instr_0A (f : Fields) (h : f.op = 0x0A) : f.instr = (some .yield) := by
    unfold Fields.instr; rw [h]; rfl

theorem broken_0B (W : Nat) (f : Fields) (h : f.op = 0x0B) :
        broken W f = some (laNone f ++ tyNone f ++ fnNone f ++ moNone f ++ scIs false f ++ (need .badValue (!f.ht) ++ len2 f ++
      dNone f ++ noABC f)) := by
    unfold broken; rw [h]; rfl

theorem instr_0B (f : Fields) (h : f.op = 0x0B) : f.instr = (some .exit) := by
    unfold Fields.instr; rw [h]; rfl

theorem broken_0C (W : Nat) (f : Fields) (h : f.op = 0x0C) :
        broken W f = some (laNone f ++ tyNone f ++ fnNone f ++ moNone f ++ scIs false f ++ (need .badValue (!f.ht) ++ len2 f ++
      dNone f ++ aNone f ++ bNone f ++ cI 255 f)) := by
    unfold broken; rw [h]; rfl

theorem instr_0C (f : Fields) (h : f.op = 0x0C) : f.instr = (some (.trap f.scf)) := by
    unfold Fields.instr; rw [h]; rfl

theorem broken_0D (W : Nat) (f : Fields) (h : f.op = 0x0D) :
        broken W f = some (laNone f ++ tyNone f ++ fnNone f ++ moNone f ++ scIs false f ++ (need .badValue (!f.ht) ++ len2 f ++
      dNone f ++ aNone f ++ bNone f ++ cI 255 f)) := by
    unfold broken; rw [h]; rfl

theorem instr_0D (f : Fields) (h : f.op = 0x0D) : f.instr = (some (.brk f.scf)) := by
    unfold Fields.instr; rw [h]; rfl

theorem broken_0E (W : Nat) (f : Fields) (h : f.op = 0x0E) :
        broken W f = some (laNone f ++ tyNone f ++ fnNone f ++ moNone f ++ scIs false f ++ (need .badValue (!f.ht) ++ len2 f ++
      dNone f ++ aNone f ++ bNone f ++ cI 255 f)) := by
    unfold broken; rw [h]; rfl

theorem instr_0E (f : Fields) (h : f.op = 0x0E) : f.instr = (some (.enter f.scf)) := by
    unfold Fields.instr; rw [h]; rfl

theorem broken_0F (W : Nat) (f : Fields) (h : f.op = 0x0F) :
        broken W f = some (laNone f ++ tyNone f ++ fnNone f ++ moNone f ++ scIs false f ++ (need .badValue (!f.ht) ++ len2 f ++
      dNone f ++ aNone f ++ bNone f ++ cI 255 f)) := by
    unfold broken; rw [h]; rfl

theorem instr_0F (f : Fields) (h : f.op = 0x0F) : f.instr = (some (.leave f.scf)) := by
    unfold Fields.instr; rw [h]; rfl

theorem broken_10 (W : Nat) (f : Fields) (h : f.op = 0x10) :
        broken W f = some (need .badValue (!f.ht) ++ laNone f ++ (fnNone f ++ int2 Ty.ints true f ++ cNone f)) := by
    unfold broken; rw [h]; rfl

theorem instr_10 (f : Fields) (t : Ty) (h : f.op = 0x10) (ht : Ty.ofCode f.ty.toNat = some t) :
        f.instr = (some (.add t f.dest f.srcA f.srcB)) := by
    unfold Fields.instr; rw [h, ht]; rfl

theorem broken_11 (W : Nat) (f : Fields) (h : f.op = 0x11) :
        broken W f = some (need .badValue (!f.ht) ++ laNone f ++ (fnNone f ++ int2 Ty.ints true f ++ cNone f)) := by
    unfold broken; rw [h]; rfl

theorem instr_11 (f : Fields) (t : Ty) (h : f.op = 0x11) (ht : Ty.ofCode f.ty.toNat = some t) :
        f.instr = (some (.sub t f.dest f.srcA f.srcB)) := by
    unfold Fields.instr; rw [h, ht]; rfl

theorem broken_12 (W : Nat) (f : Fields) (h : f.op = 0x12) :
        broken W f = some (need .badValue (!f.ht) ++ laNone f ++ (fnNone f ++ int2 Ty.ints true f ++ cNone f)) := by
    unfold broken; rw [h]; rfl

theorem instr_12 (f : Fields) (t : Ty) (h : f.op = 0x12) (ht : Ty.ofCode f.ty.toNat = some t) :
        f.instr = (some (.mul t f.dest f.srcA f.srcB)) := by
    unfold Fields.instr; rw [h, ht]; rfl

theorem broken_13 (W : Nat) (f : Fields) (h : f.op = 0x13) :
        broken W f = some (need .badValue (!f.ht) ++ laNone f ++ (fnNone f ++ int2 Ty.wide true f ++ cNone f)) := by
    unfold broken; rw [h]; rfl

theorem instr_13 (f : Fields) (t : Ty) (h : f.op = 0x13) (ht : Ty.ofCode f.ty.toNat = some t) :
        f.instr = (some (.mulhi t f.dest f.srcA f.srcB)) := by
    unfold Fields.instr; rw [h, ht]; rfl

theorem broken_14 (W : Nat) (f : Fields) (h : f.op = 0x14) :
        broken W f = some (need .badValue (!f.ht) ++ laNone f ++ (fnNone f ++ int2 Ty.ints true f ++ cSC f.wide f)) := by
    unfold broken; rw [h]; rfl

theorem instr_14 (f : Fields) (t : Ty) (h : f.op = 0x14) (ht : Ty.ofCode f.ty.toNat = some t) :
        f.instr = (some (.mad t f.dest f.srcA f.srcB f.srcC)) := by
    unfold Fields.instr; rw [h, ht]; rfl

theorem broken_15 (W : Nat) (f : Fields) (h : f.op = 0x15) :
        broken W f = some (need .badValue (!f.ht) ++ laNone f ++ (fnNone f ++ tyIn [.n32, .s32] f ++ moNone f ++ len23 f ++ dSC
      true f ++ aSC false f ++ bSC false f ++ cSC true f)) := by
    unfold broken; rw [h]; rfl

theorem instr_15 (f : Fields) (t : Ty) (h : f.op = 0x15) (ht : Ty.ofCode f.ty.toNat = some t) :
        f.instr = (some (.madw t f.dest f.srcA f.srcB f.srcC)) := by
    unfold Fields.instr; rw [h, ht]; rfl

theorem broken_16 (W : Nat) (f : Fields) (h : f.op = 0x16) :
        broken W f = some (need .badValue (!f.ht) ++ (fnNone f ++ int2 Ty.ints true f ++ cNone f)) := by
    unfold broken; rw [h]; rfl

theorem instr_16 (f : Fields) (t : Ty) (h : f.op = 0x16) (ht : Ty.ofCode f.ty.toNat = some t) :
        f.instr = (some (.div f.la t f.dest f.srcA f.srcB)) := by
    unfold Fields.instr; rw [h, ht]; rfl

theorem broken_17 (W : Nat) (f : Fields) (h : f.op = 0x17) :
        broken W f = some (need .badValue (!f.ht) ++ (fnNone f ++ int2 Ty.ints true f ++ cNone f)) := by
    unfold broken; rw [h]; rfl

theorem instr_17 (f : Fields) (t : Ty) (h : f.op = 0x17) (ht : Ty.ofCode f.ty.toNat = some t) :
        f.instr = (some (.rem f.la t f.dest f.srcA f.srcB)) := by
    unfold Fields.instr; rw [h, ht]; rfl

theorem broken_18 (W : Nat) (f : Fields) (h : f.op = 0x18) :
        broken W f = some (need .badValue (!f.ht) ++ laNone f ++ (fnNone f ++ int2 Ty.ints true f ++ cNone f)) := by
    unfold broken; rw [h]; rfl

theorem instr_18 (f : Fields) (t : Ty) (h : f.op = 0x18) (ht : Ty.ofCode f.ty.toNat = some t) :
        f.instr = (some (.min t f.dest f.srcA f.srcB)) := by
    unfold Fields.instr; rw [h, ht]; rfl

theorem broken_19 (W : Nat) (f : Fields) (h : f.op = 0x19) :
        broken W f = some (need .badValue (!f.ht) ++ laNone f ++ (fnNone f ++ int2 Ty.ints true f ++ cNone f)) := by
    unfold broken; rw [h]; rfl

theorem instr_19 (f : Fields) (t : Ty) (h : f.op = 0x19) (ht : Ty.ofCode f.ty.toNat = some t) :
        f.instr = (some (.max t f.dest f.srcA f.srcB)) := by
    unfold Fields.instr; rw [h, ht]; rfl

theorem broken_1A (W : Nat) (f : Fields) (h : f.op = 0x1A) :
        broken W f = some (need .badValue (!f.ht) ++ laNone f ++ (int1 [.s32, .s64, .s16, .s8] true f)) := by
    unfold broken; rw [h]; rfl

theorem instr_1A (f : Fields) (t : Ty) (h : f.op = 0x1A) (ht : Ty.ofCode f.ty.toNat = some t) :
        f.instr = (some (.abs t f.dest f.srcA)) := by
    unfold Fields.instr; rw [h, ht]; rfl

theorem broken_1B (W : Nat) (f : Fields) (h : f.op = 0x1B) :
        broken W f = some (need .badValue (!f.ht) ++ laNone f ++ (int1 Ty.ints true f)) := by
    unfold broken; rw [h]; rfl

theorem instr_1B (f : Fields) (t : Ty) (h : f.op = 0x1B) (ht : Ty.ofCode f.ty.toNat = some t) :
        f.instr = (some (.neg t f.dest f.srcA)) := by
    unfold Fields.instr; rw [h, ht]; rfl

theorem broken_1C (W : Nat) (f : Fields) (h : f.op = 0x1C) :
        broken W f = some (need .badValue (!f.ht) ++ laNone f ++ (fnNone f ++ int2 [.n32, .n64] true f ++ scIs false f ++ cP f))
      := by
    unfold broken; rw [h]; rfl

theorem instr_1C (f : Fields) (t : Ty) (h : f.op = 0x1C) (ht : Ty.ofCode f.ty.toNat = some t) :
        f.instr = (some (.addc t f.dst f.srcA f.srcB f.pC)) := by
    unfold Fields.instr; rw [h, ht]; rfl

theorem broken_1D (W : Nat) (f : Fields) (h : f.op = 0x1D) :
        broken W f = some (need .badValue (!f.ht) ++ laNone f ++ (fnNone f ++ int2 [.n32, .n64] true f ++ scIs false f ++ cP f))
      := by
    unfold broken; rw [h]; rfl

theorem instr_1D (f : Fields) (t : Ty) (h : f.op = 0x1D) (ht : Ty.ofCode f.ty.toNat = some t) :
        f.instr = (some (.subb t f.dst f.srcA f.srcB f.pC)) := by
    unfold Fields.instr; rw [h, ht]; rfl

theorem broken_1E (W : Nat) (f : Fields) (h : f.op = 0x1E) :
        broken W f = some (need .badValue (!f.ht) ++ laNone f ++ (int1 Ty.bitss false f)) := by
    unfold broken; rw [h]; rfl

theorem instr_1E (f : Fields) (t : Ty) (h : f.op = 0x1E) (ht : Ty.ofCode f.ty.toNat = some t) :
        f.instr = (some (.clz t f.dest f.srcA)) := by
    unfold Fields.instr; rw [h, ht]; rfl

theorem broken_1F (W : Nat) (f : Fields) (h : f.op = 0x1F) :
        broken W f = some (need .badValue (!f.ht) ++ laNone f ++ (int1 Ty.bitss false f)) := by
    unfold broken; rw [h]; rfl

theorem instr_1F (f : Fields) (t : Ty) (h : f.op = 0x1F) (ht : Ty.ofCode f.ty.toNat = some t) :
        f.instr = (some (.popc t f.dest f.srcA)) := by
    unfold Fields.instr; rw [h, ht]; rfl

theorem broken_20 (W : Nat) (f : Fields) (h : f.op = 0x20) :
        broken W f = some (need .badValue (!f.ht) ++ laNone f ++ (fnNone f ++ int2 Ty.bitss true f ++ cNone f)) := by
    unfold broken; rw [h]; rfl

theorem instr_20 (f : Fields) (t : Ty) (h : f.op = 0x20) (ht : Ty.ofCode f.ty.toNat = some t) :
        f.instr = (some (.and t f.dest f.srcA f.srcB)) := by
    unfold Fields.instr; rw [h, ht]; rfl

theorem broken_21 (W : Nat) (f : Fields) (h : f.op = 0x21) :
        broken W f = some (need .badValue (!f.ht) ++ laNone f ++ (fnNone f ++ int2 Ty.bitss true f ++ cNone f)) := by
    unfold broken; rw [h]; rfl

theorem instr_21 (f : Fields) (t : Ty) (h : f.op = 0x21) (ht : Ty.ofCode f.ty.toNat = some t) :
        f.instr = (some (.or t f.dest f.srcA f.srcB)) := by
    unfold Fields.instr; rw [h, ht]; rfl

theorem broken_22 (W : Nat) (f : Fields) (h : f.op = 0x22) :
        broken W f = some (need .badValue (!f.ht) ++ laNone f ++ (fnNone f ++ int2 Ty.bitss true f ++ cNone f)) := by
    unfold broken; rw [h]; rfl

theorem instr_22 (f : Fields) (t : Ty) (h : f.op = 0x22) (ht : Ty.ofCode f.ty.toNat = some t) :
        f.instr = (some (.xor t f.dest f.srcA f.srcB)) := by
    unfold Fields.instr; rw [h, ht]; rfl

theorem broken_23 (W : Nat) (f : Fields) (h : f.op = 0x23) :
        broken W f = some (need .badValue (!f.ht) ++ laNone f ++ (int1 Ty.bitss true f)) := by
    unfold broken; rw [h]; rfl

theorem instr_23 (f : Fields) (t : Ty) (h : f.op = 0x23) (ht : Ty.ofCode f.ty.toNat = some t) :
        f.instr = (some (.not t f.dest f.srcA)) := by
    unfold Fields.instr; rw [h, ht]; rfl

theorem broken_24 (W : Nat) (f : Fields) (h : f.op = 0x24) :
        broken W f = some (need .badValue (!f.ht) ++ laNone f ++ (fnNone f ++ int2 Ty.bitss true f ++ cNone f)) := by
    unfold broken; rw [h]; rfl

theorem instr_24 (f : Fields) (t : Ty) (h : f.op = 0x24) (ht : Ty.ofCode f.ty.toNat = some t) :
        f.instr = (some (.andn t f.dest f.srcA f.srcB)) := by
    unfold Fields.instr; rw [h, ht]; rfl

theorem broken_25 (W : Nat) (f : Fields) (h : f.op = 0x25) :
        broken W f = some (need .badValue (!f.ht) ++ laNone f ++ (fnNone f ++ int2 Ty.ints false f ++ cNone f)) := by
    unfold broken; rw [h]; rfl

theorem instr_25 (f : Fields) (t : Ty) (h : f.op = 0x25) (ht : Ty.ofCode f.ty.toNat = some t) :
        f.instr = (some (.shl t f.dest f.srcA f.srcB)) := by
    unfold Fields.instr; rw [h, ht]; rfl

theorem broken_26 (W : Nat) (f : Fields) (h : f.op = 0x26) :
        broken W f = some (need .badValue (!f.ht) ++ laNone f ++ (fnNone f ++ int2 Ty.ints false f ++ cNone f)) := by
    unfold broken; rw [h]; rfl

theorem instr_26 (f : Fields) (t : Ty) (h : f.op = 0x26) (ht : Ty.ofCode f.ty.toNat = some t) :
        f.instr = (some (.shr t f.dest f.srcA f.srcB)) := by
    unfold Fields.instr; rw [h, ht]; rfl

theorem broken_27 (W : Nat) (f : Fields) (h : f.op = 0x27) :
        broken W f = some (need .badValue (!f.ht) ++ laNone f ++ (fnNone f ++ int2 Ty.ints false f ++ cNone f)) := by
    unfold broken; rw [h]; rfl

theorem instr_27 (f : Fields) (t : Ty) (h : f.op = 0x27) (ht : Ty.ofCode f.ty.toNat = some t) :
        f.instr = (some (.sar t f.dest f.srcA f.srcB)) := by
    unfold Fields.instr; rw [h, ht]; rfl

theorem broken_28 (W : Nat) (f : Fields) (h : f.op = 0x28) :
        broken W f = some (need .badValue (!f.ht) ++ laNone f ++ (fnIn [0, 1] f ++ int2 Ty.bitss false f ++ cNone f)) := by
    unfold broken; rw [h]; rfl

theorem instr_28 (f : Fields) (t : Ty) (h : f.op = 0x28) (ht : Ty.ofCode f.ty.toNat = some t) :
        f.instr = (some (.rot (f.fn == 1) t f.dest f.srcA f.srcB)) := by
    unfold Fields.instr; rw [h, ht]; rfl

theorem broken_29 (W : Nat) (f : Fields) (h : f.op = 0x29) :
        broken W f = some (need .badValue (!f.ht) ++ laNone f ++ (fnNone f ++ int2 Ty.wide false f ++ cSC false f)) := by
    unfold broken; rw [h]; rfl

theorem instr_29 (f : Fields) (t : Ty) (h : f.op = 0x29) (ht : Ty.ofCode f.ty.toNat = some t) :
        f.instr = (some (.bfx t f.dest f.srcA f.srcB f.srcC)) := by
    unfold Fields.instr; rw [h, ht]; rfl

theorem broken_2A (W : Nat) (f : Fields) (h : f.op = 0x2A) :
        broken W f = some (need .badValue (!f.ht) ++ laNone f ++ (fnNone f ++ int2 Ty.bitss false f ++ cSC false f)) := by
    unfold broken; rw [h]; rfl

theorem instr_2A (f : Fields) (t : Ty) (h : f.op = 0x2A) (ht : Ty.ofCode f.ty.toNat = some t) :
        f.instr = (some (.bfi t f.dest f.srcA f.srcB f.srcC)) := by
    unfold Fields.instr; rw [h, ht]; rfl

theorem broken_2B (W : Nat) (f : Fields) (h : f.op = 0x2B) :
        broken W f = some (need .badValue (!f.ht) ++ laNone f ++ (int1 Ty.bitss true f)) := by
    unfold broken; rw [h]; rfl

theorem instr_2B (f : Fields) (t : Ty) (h : f.op = 0x2B) (ht : Ty.ofCode f.ty.toNat = some t) :
        f.instr = (some (.brev t f.dest f.srcA)) := by
    unfold Fields.instr; rw [h, ht]; rfl

theorem broken_2C (W : Nat) (f : Fields) (h : f.op = 0x2C) :
        broken W f = some (need .badValue (!f.ht) ++ laNone f ++ (fnNone f ++ int2 Ty.bitss true f ++ scIs false f ++ cP f)) := by
    unfold broken; rw [h]; rfl

theorem instr_2C (f : Fields) (t : Ty) (h : f.op = 0x2C) (ht : Ty.ofCode f.ty.toNat = some t) :
        f.instr = (some (.sel t f.dst f.srcA f.srcB f.pC)) := by
    unfold Fields.instr; rw [h, ht]; rfl

theorem broken_2D (W : Nat) (f : Fields) (h : f.op = 0x2D) :
        broken W f = some (need .badValue (!f.ht) ++ laNone f ++ (int1 Ty.bitss true f)) := by
    unfold broken; rw [h]; rfl

theorem instr_2D (f : Fields) (t : Ty) (h : f.op = 0x2D) (ht : Ty.ofCode f.ty.toNat = some t) :
        f.instr = (some (.mov t f.dest f.srcA)) := by
    unfold Fields.instr; rw [h, ht]; rfl

theorem broken_2E (W : Nat) (f : Fields) (h : f.op = 0x2E) :
        broken W f = some (need .badValue (!f.ht) ++ laNone f ++ (fnNone f ++ moNone f ++ dSC f.wide f ++ aNone f ++ cNone f ++
      need .badValue (!f.xfsb) ++ need .notZero (f.sb == 0) ++ need .badValue (f.xfib && (f.len == 3 || f.len == 4)) ++ tyIn (if
      f.len == 4 then [.n64, .s64, .f64] else [.n32, .s32, .n64, .s64, .b32, .f32]) f)) := by
    unfold broken; rw [h]; rfl

theorem instr_2E (f : Fields) (t : Ty) (h : f.op = 0x2E) (ht : Ty.ofCode f.ty.toNat = some t) :
        f.instr = (some (if f.len == 4 then .moviWide t f.dest (f.immb ++ f.imm) else .movi t f.dest f.imm)) := by
    unfold Fields.instr; rw [h, ht]; rfl

theorem broken_2F (W : Nat) (f : Fields) (h : f.op = 0x2F) :
        broken W f = some (need .badValue (!f.ht) ++ laNone f ++ (fnNone f ++ int2 [.n64, .n32] false f ++ cI 7 f)) := by
    unfold broken; rw [h]; rfl

theorem instr_2F (f : Fields) (t : Ty) (h : f.op = 0x2F) (ht : Ty.ofCode f.ty.toNat = some t) :
        f.instr = (some (.lea t f.dest f.srcA f.srcB (f.scf.setWidth 3))) := by
    unfold Fields.instr; rw [h, ht]; rfl

theorem broken_30 (W : Nat) (f : Fields) (h : f.op = 0x30) :
        broken W f = some (need .badValue (!f.ht) ++ laNone f ++ (tyIn Ty.ints f ++ fnIn [0, 1, 2, 3, 4, 5] f ++ moNone f ++ len23
      f ++ scIs false f ++ dP f ++ aVS f.wide f ++ bVSI f.wide f ++ cNone f)) := by
    unfold broken; rw [h]; rfl

theorem instr_30 (f : Fields) (t : Ty) (h : f.op = 0x30) (ht : Ty.ofCode f.ty.toNat = some t) :
        f.instr = (some (.cmp (condOf f.fn.toNat) t f.pD f.srcA f.srcB)) := by
    unfold Fields.instr; rw [h, ht]; rfl

theorem broken_31 (W : Nat) (f : Fields) (h : f.op = 0x31) :
        broken W f = some (need .badValue (!f.ht) ++ laNone f ++ (tyIn Ty.floats1 f ++ fnIn [0, 1, 2, 3, 4, 5, 6, 7] f ++ moRound
      f ++ len23 f ++ scIs false f ++ dP f ++ aVS f.wide f ++ bVSI f.wide f ++ cNone f)) := by
    unfold broken; rw [h]; rfl

theorem instr_31 (f : Fields) (t : Ty) (h : f.op = 0x31) (ht : Ty.ofCode f.ty.toNat = some t) :
        f.instr = (some (.cmpf (fcondOf f.fn.toNat) f.rm t f.pD f.srcA f.srcB)) := by
    unfold Fields.instr; rw [h, ht]; rfl

theorem broken_32 (W : Nat) (f : Fields) (h : f.op = 0x32) :
        broken W f = some (laNone f ++ tyNone f ++ fnNone f ++ moNone f ++ scIs false f ++ (need .badValue (!f.ht) ++ len2 f ++ dP
      f ++ aP f ++ bP f ++ cNone f)) := by
    unfold broken; rw [h]; rfl

theorem instr_32 (f : Fields) (h : f.op = 0x32) : f.instr = (some (.pand f.pD f.pA f.pB)) := by
    unfold Fields.instr; rw [h]; rfl

theorem broken_33 (W : Nat) (f : Fields) (h : f.op = 0x33) :
        broken W f = some (laNone f ++ tyNone f ++ fnNone f ++ moNone f ++ scIs false f ++ (need .badValue (!f.ht) ++ len2 f ++ dP
      f ++ aP f ++ bP f ++ cNone f)) := by
    unfold broken; rw [h]; rfl

theorem instr_33 (f : Fields) (h : f.op = 0x33) : f.instr = (some (.por f.pD f.pA f.pB)) := by
    unfold Fields.instr; rw [h]; rfl

theorem broken_34 (W : Nat) (f : Fields) (h : f.op = 0x34) :
        broken W f = some (laNone f ++ tyNone f ++ fnNone f ++ moNone f ++ scIs false f ++ (need .badValue (!f.ht) ++ len2 f ++ dP
      f ++ aP f ++ bP f ++ cNone f)) := by
    unfold broken; rw [h]; rfl

theorem instr_34 (f : Fields) (h : f.op = 0x34) : f.instr = (some (.pxor f.pD f.pA f.pB)) := by
    unfold Fields.instr; rw [h]; rfl

theorem broken_35 (W : Nat) (f : Fields) (h : f.op = 0x35) :
        broken W f = some (laNone f ++ tyNone f ++ fnNone f ++ moNone f ++ scIs false f ++ (need .badValue (!f.ht) ++ len2 f ++ dP
      f ++ aP f ++ bNone f ++ cNone f)) := by
    unfold broken; rw [h]; rfl

theorem instr_35 (f : Fields) (h : f.op = 0x35) : f.instr = (some (.pnot f.pD f.pA)) := by
    unfold Fields.instr; rw [h]; rfl

theorem broken_36 (W : Nat) (f : Fields) (h : f.op = 0x36) :
        broken W f = some (laNone f ++ tyNone f ++ fnNone f ++ moNone f ++ scIs false f ++ (need .badValue (!f.ht) ++ len2 f ++ dV
      false 1 f ++ noABC f)) := by
    unfold broken; rw [h]; rfl

theorem instr_36 (f : Fields) (h : f.op = 0x36) : f.instr = (some (.ppack f.dst)) := by
    unfold Fields.instr; rw [h]; rfl

theorem broken_37 (W : Nat) (f : Fields) (h : f.op = 0x37) :
        broken W f = some (laNone f ++ tyNone f ++ fnNone f ++ moNone f ++ scIs false f ++ (need .badValue (!f.ht) ++ len2 f ++
      dNone f ++ aV false 1 f ++ bNone f ++ cNone f)) := by
    unfold broken; rw [h]; rfl

theorem instr_37 (f : Fields) (h : f.op = 0x37) : f.instr = (some (.punpk f.sa)) := by
    unfold Fields.instr; rw [h]; rfl

theorem broken_38 (W : Nat) (f : Fields) (h : f.op = 0x38) :
        broken W f = some (need .badValue (!f.ht) ++ laNone f ++ (tyNone f ++ fnIn [0, 1, 2, 3] f ++ moNone f ++ len2 f ++ scIs
      false f ++ (if f.fn == 3 then dV false 1 f else dP f) ++ aP f ++ bNone f ++ cNone f)) := by
    unfold broken; rw [h]; rfl

theorem instr_38 (f : Fields) (h : f.op = 0x38) : f.instr = (some (.vote (voteOf f.fn.toNat) f.dst f.pA)) := by
    unfold Fields.instr; rw [h]; rfl

theorem broken_39 (W : Nat) (f : Fields) (h : f.op = 0x39) :
        broken W f = some (need .badValue (!f.ht) ++ laNone f ++ (tyIn [.n32, .n64] f ++ fnNone f ++ moNone f ++ len2 f ++ dSC
      f.wide f ++ aNone f ++ bNone f ++ need .badValue (f.xfi && sprCodes.contains f.scf.toNat))) := by
    unfold broken; rw [h]; rfl

theorem instr_39 (f : Fields) (t : Ty) (h : f.op = 0x39) (ht : Ty.ofCode f.ty.toNat = some t) :
        f.instr = (some (.gsr t f.dest f.scf)) := by
    unfold Fields.instr; rw [h, ht]; rfl

theorem broken_3A (W : Nat) (f : Fields) (h : f.op = 0x3A) :
        broken W f = some (need .badValue (!f.ht) ++ laNone f ++ (tyIn [.n32] f ++ fnNone f ++ moNone f ++ len2 f ++ dNone f ++
      need .badValue (f.sc == f.xfsa) ++ aVS false f ++ bNone f ++ need .badValue (f.xfi && sprCodes.contains f.scf.toNat))) := by
    unfold broken; rw [h]; rfl

theorem instr_3A (f : Fields) (t : Ty) (h : f.op = 0x3A) (ht : Ty.ofCode f.ty.toNat = some t) :
        f.instr = (some (.ssr f.scf f.srcA)) := by
    unfold Fields.instr; rw [h, ht]; rfl

theorem broken_40 (W : Nat) (f : Fields) (h : f.op = 0x40) :
        broken W f = some (need .badValue (!f.ht) ++ laNone f ++ (fnNone f ++ flt2 f ++ cNone f)) := by
    unfold broken; rw [h]; rfl

theorem instr_40 (f : Fields) (t : Ty) (h : f.op = 0x40) (ht : Ty.ofCode f.ty.toNat = some t) :
        f.instr = (some (.fadd f.rm t f.dst f.srcA f.srcB)) := by
    unfold Fields.instr; rw [h, ht]; rfl

theorem broken_41 (W : Nat) (f : Fields) (h : f.op = 0x41) :
        broken W f = some (need .badValue (!f.ht) ++ laNone f ++ (fnNone f ++ flt2 f ++ cNone f)) := by
    unfold broken; rw [h]; rfl

theorem instr_41 (f : Fields) (t : Ty) (h : f.op = 0x41) (ht : Ty.ofCode f.ty.toNat = some t) :
        f.instr = (some (.fsub f.rm t f.dst f.srcA f.srcB)) := by
    unfold Fields.instr; rw [h, ht]; rfl

theorem broken_42 (W : Nat) (f : Fields) (h : f.op = 0x42) :
        broken W f = some (need .badValue (!f.ht) ++ laNone f ++ (fnNone f ++ flt2 f ++ cNone f)) := by
    unfold broken; rw [h]; rfl

theorem instr_42 (f : Fields) (t : Ty) (h : f.op = 0x42) (ht : Ty.ofCode f.ty.toNat = some t) :
        f.instr = (some (.fmul f.rm t f.dst f.srcA f.srcB)) := by
    unfold Fields.instr; rw [h, ht]; rfl

theorem broken_43 (W : Nat) (f : Fields) (h : f.op = 0x43) :
        broken W f = some (need .badValue (!f.ht) ++ laNone f ++ (fnNone f ++ flt2 f ++ cV f.wide 1 f)) := by
    unfold broken; rw [h]; rfl

theorem instr_43 (f : Fields) (t : Ty) (h : f.op = 0x43) (ht : Ty.ofCode f.ty.toNat = some t) :
        f.instr = (some (.fma f.rm t f.dst f.srcA f.srcB f.scf)) := by
    unfold Fields.instr; rw [h, ht]; rfl

theorem broken_44 (W : Nat) (f : Fields) (h : f.op = 0x44) :
        broken W f = some (need .badValue (!f.ht) ++ laNone f ++ (fnIn [0, 1] f ++ flt2 f ++ cNone f)) := by
    unfold broken; rw [h]; rfl

theorem instr_44 (f : Fields) (t : Ty) (h : f.op = 0x44) (ht : Ty.ofCode f.ty.toNat = some t) :
        f.instr = (some (.fmin (f.fn == 1) f.rm t f.dst f.srcA f.srcB)) := by
    unfold Fields.instr; rw [h, ht]; rfl

theorem broken_45 (W : Nat) (f : Fields) (h : f.op = 0x45) :
        broken W f = some (need .badValue (!f.ht) ++ laNone f ++ (fnIn [0, 1] f ++ flt2 f ++ cNone f)) := by
    unfold broken; rw [h]; rfl

theorem instr_45 (f : Fields) (t : Ty) (h : f.op = 0x45) (ht : Ty.ofCode f.ty.toNat = some t) :
        f.instr = (some (.fmax (f.fn == 1) f.rm t f.dst f.srcA f.srcB)) := by
    unfold Fields.instr; rw [h, ht]; rfl

theorem broken_46 (W : Nat) (f : Fields) (h : f.op = 0x46) :
        broken W f = some (need .badValue (!f.ht) ++ laNone f ++ (flt1 f)) := by
    unfold broken; rw [h]; rfl

theorem instr_46 (f : Fields) (t : Ty) (h : f.op = 0x46) (ht : Ty.ofCode f.ty.toNat = some t) :
        f.instr = (some (.fabs f.rm t f.dst f.srcA)) := by
    unfold Fields.instr; rw [h, ht]; rfl

theorem broken_47 (W : Nat) (f : Fields) (h : f.op = 0x47) :
        broken W f = some (need .badValue (!f.ht) ++ laNone f ++ (flt1 f)) := by
    unfold broken; rw [h]; rfl

theorem instr_47 (f : Fields) (t : Ty) (h : f.op = 0x47) (ht : Ty.ofCode f.ty.toNat = some t) :
        f.instr = (some (.fneg f.rm t f.dst f.srcA)) := by
    unfold Fields.instr; rw [h, ht]; rfl

theorem broken_48 (W : Nat) (f : Fields) (h : f.op = 0x48) :
        broken W f = some (need .badValue (!f.ht) ++ (fnNone f ++ flt2 f ++ cNone f)) := by
    unfold broken; rw [h]; rfl

theorem instr_48 (f : Fields) (t : Ty) (h : f.op = 0x48) (ht : Ty.ofCode f.ty.toNat = some t) :
        f.instr = (some (.fdiv f.la f.rm t f.dst f.srcA f.srcB)) := by
    unfold Fields.instr; rw [h, ht]; rfl

theorem broken_49 (W : Nat) (f : Fields) (h : f.op = 0x49) :
        broken W f = some (need .badValue (!f.ht) ++ (flt1 f)) := by
    unfold broken; rw [h]; rfl

theorem instr_49 (f : Fields) (t : Ty) (h : f.op = 0x49) (ht : Ty.ofCode f.ty.toNat = some t) :
        f.instr = (some (.fsqrt f.la f.rm t f.dst f.srcA)) := by
    unfold Fields.instr; rw [h, ht]; rfl

theorem broken_4A (W : Nat) (f : Fields) (h : f.op = 0x4A) :
        broken W f = some (need .badValue (!f.ht) ++ (flt1 f)) := by
    unfold broken; rw [h]; rfl

theorem instr_4A (f : Fields) (t : Ty) (h : f.op = 0x4A) (ht : Ty.ofCode f.ty.toNat = some t) :
        f.instr = (some (.frcp f.la f.rm t f.dst f.srcA)) := by
    unfold Fields.instr; rw [h, ht]; rfl

theorem broken_4B (W : Nat) (f : Fields) (h : f.op = 0x4B) :
        broken W f = some (need .badValue (!f.ht) ++ (flt1 f)) := by
    unfold broken; rw [h]; rfl

theorem instr_4B (f : Fields) (t : Ty) (h : f.op = 0x4B) (ht : Ty.ofCode f.ty.toNat = some t) :
        f.instr = (some (.frsq f.la f.rm t f.dst f.srcA)) := by
    unfold Fields.instr; rw [h, ht]; rfl

theorem broken_4C (W : Nat) (f : Fields) (h : f.op = 0x4C) :
        broken W f = some (need .badValue (!f.ht) ++ (flt1 f)) := by
    unfold broken; rw [h]; rfl

theorem instr_4C (f : Fields) (t : Ty) (h : f.op = 0x4C) (ht : Ty.ofCode f.ty.toNat = some t) :
        f.instr = (some (.fex2 f.la f.rm t f.dst f.srcA)) := by
    unfold Fields.instr; rw [h, ht]; rfl

theorem broken_4D (W : Nat) (f : Fields) (h : f.op = 0x4D) :
        broken W f = some (need .badValue (!f.ht) ++ (flt1 f)) := by
    unfold broken; rw [h]; rfl

theorem instr_4D (f : Fields) (t : Ty) (h : f.op = 0x4D) (ht : Ty.ofCode f.ty.toNat = some t) :
        f.instr = (some (.flg2 f.la f.rm t f.dst f.srcA)) := by
    unfold Fields.instr; rw [h, ht]; rfl

theorem broken_4E (W : Nat) (f : Fields) (h : f.op = 0x4E) :
        broken W f = some (need .badValue (!f.ht) ++ laNone f ++ (flt1 f)) := by
    unfold broken; rw [h]; rfl

theorem instr_4E (f : Fields) (t : Ty) (h : f.op = 0x4E) (ht : Ty.ofCode f.ty.toNat = some t) :
        f.instr = (some (.frnd f.rm t f.dst f.srcA)) := by
    unfold Fields.instr; rw [h, ht]; rfl

theorem broken_4F (W : Nat) (f : Fields) (h : f.op = 0x4F) :
        broken W f = some (need .badValue (!f.ht) ++ laNone f ++ (tyIn Ty.floats f ++ fnNone f ++ moRound f ++ len2 f ++ scIs
      false f ++ dV false 1 f ++ aVS f.wide f ++ bNone f ++ cNone f)) := by
    unfold broken; rw [h]; rfl

theorem instr_4F (f : Fields) (t : Ty) (h : f.op = 0x4F) (ht : Ty.ofCode f.ty.toNat = some t) :
        f.instr = (some (.fclass f.rm t f.dst f.srcA)) := by
    unfold Fields.instr; rw [h, ht]; rfl

theorem broken_50 (W : Nat) (f : Fields) (h : f.op = 0x50) :
        broken W f = some (need .badValue (!f.ht) ++ laNone f ++ (tyIn [.f16x2, .bf16x2] f ++ fnNone f ++ moRound f ++ len23 f ++
      scIs false f ++ dV false 1 f ++ aVS false f ++ bVSI false f ++ cV false 1 f)) := by
    unfold broken; rw [h]; rfl

theorem instr_50 (f : Fields) (t : Ty) (h : f.op = 0x50) (ht : Ty.ofCode f.ty.toNat = some t) :
        f.instr = (some (.fdot2 f.rm t f.dst f.srcA f.srcB f.scf)) := by
    unfold Fields.instr; rw [h, ht]; rfl

theorem broken_51 (W : Nat) (f : Fields) (h : f.op = 0x51) :
        broken W f = some (need .badValue (!f.ht) ++ laNone f ++ (tyIn Ty.floats f ++ fnNone f ++ moRound f ++ len23 f ++ scIs
      false f ++ dV f.wide 1 f ++ aVS f.wide f ++ bVSI false f ++ cNone f)) := by
    unfold broken; rw [h]; rfl

theorem instr_51 (f : Fields) (t : Ty) (h : f.op = 0x51) (ht : Ty.ofCode f.ty.toNat = some t) :
        f.instr = (some (.fscale f.rm t f.dst f.srcA f.srcB)) := by
    unfold Fields.instr; rw [h, ht]; rfl

theorem broken_52 (W : Nat) (f : Fields) (h : f.op = 0x52) :
        broken W f = some (need .badValue (!f.ht) ++ laNone f ++ (fnNone f ++ flt2 f ++ cNone f)) := by
    unfold broken; rw [h]; rfl

theorem instr_52 (f : Fields) (t : Ty) (h : f.op = 0x52) (ht : Ty.ofCode f.ty.toNat = some t) :
        f.instr = (some (.fsgn f.rm t f.dst f.srcA f.srcB)) := by
    unfold Fields.instr; rw [h, ht]; rfl

theorem broken_60 (W : Nat) (f : Fields) (h : f.op = 0x60) :
        broken W f = some (need .badValue (!f.ht) ++ laNone f ++ (need .badValue (decide (f.ty.toNat ≤ 11) && decide (f.fn.toNat ≤
      11) && f.ty != f.fn) ++ (if codeIn f.ty [4, 5, 6, 7] || codeIn f.fn [4, 5, 6, 7] then moRound f else moZero f) ++ len2 f ++
      scIs false f ++ dV f.wide 1 f ++ aVS (codeIn f.fn [2, 3, 5]) f ++ bNone f ++ cNone f)) := by
    unfold broken; rw [h]; rfl

theorem instr_60 (f : Fields) (t : Ty) (h : f.op = 0x60) (ht : Ty.ofCode f.ty.toNat = some t) :
        f.instr = ((Ty.ofCode f.fn.toNat).map fun st => .cvt f.rm st t f.dst f.srcA) := by
    unfold Fields.instr; rw [h, ht]; rfl

theorem broken_61 (W : Nat) (f : Fields) (h : f.op = 0x61) :
        broken W f = some (need .badValue (!f.ht) ++ laNone f ++ (tyIn Ty.floatsN f ++ fnIn [0, 1, 2] f ++ moRound f ++ len23 f ++
      scIs false f ++ dV false 1 f ++ aVS false f ++ bVSI false f ++ cNone f)) := by
    unfold broken; rw [h]; rfl

theorem instr_61 (f : Fields) (t : Ty) (h : f.op = 0x61) (ht : Ty.ofCode f.ty.toNat = some t) :
        f.instr = (some (.cvt8 (if f.fn == 0 then .sat else if f.fn == 1 then .inf else .dec) f.rm t f.dst f.srcA f.srcB)) := by
    unfold Fields.instr; rw [h, ht]; rfl

theorem broken_62 (W : Nat) (f : Fields) (h : f.op = 0x62) :
        broken W f = some (need .badValue (!f.ht) ++ laNone f ++ (tyIn Ty.floatsN f ++ fnIn [0, 1] f ++ moRound f ++ scIs false f
      ++ dV false 1 f ++ aVS false f ++ (if f.fn == 1 then len2 f ++ bNone f ++ cI 7 f else len23 f ++ bVSI false f ++ cNone f)))
      := by
    unfold broken; rw [h]; rfl

theorem instr_62 (f : Fields) (t : Ty) (h : f.op = 0x62) (ht : Ty.ofCode f.ty.toNat = some t) :
        f.instr = (some (.cvt4 (if f.fn == 1 then .dec (f.scf.setWidth 3) else .enc f.srcB) f.rm t f.dst f.srcA)) := by
    unfold Fields.instr; rw [h, ht]; rfl

theorem broken_63 (W : Nat) (f : Fields) (h : f.op = 0x63) :
        broken W f = some (need .badValue (!f.ht) ++ laNone f ++ (fnIn [0, 1, 2] f ++ tyIn (if f.fn == 0 then [.f16x2, .bf16x2]
      else [.b32]) f ++ (if f.fn == 0 then moRound f else moZero f) ++ len23 f ++ scIs false f ++ dV false 1 f ++ aVS false f ++
      bVSI false f ++ (if f.fn == 2 then cVI false f else cNone f))) := by
    unfold broken; rw [h]; rfl

theorem instr_63 (f : Fields) (t : Ty) (h : f.op = 0x63) (ht : Ty.ofCode f.ty.toNat = some t) :
        f.instr = (some (.pk (if f.fn == 0 then .cvt f.rm t f.srcB else if f.fn == 1 then .h f.srcB else .b f.srcB f.srcC) f.dst
      f.srcA)) := by
    unfold Fields.instr; rw [h, ht]; rfl

theorem broken_64 (W : Nat) (f : Fields) (h : f.op = 0x64) :
        broken W f = some (need .badValue (!f.ht) ++ laNone f ++ (fnIn [0, 1, 2] f ++ tyIn (if f.fn == 0 then [.f16x2, .bf16x2]
      else if f.fn == 1 then [.n8, .s8] else [.n16, .s16]) f ++ (if f.fn == 0 then moRound f else moZero f) ++ len2 f ++ scIs
      false f ++ dV false 1 f ++ aVS false f ++ bNone f ++ cI (if f.fn == 1 then 3 else 1) f)) := by
    unfold broken; rw [h]; rfl

theorem instr_64 (f : Fields) (t : Ty) (h : f.op = 0x64) (ht : Ty.ofCode f.ty.toNat = some t) :
        f.instr = (some (.upk (if f.fn == 0 then .cvt f.rm t (f.scf.setWidth 1) else if f.fn == 1 then .b (t == .s8)
      (f.scf.setWidth 2) else .h (t == .s16) (f.scf.setWidth 1)) f.dst f.srcA)) := by
    unfold Fields.instr; rw [h, ht]; rfl

theorem broken_65 (W : Nat) (f : Fields) (h : f.op = 0x65) :
        broken W f = some (need .badValue (!f.ht) ++ laNone f ++ (tyIn Ty.floatsN f ++ fnIn [0, 1, 2] f ++ (if f.fn == 1 then
      moZero f else moRound f) ++ scIs false f ++ dV false 1 f ++ aVS false f ++ (if f.fn == 1 then len2 f ++ bNone f ++ cI 15 f
      else len23 f ++ bVSI false f ++ cNone f))) := by
    unfold broken; rw [h]; rfl

theorem instr_65 (f : Fields) (t : Ty) (h : f.op = 0x65) (ht : Ty.ofCode f.ty.toNat = some t) :
        f.instr = (some (.bscl (if f.fn == 0 then .apply f.rm f.srcB else if f.fn == 1 then .fit (f.scf.setWidth 4) else .inv f.rm
      f.srcB) t f.dst f.srcA)) := by
    unfold Fields.instr; rw [h, ht]; rfl

theorem broken_66 (W : Nat) (f : Fields) (h : f.op = 0x66) :
        broken W f = some (need .badValue (!f.ht) ++ laNone f ++ (tyIn [.s32, .s64] f ++ fnIn [0] f ++ moZero f ++ len23 f ++ scIs
      false f ++ dV f.wide 1 f ++ aVS f.wide f ++ bVSI false f ++ cNone f)) := by
    unfold broken; rw [h]; rfl

theorem instr_66 (f : Fields) (t : Ty) (h : f.op = 0x66) (ht : Ty.ofCode f.ty.toNat = some t) :
        f.instr = (some (.sext t f.dst f.srcA f.srcB)) := by
    unfold Fields.instr; rw [h, ht]; rfl

theorem broken_70 (W : Nat) (f : Fields) (h : f.op = 0x70) :
        broken W f = some (need .badValue (!f.ht) ++ laNone f ++ (tyIn Ty.bitss f ++ fnNone f ++ moNone f ++ len23 f ++ scIs false
      f ++ dV f.wide 1 f ++ aV f.wide 1 f ++ bVSI false f ++ cNone f)) := by
    unfold broken; rw [h]; rfl

theorem instr_70 (f : Fields) (t : Ty) (h : f.op = 0x70) (ht : Ty.ofCode f.ty.toNat = some t) :
        f.instr = (some (.shfl t f.dst f.sa f.srcB)) := by
    unfold Fields.instr; rw [h, ht]; rfl

theorem broken_71 (W : Nat) (f : Fields) (h : f.op = 0x71) :
        broken W f = some (need .badValue (!f.ht) ++ laNone f ++ (tyIn Ty.bitss f ++ fnNone f ++ moNone f ++ len23 f ++ scIs false
      f ++ dV f.wide 1 f ++ aV f.wide 1 f ++ bSI f ++ cNone f)) := by
    unfold broken; rw [h]; rfl

theorem instr_71 (f : Fields) (t : Ty) (h : f.op = 0x71) (ht : Ty.ofCode f.ty.toNat = some t) :
        f.instr = (some (.shup t f.dst f.sa f.srcB)) := by
    unfold Fields.instr; rw [h, ht]; rfl

theorem broken_72 (W : Nat) (f : Fields) (h : f.op = 0x72) :
        broken W f = some (need .badValue (!f.ht) ++ laNone f ++ (tyIn Ty.bitss f ++ fnNone f ++ moNone f ++ len23 f ++ scIs false
      f ++ dV f.wide 1 f ++ aV f.wide 1 f ++ bSI f ++ cNone f)) := by
    unfold broken; rw [h]; rfl

theorem instr_72 (f : Fields) (t : Ty) (h : f.op = 0x72) (ht : Ty.ofCode f.ty.toNat = some t) :
        f.instr = (some (.shdn t f.dst f.sa f.srcB)) := by
    unfold Fields.instr; rw [h, ht]; rfl

theorem broken_73 (W : Nat) (f : Fields) (h : f.op = 0x73) :
        broken W f = some (need .badValue (!f.ht) ++ laNone f ++ (tyIn Ty.bitss f ++ fnNone f ++ moNone f ++ len23 f ++ scIs false
      f ++ dV f.wide 1 f ++ aV f.wide 1 f ++ bSI f ++ cNone f)) := by
    unfold broken; rw [h]; rfl

theorem instr_73 (f : Fields) (t : Ty) (h : f.op = 0x73) (ht : Ty.ofCode f.ty.toNat = some t) :
        f.instr = (some (.shxor t f.dst f.sa f.srcB)) := by
    unfold Fields.instr; rw [h, ht]; rfl

theorem broken_74 (W : Nat) (f : Fields) (h : f.op = 0x74) :
        broken W f = some (need .badValue (!f.ht) ++ laNone f ++ (tyIn Ty.bitss f ++ fnNone f ++ moNone f ++ len23 f ++ scIs false
      f ++ dV f.wide 1 f ++ aV f.wide 1 f ++ bSI f ++ cNone f)) := by
    unfold broken; rw [h]; rfl

theorem instr_74 (f : Fields) (t : Ty) (h : f.op = 0x74) (ht : Ty.ofCode f.ty.toNat = some t) :
        f.instr = (some (.bcast t f.dst f.sa f.srcB)) := by
    unfold Fields.instr; rw [h, ht]; rfl

theorem broken_75 (W : Nat) (f : Fields) (h : f.op = 0x75) :
        broken W f = some (need .badValue (!f.ht) ++ (redShape [0, 1, 2, 3, 4, 5] f)) := by
    unfold broken; rw [h]; rfl

theorem instr_75 (f : Fields) (t : Ty) (h : f.op = 0x75) (ht : Ty.ofCode f.ty.toNat = some t) :
        f.instr = ((combOf f.fn.toNat).map fun k => .redg f.la k f.rm t f.dst f.sa) := by
    unfold Fields.instr; rw [h, ht]; rfl

theorem broken_76 (W : Nat) (f : Fields) (h : f.op = 0x76) :
        broken W f = some (need .badValue (!f.ht) ++ (redShape [0, 1, 2, 3, 4, 5, 8, 9, 10, 11, 12, 13] f)) := by
    unfold broken; rw [h]; rfl

theorem instr_76 (f : Fields) (t : Ty) (h : f.op = 0x76) (ht : Ty.ofCode f.ty.toNat = some t) :
        f.instr = ((combOf (f.fn.toNat % 8)).map fun k => .scang f.la (decide (8 ≤ f.fn.toNat)) k f.rm t f.dst f.sa) := by
    unfold Fields.instr; rw [h, ht]; rfl

theorem broken_77 (W : Nat) (f : Fields) (h : f.op = 0x77) :
        broken W f = some (need .badValue (!f.ht) ++ (tyIn [.f16, .bf16] f ++ fnNone f ++ moNone f ++ len23 f ++ scIs false f ++
      dV true 1 f ++ aV false 1 f ++ bVSI false f ++ cNone f)) := by
    unfold broken; rw [h]; rfl

theorem instr_77 (f : Fields) (t : Ty) (h : f.op = 0x77) (ht : Ty.ofCode f.ty.toNat = some t) :
        f.instr = (some (.mxix f.la t f.dst f.sa f.srcB)) := by
    unfold Fields.instr; rw [h, ht]; rfl

theorem broken_78 (W : Nat) (f : Fields) (h : f.op = 0x78) :
        broken W f = some (need .badValue (!f.ht) ++ (tyIn [.n32] f ++ fnNone f ++ moNone f ++ len2 f ++ scIs false f ++ dV false
      1 f ++ aP f ++ bNone f ++ cNone f)) := by
    unfold broken; rw [h]; rfl

theorem instr_78 (f : Fields) (h : f.op = 0x78) : f.instr = (some (.sieve f.la f.dst f.pA)) := by
    unfold Fields.instr; rw [h]; rfl

theorem broken_79 (W : Nat) (f : Fields) (h : f.op = 0x79) :
        broken W f = some (need .badValue (!f.ht) ++ laNone f ++ (tyNone f ++ fnNone f ++ moNone f ++ len2 f ++ scIs false f ++ dP
      f ++ noABC f)) := by
    unfold broken; rw [h]; rfl

theorem instr_79 (f : Fields) (h : f.op = 0x79) : f.instr = (some (.elect f.pD)) := by
    unfold Fields.instr; rw [h]; rfl

theorem broken_80 (W : Nat) (f : Fields) (h : f.op = 0x80) :
        broken W f = some (need .badValue (!f.ht) ++ (loadShape f ++ aVS true f)) := by
    unfold broken; rw [h]; rfl

theorem instr_80 (f : Fields) (t : Ty) (h : f.op = 0x80) (ht : Ty.ofCode f.ty.toNat = some t) :
        f.instr = (some (.ld f.la f.order f.scope t f.dst f.srcA f.srcB)) := by
    unfold Fields.instr; rw [h, ht]; rfl

theorem broken_81 (W : Nat) (f : Fields) (h : f.op = 0x81) :
        broken W f = some (need .badValue (!f.ht) ++ laNone f ++ (storeShape f ++ aVS true f)) := by
    unfold broken; rw [h]; rfl

theorem instr_81 (f : Fields) (t : Ty) (h : f.op = 0x81) (ht : Ty.ofCode f.ty.toNat = some t) :
        f.instr = (some (.st f.order f.scope t f.srcA f.srcB f.srcC)) := by
    unfold Fields.instr; rw [h, ht]; rfl

theorem broken_82 (W : Nat) (f : Fields) (h : f.op = 0x82) :
        broken W f = some (need .badValue (!f.ht) ++ (loadShape f ++ aVS false f)) := by
    unfold broken; rw [h]; rfl

theorem instr_82 (f : Fields) (t : Ty) (h : f.op = 0x82) (ht : Ty.ofCode f.ty.toNat = some t) :
        f.instr = (some (.lds f.la f.order f.scope t f.dst f.srcA f.srcB)) := by
    unfold Fields.instr; rw [h, ht]; rfl

theorem broken_83 (W : Nat) (f : Fields) (h : f.op = 0x83) :
        broken W f = some (need .badValue (!f.ht) ++ laNone f ++ (storeShape f ++ aVS false f)) := by
    unfold broken; rw [h]; rfl

theorem instr_83 (f : Fields) (t : Ty) (h : f.op = 0x83) (ht : Ty.ofCode f.ty.toNat = some t) :
        f.instr = (some (.sts f.order f.scope t f.srcA f.srcB f.srcC)) := by
    unfold Fields.instr; rw [h, ht]; rfl

theorem broken_84 (W : Nat) (f : Fields) (h : f.op = 0x84) :
        broken W f = some (need .badValue (!f.ht) ++ (loadShape f ++ aVS false f)) := by
    unfold broken; rw [h]; rfl

theorem instr_84 (f : Fields) (t : Ty) (h : f.op = 0x84) (ht : Ty.ofCode f.ty.toNat = some t) :
        f.instr = (some (.ldl f.la f.order f.scope t f.dst f.srcA f.srcB)) := by
    unfold Fields.instr; rw [h, ht]; rfl

theorem broken_85 (W : Nat) (f : Fields) (h : f.op = 0x85) :
        broken W f = some (need .badValue (!f.ht) ++ laNone f ++ (storeShape f ++ aVS false f)) := by
    unfold broken; rw [h]; rfl

theorem instr_85 (f : Fields) (t : Ty) (h : f.op = 0x85) (ht : Ty.ofCode f.ty.toNat = some t) :
        f.instr = (some (.stl f.order f.scope t f.srcA f.srcB f.srcC)) := by
    unfold Fields.instr; rw [h, ht]; rfl

theorem broken_86 (W : Nat) (f : Fields) (h : f.op = 0x86) :
        broken W f = some (need .badValue (!f.ht) ++ (tyIn Ty.all f ++ fnNone f ++ moOrder [0, 1] f ++ len23 f ++ scIs true f ++
      dS f ++ aS f ++ bSI f ++ cNone f)) := by
    unfold broken; rw [h]; rfl

theorem instr_86 (f : Fields) (t : Ty) (h : f.op = 0x86) (ht : Ty.ofCode f.ty.toNat = some t) :
        f.instr = (some (.sld f.la f.order f.scope t f.sD f.sA f.srcB)) := by
    unfold Fields.instr; rw [h, ht]; rfl

theorem broken_87 (W : Nat) (f : Fields) (h : f.op = 0x87) :
        broken W f = some (need .badValue (!f.ht) ++ laNone f ++ (tyIn Ty.all f ++ fnNone f ++ moOrder [0, 2] f ++ len23 f ++ scIs
      true f ++ dNone f ++ aS f ++ bSI f ++ cSI f)) := by
    unfold broken; rw [h]; rfl

theorem instr_87 (f : Fields) (t : Ty) (h : f.op = 0x87) (ht : Ty.ofCode f.ty.toNat = some t) :
        f.instr = (some (.sst f.order f.scope t f.sA f.srcB f.srcC)) := by
    unfold Fields.instr; rw [h, ht]; rfl

theorem broken_88 (W : Nat) (f : Fields) (h : f.op = 0x88) :
        broken W f = some (need .badValue (!f.ht) ++ laNone f ++ (need .badValue (f.ty == 0) ++ fnNone f ++ moOrder [0] f ++ len23
      f ++ scIs false f ++ dNone f ++ aVS true f ++ bVSI false f ++ cNone f)) := by
    unfold broken; rw [h]; rfl

theorem instr_88 (f : Fields) (h : f.op = 0x88) : f.instr = (some (.pf f.scope f.srcA f.srcB)) := by
    unfold Fields.instr; rw [h]; rfl

theorem broken_89 (W : Nat) (f : Fields) (h : f.op = 0x89) :
        broken W f = some (need .badValue (!f.ht) ++ (tyIn [.n32] f ++ fnNone f ++ moOrder [0, 1] f ++ len23 f ++ scIs false f ++
      aVS true f ++ bVSI false f ++ need .badValue (f.xfi && decide (1 ≤ f.scf.toNat) && decide (f.scf.toNat ≤ 32)) ++ dV false
      (if f.scf.toNat ≤ 32 then f.scf.toNat else 1) f)) := by
    unfold broken; rw [h]; rfl

theorem instr_89 (f : Fields) (h : f.op = 0x89) : f.instr = (some (.ldm f.la f.order f.scope f.dst f.srcA f.srcB f.scf)) := by
    unfold Fields.instr; rw [h]; rfl

theorem broken_8A (W : Nat) (f : Fields) (h : f.op = 0x8A) :
        broken W f = some (need .badValue (!f.ht) ++ laNone f ++ (tyIn [.n32] f ++ fnNone f ++ moOrder [0, 2] f ++ len23 f ++ scIs
      false f ++ aVS true f ++ bVSI false f ++ need .badValue (decide (1 ≤ f.dst.toNat) && decide (f.dst.toNat ≤ 32)) ++ cV false
      (if f.dst.toNat ≤ 32 then f.dst.toNat else 1) f)) := by
    unfold broken; rw [h]; rfl

theorem instr_8A (f : Fields) (h : f.op = 0x8A) : f.instr = (some (.stm f.order f.scope f.srcA f.srcB f.scf f.dst)) := by
    unfold Fields.instr; rw [h]; rfl

theorem broken_8B (W : Nat) (f : Fields) (h : f.op = 0x8B) :
        broken W f = some (need .badValue (!f.ht) ++ laNone f ++ (tyNone f ++ fnNone f ++ moOrder [0, 2] f ++ len23 f ++ scIs
      false f ++ lowBits 2 f.dst ++ aVS false f ++ bVSI false f ++ cV false 1 f)) := by
    unfold broken; rw [h]; rfl

theorem instr_8B (f : Fields) (h : f.op = 0x8B) : f.instr = (some (.sti f.order f.scope (f.dst.setWidth 2) f.srcA f.srcB f.scf))
  := by
    unfold Fields.instr; rw [h]; rfl

theorem broken_8C (W : Nat) (f : Fields) (h : f.op = 0x8C) :
        broken W f = some (need .badValue (!f.ht) ++ laNone f ++ (tyNone f ++ fnNone f ++ moOrder [1, 2, 3] f ++ len2 f ++ scIs
      false f ++ dNone f ++ noABC f)) := by
    unfold broken; rw [h]; rfl

theorem instr_8C (f : Fields) (h : f.op = 0x8C) : f.instr = (some (.fence f.order f.scope)) := by
    unfold Fields.instr; rw [h]; rfl

theorem broken_8D (W : Nat) (f : Fields) (h : f.op = 0x8D) :
        broken W f = some (need .badValue (!f.ht) ++ laNone f ++ (tyNone f ++ fnIn [0, 1, 2, 3, 4] f ++ moNone f ++ len2 f ++ scIs
      true f ++ dNone f ++ bNone f ++ need .badValue (f.xfi != f.xfsa) ++ need .badRegister (!f.xfsa || okS f.sa) ++ need .notZero
      (f.xfsa || f.sa == 0) ++ need .notZero (f.xfi || f.scf == 0))) := by
    unfold broken; rw [h]; rfl

theorem instr_8D (f : Fields) (h : f.op = 0x8D) : f.instr = (some (.waitc (pathOf f.fn.toNat) (if f.xfi then .imm f.scf else .s
  f.sA))) := by
    unfold Fields.instr; rw [h]; rfl

theorem broken_A0 (W : Nat) (f : Fields) (h : f.op = 0xA0) :
        broken W f = some (need .badValue (!f.ht) ++ (fnIn [0, 1, 2, 3, 4, 5, 6, 7, 8] f ++ tyIn (amoTypes false f) f ++ len23 f
      ++ dSC f.wide f ++ aSC true f ++ bSC false f ++ cSC f.wide f ++ casShape f)) := by
    unfold broken; rw [h]; rfl

theorem instr_A0 (f : Fields) (t : Ty) (h : f.op = 0xA0) (ht : Ty.ofCode f.ty.toNat = some t) :
        f.instr = ((amoOf f.fn.toNat).map fun k => .atom f.la k f.order f.scope t f.dest f.srcA f.srcB f.srcC) := by
    unfold Fields.instr; rw [h, ht]; rfl

theorem broken_A1 (W : Nat) (f : Fields) (h : f.op = 0xA1) :
        broken W f = some (need .badValue (!f.ht) ++ laNone f ++ (fnIn [0, 1, 2, 3, 4, 5, 6, 7, 8] f ++ tyIn (amoTypes false f) f
      ++ moOrder [0, 2] f ++ len23 f ++ dNone f ++ aSC true f ++ bSC false f ++ cSC f.wide f ++ casShape f)) := by
    unfold broken; rw [h]; rfl

theorem instr_A1 (f : Fields) (t : Ty) (h : f.op = 0xA1) (ht : Ty.ofCode f.ty.toNat = some t) :
        f.instr = ((amoOf f.fn.toNat).map fun k => .red f.sc k f.order f.scope t f.srcA f.srcB f.srcC) := by
    unfold Fields.instr; rw [h, ht]; rfl

theorem broken_A2 (W : Nat) (f : Fields) (h : f.op = 0xA2) :
        broken W f = some (need .badValue (!f.ht) ++ laNone f ++ (fnIn [0, 1, 2, 3, 4, 5, 6, 7] f ++ tyIn (match pvopOf f.fn.toNat
      with | some o => o.types | none => Ty.all) f ++ moOrder [0, 2] f ++ len23 f ++ scIs true f ++ dS f ++ aS f ++ bSI f ++ cSI
      f)) := by
    unfold broken; rw [h]; rfl

theorem instr_A2 (f : Fields) (t : Ty) (h : f.op = 0xA2) (ht : Ty.ofCode f.ty.toNat = some t) :
        f.instr = ((pvopOf f.fn.toNat).map fun k => .pvop k f.order f.scope t f.sD f.sA f.srcB f.srcC) := by
    unfold Fields.instr; rw [h, ht]; rfl

theorem broken_B0 (W : Nat) (f : Fields) (h : f.op = 0xB0) :
        broken W f = some (need .badValue (!f.ht) ++ laNone f ++ (tyNone f ++ fnIn [0, 1] f ++ moNone f ++ len2 f ++ scIs false f
      ++ dNone f ++ aNone f ++ (if f.fn == 1 then bS f else bNone f) ++ cI 15 f)) := by
    unfold broken; rw [h]; rfl

theorem instr_B0 (f : Fields) (h : f.op = 0xB0) : f.instr = (some (.bar (f.scf.setWidth 4) (if f.fn == 1 then some f.sB else
  none))) := by
    unfold Fields.instr; rw [h]; rfl

theorem broken_B1 (W : Nat) (f : Fields) (h : f.op = 0xB1) :
        broken W f = some (need .badValue (!f.ht) ++ laNone f ++ (tyNone f ++ fnIn [0, 1] f ++ moNone f ++ len2 f ++ scIs true f
      ++ dS f ++ aNone f ++ (if f.fn == 1 then bS f else bNone f) ++ cI 15 f)) := by
    unfold broken; rw [h]; rfl

theorem instr_B1 (f : Fields) (h : f.op = 0xB1) : f.instr = (some (.arrive f.sD (f.scf.setWidth 4) (if f.fn == 1 then some f.sB
  else none))) := by
    unfold Fields.instr; rw [h]; rfl

theorem broken_B2 (W : Nat) (f : Fields) (h : f.op = 0xB2) :
        broken W f = some (need .badValue (!f.ht) ++ laNone f ++ (tyNone f ++ fnNone f ++ moNone f ++ len2 f ++ scIs false f ++
      dNone f ++ aS f ++ bNone f ++ cI 15 f)) := by
    unfold broken; rw [h]; rfl

theorem instr_B2 (f : Fields) (h : f.op = 0xB2) : f.instr = (some (.bwait (f.scf.setWidth 4) f.sA)) := by
    unfold Fields.instr; rw [h]; rfl

theorem broken_B3 (W : Nat) (f : Fields) (h : f.op = 0xB3) :
        broken W f = some (need .badValue (!f.ht) ++ laNone f ++ (tyNone f ++ fnIn [0, 1, 2, 3] f ++ moNone f ++ len2 f ++ scIs
      true f ++ dS f ++ aS f ++ bS f ++ cSI f)) := by
    unfold broken; rw [h]; rfl

theorem instr_B3 (f : Fields) (h : f.op = 0xB3) : f.instr = (some (.copy (copyOf f.fn.toNat) f.sD f.sA f.sB f.srcC)) := by
    unfold Fields.instr; rw [h]; rfl

theorem broken_B4 (W : Nat) (f : Fields) (h : f.op = 0xB4) :
        broken W f = some (need .badValue (!f.ht) ++ laNone f ++ (tyNone f ++ fnNone f ++ moNone f ++ len2 f ++ scIs false f ++ dP
      f ++ aS f ++ bNone f ++ cNone f)) := by
    unfold broken; rw [h]; rfl

theorem instr_B4 (f : Fields) (h : f.op = 0xB4) : f.instr = (some (.wtl f.pD f.sA)) := by
    unfold Fields.instr; rw [h]; rfl

theorem broken_B5 (W : Nat) (f : Fields) (h : f.op = 0xB5) :
        broken W f = some (need .badValue (!f.ht) ++ laNone f ++ (tyNone f ++ fnNone f ++ moNone f ++ len2 f ++ scIs false f ++ dP
      f ++ aS f ++ bNone f ++ cNone f)) := by
    unfold broken; rw [h]; rfl

theorem instr_B5 (f : Fields) (h : f.op = 0xB5) : f.instr = (some (.tst f.pD f.sA)) := by
    unfold Fields.instr; rw [h]; rfl

theorem broken_B6 (W : Nat) (f : Fields) (h : f.op = 0xB6) :
        broken W f = some (need .badValue (!f.ht) ++ laNone f ++ (tyNone f ++ fnNone f ++ moNone f ++ len2 f ++ scIs false f ++ dP
      f ++ aS f ++ bNone f ++ cNone f)) := by
    unfold broken; rw [h]; rfl

theorem instr_B6 (f : Fields) (h : f.op = 0xB6) : f.instr = (some (.cancel f.pD f.sA)) := by
    unfold Fields.instr; rw [h]; rfl

theorem broken_B7 (W : Nat) (f : Fields) (h : f.op = 0xB7) :
        broken W f = some (need .badValue (!f.ht) ++ laNone f ++ (tyNone f ++ fnNone f ++ moNone f ++ len2 f ++ scIs false f ++
      dNone f ++ noABC f)) := by
    unfold broken; rw [h]; rfl

theorem instr_B7 (f : Fields) (h : f.op = 0xB7) : f.instr = (some .trig) := by
    unfold Fields.instr; rw [h]; rfl

theorem broken_C0 (W : Nat) (f : Fields) (h : f.op = 0xC0) :
        broken W f = some (need .badValue (!f.ht) ++ laNone f ++ (fnIn [0, 1] f ++ tyIn (if f.fn == 1 then Ty.zero else [.f16,
      .bf16, .f64]) f ++ moNone f ++ len2 f ++ scIs false f ++ dV (f.ty == 5) 32 f ++ aV (f.ty == 5) (if f.ty == 5 then 8 else 16)
      f ++ need .badValue (!overlaps f.dst.toNat 32 f.sa.toNat (if f.ty == 5 then 8 else 16)) ++ (if f.fn == 1 then bS f else
      bNone f) ++ cNone f)) := by
    unfold broken; rw [h]; rfl

theorem instr_C0 (f : Fields) (t : Ty) (h : f.op = 0xC0) (ht : Ty.ofCode f.ty.toNat = some t) :
        f.instr = (some (if f.fn == 1 then .mmxNar f.dst f.sa f.sB else .mmx t f.dst f.sa)) := by
    unfold Fields.instr; rw [h, ht]; rfl

theorem broken_C1 (W : Nat) (f : Fields) (h : f.op = 0xC1) :
        broken W f = some (need .badValue (!f.ht) ++ (tyNone f ++ fnNone f ++ moNone f ++ len2 f ++ scIs false f ++ lowBits 2
      f.dst ++ aV false 4 f ++ bNone f ++ cI 255 f)) := by
    unfold broken; rw [h]; rfl

theorem instr_C1 (f : Fields) (h : f.op = 0xC1) : f.instr = (some (.bpub f.la (f.dst.setWidth 2) f.sa f.scf)) := by
    unfold Fields.instr; rw [h]; rfl

theorem broken_C2 (W : Nat) (f : Fields) (h : f.op = 0xC2) :
        broken W f = some (need .badValue (!f.ht) ++ laNone f ++ (tyNone f ++ fnNone f ++ moNone f ++ len2 f ++ scIs false f ++ dS
      f ++ noABC f)) := by
    unfold broken; rw [h]; rfl

theorem instr_C2 (f : Fields) (h : f.op = 0xC2) : f.instr = (some (.mfence f.sD)) := by
    unfold Fields.instr; rw [h]; rfl

theorem broken_C3 (W : Nat) (f : Fields) (h : f.op = 0xC3) :
        broken W f = some (need .badValue (!f.ht) ++ laNone f ++ (tyNone f ++ fnNone f ++ moNone f ++ len2 f ++ scIs false f ++ dV
      false 32 f ++ noABC f)) := by
    unfold broken; rw [h]; rfl

theorem instr_C3 (f : Fields) (h : f.op = 0xC3) : f.instr = (some (.mzero f.dst)) := by
    unfold Fields.instr; rw [h]; rfl

theorem broken_C4 (W : Nat) (f : Fields) (h : f.op = 0xC4) :
        broken W f = some (need .badValue (!f.ht) ++ laNone f ++ (tyIn [.n32, .b32] f ++ fnNone f ++ moNone f ++ len2 f ++ scIs
      false f ++ dV false W f ++ aV false W f ++ bNone f ++ cNone f)) := by
    unfold broken; rw [h]; rfl

theorem instr_C4 (f : Fields) (t : Ty) (h : f.op = 0xC4) (ht : Ty.ofCode f.ty.toNat = some t) :
        f.instr = (some (.mtr t f.dst f.sa)) := by
    unfold Fields.instr; rw [h, ht]; rfl

theorem broken_D0 (W : Nat) (f : Fields) (h : f.op = 0xD0) :
        broken W f = some (need .badValue (!f.ht) ++ laNone f ++ (tyNone f ++ fnNone f ++ moNone f ++ len2 f ++ scIs true f ++ dS
      f ++ aS f ++ bNone f ++ cNone f)) := by
    unfold broken; rw [h]; rfl

theorem instr_D0 (f : Fields) (h : f.op = 0xD0) : f.instr = (some (.launch f.sD f.sA)) := by
    unfold Fields.instr; rw [h]; rfl

theorem broken_D1 (W : Nat) (f : Fields) (h : f.op = 0xD1) :
        broken W f = some (need .badValue (!f.ht) ++ laNone f ++ (tyNone f ++ fnNone f ++ moNone f ++ len2 f ++ scIs false f ++ dP
      f ++ aS f ++ bNone f ++ cNone f)) := by
    unfold broken; rw [h]; rfl

theorem instr_D1 (f : Fields) (h : f.op = 0xD1) : f.instr = (some (.gwait f.pD f.sA)) := by
    unfold Fields.instr; rw [h]; rfl

theorem broken_D2 (W : Nat) (f : Fields) (h : f.op = 0xD2) :
        broken W f = some (need .badValue (!f.ht) ++ laNone f ++ (tyNone f ++ fnNone f ++ moNone f ++ len2 f ++ scIs false f ++ dP
      f ++ aS f ++ bS f ++ cNone f)) := by
    unfold broken; rw [h]; rfl

theorem instr_D2 (f : Fields) (h : f.op = 0xD2) : f.instr = (some (.gcond f.pD f.sA f.sB)) := by
    unfold Fields.instr; rw [h]; rfl

theorem broken_D3 (W : Nat) (f : Fields) (h : f.op = 0xD3) :
        broken W f = some (need .badValue (!f.ht) ++ laNone f ++ (tyNone f ++ fnNone f ++ moOrder [0, 2] f ++ len3 f ++ scIs true
      f ++ dS f ++ aS f ++ bS f ++ need .badValue (!f.xfi) ++ need .badRegister (okS f.scf) ++ need .badValue (bitsOf f.imm.toNat
      30 24 == 0))) := by
    unfold broken; rw [h]; rfl

theorem instr_D3 (f : Fields) (h : f.op = 0xD3) : f.instr = (some (.nput (f.imm.getLsbD 31) f.order f.scope f.sD f.sA f.sB f.sC
  (f.imm.setWidth 24))) := by
    unfold Fields.instr; rw [h]; rfl

theorem broken_D4 (W : Nat) (f : Fields) (h : f.op = 0xD4) :
        broken W f = some (need .badValue (!f.ht) ++ (tyIn [.n32, .n64] f ++ fnNone f ++ moOrder [0, 1] f ++ len2 f ++ scIs true f
      ++ dSMax 62 f ++ aS f ++ bS f ++ cNone f)) := by
    unfold broken; rw [h]; rfl

theorem instr_D4 (f : Fields) (t : Ty) (h : f.op = 0xD4) (ht : Ty.ofCode f.ty.toNat = some t) :
        f.instr = (some (.nget f.la f.order f.scope t f.sD f.sA f.sB)) := by
    unfold Fields.instr; rw [h, ht]; rfl

theorem broken_D5 (W : Nat) (f : Fields) (h : f.op = 0xD5) :
        broken W f = some (need .badValue (!f.ht) ++ (fnIn [0, 1, 2, 3, 4, 5, 6, 7, 8] f ++ tyIn (amoTypes true f) f ++ len2 f ++
      scIs true f ++ dSMax 62 f ++ aS f ++ bS f ++ cSI f ++ casShape f)) := by
    unfold broken; rw [h]; rfl

theorem instr_D5 (f : Fields) (t : Ty) (h : f.op = 0xD5) (ht : Ty.ofCode f.ty.toNat = some t) :
        f.instr = ((amoOf f.fn.toNat).map fun k => .natm f.la k f.order f.scope t f.sD f.sA f.sB f.srcC) := by
    unfold Fields.instr; rw [h, ht]; rfl

theorem broken_D6 (W : Nat) (f : Fields) (h : f.op = 0xD6) :
        broken W f = some (need .badValue (!f.ht) ++ laNone f ++ (fnIn [0, 1, 2, 3, 4] f ++ tyIn (if f.fn == 4 then Ty.zero else
      Ty.ints ++ Ty.floats1 ++ [.b32]) f ++ len2 f ++ scIs true f ++ dS f ++ aS f ++ bNone f ++ cNone f)) := by
    unfold broken; rw [h]; rfl

theorem instr_D6 (f : Fields) (t : Ty) (h : f.op = 0xD6) (ht : Ty.ofCode f.ty.toNat = some t) :
        f.instr = (some (.ncoll (collOf f.fn.toNat) f.order f.scope t f.sD f.sA)) := by
    unfold Fields.instr; rw [h, ht]; rfl

theorem broken_E0 (W : Nat) (f : Fields) (h : f.op = 0xE0) :
        broken W f = some (need .badValue (!f.ht) ++ laNone f ++ (privShape [0] f ++ tyIn Ty.zero f ++ len2 f ++ scIs false f ++
      dNone f ++ noABC f)) := by
    unfold broken; rw [h]; rfl

theorem instr_E0 (f : Fields) (h : f.op = 0xE0) : f.instr = (some .rft) := by
    unfold Fields.instr; rw [h]; rfl

theorem broken_E1 (W : Nat) (f : Fields) (h : f.op = 0xE1) :
        broken W f = some (need .badValue (!f.ht) ++ laNone f ++ (privShape [0, 1] f ++ len3i f ++ tyIn (if f.sc then [.n64] else
      [.n32, .n64]) f ++ dSC f.wide f ++ (if f.fn == 1 then aS f else aNone f) ++ cNone f ++ selectorShape false f)) := by
    unfold broken; rw [h]; rfl

theorem instr_E1 (f : Fields) (t : Ty) (h : f.op = 0xE1) (ht : Ty.ofCode f.ty.toNat = some t) :
        f.instr = (some (.psr t f.dest f.pcode (f.pidx f.sA))) := by
    unfold Fields.instr; rw [h, ht]; rfl

theorem broken_E2 (W : Nat) (f : Fields) (h : f.op = 0xE2) :
        broken W f = some (need .badValue (!f.ht) ++ laNone f ++ (privShape [0, 1] f ++ len3i f ++ tyIn [.n64] f ++ scIs true f ++
      dNone f ++ aS f ++ need .badValue (!f.xfi) ++ (if f.fn == 1 then need .badRegister (okS f.scf) else need .notZero (f.scf ==
      0)) ++ selectorShape true f)) := by
    unfold broken; rw [h]; rfl

theorem instr_E2 (f : Fields) (t : Ty) (h : f.op = 0xE2) (ht : Ty.ofCode f.ty.toNat = some t) :
        f.instr = (some (.pwr f.pcode (f.pidx f.sC) f.sA)) := by
    unfold Fields.instr; rw [h, ht]; rfl

theorem broken_E3 (W : Nat) (f : Fields) (h : f.op = 0xE3) :
        broken W f = some (need .badValue (!f.ht) ++ laNone f ++ (privShape [0] f ++ tyIn Ty.zero f ++ len2 f ++ scIs true f ++ dS
      f ++ aS f ++ bNone f ++ cNone f)) := by
    unfold broken; rw [h]; rfl

theorem instr_E3 (f : Fields) (h : f.op = 0xE3) : f.instr = (some (.tlbgen f.sD f.sA)) := by
    unfold Fields.instr; rw [h]; rfl

theorem broken_E4 (W : Nat) (f : Fields) (h : f.op = 0xE4) :
        broken W f = some (need .badValue (!f.ht) ++ laNone f ++ (privShape [0] f ++ tyIn Ty.zero f ++ len2 f ++ scIs true f ++
      dNone f ++ aS f ++ bNone f ++ cNone f)) := by
    unfold broken; rw [h]; rfl

theorem instr_E4 (f : Fields) (h : f.op = 0xE4) : f.instr = (some (.sqz f.sA)) := by
    unfold Fields.instr; rw [h]; rfl

theorem broken_E5 (W : Nat) (f : Fields) (h : f.op = 0xE5) :
        broken W f = some (need .badValue (!f.ht) ++ laNone f ++ (privShape [0] f ++ tyIn Ty.zero f ++ len2 f ++ scIs true f ++
      dNone f ++ aS f ++ bNone f ++ cNone f)) := by
    unfold broken; rw [h]; rfl

theorem instr_E5 (f : Fields) (h : f.op = 0xE5) : f.instr = (some (.xpand f.sA)) := by
    unfold Fields.instr; rw [h]; rfl

theorem broken_E6 (W : Nat) (f : Fields) (h : f.op = 0xE6) :
        broken W f = some (need .badValue (!f.ht) ++ laNone f ++ (privShape [0] f ++ tyIn Ty.zero f ++ len2 f ++ scIs true f ++ dS
      f ++ aS f ++ bNone f ++ cNone f)) := by
    unfold broken; rw [h]; rfl

theorem instr_E6 (f : Fields) (h : f.op = 0xE6) : f.instr = (some (.imgsv f.sD f.sA)) := by
    unfold Fields.instr; rw [h]; rfl

theorem broken_E7 (W : Nat) (f : Fields) (h : f.op = 0xE7) :
        broken W f = some (need .badValue (!f.ht) ++ laNone f ++ (privShape [0] f ++ tyIn Ty.zero f ++ len2 f ++ scIs true f ++ dS
      f ++ aS f ++ bNone f ++ cNone f)) := by
    unfold broken; rw [h]; rfl

theorem instr_E7 (f : Fields) (h : f.op = 0xE7) : f.instr = (some (.imgld f.sD f.sA)) := by
    unfold Fields.instr; rw [h]; rfl

theorem broken_E8 (W : Nat) (f : Fields) (h : f.op = 0xE8) :
        broken W f = some (need .badValue (!f.ht) ++ laNone f ++ (privShape [0, 1] f ++ tyIn Ty.zero f ++ len2 f ++ scIs true f ++
      dSMax 62 f ++ aS f ++ (if f.fn == 0 then bS f else bNone f) ++ cNone f)) := by
    unfold broken; rw [h]; rfl

theorem instr_E8 (f : Fields) (h : f.op = 0xE8) : f.instr = (some (if f.fn == 0 then .digcGang f.sD f.sA f.sB else .digcTask f.sD
  f.sA)) := by
    unfold Fields.instr; rw [h]; rfl

theorem broken_E9 (W : Nat) (f : Fields) (h : f.op = 0xE9) :
        broken W f = some (need .badValue (!f.ht) ++ laNone f ++ (privShape [0] f ++ tyIn Ty.zero f ++ len2 f ++ scIs true f ++
      dSMax 61 f ++ aS f ++ bNone f ++ cNone f)) := by
    unfold broken; rw [h]; rfl

theorem instr_E9 (f : Fields) (h : f.op = 0xE9) : f.instr = (some (.wfe f.sD f.sA)) := by
    unfold Fields.instr; rw [h]; rfl

end Sys2Proof
end

