-- ==== Sys2Proof/Laws/Sparse.lean ====
section
/-!
SUPPORT. Laws of sparse tables and of byte memories: what is read after a write, and the canonical form.
-/
namespace Sys2Proof.Machine

namespace Sparse
variable {α : Type}

theorem get_put_same (d : α) (m : Sparse α) (k : Nat) (v : α) : get d (put m k v) k = v := by
  induction m with
  | nil => simp [put, get]
  | cons x t ih =>
    obtain ⟨j, w⟩ := x
    simp only [put]
    split
    · simp [get]
    · split
      · simp [get]
      · next h => simp [get, h, ih]

theorem get_put_other (d : α) (m : Sparse α) {j k : Nat} {v : α} (h : j ≠ k) : get d (put m k v) j = get d m j := by
  induction m with
  | nil => simp [put, get, h]
  | cons x t ih =>
    obtain ⟨i, w⟩ := x
    simp only [put]
    split
    · simp [get, h]
    · split
      · next e => subst e; simp [get, h]
      · simp [get, ih]

/-- A second record under one key replaces the first. -/
theorem put_put (m : Sparse α) (k : Nat) (v w : α) : put (put m k v) k w = put m k w := by
  induction m with
  | nil => simp [put]
  | cons x t ih =>
    obtain ⟨j, u⟩ := x
    by_cases h : k < j
    · simp [put, h]
    · by_cases e : k = j
      · simp [put, e]
      · simp [put, h, e, ih]

theorem get_erase_same (d : α) (m : Sparse α) (k : Nat) : get d (erase m k) k = d := by
  induction m with
  | nil => rfl
  | cons x t ih =>
    obtain ⟨i, w⟩ := x
    simp only [erase]
    split
    · exact ih
    · next h => simp [get, h, ih]

theorem get_erase_other (d : α) (m : Sparse α) {j k : Nat} (h : j ≠ k) : get d (erase m k) j = get d m j := by
  induction m with
  | nil => rfl
  | cons x t ih =>
    obtain ⟨i, w⟩ := x
    simp only [erase]
    split
    · next e => subst e; simp [get, h, ih]
    · simp [get, ih]

@[simp] theorem get_set_same [DecidableEq α] (d : α) (m : Sparse α) (k : Nat) (v : α) : get d (set d m k v) k = v := by
  unfold set
  split
  · next e => rw [get_erase_same, e]
  · exact get_put_same ..

theorem get_set_other [DecidableEq α] (d : α) (m : Sparse α) {j k : Nat} (v : α) (h : j ≠ k) :
    get d (set d m k v) j = get d m j := by
  unfold set
  split
  · exact get_erase_other d m h
  · exact get_put_other d m h

/-! ### The canonical form -/

theorem wfFrom_le [DecidableEq α] (d : α) {lo lo' : Nat} (m : Sparse α) (h : lo' ≤ lo) (w : wfFrom d lo m = true) :
    wfFrom d lo' m = true := by
  cases m with
  | nil => rfl
  | cons x t =>
    obtain ⟨j, v⟩ := x
    simp only [wfFrom, Bool.and_eq_true, decide_eq_true_eq] at w ⊢
    exact ⟨⟨by omega, w.1.2⟩, w.2⟩

theorem wfFrom_put [DecidableEq α] (d : α) {lo k : Nat} {v : α} (m : Sparse α) (hv : v ≠ d) (hk : lo ≤ k)
    (w : wfFrom d lo m = true) : wfFrom d lo (put m k v) = true := by
  induction m generalizing lo with
  | nil => simp [put, wfFrom, hv, hk]
  | cons x t ih =>
    obtain ⟨j, u⟩ := x
    simp only [wfFrom, Bool.and_eq_true, decide_eq_true_eq] at w
    simp only [put]
    split
    · next h =>
      simp only [wfFrom, Bool.and_eq_true, decide_eq_true_eq]
      exact ⟨⟨hk, hv⟩, ⟨by omega, w.1.2⟩, w.2⟩
    · split
      · next e => subst e; simp [wfFrom, hv, hk, w.2]
      · simp only [wfFrom, Bool.and_eq_true, decide_eq_true_eq]
        exact ⟨w.1, ih (by omega) w.2⟩

theorem wfFrom_erase [DecidableEq α] (d : α) {lo k : Nat} (m : Sparse α) (w : wfFrom d lo m = true) :
    wfFrom d lo (erase m k) = true := by
  induction m generalizing lo with
  | nil => rfl
  | cons x t ih =>
    obtain ⟨j, u⟩ := x
    simp only [wfFrom, Bool.and_eq_true, decide_eq_true_eq] at w
    simp only [erase]
    split
    · exact wfFrom_le d _ (by omega) (ih w.2)
    · simp only [wfFrom, Bool.and_eq_true, decide_eq_true_eq]
      exact ⟨w.1, ih w.2⟩

theorem wf_set [DecidableEq α] (d : α) (m : Sparse α) (k : Nat) (v : α) (w : wf d m = true) : wf d (set d m k v) = true := by
  unfold set wf at *
  split
  · exact wfFrom_erase d m w
  · next h => exact wfFrom_put d m h (by omega) w

end Sparse

/-! ### Byte memories -/

@[simp] theorem rdByte_wrByte_same (m : List Host.Cell) (a : Nat) (x : Byte) : rdByte (wrByte m a x) a = x :=
  Sparse.get_set_same ..

theorem rdByte_wrByte_other (m : List Host.Cell) {a b : Nat} (x : Byte) (h : b ≠ a) : rdByte (wrByte m a x) b = rdByte m b :=
  Sparse.get_set_other _ _ _ h

theorem memWf_wrByte {m : List Host.Cell} (a : Nat) (x : Byte) (h : memWf m = true) : memWf (wrByte m a x) = true :=
  Sparse.wf_set _ _ _ _ h

theorem memWf_wrLE {m : List Host.Cell} (a x n : Nat) (h : memWf m = true) : memWf (wrLE m a x n) = true := by
  induction n generalizing m a x with
  | zero => exact h
  | succ n ih => exact ih _ _ (memWf_wrByte _ _ h)

/-- A write of n bytes leaves every other byte alone. -/
theorem rdByte_wrLE_other (m : List Host.Cell) {a b : Nat} (x n : Nat) (h : b < a ∨ a + n ≤ b) :
    rdByte (wrLE m a x n) b = rdByte m b := by
  induction n generalizing m a x with
  | zero => rfl
  | succ n ih =>
    have hb : b ≠ a := by omega
    have hr : b < a + 1 ∨ a + 1 + n ≤ b := by omega
    rw [wrLE, ih _ _ hr, rdByte_wrByte_other _ _ hb]

/-- Reading n bytes back gives the number written, modulo their width. -/
theorem rdLE_wrLE_same (m : List Host.Cell) (a x n : Nat) : rdLE (wrLE m a x n) a n = x % 256 ^ n := by
  induction n generalizing m a x with
  | zero => simp [rdLE, Nat.mod_one]
  | succ n ih =>
    have h : rdByte (wrLE (wrByte m a (BitVec.ofNat 8 x)) (a + 1) (x / 256) n) a = BitVec.ofNat 8 x := by
      rw [rdByte_wrLE_other _ _ _ (Or.inl (by omega)), rdByte_wrByte_same]
    simp only [rdLE, wrLE, ih, h, BitVec.toNat_ofNat]
    have e : 256 ^ (n + 1) = 256 * 256 ^ n := by rw [Nat.mul_comm, ← Nat.pow_succ]
    rw [e, Nat.mod_mul]

end Sys2Proof.Machine
end

