-- ==== Sys2Proof/Laws/State.lean ====
section
/-!
SUPPORT. What each update of a table leaves of each field of the state, and what reading a table after an update gives.
-/
namespace Sys2Proof.Machine

/-! ### `setGang` -/

@[simp] theorem State.setGang_mem (s : State) (r : GangRef) (g : Gang) : (s.setGang r g).mem = s.mem := rfl
@[simp] theorem State.setGang_hostMem (s : State) (r : GangRef) (g : Gang) : (s.setGang r g).hostMem = s.hostMem := rfl
@[simp] theorem State.setGang_hostWr (s : State) (r : GangRef) (g : Gang) : (s.setGang r g).hostWr = s.hostWr := rfl
@[simp] theorem State.setGang_rels (s : State) (r : GangRef) (g : Gang) : (s.setGang r g).rels = s.rels := rfl
@[simp] theorem State.setGang_watched (s : State) (r : GangRef) (g : Gang) : (s.setGang r g).watched = s.watched := rfl
@[simp] theorem State.setGang_spoiled (s : State) (r : GangRef) (g : Gang) : (s.setGang r g).spoiled = s.spoiled := rfl
@[simp] theorem State.setGang_mode (s : State) (r : GangRef) (g : Gang) : (s.setGang r g).mode = s.mode := rfl
@[simp] theorem State.setGang_ctxs (s : State) (r : GangRef) (g : Gang) : (s.setGang r g).ctxs = s.ctxs := rfl
@[simp] theorem State.setGang_cores (s : State) (r : GangRef) (g : Gang) : (s.setGang r g).cores = s.cores := rfl
@[simp] theorem State.setGang_clusters (s : State) (r : GangRef) (g : Gang) : (s.setGang r g).clusters = s.clusters := rfl
@[simp] theorem State.setGang_groups (s : State) (r : GangRef) (g : Gang) : (s.setGang r g).groups = s.groups := rfl
@[simp] theorem State.setGang_grids (s : State) (r : GangRef) (g : Gang) : (s.setGang r g).grids = s.grids := rfl
@[simp] theorem State.setGang_graphs (s : State) (r : GangRef) (g : Gang) : (s.setGang r g).graphs = s.graphs := rfl
@[simp] theorem State.setGang_queues (s : State) (r : GangRef) (g : Gang) : (s.setGang r g).queues = s.queues := rfl
@[simp] theorem State.setGang_ports (s : State) (r : GangRef) (g : Gang) : (s.setGang r g).ports = s.ports := rfl
@[simp] theorem State.setGang_subs (s : State) (r : GangRef) (g : Gang) : (s.setGang r g).subs = s.subs := rfl
@[simp] theorem State.setGang_pool (s : State) (r : GangRef) (g : Gang) : (s.setGang r g).pool = s.pool := rfl
@[simp] theorem State.setGang_rot (s : State) (r : GangRef) (g : Gang) : (s.setGang r g).rot = s.rot := rfl
@[simp] theorem State.setGang_stdProg (s : State) (r : GangRef) (g : Gang) : (s.setGang r g).stdProg = s.stdProg := rfl
@[simp] theorem State.setGang_pwrlim (s : State) (r : GangRef) (g : Gang) : (s.setGang r g).pwrlim = s.pwrlim := rfl
@[simp] theorem State.setGang_board (s : State) (r : GangRef) (g : Gang) : (s.setGang r g).board = s.board := rfl
@[simp] theorem State.setGang_ceil (s : State) (r : GangRef) (g : Gang) : (s.setGang r g).ceil = s.ceil := rfl
@[simp] theorem State.setGang_lowering (s : State) (r : GangRef) (g : Gang) : (s.setGang r g).lowering = s.lowering := rfl
@[simp] theorem State.setGang_pwAt (s : State) (r : GangRef) (g : Gang) : (s.setGang r g).pwAt = s.pwAt := rfl
@[simp] theorem State.setGang_energyAt (s : State) (r : GangRef) (g : Gang) : (s.setGang r g).energyAt = s.energyAt := rfl
@[simp] theorem State.setGang_srcid (s : State) (r : GangRef) (g : Gang) : (s.setGang r g).srcid = s.srcid := rfl
@[simp] theorem State.setGang_tsrc (s : State) (r : GangRef) (g : Gang) : (s.setGang r g).tsrc = s.tsrc := rfl
@[simp] theorem State.setGang_fguard (s : State) (r : GangRef) (g : Gang) : (s.setGang r g).fguard = s.fguard := rfl
@[simp] theorem State.setGang_fstall (s : State) (r : GangRef) (g : Gang) : (s.setGang r g).fstall = s.fstall := rfl
@[simp] theorem State.setGang_ntmo (s : State) (r : GangRef) (g : Gang) : (s.setGang r g).ntmo = s.ntmo := rfl
@[simp] theorem State.setGang_ctmo (s : State) (r : GangRef) (g : Gang) : (s.setGang r g).ctmo = s.ctmo := rfl
@[simp] theorem State.setGang_ftime (s : State) (r : GangRef) (g : Gang) : (s.setGang r g).ftime = s.ftime := rfl
@[simp] theorem State.setGang_slew (s : State) (r : GangRef) (g : Gang) : (s.setGang r g).slew = s.slew := rfl
@[simp] theorem State.setGang_slewRem (s : State) (r : GangRef) (g : Gang) : (s.setGang r g).slewRem = s.slewRem := rfl
@[simp] theorem State.setGang_tsync (s : State) (r : GangRef) (g : Gang) : (s.setGang r g).tsync = s.tsync := rfl
@[simp] theorem State.setGang_tsyncAt (s : State) (r : GangRef) (g : Gang) : (s.setGang r g).tsyncAt = s.tsyncAt := rfl
@[simp] theorem State.setGang_tsyncTx (s : State) (r : GangRef) (g : Gang) : (s.setGang r g).tsyncTx = s.tsyncTx := rfl
@[simp] theorem State.setGang_holdover (s : State) (r : GangRef) (g : Gang) : (s.setGang r g).holdover = s.holdover := rfl
@[simp] theorem State.setGang_stampT (s : State) (r : GangRef) (g : Gang) : (s.setGang r g).stampT = s.stampT := rfl
@[simp] theorem State.setGang_stampSeq (s : State) (r : GangRef) (g : Gang) : (s.setGang r g).stampSeq = s.stampSeq := rfl
@[simp] theorem State.setGang_localq (s : State) (r : GangRef) (g : Gang) : (s.setGang r g).localq = s.localq := rfl
@[simp] theorem State.setGang_outbox (s : State) (r : GangRef) (g : Gang) : (s.setGang r g).outbox = s.outbox := rfl
@[simp] theorem State.setGang_exported (s : State) (r : GangRef) (g : Gang) : (s.setGang r g).exported = s.exported := rfl
@[simp] theorem State.setGang_lastDel (s : State) (r : GangRef) (g : Gang) : (s.setGang r g).lastDel = s.lastDel := rfl
@[simp] theorem State.setGang_events (s : State) (r : GangRef) (g : Gang) : (s.setGang r g).events = s.events := rfl
@[simp] theorem State.setGang_dropped (s : State) (r : GangRef) (g : Gang) : (s.setGang r g).dropped = s.dropped := rfl
@[simp] theorem State.setGang_bst (s : State) (r : GangRef) (g : Gang) : (s.setGang r g).bst = s.bst := rfl
@[simp] theorem State.setGang_brsn (s : State) (r : GangRef) (g : Gang) : (s.setGang r g).brsn = s.brsn := rfl
@[simp] theorem State.setGang_dlen (s : State) (r : GangRef) (g : Gang) : (s.setGang r g).dlen = s.dlen := rfl
@[simp] theorem State.setGang_m0 (s : State) (r : GangRef) (g : Gang) : (s.setGang r g).m0 = s.m0 := rfl
@[simp] theorem State.setGang_m1 (s : State) (r : GangRef) (g : Gang) : (s.setGang r g).m1 = s.m1 := rfl
@[simp] theorem State.setGang_m2 (s : State) (r : GangRef) (g : Gang) : (s.setGang r g).m2 = s.m2 := rfl
@[simp] theorem State.setGang_m3 (s : State) (r : GangRef) (g : Gang) : (s.setGang r g).m3 = s.m3 := rfl
@[simp] theorem State.setGang_mbCmd (s : State) (r : GangRef) (g : Gang) : (s.setGang r g).mbCmd = s.mbCmd := rfl
@[simp] theorem State.setGang_mbSt (s : State) (r : GangRef) (g : Gang) : (s.setGang r g).mbSt = s.mbSt := rfl
@[simp] theorem State.setGang_mbArg (s : State) (r : GangRef) (g : Gang) : (s.setGang r g).mbArg = s.mbArg := rfl
@[simp] theorem State.setGang_link (s : State) (r : GangRef) (g : Gang) : (s.setGang r g).link = s.link := rfl
@[simp] theorem State.setGang_linkLog (s : State) (r : GangRef) (g : Gang) : (s.setGang r g).linkLog = s.linkLog := rfl
@[simp] theorem State.setGang_hostRd (s : State) (r : GangRef) (g : Gang) : (s.setGang r g).hostRd = s.hostRd := rfl
@[simp] theorem State.setGang_win (s : State) (r : GangRef) (g : Gang) : (s.setGang r g).win = s.win := rfl
@[simp] theorem State.setGang_intr (s : State) (r : GangRef) (g : Gang) : (s.setGang r g).intr = s.intr := rfl
@[simp] theorem State.setGang_dma (s : State) (r : GangRef) (g : Gang) : (s.setGang r g).dma = s.dma := rfl
@[simp] theorem State.setGang_err (s : State) (r : GangRef) (g : Gang) : (s.setGang r g).err = s.err := rfl
@[simp] theorem State.setGang_tick (s : State) (r : GangRef) (g : Gang) : (s.setGang r g).tick = s.tick := rfl
@[simp] theorem State.setGang_now (s : State) (r : GangRef) (g : Gang) : (s.setGang r g).now = s.now := rfl
@[simp] theorem State.setGang_uid (s : State) (r : GangRef) (g : Gang) : (s.setGang r g).uid = s.uid := rfl
@[simp] theorem State.setGang_agenda (s : State) (r : GangRef) (g : Gang) : (s.setGang r g).agenda = s.agenda := rfl
@[simp] theorem State.setGang_cur (s : State) (r : GangRef) (g : Gang) : (s.setGang r g).cur = s.cur := rfl
@[simp] theorem State.setGang_curQ (s : State) (r : GangRef) (g : Gang) : (s.setGang r g).curQ = s.curQ := rfl

/-! ### `setGroup` -/

@[simp] theorem State.setGroup_mem (s : State) (k : Nat) (x : Group) : (s.setGroup k x).mem = s.mem := rfl
@[simp] theorem State.setGroup_hostMem (s : State) (k : Nat) (x : Group) : (s.setGroup k x).hostMem = s.hostMem := rfl
@[simp] theorem State.setGroup_hostWr (s : State) (k : Nat) (x : Group) : (s.setGroup k x).hostWr = s.hostWr := rfl
@[simp] theorem State.setGroup_rels (s : State) (k : Nat) (x : Group) : (s.setGroup k x).rels = s.rels := rfl
@[simp] theorem State.setGroup_watched (s : State) (k : Nat) (x : Group) : (s.setGroup k x).watched = s.watched := rfl
@[simp] theorem State.setGroup_spoiled (s : State) (k : Nat) (x : Group) : (s.setGroup k x).spoiled = s.spoiled := rfl
@[simp] theorem State.setGroup_mode (s : State) (k : Nat) (x : Group) : (s.setGroup k x).mode = s.mode := rfl
@[simp] theorem State.setGroup_ctxs (s : State) (k : Nat) (x : Group) : (s.setGroup k x).ctxs = s.ctxs := rfl
@[simp] theorem State.setGroup_cores (s : State) (k : Nat) (x : Group) : (s.setGroup k x).cores = s.cores := rfl
@[simp] theorem State.setGroup_clusters (s : State) (k : Nat) (x : Group) : (s.setGroup k x).clusters = s.clusters := rfl
@[simp] theorem State.setGroup_gangs (s : State) (k : Nat) (x : Group) : (s.setGroup k x).gangs = s.gangs := rfl
@[simp] theorem State.setGroup_grids (s : State) (k : Nat) (x : Group) : (s.setGroup k x).grids = s.grids := rfl
@[simp] theorem State.setGroup_graphs (s : State) (k : Nat) (x : Group) : (s.setGroup k x).graphs = s.graphs := rfl
@[simp] theorem State.setGroup_queues (s : State) (k : Nat) (x : Group) : (s.setGroup k x).queues = s.queues := rfl
@[simp] theorem State.setGroup_ports (s : State) (k : Nat) (x : Group) : (s.setGroup k x).ports = s.ports := rfl
@[simp] theorem State.setGroup_subs (s : State) (k : Nat) (x : Group) : (s.setGroup k x).subs = s.subs := rfl
@[simp] theorem State.setGroup_pool (s : State) (k : Nat) (x : Group) : (s.setGroup k x).pool = s.pool := rfl
@[simp] theorem State.setGroup_rot (s : State) (k : Nat) (x : Group) : (s.setGroup k x).rot = s.rot := rfl
@[simp] theorem State.setGroup_stdProg (s : State) (k : Nat) (x : Group) : (s.setGroup k x).stdProg = s.stdProg := rfl
@[simp] theorem State.setGroup_pwrlim (s : State) (k : Nat) (x : Group) : (s.setGroup k x).pwrlim = s.pwrlim := rfl
@[simp] theorem State.setGroup_board (s : State) (k : Nat) (x : Group) : (s.setGroup k x).board = s.board := rfl
@[simp] theorem State.setGroup_ceil (s : State) (k : Nat) (x : Group) : (s.setGroup k x).ceil = s.ceil := rfl
@[simp] theorem State.setGroup_lowering (s : State) (k : Nat) (x : Group) : (s.setGroup k x).lowering = s.lowering := rfl
@[simp] theorem State.setGroup_pwAt (s : State) (k : Nat) (x : Group) : (s.setGroup k x).pwAt = s.pwAt := rfl
@[simp] theorem State.setGroup_energyAt (s : State) (k : Nat) (x : Group) : (s.setGroup k x).energyAt = s.energyAt := rfl
@[simp] theorem State.setGroup_srcid (s : State) (k : Nat) (x : Group) : (s.setGroup k x).srcid = s.srcid := rfl
@[simp] theorem State.setGroup_tsrc (s : State) (k : Nat) (x : Group) : (s.setGroup k x).tsrc = s.tsrc := rfl
@[simp] theorem State.setGroup_fguard (s : State) (k : Nat) (x : Group) : (s.setGroup k x).fguard = s.fguard := rfl
@[simp] theorem State.setGroup_fstall (s : State) (k : Nat) (x : Group) : (s.setGroup k x).fstall = s.fstall := rfl
@[simp] theorem State.setGroup_ntmo (s : State) (k : Nat) (x : Group) : (s.setGroup k x).ntmo = s.ntmo := rfl
@[simp] theorem State.setGroup_ctmo (s : State) (k : Nat) (x : Group) : (s.setGroup k x).ctmo = s.ctmo := rfl
@[simp] theorem State.setGroup_ftime (s : State) (k : Nat) (x : Group) : (s.setGroup k x).ftime = s.ftime := rfl
@[simp] theorem State.setGroup_slew (s : State) (k : Nat) (x : Group) : (s.setGroup k x).slew = s.slew := rfl
@[simp] theorem State.setGroup_slewRem (s : State) (k : Nat) (x : Group) : (s.setGroup k x).slewRem = s.slewRem := rfl
@[simp] theorem State.setGroup_tsync (s : State) (k : Nat) (x : Group) : (s.setGroup k x).tsync = s.tsync := rfl
@[simp] theorem State.setGroup_tsyncAt (s : State) (k : Nat) (x : Group) : (s.setGroup k x).tsyncAt = s.tsyncAt := rfl
@[simp] theorem State.setGroup_tsyncTx (s : State) (k : Nat) (x : Group) : (s.setGroup k x).tsyncTx = s.tsyncTx := rfl
@[simp] theorem State.setGroup_holdover (s : State) (k : Nat) (x : Group) : (s.setGroup k x).holdover = s.holdover := rfl
@[simp] theorem State.setGroup_stampT (s : State) (k : Nat) (x : Group) : (s.setGroup k x).stampT = s.stampT := rfl
@[simp] theorem State.setGroup_stampSeq (s : State) (k : Nat) (x : Group) : (s.setGroup k x).stampSeq = s.stampSeq := rfl
@[simp] theorem State.setGroup_localq (s : State) (k : Nat) (x : Group) : (s.setGroup k x).localq = s.localq := rfl
@[simp] theorem State.setGroup_outbox (s : State) (k : Nat) (x : Group) : (s.setGroup k x).outbox = s.outbox := rfl
@[simp] theorem State.setGroup_exported (s : State) (k : Nat) (x : Group) : (s.setGroup k x).exported = s.exported := rfl
@[simp] theorem State.setGroup_lastDel (s : State) (k : Nat) (x : Group) : (s.setGroup k x).lastDel = s.lastDel := rfl
@[simp] theorem State.setGroup_events (s : State) (k : Nat) (x : Group) : (s.setGroup k x).events = s.events := rfl
@[simp] theorem State.setGroup_dropped (s : State) (k : Nat) (x : Group) : (s.setGroup k x).dropped = s.dropped := rfl
@[simp] theorem State.setGroup_bst (s : State) (k : Nat) (x : Group) : (s.setGroup k x).bst = s.bst := rfl
@[simp] theorem State.setGroup_brsn (s : State) (k : Nat) (x : Group) : (s.setGroup k x).brsn = s.brsn := rfl
@[simp] theorem State.setGroup_dlen (s : State) (k : Nat) (x : Group) : (s.setGroup k x).dlen = s.dlen := rfl
@[simp] theorem State.setGroup_m0 (s : State) (k : Nat) (x : Group) : (s.setGroup k x).m0 = s.m0 := rfl
@[simp] theorem State.setGroup_m1 (s : State) (k : Nat) (x : Group) : (s.setGroup k x).m1 = s.m1 := rfl
@[simp] theorem State.setGroup_m2 (s : State) (k : Nat) (x : Group) : (s.setGroup k x).m2 = s.m2 := rfl
@[simp] theorem State.setGroup_m3 (s : State) (k : Nat) (x : Group) : (s.setGroup k x).m3 = s.m3 := rfl
@[simp] theorem State.setGroup_mbCmd (s : State) (k : Nat) (x : Group) : (s.setGroup k x).mbCmd = s.mbCmd := rfl
@[simp] theorem State.setGroup_mbSt (s : State) (k : Nat) (x : Group) : (s.setGroup k x).mbSt = s.mbSt := rfl
@[simp] theorem State.setGroup_mbArg (s : State) (k : Nat) (x : Group) : (s.setGroup k x).mbArg = s.mbArg := rfl
@[simp] theorem State.setGroup_link (s : State) (k : Nat) (x : Group) : (s.setGroup k x).link = s.link := rfl
@[simp] theorem State.setGroup_linkLog (s : State) (k : Nat) (x : Group) : (s.setGroup k x).linkLog = s.linkLog := rfl
@[simp] theorem State.setGroup_hostRd (s : State) (k : Nat) (x : Group) : (s.setGroup k x).hostRd = s.hostRd := rfl
@[simp] theorem State.setGroup_win (s : State) (k : Nat) (x : Group) : (s.setGroup k x).win = s.win := rfl
@[simp] theorem State.setGroup_intr (s : State) (k : Nat) (x : Group) : (s.setGroup k x).intr = s.intr := rfl
@[simp] theorem State.setGroup_dma (s : State) (k : Nat) (x : Group) : (s.setGroup k x).dma = s.dma := rfl
@[simp] theorem State.setGroup_err (s : State) (k : Nat) (x : Group) : (s.setGroup k x).err = s.err := rfl
@[simp] theorem State.setGroup_tick (s : State) (k : Nat) (x : Group) : (s.setGroup k x).tick = s.tick := rfl
@[simp] theorem State.setGroup_now (s : State) (k : Nat) (x : Group) : (s.setGroup k x).now = s.now := rfl
@[simp] theorem State.setGroup_uid (s : State) (k : Nat) (x : Group) : (s.setGroup k x).uid = s.uid := rfl
@[simp] theorem State.setGroup_agenda (s : State) (k : Nat) (x : Group) : (s.setGroup k x).agenda = s.agenda := rfl
@[simp] theorem State.setGroup_cur (s : State) (k : Nat) (x : Group) : (s.setGroup k x).cur = s.cur := rfl
@[simp] theorem State.setGroup_curQ (s : State) (k : Nat) (x : Group) : (s.setGroup k x).curQ = s.curQ := rfl

/-! ### `setGrid` -/

@[simp] theorem State.setGrid_mem (s : State) (k : Nat) (x : Grid) : (s.setGrid k x).mem = s.mem := rfl
@[simp] theorem State.setGrid_hostMem (s : State) (k : Nat) (x : Grid) : (s.setGrid k x).hostMem = s.hostMem := rfl
@[simp] theorem State.setGrid_hostWr (s : State) (k : Nat) (x : Grid) : (s.setGrid k x).hostWr = s.hostWr := rfl
@[simp] theorem State.setGrid_rels (s : State) (k : Nat) (x : Grid) : (s.setGrid k x).rels = s.rels := rfl
@[simp] theorem State.setGrid_watched (s : State) (k : Nat) (x : Grid) : (s.setGrid k x).watched = s.watched := rfl
@[simp] theorem State.setGrid_spoiled (s : State) (k : Nat) (x : Grid) : (s.setGrid k x).spoiled = s.spoiled := rfl
@[simp] theorem State.setGrid_mode (s : State) (k : Nat) (x : Grid) : (s.setGrid k x).mode = s.mode := rfl
@[simp] theorem State.setGrid_ctxs (s : State) (k : Nat) (x : Grid) : (s.setGrid k x).ctxs = s.ctxs := rfl
@[simp] theorem State.setGrid_cores (s : State) (k : Nat) (x : Grid) : (s.setGrid k x).cores = s.cores := rfl
@[simp] theorem State.setGrid_clusters (s : State) (k : Nat) (x : Grid) : (s.setGrid k x).clusters = s.clusters := rfl
@[simp] theorem State.setGrid_gangs (s : State) (k : Nat) (x : Grid) : (s.setGrid k x).gangs = s.gangs := rfl
@[simp] theorem State.setGrid_groups (s : State) (k : Nat) (x : Grid) : (s.setGrid k x).groups = s.groups := rfl
@[simp] theorem State.setGrid_graphs (s : State) (k : Nat) (x : Grid) : (s.setGrid k x).graphs = s.graphs := rfl
@[simp] theorem State.setGrid_queues (s : State) (k : Nat) (x : Grid) : (s.setGrid k x).queues = s.queues := rfl
@[simp] theorem State.setGrid_ports (s : State) (k : Nat) (x : Grid) : (s.setGrid k x).ports = s.ports := rfl
@[simp] theorem State.setGrid_subs (s : State) (k : Nat) (x : Grid) : (s.setGrid k x).subs = s.subs := rfl
@[simp] theorem State.setGrid_pool (s : State) (k : Nat) (x : Grid) : (s.setGrid k x).pool = s.pool := rfl
@[simp] theorem State.setGrid_rot (s : State) (k : Nat) (x : Grid) : (s.setGrid k x).rot = s.rot := rfl
@[simp] theorem State.setGrid_stdProg (s : State) (k : Nat) (x : Grid) : (s.setGrid k x).stdProg = s.stdProg := rfl
@[simp] theorem State.setGrid_pwrlim (s : State) (k : Nat) (x : Grid) : (s.setGrid k x).pwrlim = s.pwrlim := rfl
@[simp] theorem State.setGrid_board (s : State) (k : Nat) (x : Grid) : (s.setGrid k x).board = s.board := rfl
@[simp] theorem State.setGrid_ceil (s : State) (k : Nat) (x : Grid) : (s.setGrid k x).ceil = s.ceil := rfl
@[simp] theorem State.setGrid_lowering (s : State) (k : Nat) (x : Grid) : (s.setGrid k x).lowering = s.lowering := rfl
@[simp] theorem State.setGrid_pwAt (s : State) (k : Nat) (x : Grid) : (s.setGrid k x).pwAt = s.pwAt := rfl
@[simp] theorem State.setGrid_energyAt (s : State) (k : Nat) (x : Grid) : (s.setGrid k x).energyAt = s.energyAt := rfl
@[simp] theorem State.setGrid_srcid (s : State) (k : Nat) (x : Grid) : (s.setGrid k x).srcid = s.srcid := rfl
@[simp] theorem State.setGrid_tsrc (s : State) (k : Nat) (x : Grid) : (s.setGrid k x).tsrc = s.tsrc := rfl
@[simp] theorem State.setGrid_fguard (s : State) (k : Nat) (x : Grid) : (s.setGrid k x).fguard = s.fguard := rfl
@[simp] theorem State.setGrid_fstall (s : State) (k : Nat) (x : Grid) : (s.setGrid k x).fstall = s.fstall := rfl
@[simp] theorem State.setGrid_ntmo (s : State) (k : Nat) (x : Grid) : (s.setGrid k x).ntmo = s.ntmo := rfl
@[simp] theorem State.setGrid_ctmo (s : State) (k : Nat) (x : Grid) : (s.setGrid k x).ctmo = s.ctmo := rfl
@[simp] theorem State.setGrid_ftime (s : State) (k : Nat) (x : Grid) : (s.setGrid k x).ftime = s.ftime := rfl
@[simp] theorem State.setGrid_slew (s : State) (k : Nat) (x : Grid) : (s.setGrid k x).slew = s.slew := rfl
@[simp] theorem State.setGrid_slewRem (s : State) (k : Nat) (x : Grid) : (s.setGrid k x).slewRem = s.slewRem := rfl
@[simp] theorem State.setGrid_tsync (s : State) (k : Nat) (x : Grid) : (s.setGrid k x).tsync = s.tsync := rfl
@[simp] theorem State.setGrid_tsyncAt (s : State) (k : Nat) (x : Grid) : (s.setGrid k x).tsyncAt = s.tsyncAt := rfl
@[simp] theorem State.setGrid_tsyncTx (s : State) (k : Nat) (x : Grid) : (s.setGrid k x).tsyncTx = s.tsyncTx := rfl
@[simp] theorem State.setGrid_holdover (s : State) (k : Nat) (x : Grid) : (s.setGrid k x).holdover = s.holdover := rfl
@[simp] theorem State.setGrid_stampT (s : State) (k : Nat) (x : Grid) : (s.setGrid k x).stampT = s.stampT := rfl
@[simp] theorem State.setGrid_stampSeq (s : State) (k : Nat) (x : Grid) : (s.setGrid k x).stampSeq = s.stampSeq := rfl
@[simp] theorem State.setGrid_localq (s : State) (k : Nat) (x : Grid) : (s.setGrid k x).localq = s.localq := rfl
@[simp] theorem State.setGrid_outbox (s : State) (k : Nat) (x : Grid) : (s.setGrid k x).outbox = s.outbox := rfl
@[simp] theorem State.setGrid_exported (s : State) (k : Nat) (x : Grid) : (s.setGrid k x).exported = s.exported := rfl
@[simp] theorem State.setGrid_lastDel (s : State) (k : Nat) (x : Grid) : (s.setGrid k x).lastDel = s.lastDel := rfl
@[simp] theorem State.setGrid_events (s : State) (k : Nat) (x : Grid) : (s.setGrid k x).events = s.events := rfl
@[simp] theorem State.setGrid_dropped (s : State) (k : Nat) (x : Grid) : (s.setGrid k x).dropped = s.dropped := rfl
@[simp] theorem State.setGrid_bst (s : State) (k : Nat) (x : Grid) : (s.setGrid k x).bst = s.bst := rfl
@[simp] theorem State.setGrid_brsn (s : State) (k : Nat) (x : Grid) : (s.setGrid k x).brsn = s.brsn := rfl
@[simp] theorem State.setGrid_dlen (s : State) (k : Nat) (x : Grid) : (s.setGrid k x).dlen = s.dlen := rfl
@[simp] theorem State.setGrid_m0 (s : State) (k : Nat) (x : Grid) : (s.setGrid k x).m0 = s.m0 := rfl
@[simp] theorem State.setGrid_m1 (s : State) (k : Nat) (x : Grid) : (s.setGrid k x).m1 = s.m1 := rfl
@[simp] theorem State.setGrid_m2 (s : State) (k : Nat) (x : Grid) : (s.setGrid k x).m2 = s.m2 := rfl
@[simp] theorem State.setGrid_m3 (s : State) (k : Nat) (x : Grid) : (s.setGrid k x).m3 = s.m3 := rfl
@[simp] theorem State.setGrid_mbCmd (s : State) (k : Nat) (x : Grid) : (s.setGrid k x).mbCmd = s.mbCmd := rfl
@[simp] theorem State.setGrid_mbSt (s : State) (k : Nat) (x : Grid) : (s.setGrid k x).mbSt = s.mbSt := rfl
@[simp] theorem State.setGrid_mbArg (s : State) (k : Nat) (x : Grid) : (s.setGrid k x).mbArg = s.mbArg := rfl
@[simp] theorem State.setGrid_link (s : State) (k : Nat) (x : Grid) : (s.setGrid k x).link = s.link := rfl
@[simp] theorem State.setGrid_linkLog (s : State) (k : Nat) (x : Grid) : (s.setGrid k x).linkLog = s.linkLog := rfl
@[simp] theorem State.setGrid_hostRd (s : State) (k : Nat) (x : Grid) : (s.setGrid k x).hostRd = s.hostRd := rfl
@[simp] theorem State.setGrid_win (s : State) (k : Nat) (x : Grid) : (s.setGrid k x).win = s.win := rfl
@[simp] theorem State.setGrid_intr (s : State) (k : Nat) (x : Grid) : (s.setGrid k x).intr = s.intr := rfl
@[simp] theorem State.setGrid_dma (s : State) (k : Nat) (x : Grid) : (s.setGrid k x).dma = s.dma := rfl
@[simp] theorem State.setGrid_err (s : State) (k : Nat) (x : Grid) : (s.setGrid k x).err = s.err := rfl
@[simp] theorem State.setGrid_tick (s : State) (k : Nat) (x : Grid) : (s.setGrid k x).tick = s.tick := rfl
@[simp] theorem State.setGrid_now (s : State) (k : Nat) (x : Grid) : (s.setGrid k x).now = s.now := rfl
@[simp] theorem State.setGrid_uid (s : State) (k : Nat) (x : Grid) : (s.setGrid k x).uid = s.uid := rfl
@[simp] theorem State.setGrid_agenda (s : State) (k : Nat) (x : Grid) : (s.setGrid k x).agenda = s.agenda := rfl
@[simp] theorem State.setGrid_cur (s : State) (k : Nat) (x : Grid) : (s.setGrid k x).cur = s.cur := rfl
@[simp] theorem State.setGrid_curQ (s : State) (k : Nat) (x : Grid) : (s.setGrid k x).curQ = s.curQ := rfl

/-! ### `setCtx` -/

@[simp] theorem State.setCtx_mem (s : State) (k : Nat) (x : Ctx) : (s.setCtx k x).mem = s.mem := rfl
@[simp] theorem State.setCtx_hostMem (s : State) (k : Nat) (x : Ctx) : (s.setCtx k x).hostMem = s.hostMem := rfl
@[simp] theorem State.setCtx_hostWr (s : State) (k : Nat) (x : Ctx) : (s.setCtx k x).hostWr = s.hostWr := rfl
@[simp] theorem State.setCtx_rels (s : State) (k : Nat) (x : Ctx) : (s.setCtx k x).rels = s.rels := rfl
@[simp] theorem State.setCtx_watched (s : State) (k : Nat) (x : Ctx) : (s.setCtx k x).watched = s.watched := rfl
@[simp] theorem State.setCtx_spoiled (s : State) (k : Nat) (x : Ctx) : (s.setCtx k x).spoiled = s.spoiled := rfl
@[simp] theorem State.setCtx_mode (s : State) (k : Nat) (x : Ctx) : (s.setCtx k x).mode = s.mode := rfl
@[simp] theorem State.setCtx_cores (s : State) (k : Nat) (x : Ctx) : (s.setCtx k x).cores = s.cores := rfl
@[simp] theorem State.setCtx_clusters (s : State) (k : Nat) (x : Ctx) : (s.setCtx k x).clusters = s.clusters := rfl
@[simp] theorem State.setCtx_gangs (s : State) (k : Nat) (x : Ctx) : (s.setCtx k x).gangs = s.gangs := rfl
@[simp] theorem State.setCtx_groups (s : State) (k : Nat) (x : Ctx) : (s.setCtx k x).groups = s.groups := rfl
@[simp] theorem State.setCtx_grids (s : State) (k : Nat) (x : Ctx) : (s.setCtx k x).grids = s.grids := rfl
@[simp] theorem State.setCtx_graphs (s : State) (k : Nat) (x : Ctx) : (s.setCtx k x).graphs = s.graphs := rfl
@[simp] theorem State.setCtx_queues (s : State) (k : Nat) (x : Ctx) : (s.setCtx k x).queues = s.queues := rfl
@[simp] theorem State.setCtx_ports (s : State) (k : Nat) (x : Ctx) : (s.setCtx k x).ports = s.ports := rfl
@[simp] theorem State.setCtx_subs (s : State) (k : Nat) (x : Ctx) : (s.setCtx k x).subs = s.subs := rfl
@[simp] theorem State.setCtx_pool (s : State) (k : Nat) (x : Ctx) : (s.setCtx k x).pool = s.pool := rfl
@[simp] theorem State.setCtx_rot (s : State) (k : Nat) (x : Ctx) : (s.setCtx k x).rot = s.rot := rfl
@[simp] theorem State.setCtx_stdProg (s : State) (k : Nat) (x : Ctx) : (s.setCtx k x).stdProg = s.stdProg := rfl
@[simp] theorem State.setCtx_pwrlim (s : State) (k : Nat) (x : Ctx) : (s.setCtx k x).pwrlim = s.pwrlim := rfl
@[simp] theorem State.setCtx_board (s : State) (k : Nat) (x : Ctx) : (s.setCtx k x).board = s.board := rfl
@[simp] theorem State.setCtx_ceil (s : State) (k : Nat) (x : Ctx) : (s.setCtx k x).ceil = s.ceil := rfl
@[simp] theorem State.setCtx_lowering (s : State) (k : Nat) (x : Ctx) : (s.setCtx k x).lowering = s.lowering := rfl
@[simp] theorem State.setCtx_pwAt (s : State) (k : Nat) (x : Ctx) : (s.setCtx k x).pwAt = s.pwAt := rfl
@[simp] theorem State.setCtx_energyAt (s : State) (k : Nat) (x : Ctx) : (s.setCtx k x).energyAt = s.energyAt := rfl
@[simp] theorem State.setCtx_srcid (s : State) (k : Nat) (x : Ctx) : (s.setCtx k x).srcid = s.srcid := rfl
@[simp] theorem State.setCtx_tsrc (s : State) (k : Nat) (x : Ctx) : (s.setCtx k x).tsrc = s.tsrc := rfl
@[simp] theorem State.setCtx_fguard (s : State) (k : Nat) (x : Ctx) : (s.setCtx k x).fguard = s.fguard := rfl
@[simp] theorem State.setCtx_fstall (s : State) (k : Nat) (x : Ctx) : (s.setCtx k x).fstall = s.fstall := rfl
@[simp] theorem State.setCtx_ntmo (s : State) (k : Nat) (x : Ctx) : (s.setCtx k x).ntmo = s.ntmo := rfl
@[simp] theorem State.setCtx_ctmo (s : State) (k : Nat) (x : Ctx) : (s.setCtx k x).ctmo = s.ctmo := rfl
@[simp] theorem State.setCtx_ftime (s : State) (k : Nat) (x : Ctx) : (s.setCtx k x).ftime = s.ftime := rfl
@[simp] theorem State.setCtx_slew (s : State) (k : Nat) (x : Ctx) : (s.setCtx k x).slew = s.slew := rfl
@[simp] theorem State.setCtx_slewRem (s : State) (k : Nat) (x : Ctx) : (s.setCtx k x).slewRem = s.slewRem := rfl
@[simp] theorem State.setCtx_tsync (s : State) (k : Nat) (x : Ctx) : (s.setCtx k x).tsync = s.tsync := rfl
@[simp] theorem State.setCtx_tsyncAt (s : State) (k : Nat) (x : Ctx) : (s.setCtx k x).tsyncAt = s.tsyncAt := rfl
@[simp] theorem State.setCtx_tsyncTx (s : State) (k : Nat) (x : Ctx) : (s.setCtx k x).tsyncTx = s.tsyncTx := rfl
@[simp] theorem State.setCtx_holdover (s : State) (k : Nat) (x : Ctx) : (s.setCtx k x).holdover = s.holdover := rfl
@[simp] theorem State.setCtx_stampT (s : State) (k : Nat) (x : Ctx) : (s.setCtx k x).stampT = s.stampT := rfl
@[simp] theorem State.setCtx_stampSeq (s : State) (k : Nat) (x : Ctx) : (s.setCtx k x).stampSeq = s.stampSeq := rfl
@[simp] theorem State.setCtx_localq (s : State) (k : Nat) (x : Ctx) : (s.setCtx k x).localq = s.localq := rfl
@[simp] theorem State.setCtx_outbox (s : State) (k : Nat) (x : Ctx) : (s.setCtx k x).outbox = s.outbox := rfl
@[simp] theorem State.setCtx_exported (s : State) (k : Nat) (x : Ctx) : (s.setCtx k x).exported = s.exported := rfl
@[simp] theorem State.setCtx_lastDel (s : State) (k : Nat) (x : Ctx) : (s.setCtx k x).lastDel = s.lastDel := rfl
@[simp] theorem State.setCtx_events (s : State) (k : Nat) (x : Ctx) : (s.setCtx k x).events = s.events := rfl
@[simp] theorem State.setCtx_dropped (s : State) (k : Nat) (x : Ctx) : (s.setCtx k x).dropped = s.dropped := rfl
@[simp] theorem State.setCtx_bst (s : State) (k : Nat) (x : Ctx) : (s.setCtx k x).bst = s.bst := rfl
@[simp] theorem State.setCtx_brsn (s : State) (k : Nat) (x : Ctx) : (s.setCtx k x).brsn = s.brsn := rfl
@[simp] theorem State.setCtx_dlen (s : State) (k : Nat) (x : Ctx) : (s.setCtx k x).dlen = s.dlen := rfl
@[simp] theorem State.setCtx_m0 (s : State) (k : Nat) (x : Ctx) : (s.setCtx k x).m0 = s.m0 := rfl
@[simp] theorem State.setCtx_m1 (s : State) (k : Nat) (x : Ctx) : (s.setCtx k x).m1 = s.m1 := rfl
@[simp] theorem State.setCtx_m2 (s : State) (k : Nat) (x : Ctx) : (s.setCtx k x).m2 = s.m2 := rfl
@[simp] theorem State.setCtx_m3 (s : State) (k : Nat) (x : Ctx) : (s.setCtx k x).m3 = s.m3 := rfl
@[simp] theorem State.setCtx_mbCmd (s : State) (k : Nat) (x : Ctx) : (s.setCtx k x).mbCmd = s.mbCmd := rfl
@[simp] theorem State.setCtx_mbSt (s : State) (k : Nat) (x : Ctx) : (s.setCtx k x).mbSt = s.mbSt := rfl
@[simp] theorem State.setCtx_mbArg (s : State) (k : Nat) (x : Ctx) : (s.setCtx k x).mbArg = s.mbArg := rfl
@[simp] theorem State.setCtx_link (s : State) (k : Nat) (x : Ctx) : (s.setCtx k x).link = s.link := rfl
@[simp] theorem State.setCtx_linkLog (s : State) (k : Nat) (x : Ctx) : (s.setCtx k x).linkLog = s.linkLog := rfl
@[simp] theorem State.setCtx_hostRd (s : State) (k : Nat) (x : Ctx) : (s.setCtx k x).hostRd = s.hostRd := rfl
@[simp] theorem State.setCtx_win (s : State) (k : Nat) (x : Ctx) : (s.setCtx k x).win = s.win := rfl
@[simp] theorem State.setCtx_intr (s : State) (k : Nat) (x : Ctx) : (s.setCtx k x).intr = s.intr := rfl
@[simp] theorem State.setCtx_dma (s : State) (k : Nat) (x : Ctx) : (s.setCtx k x).dma = s.dma := rfl
@[simp] theorem State.setCtx_err (s : State) (k : Nat) (x : Ctx) : (s.setCtx k x).err = s.err := rfl
@[simp] theorem State.setCtx_tick (s : State) (k : Nat) (x : Ctx) : (s.setCtx k x).tick = s.tick := rfl
@[simp] theorem State.setCtx_now (s : State) (k : Nat) (x : Ctx) : (s.setCtx k x).now = s.now := rfl
@[simp] theorem State.setCtx_uid (s : State) (k : Nat) (x : Ctx) : (s.setCtx k x).uid = s.uid := rfl
@[simp] theorem State.setCtx_agenda (s : State) (k : Nat) (x : Ctx) : (s.setCtx k x).agenda = s.agenda := rfl
@[simp] theorem State.setCtx_cur (s : State) (k : Nat) (x : Ctx) : (s.setCtx k x).cur = s.cur := rfl
@[simp] theorem State.setCtx_curQ (s : State) (k : Nat) (x : Ctx) : (s.setCtx k x).curQ = s.curQ := rfl

/-! ### `setCore` -/

@[simp] theorem State.setCore_mem (s : State) (k : Nat) (x : Core) : (s.setCore k x).mem = s.mem := rfl
@[simp] theorem State.setCore_hostMem (s : State) (k : Nat) (x : Core) : (s.setCore k x).hostMem = s.hostMem := rfl
@[simp] theorem State.setCore_hostWr (s : State) (k : Nat) (x : Core) : (s.setCore k x).hostWr = s.hostWr := rfl
@[simp] theorem State.setCore_rels (s : State) (k : Nat) (x : Core) : (s.setCore k x).rels = s.rels := rfl
@[simp] theorem State.setCore_watched (s : State) (k : Nat) (x : Core) : (s.setCore k x).watched = s.watched := rfl
@[simp] theorem State.setCore_spoiled (s : State) (k : Nat) (x : Core) : (s.setCore k x).spoiled = s.spoiled := rfl
@[simp] theorem State.setCore_mode (s : State) (k : Nat) (x : Core) : (s.setCore k x).mode = s.mode := rfl
@[simp] theorem State.setCore_ctxs (s : State) (k : Nat) (x : Core) : (s.setCore k x).ctxs = s.ctxs := rfl
@[simp] theorem State.setCore_clusters (s : State) (k : Nat) (x : Core) : (s.setCore k x).clusters = s.clusters := rfl
@[simp] theorem State.setCore_gangs (s : State) (k : Nat) (x : Core) : (s.setCore k x).gangs = s.gangs := rfl
@[simp] theorem State.setCore_groups (s : State) (k : Nat) (x : Core) : (s.setCore k x).groups = s.groups := rfl
@[simp] theorem State.setCore_grids (s : State) (k : Nat) (x : Core) : (s.setCore k x).grids = s.grids := rfl
@[simp] theorem State.setCore_graphs (s : State) (k : Nat) (x : Core) : (s.setCore k x).graphs = s.graphs := rfl
@[simp] theorem State.setCore_queues (s : State) (k : Nat) (x : Core) : (s.setCore k x).queues = s.queues := rfl
@[simp] theorem State.setCore_ports (s : State) (k : Nat) (x : Core) : (s.setCore k x).ports = s.ports := rfl
@[simp] theorem State.setCore_subs (s : State) (k : Nat) (x : Core) : (s.setCore k x).subs = s.subs := rfl
@[simp] theorem State.setCore_pool (s : State) (k : Nat) (x : Core) : (s.setCore k x).pool = s.pool := rfl
@[simp] theorem State.setCore_rot (s : State) (k : Nat) (x : Core) : (s.setCore k x).rot = s.rot := rfl
@[simp] theorem State.setCore_stdProg (s : State) (k : Nat) (x : Core) : (s.setCore k x).stdProg = s.stdProg := rfl
@[simp] theorem State.setCore_pwrlim (s : State) (k : Nat) (x : Core) : (s.setCore k x).pwrlim = s.pwrlim := rfl
@[simp] theorem State.setCore_board (s : State) (k : Nat) (x : Core) : (s.setCore k x).board = s.board := rfl
@[simp] theorem State.setCore_ceil (s : State) (k : Nat) (x : Core) : (s.setCore k x).ceil = s.ceil := rfl
@[simp] theorem State.setCore_lowering (s : State) (k : Nat) (x : Core) : (s.setCore k x).lowering = s.lowering := rfl
@[simp] theorem State.setCore_pwAt (s : State) (k : Nat) (x : Core) : (s.setCore k x).pwAt = s.pwAt := rfl
@[simp] theorem State.setCore_energyAt (s : State) (k : Nat) (x : Core) : (s.setCore k x).energyAt = s.energyAt := rfl
@[simp] theorem State.setCore_srcid (s : State) (k : Nat) (x : Core) : (s.setCore k x).srcid = s.srcid := rfl
@[simp] theorem State.setCore_tsrc (s : State) (k : Nat) (x : Core) : (s.setCore k x).tsrc = s.tsrc := rfl
@[simp] theorem State.setCore_fguard (s : State) (k : Nat) (x : Core) : (s.setCore k x).fguard = s.fguard := rfl
@[simp] theorem State.setCore_fstall (s : State) (k : Nat) (x : Core) : (s.setCore k x).fstall = s.fstall := rfl
@[simp] theorem State.setCore_ntmo (s : State) (k : Nat) (x : Core) : (s.setCore k x).ntmo = s.ntmo := rfl
@[simp] theorem State.setCore_ctmo (s : State) (k : Nat) (x : Core) : (s.setCore k x).ctmo = s.ctmo := rfl
@[simp] theorem State.setCore_ftime (s : State) (k : Nat) (x : Core) : (s.setCore k x).ftime = s.ftime := rfl
@[simp] theorem State.setCore_slew (s : State) (k : Nat) (x : Core) : (s.setCore k x).slew = s.slew := rfl
@[simp] theorem State.setCore_slewRem (s : State) (k : Nat) (x : Core) : (s.setCore k x).slewRem = s.slewRem := rfl
@[simp] theorem State.setCore_tsync (s : State) (k : Nat) (x : Core) : (s.setCore k x).tsync = s.tsync := rfl
@[simp] theorem State.setCore_tsyncAt (s : State) (k : Nat) (x : Core) : (s.setCore k x).tsyncAt = s.tsyncAt := rfl
@[simp] theorem State.setCore_tsyncTx (s : State) (k : Nat) (x : Core) : (s.setCore k x).tsyncTx = s.tsyncTx := rfl
@[simp] theorem State.setCore_holdover (s : State) (k : Nat) (x : Core) : (s.setCore k x).holdover = s.holdover := rfl
@[simp] theorem State.setCore_stampT (s : State) (k : Nat) (x : Core) : (s.setCore k x).stampT = s.stampT := rfl
@[simp] theorem State.setCore_stampSeq (s : State) (k : Nat) (x : Core) : (s.setCore k x).stampSeq = s.stampSeq := rfl
@[simp] theorem State.setCore_localq (s : State) (k : Nat) (x : Core) : (s.setCore k x).localq = s.localq := rfl
@[simp] theorem State.setCore_outbox (s : State) (k : Nat) (x : Core) : (s.setCore k x).outbox = s.outbox := rfl
@[simp] theorem State.setCore_exported (s : State) (k : Nat) (x : Core) : (s.setCore k x).exported = s.exported := rfl
@[simp] theorem State.setCore_lastDel (s : State) (k : Nat) (x : Core) : (s.setCore k x).lastDel = s.lastDel := rfl
@[simp] theorem State.setCore_events (s : State) (k : Nat) (x : Core) : (s.setCore k x).events = s.events := rfl
@[simp] theorem State.setCore_dropped (s : State) (k : Nat) (x : Core) : (s.setCore k x).dropped = s.dropped := rfl
@[simp] theorem State.setCore_bst (s : State) (k : Nat) (x : Core) : (s.setCore k x).bst = s.bst := rfl
@[simp] theorem State.setCore_brsn (s : State) (k : Nat) (x : Core) : (s.setCore k x).brsn = s.brsn := rfl
@[simp] theorem State.setCore_dlen (s : State) (k : Nat) (x : Core) : (s.setCore k x).dlen = s.dlen := rfl
@[simp] theorem State.setCore_m0 (s : State) (k : Nat) (x : Core) : (s.setCore k x).m0 = s.m0 := rfl
@[simp] theorem State.setCore_m1 (s : State) (k : Nat) (x : Core) : (s.setCore k x).m1 = s.m1 := rfl
@[simp] theorem State.setCore_m2 (s : State) (k : Nat) (x : Core) : (s.setCore k x).m2 = s.m2 := rfl
@[simp] theorem State.setCore_m3 (s : State) (k : Nat) (x : Core) : (s.setCore k x).m3 = s.m3 := rfl
@[simp] theorem State.setCore_mbCmd (s : State) (k : Nat) (x : Core) : (s.setCore k x).mbCmd = s.mbCmd := rfl
@[simp] theorem State.setCore_mbSt (s : State) (k : Nat) (x : Core) : (s.setCore k x).mbSt = s.mbSt := rfl
@[simp] theorem State.setCore_mbArg (s : State) (k : Nat) (x : Core) : (s.setCore k x).mbArg = s.mbArg := rfl
@[simp] theorem State.setCore_link (s : State) (k : Nat) (x : Core) : (s.setCore k x).link = s.link := rfl
@[simp] theorem State.setCore_linkLog (s : State) (k : Nat) (x : Core) : (s.setCore k x).linkLog = s.linkLog := rfl
@[simp] theorem State.setCore_hostRd (s : State) (k : Nat) (x : Core) : (s.setCore k x).hostRd = s.hostRd := rfl
@[simp] theorem State.setCore_win (s : State) (k : Nat) (x : Core) : (s.setCore k x).win = s.win := rfl
@[simp] theorem State.setCore_intr (s : State) (k : Nat) (x : Core) : (s.setCore k x).intr = s.intr := rfl
@[simp] theorem State.setCore_dma (s : State) (k : Nat) (x : Core) : (s.setCore k x).dma = s.dma := rfl
@[simp] theorem State.setCore_err (s : State) (k : Nat) (x : Core) : (s.setCore k x).err = s.err := rfl
@[simp] theorem State.setCore_tick (s : State) (k : Nat) (x : Core) : (s.setCore k x).tick = s.tick := rfl
@[simp] theorem State.setCore_now (s : State) (k : Nat) (x : Core) : (s.setCore k x).now = s.now := rfl
@[simp] theorem State.setCore_uid (s : State) (k : Nat) (x : Core) : (s.setCore k x).uid = s.uid := rfl
@[simp] theorem State.setCore_agenda (s : State) (k : Nat) (x : Core) : (s.setCore k x).agenda = s.agenda := rfl
@[simp] theorem State.setCore_cur (s : State) (k : Nat) (x : Core) : (s.setCore k x).cur = s.cur := rfl
@[simp] theorem State.setCore_curQ (s : State) (k : Nat) (x : Core) : (s.setCore k x).curQ = s.curQ := rfl

/-! ### `setCluster` -/

@[simp] theorem State.setCluster_mem (s : State) (k : Nat) (x : Cluster) : (s.setCluster k x).mem = s.mem := rfl
@[simp] theorem State.setCluster_hostMem (s : State) (k : Nat) (x : Cluster) : (s.setCluster k x).hostMem = s.hostMem := rfl
@[simp] theorem State.setCluster_hostWr (s : State) (k : Nat) (x : Cluster) : (s.setCluster k x).hostWr = s.hostWr := rfl
@[simp] theorem State.setCluster_rels (s : State) (k : Nat) (x : Cluster) : (s.setCluster k x).rels = s.rels := rfl
@[simp] theorem State.setCluster_watched (s : State) (k : Nat) (x : Cluster) : (s.setCluster k x).watched = s.watched := rfl
@[simp] theorem State.setCluster_spoiled (s : State) (k : Nat) (x : Cluster) : (s.setCluster k x).spoiled = s.spoiled := rfl
@[simp] theorem State.setCluster_mode (s : State) (k : Nat) (x : Cluster) : (s.setCluster k x).mode = s.mode := rfl
@[simp] theorem State.setCluster_ctxs (s : State) (k : Nat) (x : Cluster) : (s.setCluster k x).ctxs = s.ctxs := rfl
@[simp] theorem State.setCluster_cores (s : State) (k : Nat) (x : Cluster) : (s.setCluster k x).cores = s.cores := rfl
@[simp] theorem State.setCluster_gangs (s : State) (k : Nat) (x : Cluster) : (s.setCluster k x).gangs = s.gangs := rfl
@[simp] theorem State.setCluster_groups (s : State) (k : Nat) (x : Cluster) : (s.setCluster k x).groups = s.groups := rfl
@[simp] theorem State.setCluster_grids (s : State) (k : Nat) (x : Cluster) : (s.setCluster k x).grids = s.grids := rfl
@[simp] theorem State.setCluster_graphs (s : State) (k : Nat) (x : Cluster) : (s.setCluster k x).graphs = s.graphs := rfl
@[simp] theorem State.setCluster_queues (s : State) (k : Nat) (x : Cluster) : (s.setCluster k x).queues = s.queues := rfl
@[simp] theorem State.setCluster_ports (s : State) (k : Nat) (x : Cluster) : (s.setCluster k x).ports = s.ports := rfl
@[simp] theorem State.setCluster_subs (s : State) (k : Nat) (x : Cluster) : (s.setCluster k x).subs = s.subs := rfl
@[simp] theorem State.setCluster_pool (s : State) (k : Nat) (x : Cluster) : (s.setCluster k x).pool = s.pool := rfl
@[simp] theorem State.setCluster_rot (s : State) (k : Nat) (x : Cluster) : (s.setCluster k x).rot = s.rot := rfl
@[simp] theorem State.setCluster_stdProg (s : State) (k : Nat) (x : Cluster) : (s.setCluster k x).stdProg = s.stdProg := rfl
@[simp] theorem State.setCluster_pwrlim (s : State) (k : Nat) (x : Cluster) : (s.setCluster k x).pwrlim = s.pwrlim := rfl
@[simp] theorem State.setCluster_board (s : State) (k : Nat) (x : Cluster) : (s.setCluster k x).board = s.board := rfl
@[simp] theorem State.setCluster_ceil (s : State) (k : Nat) (x : Cluster) : (s.setCluster k x).ceil = s.ceil := rfl
@[simp] theorem State.setCluster_lowering (s : State) (k : Nat) (x : Cluster) : (s.setCluster k x).lowering = s.lowering := rfl
@[simp] theorem State.setCluster_pwAt (s : State) (k : Nat) (x : Cluster) : (s.setCluster k x).pwAt = s.pwAt := rfl
@[simp] theorem State.setCluster_energyAt (s : State) (k : Nat) (x : Cluster) : (s.setCluster k x).energyAt = s.energyAt := rfl
@[simp] theorem State.setCluster_srcid (s : State) (k : Nat) (x : Cluster) : (s.setCluster k x).srcid = s.srcid := rfl
@[simp] theorem State.setCluster_tsrc (s : State) (k : Nat) (x : Cluster) : (s.setCluster k x).tsrc = s.tsrc := rfl
@[simp] theorem State.setCluster_fguard (s : State) (k : Nat) (x : Cluster) : (s.setCluster k x).fguard = s.fguard := rfl
@[simp] theorem State.setCluster_fstall (s : State) (k : Nat) (x : Cluster) : (s.setCluster k x).fstall = s.fstall := rfl
@[simp] theorem State.setCluster_ntmo (s : State) (k : Nat) (x : Cluster) : (s.setCluster k x).ntmo = s.ntmo := rfl
@[simp] theorem State.setCluster_ctmo (s : State) (k : Nat) (x : Cluster) : (s.setCluster k x).ctmo = s.ctmo := rfl
@[simp] theorem State.setCluster_ftime (s : State) (k : Nat) (x : Cluster) : (s.setCluster k x).ftime = s.ftime := rfl
@[simp] theorem State.setCluster_slew (s : State) (k : Nat) (x : Cluster) : (s.setCluster k x).slew = s.slew := rfl
@[simp] theorem State.setCluster_slewRem (s : State) (k : Nat) (x : Cluster) : (s.setCluster k x).slewRem = s.slewRem := rfl
@[simp] theorem State.setCluster_tsync (s : State) (k : Nat) (x : Cluster) : (s.setCluster k x).tsync = s.tsync := rfl
@[simp] theorem State.setCluster_tsyncAt (s : State) (k : Nat) (x : Cluster) : (s.setCluster k x).tsyncAt = s.tsyncAt := rfl
@[simp] theorem State.setCluster_tsyncTx (s : State) (k : Nat) (x : Cluster) : (s.setCluster k x).tsyncTx = s.tsyncTx := rfl
@[simp] theorem State.setCluster_holdover (s : State) (k : Nat) (x : Cluster) : (s.setCluster k x).holdover = s.holdover := rfl
@[simp] theorem State.setCluster_stampT (s : State) (k : Nat) (x : Cluster) : (s.setCluster k x).stampT = s.stampT := rfl
@[simp] theorem State.setCluster_stampSeq (s : State) (k : Nat) (x : Cluster) : (s.setCluster k x).stampSeq = s.stampSeq := rfl
@[simp] theorem State.setCluster_localq (s : State) (k : Nat) (x : Cluster) : (s.setCluster k x).localq = s.localq := rfl
@[simp] theorem State.setCluster_outbox (s : State) (k : Nat) (x : Cluster) : (s.setCluster k x).outbox = s.outbox := rfl
@[simp] theorem State.setCluster_exported (s : State) (k : Nat) (x : Cluster) : (s.setCluster k x).exported = s.exported := rfl
@[simp] theorem State.setCluster_lastDel (s : State) (k : Nat) (x : Cluster) : (s.setCluster k x).lastDel = s.lastDel := rfl
@[simp] theorem State.setCluster_events (s : State) (k : Nat) (x : Cluster) : (s.setCluster k x).events = s.events := rfl
@[simp] theorem State.setCluster_dropped (s : State) (k : Nat) (x : Cluster) : (s.setCluster k x).dropped = s.dropped := rfl
@[simp] theorem State.setCluster_bst (s : State) (k : Nat) (x : Cluster) : (s.setCluster k x).bst = s.bst := rfl
@[simp] theorem State.setCluster_brsn (s : State) (k : Nat) (x : Cluster) : (s.setCluster k x).brsn = s.brsn := rfl
@[simp] theorem State.setCluster_dlen (s : State) (k : Nat) (x : Cluster) : (s.setCluster k x).dlen = s.dlen := rfl
@[simp] theorem State.setCluster_m0 (s : State) (k : Nat) (x : Cluster) : (s.setCluster k x).m0 = s.m0 := rfl
@[simp] theorem State.setCluster_m1 (s : State) (k : Nat) (x : Cluster) : (s.setCluster k x).m1 = s.m1 := rfl
@[simp] theorem State.setCluster_m2 (s : State) (k : Nat) (x : Cluster) : (s.setCluster k x).m2 = s.m2 := rfl
@[simp] theorem State.setCluster_m3 (s : State) (k : Nat) (x : Cluster) : (s.setCluster k x).m3 = s.m3 := rfl
@[simp] theorem State.setCluster_mbCmd (s : State) (k : Nat) (x : Cluster) : (s.setCluster k x).mbCmd = s.mbCmd := rfl
@[simp] theorem State.setCluster_mbSt (s : State) (k : Nat) (x : Cluster) : (s.setCluster k x).mbSt = s.mbSt := rfl
@[simp] theorem State.setCluster_mbArg (s : State) (k : Nat) (x : Cluster) : (s.setCluster k x).mbArg = s.mbArg := rfl
@[simp] theorem State.setCluster_link (s : State) (k : Nat) (x : Cluster) : (s.setCluster k x).link = s.link := rfl
@[simp] theorem State.setCluster_linkLog (s : State) (k : Nat) (x : Cluster) : (s.setCluster k x).linkLog = s.linkLog := rfl
@[simp] theorem State.setCluster_hostRd (s : State) (k : Nat) (x : Cluster) : (s.setCluster k x).hostRd = s.hostRd := rfl
@[simp] theorem State.setCluster_win (s : State) (k : Nat) (x : Cluster) : (s.setCluster k x).win = s.win := rfl
@[simp] theorem State.setCluster_intr (s : State) (k : Nat) (x : Cluster) : (s.setCluster k x).intr = s.intr := rfl
@[simp] theorem State.setCluster_dma (s : State) (k : Nat) (x : Cluster) : (s.setCluster k x).dma = s.dma := rfl
@[simp] theorem State.setCluster_err (s : State) (k : Nat) (x : Cluster) : (s.setCluster k x).err = s.err := rfl
@[simp] theorem State.setCluster_tick (s : State) (k : Nat) (x : Cluster) : (s.setCluster k x).tick = s.tick := rfl
@[simp] theorem State.setCluster_now (s : State) (k : Nat) (x : Cluster) : (s.setCluster k x).now = s.now := rfl
@[simp] theorem State.setCluster_uid (s : State) (k : Nat) (x : Cluster) : (s.setCluster k x).uid = s.uid := rfl
@[simp] theorem State.setCluster_agenda (s : State) (k : Nat) (x : Cluster) : (s.setCluster k x).agenda = s.agenda := rfl
@[simp] theorem State.setCluster_cur (s : State) (k : Nat) (x : Cluster) : (s.setCluster k x).cur = s.cur := rfl
@[simp] theorem State.setCluster_curQ (s : State) (k : Nat) (x : Cluster) : (s.setCluster k x).curQ = s.curQ := rfl

/-! ### `setPort` -/

@[simp] theorem State.setPort_mem (s : State) (k : Nat) (x : Port) : (s.setPort k x).mem = s.mem := rfl
@[simp] theorem State.setPort_hostMem (s : State) (k : Nat) (x : Port) : (s.setPort k x).hostMem = s.hostMem := rfl
@[simp] theorem State.setPort_hostWr (s : State) (k : Nat) (x : Port) : (s.setPort k x).hostWr = s.hostWr := rfl
@[simp] theorem State.setPort_rels (s : State) (k : Nat) (x : Port) : (s.setPort k x).rels = s.rels := rfl
@[simp] theorem State.setPort_watched (s : State) (k : Nat) (x : Port) : (s.setPort k x).watched = s.watched := rfl
@[simp] theorem State.setPort_spoiled (s : State) (k : Nat) (x : Port) : (s.setPort k x).spoiled = s.spoiled := rfl
@[simp] theorem State.setPort_mode (s : State) (k : Nat) (x : Port) : (s.setPort k x).mode = s.mode := rfl
@[simp] theorem State.setPort_ctxs (s : State) (k : Nat) (x : Port) : (s.setPort k x).ctxs = s.ctxs := rfl
@[simp] theorem State.setPort_cores (s : State) (k : Nat) (x : Port) : (s.setPort k x).cores = s.cores := rfl
@[simp] theorem State.setPort_clusters (s : State) (k : Nat) (x : Port) : (s.setPort k x).clusters = s.clusters := rfl
@[simp] theorem State.setPort_gangs (s : State) (k : Nat) (x : Port) : (s.setPort k x).gangs = s.gangs := rfl
@[simp] theorem State.setPort_groups (s : State) (k : Nat) (x : Port) : (s.setPort k x).groups = s.groups := rfl
@[simp] theorem State.setPort_grids (s : State) (k : Nat) (x : Port) : (s.setPort k x).grids = s.grids := rfl
@[simp] theorem State.setPort_graphs (s : State) (k : Nat) (x : Port) : (s.setPort k x).graphs = s.graphs := rfl
@[simp] theorem State.setPort_queues (s : State) (k : Nat) (x : Port) : (s.setPort k x).queues = s.queues := rfl
@[simp] theorem State.setPort_subs (s : State) (k : Nat) (x : Port) : (s.setPort k x).subs = s.subs := rfl
@[simp] theorem State.setPort_pool (s : State) (k : Nat) (x : Port) : (s.setPort k x).pool = s.pool := rfl
@[simp] theorem State.setPort_rot (s : State) (k : Nat) (x : Port) : (s.setPort k x).rot = s.rot := rfl
@[simp] theorem State.setPort_stdProg (s : State) (k : Nat) (x : Port) : (s.setPort k x).stdProg = s.stdProg := rfl
@[simp] theorem State.setPort_pwrlim (s : State) (k : Nat) (x : Port) : (s.setPort k x).pwrlim = s.pwrlim := rfl
@[simp] theorem State.setPort_board (s : State) (k : Nat) (x : Port) : (s.setPort k x).board = s.board := rfl
@[simp] theorem State.setPort_ceil (s : State) (k : Nat) (x : Port) : (s.setPort k x).ceil = s.ceil := rfl
@[simp] theorem State.setPort_lowering (s : State) (k : Nat) (x : Port) : (s.setPort k x).lowering = s.lowering := rfl
@[simp] theorem State.setPort_pwAt (s : State) (k : Nat) (x : Port) : (s.setPort k x).pwAt = s.pwAt := rfl
@[simp] theorem State.setPort_energyAt (s : State) (k : Nat) (x : Port) : (s.setPort k x).energyAt = s.energyAt := rfl
@[simp] theorem State.setPort_srcid (s : State) (k : Nat) (x : Port) : (s.setPort k x).srcid = s.srcid := rfl
@[simp] theorem State.setPort_tsrc (s : State) (k : Nat) (x : Port) : (s.setPort k x).tsrc = s.tsrc := rfl
@[simp] theorem State.setPort_fguard (s : State) (k : Nat) (x : Port) : (s.setPort k x).fguard = s.fguard := rfl
@[simp] theorem State.setPort_fstall (s : State) (k : Nat) (x : Port) : (s.setPort k x).fstall = s.fstall := rfl
@[simp] theorem State.setPort_ntmo (s : State) (k : Nat) (x : Port) : (s.setPort k x).ntmo = s.ntmo := rfl
@[simp] theorem State.setPort_ctmo (s : State) (k : Nat) (x : Port) : (s.setPort k x).ctmo = s.ctmo := rfl
@[simp] theorem State.setPort_ftime (s : State) (k : Nat) (x : Port) : (s.setPort k x).ftime = s.ftime := rfl
@[simp] theorem State.setPort_slew (s : State) (k : Nat) (x : Port) : (s.setPort k x).slew = s.slew := rfl
@[simp] theorem State.setPort_slewRem (s : State) (k : Nat) (x : Port) : (s.setPort k x).slewRem = s.slewRem := rfl
@[simp] theorem State.setPort_tsync (s : State) (k : Nat) (x : Port) : (s.setPort k x).tsync = s.tsync := rfl
@[simp] theorem State.setPort_tsyncAt (s : State) (k : Nat) (x : Port) : (s.setPort k x).tsyncAt = s.tsyncAt := rfl
@[simp] theorem State.setPort_tsyncTx (s : State) (k : Nat) (x : Port) : (s.setPort k x).tsyncTx = s.tsyncTx := rfl
@[simp] theorem State.setPort_holdover (s : State) (k : Nat) (x : Port) : (s.setPort k x).holdover = s.holdover := rfl
@[simp] theorem State.setPort_stampT (s : State) (k : Nat) (x : Port) : (s.setPort k x).stampT = s.stampT := rfl
@[simp] theorem State.setPort_stampSeq (s : State) (k : Nat) (x : Port) : (s.setPort k x).stampSeq = s.stampSeq := rfl
@[simp] theorem State.setPort_localq (s : State) (k : Nat) (x : Port) : (s.setPort k x).localq = s.localq := rfl
@[simp] theorem State.setPort_outbox (s : State) (k : Nat) (x : Port) : (s.setPort k x).outbox = s.outbox := rfl
@[simp] theorem State.setPort_exported (s : State) (k : Nat) (x : Port) : (s.setPort k x).exported = s.exported := rfl
@[simp] theorem State.setPort_lastDel (s : State) (k : Nat) (x : Port) : (s.setPort k x).lastDel = s.lastDel := rfl
@[simp] theorem State.setPort_events (s : State) (k : Nat) (x : Port) : (s.setPort k x).events = s.events := rfl
@[simp] theorem State.setPort_dropped (s : State) (k : Nat) (x : Port) : (s.setPort k x).dropped = s.dropped := rfl
@[simp] theorem State.setPort_bst (s : State) (k : Nat) (x : Port) : (s.setPort k x).bst = s.bst := rfl
@[simp] theorem State.setPort_brsn (s : State) (k : Nat) (x : Port) : (s.setPort k x).brsn = s.brsn := rfl
@[simp] theorem State.setPort_dlen (s : State) (k : Nat) (x : Port) : (s.setPort k x).dlen = s.dlen := rfl
@[simp] theorem State.setPort_m0 (s : State) (k : Nat) (x : Port) : (s.setPort k x).m0 = s.m0 := rfl
@[simp] theorem State.setPort_m1 (s : State) (k : Nat) (x : Port) : (s.setPort k x).m1 = s.m1 := rfl
@[simp] theorem State.setPort_m2 (s : State) (k : Nat) (x : Port) : (s.setPort k x).m2 = s.m2 := rfl
@[simp] theorem State.setPort_m3 (s : State) (k : Nat) (x : Port) : (s.setPort k x).m3 = s.m3 := rfl
@[simp] theorem State.setPort_mbCmd (s : State) (k : Nat) (x : Port) : (s.setPort k x).mbCmd = s.mbCmd := rfl
@[simp] theorem State.setPort_mbSt (s : State) (k : Nat) (x : Port) : (s.setPort k x).mbSt = s.mbSt := rfl
@[simp] theorem State.setPort_mbArg (s : State) (k : Nat) (x : Port) : (s.setPort k x).mbArg = s.mbArg := rfl
@[simp] theorem State.setPort_link (s : State) (k : Nat) (x : Port) : (s.setPort k x).link = s.link := rfl
@[simp] theorem State.setPort_linkLog (s : State) (k : Nat) (x : Port) : (s.setPort k x).linkLog = s.linkLog := rfl
@[simp] theorem State.setPort_hostRd (s : State) (k : Nat) (x : Port) : (s.setPort k x).hostRd = s.hostRd := rfl
@[simp] theorem State.setPort_win (s : State) (k : Nat) (x : Port) : (s.setPort k x).win = s.win := rfl
@[simp] theorem State.setPort_intr (s : State) (k : Nat) (x : Port) : (s.setPort k x).intr = s.intr := rfl
@[simp] theorem State.setPort_dma (s : State) (k : Nat) (x : Port) : (s.setPort k x).dma = s.dma := rfl
@[simp] theorem State.setPort_err (s : State) (k : Nat) (x : Port) : (s.setPort k x).err = s.err := rfl
@[simp] theorem State.setPort_tick (s : State) (k : Nat) (x : Port) : (s.setPort k x).tick = s.tick := rfl
@[simp] theorem State.setPort_now (s : State) (k : Nat) (x : Port) : (s.setPort k x).now = s.now := rfl
@[simp] theorem State.setPort_uid (s : State) (k : Nat) (x : Port) : (s.setPort k x).uid = s.uid := rfl
@[simp] theorem State.setPort_agenda (s : State) (k : Nat) (x : Port) : (s.setPort k x).agenda = s.agenda := rfl
@[simp] theorem State.setPort_cur (s : State) (k : Nat) (x : Port) : (s.setPort k x).cur = s.cur := rfl
@[simp] theorem State.setPort_curQ (s : State) (k : Nat) (x : Port) : (s.setPort k x).curQ = s.curQ := rfl

/-! ### `setGraph` -/

@[simp] theorem State.setGraph_mem (s : State) (k : Nat) (x : Graph) : (s.setGraph k x).mem = s.mem := rfl
@[simp] theorem State.setGraph_hostMem (s : State) (k : Nat) (x : Graph) : (s.setGraph k x).hostMem = s.hostMem := rfl
@[simp] theorem State.setGraph_hostWr (s : State) (k : Nat) (x : Graph) : (s.setGraph k x).hostWr = s.hostWr := rfl
@[simp] theorem State.setGraph_rels (s : State) (k : Nat) (x : Graph) : (s.setGraph k x).rels = s.rels := rfl
@[simp] theorem State.setGraph_watched (s : State) (k : Nat) (x : Graph) : (s.setGraph k x).watched = s.watched := rfl
@[simp] theorem State.setGraph_spoiled (s : State) (k : Nat) (x : Graph) : (s.setGraph k x).spoiled = s.spoiled := rfl
@[simp] theorem State.setGraph_mode (s : State) (k : Nat) (x : Graph) : (s.setGraph k x).mode = s.mode := rfl
@[simp] theorem State.setGraph_ctxs (s : State) (k : Nat) (x : Graph) : (s.setGraph k x).ctxs = s.ctxs := rfl
@[simp] theorem State.setGraph_cores (s : State) (k : Nat) (x : Graph) : (s.setGraph k x).cores = s.cores := rfl
@[simp] theorem State.setGraph_clusters (s : State) (k : Nat) (x : Graph) : (s.setGraph k x).clusters = s.clusters := rfl
@[simp] theorem State.setGraph_gangs (s : State) (k : Nat) (x : Graph) : (s.setGraph k x).gangs = s.gangs := rfl
@[simp] theorem State.setGraph_groups (s : State) (k : Nat) (x : Graph) : (s.setGraph k x).groups = s.groups := rfl
@[simp] theorem State.setGraph_grids (s : State) (k : Nat) (x : Graph) : (s.setGraph k x).grids = s.grids := rfl
@[simp] theorem State.setGraph_queues (s : State) (k : Nat) (x : Graph) : (s.setGraph k x).queues = s.queues := rfl
@[simp] theorem State.setGraph_ports (s : State) (k : Nat) (x : Graph) : (s.setGraph k x).ports = s.ports := rfl
@[simp] theorem State.setGraph_subs (s : State) (k : Nat) (x : Graph) : (s.setGraph k x).subs = s.subs := rfl
@[simp] theorem State.setGraph_pool (s : State) (k : Nat) (x : Graph) : (s.setGraph k x).pool = s.pool := rfl
@[simp] theorem State.setGraph_rot (s : State) (k : Nat) (x : Graph) : (s.setGraph k x).rot = s.rot := rfl
@[simp] theorem State.setGraph_stdProg (s : State) (k : Nat) (x : Graph) : (s.setGraph k x).stdProg = s.stdProg := rfl
@[simp] theorem State.setGraph_pwrlim (s : State) (k : Nat) (x : Graph) : (s.setGraph k x).pwrlim = s.pwrlim := rfl
@[simp] theorem State.setGraph_board (s : State) (k : Nat) (x : Graph) : (s.setGraph k x).board = s.board := rfl
@[simp] theorem State.setGraph_ceil (s : State) (k : Nat) (x : Graph) : (s.setGraph k x).ceil = s.ceil := rfl
@[simp] theorem State.setGraph_lowering (s : State) (k : Nat) (x : Graph) : (s.setGraph k x).lowering = s.lowering := rfl
@[simp] theorem State.setGraph_pwAt (s : State) (k : Nat) (x : Graph) : (s.setGraph k x).pwAt = s.pwAt := rfl
@[simp] theorem State.setGraph_energyAt (s : State) (k : Nat) (x : Graph) : (s.setGraph k x).energyAt = s.energyAt := rfl
@[simp] theorem State.setGraph_srcid (s : State) (k : Nat) (x : Graph) : (s.setGraph k x).srcid = s.srcid := rfl
@[simp] theorem State.setGraph_tsrc (s : State) (k : Nat) (x : Graph) : (s.setGraph k x).tsrc = s.tsrc := rfl
@[simp] theorem State.setGraph_fguard (s : State) (k : Nat) (x : Graph) : (s.setGraph k x).fguard = s.fguard := rfl
@[simp] theorem State.setGraph_fstall (s : State) (k : Nat) (x : Graph) : (s.setGraph k x).fstall = s.fstall := rfl
@[simp] theorem State.setGraph_ntmo (s : State) (k : Nat) (x : Graph) : (s.setGraph k x).ntmo = s.ntmo := rfl
@[simp] theorem State.setGraph_ctmo (s : State) (k : Nat) (x : Graph) : (s.setGraph k x).ctmo = s.ctmo := rfl
@[simp] theorem State.setGraph_ftime (s : State) (k : Nat) (x : Graph) : (s.setGraph k x).ftime = s.ftime := rfl
@[simp] theorem State.setGraph_slew (s : State) (k : Nat) (x : Graph) : (s.setGraph k x).slew = s.slew := rfl
@[simp] theorem State.setGraph_slewRem (s : State) (k : Nat) (x : Graph) : (s.setGraph k x).slewRem = s.slewRem := rfl
@[simp] theorem State.setGraph_tsync (s : State) (k : Nat) (x : Graph) : (s.setGraph k x).tsync = s.tsync := rfl
@[simp] theorem State.setGraph_tsyncAt (s : State) (k : Nat) (x : Graph) : (s.setGraph k x).tsyncAt = s.tsyncAt := rfl
@[simp] theorem State.setGraph_tsyncTx (s : State) (k : Nat) (x : Graph) : (s.setGraph k x).tsyncTx = s.tsyncTx := rfl
@[simp] theorem State.setGraph_holdover (s : State) (k : Nat) (x : Graph) : (s.setGraph k x).holdover = s.holdover := rfl
@[simp] theorem State.setGraph_stampT (s : State) (k : Nat) (x : Graph) : (s.setGraph k x).stampT = s.stampT := rfl
@[simp] theorem State.setGraph_stampSeq (s : State) (k : Nat) (x : Graph) : (s.setGraph k x).stampSeq = s.stampSeq := rfl
@[simp] theorem State.setGraph_localq (s : State) (k : Nat) (x : Graph) : (s.setGraph k x).localq = s.localq := rfl
@[simp] theorem State.setGraph_outbox (s : State) (k : Nat) (x : Graph) : (s.setGraph k x).outbox = s.outbox := rfl
@[simp] theorem State.setGraph_exported (s : State) (k : Nat) (x : Graph) : (s.setGraph k x).exported = s.exported := rfl
@[simp] theorem State.setGraph_lastDel (s : State) (k : Nat) (x : Graph) : (s.setGraph k x).lastDel = s.lastDel := rfl
@[simp] theorem State.setGraph_events (s : State) (k : Nat) (x : Graph) : (s.setGraph k x).events = s.events := rfl
@[simp] theorem State.setGraph_dropped (s : State) (k : Nat) (x : Graph) : (s.setGraph k x).dropped = s.dropped := rfl
@[simp] theorem State.setGraph_bst (s : State) (k : Nat) (x : Graph) : (s.setGraph k x).bst = s.bst := rfl
@[simp] theorem State.setGraph_brsn (s : State) (k : Nat) (x : Graph) : (s.setGraph k x).brsn = s.brsn := rfl
@[simp] theorem State.setGraph_dlen (s : State) (k : Nat) (x : Graph) : (s.setGraph k x).dlen = s.dlen := rfl
@[simp] theorem State.setGraph_m0 (s : State) (k : Nat) (x : Graph) : (s.setGraph k x).m0 = s.m0 := rfl
@[simp] theorem State.setGraph_m1 (s : State) (k : Nat) (x : Graph) : (s.setGraph k x).m1 = s.m1 := rfl
@[simp] theorem State.setGraph_m2 (s : State) (k : Nat) (x : Graph) : (s.setGraph k x).m2 = s.m2 := rfl
@[simp] theorem State.setGraph_m3 (s : State) (k : Nat) (x : Graph) : (s.setGraph k x).m3 = s.m3 := rfl
@[simp] theorem State.setGraph_mbCmd (s : State) (k : Nat) (x : Graph) : (s.setGraph k x).mbCmd = s.mbCmd := rfl
@[simp] theorem State.setGraph_mbSt (s : State) (k : Nat) (x : Graph) : (s.setGraph k x).mbSt = s.mbSt := rfl
@[simp] theorem State.setGraph_mbArg (s : State) (k : Nat) (x : Graph) : (s.setGraph k x).mbArg = s.mbArg := rfl
@[simp] theorem State.setGraph_link (s : State) (k : Nat) (x : Graph) : (s.setGraph k x).link = s.link := rfl
@[simp] theorem State.setGraph_linkLog (s : State) (k : Nat) (x : Graph) : (s.setGraph k x).linkLog = s.linkLog := rfl
@[simp] theorem State.setGraph_hostRd (s : State) (k : Nat) (x : Graph) : (s.setGraph k x).hostRd = s.hostRd := rfl
@[simp] theorem State.setGraph_win (s : State) (k : Nat) (x : Graph) : (s.setGraph k x).win = s.win := rfl
@[simp] theorem State.setGraph_intr (s : State) (k : Nat) (x : Graph) : (s.setGraph k x).intr = s.intr := rfl
@[simp] theorem State.setGraph_dma (s : State) (k : Nat) (x : Graph) : (s.setGraph k x).dma = s.dma := rfl
@[simp] theorem State.setGraph_err (s : State) (k : Nat) (x : Graph) : (s.setGraph k x).err = s.err := rfl
@[simp] theorem State.setGraph_tick (s : State) (k : Nat) (x : Graph) : (s.setGraph k x).tick = s.tick := rfl
@[simp] theorem State.setGraph_now (s : State) (k : Nat) (x : Graph) : (s.setGraph k x).now = s.now := rfl
@[simp] theorem State.setGraph_uid (s : State) (k : Nat) (x : Graph) : (s.setGraph k x).uid = s.uid := rfl
@[simp] theorem State.setGraph_agenda (s : State) (k : Nat) (x : Graph) : (s.setGraph k x).agenda = s.agenda := rfl
@[simp] theorem State.setGraph_cur (s : State) (k : Nat) (x : Graph) : (s.setGraph k x).cur = s.cur := rfl
@[simp] theorem State.setGraph_curQ (s : State) (k : Nat) (x : Graph) : (s.setGraph k x).curQ = s.curQ := rfl

/-! ### `setQueue` -/

@[simp] theorem State.setQueue_mem (s : State) (k : Nat) (x : Queue) : (s.setQueue k x).mem = s.mem := rfl
@[simp] theorem State.setQueue_hostMem (s : State) (k : Nat) (x : Queue) : (s.setQueue k x).hostMem = s.hostMem := rfl
@[simp] theorem State.setQueue_hostWr (s : State) (k : Nat) (x : Queue) : (s.setQueue k x).hostWr = s.hostWr := rfl
@[simp] theorem State.setQueue_rels (s : State) (k : Nat) (x : Queue) : (s.setQueue k x).rels = s.rels := rfl
@[simp] theorem State.setQueue_watched (s : State) (k : Nat) (x : Queue) : (s.setQueue k x).watched = s.watched := rfl
@[simp] theorem State.setQueue_spoiled (s : State) (k : Nat) (x : Queue) : (s.setQueue k x).spoiled = s.spoiled := rfl
@[simp] theorem State.setQueue_mode (s : State) (k : Nat) (x : Queue) : (s.setQueue k x).mode = s.mode := rfl
@[simp] theorem State.setQueue_ctxs (s : State) (k : Nat) (x : Queue) : (s.setQueue k x).ctxs = s.ctxs := rfl
@[simp] theorem State.setQueue_cores (s : State) (k : Nat) (x : Queue) : (s.setQueue k x).cores = s.cores := rfl
@[simp] theorem State.setQueue_clusters (s : State) (k : Nat) (x : Queue) : (s.setQueue k x).clusters = s.clusters := rfl
@[simp] theorem State.setQueue_gangs (s : State) (k : Nat) (x : Queue) : (s.setQueue k x).gangs = s.gangs := rfl
@[simp] theorem State.setQueue_groups (s : State) (k : Nat) (x : Queue) : (s.setQueue k x).groups = s.groups := rfl
@[simp] theorem State.setQueue_grids (s : State) (k : Nat) (x : Queue) : (s.setQueue k x).grids = s.grids := rfl
@[simp] theorem State.setQueue_graphs (s : State) (k : Nat) (x : Queue) : (s.setQueue k x).graphs = s.graphs := rfl
@[simp] theorem State.setQueue_ports (s : State) (k : Nat) (x : Queue) : (s.setQueue k x).ports = s.ports := rfl
@[simp] theorem State.setQueue_subs (s : State) (k : Nat) (x : Queue) : (s.setQueue k x).subs = s.subs := rfl
@[simp] theorem State.setQueue_pool (s : State) (k : Nat) (x : Queue) : (s.setQueue k x).pool = s.pool := rfl
@[simp] theorem State.setQueue_rot (s : State) (k : Nat) (x : Queue) : (s.setQueue k x).rot = s.rot := rfl
@[simp] theorem State.setQueue_stdProg (s : State) (k : Nat) (x : Queue) : (s.setQueue k x).stdProg = s.stdProg := rfl
@[simp] theorem State.setQueue_pwrlim (s : State) (k : Nat) (x : Queue) : (s.setQueue k x).pwrlim = s.pwrlim := rfl
@[simp] theorem State.setQueue_board (s : State) (k : Nat) (x : Queue) : (s.setQueue k x).board = s.board := rfl
@[simp] theorem State.setQueue_ceil (s : State) (k : Nat) (x : Queue) : (s.setQueue k x).ceil = s.ceil := rfl
@[simp] theorem State.setQueue_lowering (s : State) (k : Nat) (x : Queue) : (s.setQueue k x).lowering = s.lowering := rfl
@[simp] theorem State.setQueue_pwAt (s : State) (k : Nat) (x : Queue) : (s.setQueue k x).pwAt = s.pwAt := rfl
@[simp] theorem State.setQueue_energyAt (s : State) (k : Nat) (x : Queue) : (s.setQueue k x).energyAt = s.energyAt := rfl
@[simp] theorem State.setQueue_srcid (s : State) (k : Nat) (x : Queue) : (s.setQueue k x).srcid = s.srcid := rfl
@[simp] theorem State.setQueue_tsrc (s : State) (k : Nat) (x : Queue) : (s.setQueue k x).tsrc = s.tsrc := rfl
@[simp] theorem State.setQueue_fguard (s : State) (k : Nat) (x : Queue) : (s.setQueue k x).fguard = s.fguard := rfl
@[simp] theorem State.setQueue_fstall (s : State) (k : Nat) (x : Queue) : (s.setQueue k x).fstall = s.fstall := rfl
@[simp] theorem State.setQueue_ntmo (s : State) (k : Nat) (x : Queue) : (s.setQueue k x).ntmo = s.ntmo := rfl
@[simp] theorem State.setQueue_ctmo (s : State) (k : Nat) (x : Queue) : (s.setQueue k x).ctmo = s.ctmo := rfl
@[simp] theorem State.setQueue_ftime (s : State) (k : Nat) (x : Queue) : (s.setQueue k x).ftime = s.ftime := rfl
@[simp] theorem State.setQueue_slew (s : State) (k : Nat) (x : Queue) : (s.setQueue k x).slew = s.slew := rfl
@[simp] theorem State.setQueue_slewRem (s : State) (k : Nat) (x : Queue) : (s.setQueue k x).slewRem = s.slewRem := rfl
@[simp] theorem State.setQueue_tsync (s : State) (k : Nat) (x : Queue) : (s.setQueue k x).tsync = s.tsync := rfl
@[simp] theorem State.setQueue_tsyncAt (s : State) (k : Nat) (x : Queue) : (s.setQueue k x).tsyncAt = s.tsyncAt := rfl
@[simp] theorem State.setQueue_tsyncTx (s : State) (k : Nat) (x : Queue) : (s.setQueue k x).tsyncTx = s.tsyncTx := rfl
@[simp] theorem State.setQueue_holdover (s : State) (k : Nat) (x : Queue) : (s.setQueue k x).holdover = s.holdover := rfl
@[simp] theorem State.setQueue_stampT (s : State) (k : Nat) (x : Queue) : (s.setQueue k x).stampT = s.stampT := rfl
@[simp] theorem State.setQueue_stampSeq (s : State) (k : Nat) (x : Queue) : (s.setQueue k x).stampSeq = s.stampSeq := rfl
@[simp] theorem State.setQueue_localq (s : State) (k : Nat) (x : Queue) : (s.setQueue k x).localq = s.localq := rfl
@[simp] theorem State.setQueue_outbox (s : State) (k : Nat) (x : Queue) : (s.setQueue k x).outbox = s.outbox := rfl
@[simp] theorem State.setQueue_exported (s : State) (k : Nat) (x : Queue) : (s.setQueue k x).exported = s.exported := rfl
@[simp] theorem State.setQueue_lastDel (s : State) (k : Nat) (x : Queue) : (s.setQueue k x).lastDel = s.lastDel := rfl
@[simp] theorem State.setQueue_events (s : State) (k : Nat) (x : Queue) : (s.setQueue k x).events = s.events := rfl
@[simp] theorem State.setQueue_dropped (s : State) (k : Nat) (x : Queue) : (s.setQueue k x).dropped = s.dropped := rfl
@[simp] theorem State.setQueue_bst (s : State) (k : Nat) (x : Queue) : (s.setQueue k x).bst = s.bst := rfl
@[simp] theorem State.setQueue_brsn (s : State) (k : Nat) (x : Queue) : (s.setQueue k x).brsn = s.brsn := rfl
@[simp] theorem State.setQueue_dlen (s : State) (k : Nat) (x : Queue) : (s.setQueue k x).dlen = s.dlen := rfl
@[simp] theorem State.setQueue_m0 (s : State) (k : Nat) (x : Queue) : (s.setQueue k x).m0 = s.m0 := rfl
@[simp] theorem State.setQueue_m1 (s : State) (k : Nat) (x : Queue) : (s.setQueue k x).m1 = s.m1 := rfl
@[simp] theorem State.setQueue_m2 (s : State) (k : Nat) (x : Queue) : (s.setQueue k x).m2 = s.m2 := rfl
@[simp] theorem State.setQueue_m3 (s : State) (k : Nat) (x : Queue) : (s.setQueue k x).m3 = s.m3 := rfl
@[simp] theorem State.setQueue_mbCmd (s : State) (k : Nat) (x : Queue) : (s.setQueue k x).mbCmd = s.mbCmd := rfl
@[simp] theorem State.setQueue_mbSt (s : State) (k : Nat) (x : Queue) : (s.setQueue k x).mbSt = s.mbSt := rfl
@[simp] theorem State.setQueue_mbArg (s : State) (k : Nat) (x : Queue) : (s.setQueue k x).mbArg = s.mbArg := rfl
@[simp] theorem State.setQueue_link (s : State) (k : Nat) (x : Queue) : (s.setQueue k x).link = s.link := rfl
@[simp] theorem State.setQueue_linkLog (s : State) (k : Nat) (x : Queue) : (s.setQueue k x).linkLog = s.linkLog := rfl
@[simp] theorem State.setQueue_hostRd (s : State) (k : Nat) (x : Queue) : (s.setQueue k x).hostRd = s.hostRd := rfl
@[simp] theorem State.setQueue_win (s : State) (k : Nat) (x : Queue) : (s.setQueue k x).win = s.win := rfl
@[simp] theorem State.setQueue_intr (s : State) (k : Nat) (x : Queue) : (s.setQueue k x).intr = s.intr := rfl
@[simp] theorem State.setQueue_dma (s : State) (k : Nat) (x : Queue) : (s.setQueue k x).dma = s.dma := rfl
@[simp] theorem State.setQueue_err (s : State) (k : Nat) (x : Queue) : (s.setQueue k x).err = s.err := rfl
@[simp] theorem State.setQueue_tick (s : State) (k : Nat) (x : Queue) : (s.setQueue k x).tick = s.tick := rfl
@[simp] theorem State.setQueue_now (s : State) (k : Nat) (x : Queue) : (s.setQueue k x).now = s.now := rfl
@[simp] theorem State.setQueue_uid (s : State) (k : Nat) (x : Queue) : (s.setQueue k x).uid = s.uid := rfl
@[simp] theorem State.setQueue_agenda (s : State) (k : Nat) (x : Queue) : (s.setQueue k x).agenda = s.agenda := rfl
@[simp] theorem State.setQueue_cur (s : State) (k : Nat) (x : Queue) : (s.setQueue k x).cur = s.cur := rfl
@[simp] theorem State.setQueue_curQ (s : State) (k : Nat) (x : Queue) : (s.setQueue k x).curQ = s.curQ := rfl

/-! ### Reading after an update -/

@[simp] theorem State.gang_setGang_same (s : State) (r : GangRef) (g : Gang) : (s.setGang r g).gang r = g :=
  Sparse.get_put_same ..
theorem State.gang_setGang_other (s : State) {r q : GangRef} (g : Gang) (h : gkey q ≠ gkey r) :
    (s.setGang r g).gang q = s.gang q := Sparse.get_put_other _ _ h
@[simp] theorem State.group_setGang (s : State) (r : GangRef) (g : Gang) (j : Nat) : (s.setGang r g).group j = s.group j := rfl
@[simp] theorem State.grid_setGang (s : State) (r : GangRef) (g : Gang) (j : Nat) : (s.setGang r g).grid j = s.grid j := rfl
@[simp] theorem State.ctx_setGang (s : State) (r : GangRef) (g : Gang) (j : Nat) : (s.setGang r g).ctx j = s.ctx j := rfl
@[simp] theorem State.core_setGang (s : State) (r : GangRef) (g : Gang) (j : Nat) : (s.setGang r g).core j = s.core j := rfl
@[simp] theorem State.cluster_setGang (s : State) (r : GangRef) (g : Gang) (j : Nat) : (s.setGang r g).cluster j = s.cluster j := rfl
@[simp] theorem State.port_setGang (s : State) (r : GangRef) (g : Gang) (j : Nat) : (s.setGang r g).port j = s.port j := rfl
@[simp] theorem State.graph_setGang (s : State) (r : GangRef) (g : Gang) (j : Nat) : (s.setGang r g).graph j = s.graph j := rfl
@[simp] theorem State.queue_setGang (s : State) (r : GangRef) (g : Gang) (j : Nat) : (s.setGang r g).queue j = s.queue j := rfl

@[simp] theorem State.group_setGroup_same (s : State) (k : Nat) (x : Group) : (s.setGroup k x).group k = x :=
  Sparse.get_put_same ..
theorem State.group_setGroup_other (s : State) {k j : Nat} (x : Group) (h : j ≠ k) : (s.setGroup k x).group j = s.group j :=
  Sparse.get_put_other _ _ h
@[simp] theorem State.gang_setGroup (s : State) (k : Nat) (x : Group) (q : GangRef) : (s.setGroup k x).gang q = s.gang q := rfl
@[simp] theorem State.grid_setGroup (s : State) (k : Nat) (x : Group) (j : Nat) : (s.setGroup k x).grid j = s.grid j := rfl
@[simp] theorem State.ctx_setGroup (s : State) (k : Nat) (x : Group) (j : Nat) : (s.setGroup k x).ctx j = s.ctx j := rfl
@[simp] theorem State.core_setGroup (s : State) (k : Nat) (x : Group) (j : Nat) : (s.setGroup k x).core j = s.core j := rfl
@[simp] theorem State.cluster_setGroup (s : State) (k : Nat) (x : Group) (j : Nat) : (s.setGroup k x).cluster j = s.cluster j := rfl
@[simp] theorem State.port_setGroup (s : State) (k : Nat) (x : Group) (j : Nat) : (s.setGroup k x).port j = s.port j := rfl
@[simp] theorem State.graph_setGroup (s : State) (k : Nat) (x : Group) (j : Nat) : (s.setGroup k x).graph j = s.graph j := rfl
@[simp] theorem State.queue_setGroup (s : State) (k : Nat) (x : Group) (j : Nat) : (s.setGroup k x).queue j = s.queue j := rfl

@[simp] theorem State.grid_setGrid_same (s : State) (k : Nat) (x : Grid) : (s.setGrid k x).grid k = x :=
  Sparse.get_put_same ..
theorem State.grid_setGrid_other (s : State) {k j : Nat} (x : Grid) (h : j ≠ k) : (s.setGrid k x).grid j = s.grid j :=
  Sparse.get_put_other _ _ h
@[simp] theorem State.gang_setGrid (s : State) (k : Nat) (x : Grid) (q : GangRef) : (s.setGrid k x).gang q = s.gang q := rfl
@[simp] theorem State.group_setGrid (s : State) (k : Nat) (x : Grid) (j : Nat) : (s.setGrid k x).group j = s.group j := rfl
@[simp] theorem State.ctx_setGrid (s : State) (k : Nat) (x : Grid) (j : Nat) : (s.setGrid k x).ctx j = s.ctx j := rfl
@[simp] theorem State.core_setGrid (s : State) (k : Nat) (x : Grid) (j : Nat) : (s.setGrid k x).core j = s.core j := rfl
@[simp] theorem State.cluster_setGrid (s : State) (k : Nat) (x : Grid) (j : Nat) : (s.setGrid k x).cluster j = s.cluster j := rfl
@[simp] theorem State.port_setGrid (s : State) (k : Nat) (x : Grid) (j : Nat) : (s.setGrid k x).port j = s.port j := rfl
@[simp] theorem State.graph_setGrid (s : State) (k : Nat) (x : Grid) (j : Nat) : (s.setGrid k x).graph j = s.graph j := rfl
@[simp] theorem State.queue_setGrid (s : State) (k : Nat) (x : Grid) (j : Nat) : (s.setGrid k x).queue j = s.queue j := rfl

@[simp] theorem State.ctx_setCtx_same (s : State) (k : Nat) (x : Ctx) : (s.setCtx k x).ctx k = x :=
  Sparse.get_put_same ..
theorem State.ctx_setCtx_other (s : State) {k j : Nat} (x : Ctx) (h : j ≠ k) : (s.setCtx k x).ctx j = s.ctx j :=
  Sparse.get_put_other _ _ h
@[simp] theorem State.gang_setCtx (s : State) (k : Nat) (x : Ctx) (q : GangRef) : (s.setCtx k x).gang q = s.gang q := rfl
@[simp] theorem State.group_setCtx (s : State) (k : Nat) (x : Ctx) (j : Nat) : (s.setCtx k x).group j = s.group j := rfl
@[simp] theorem State.grid_setCtx (s : State) (k : Nat) (x : Ctx) (j : Nat) : (s.setCtx k x).grid j = s.grid j := rfl
@[simp] theorem State.core_setCtx (s : State) (k : Nat) (x : Ctx) (j : Nat) : (s.setCtx k x).core j = s.core j := rfl
@[simp] theorem State.cluster_setCtx (s : State) (k : Nat) (x : Ctx) (j : Nat) : (s.setCtx k x).cluster j = s.cluster j := rfl
@[simp] theorem State.port_setCtx (s : State) (k : Nat) (x : Ctx) (j : Nat) : (s.setCtx k x).port j = s.port j := rfl
@[simp] theorem State.graph_setCtx (s : State) (k : Nat) (x : Ctx) (j : Nat) : (s.setCtx k x).graph j = s.graph j := rfl
@[simp] theorem State.queue_setCtx (s : State) (k : Nat) (x : Ctx) (j : Nat) : (s.setCtx k x).queue j = s.queue j := rfl

@[simp] theorem State.core_setCore_same (s : State) (k : Nat) (x : Core) : (s.setCore k x).core k = x :=
  Sparse.get_put_same ..
theorem State.core_setCore_other (s : State) {k j : Nat} (x : Core) (h : j ≠ k) : (s.setCore k x).core j = s.core j :=
  Sparse.get_put_other _ _ h
@[simp] theorem State.gang_setCore (s : State) (k : Nat) (x : Core) (q : GangRef) : (s.setCore k x).gang q = s.gang q := rfl
@[simp] theorem State.group_setCore (s : State) (k : Nat) (x : Core) (j : Nat) : (s.setCore k x).group j = s.group j := rfl
@[simp] theorem State.grid_setCore (s : State) (k : Nat) (x : Core) (j : Nat) : (s.setCore k x).grid j = s.grid j := rfl
@[simp] theorem State.ctx_setCore (s : State) (k : Nat) (x : Core) (j : Nat) : (s.setCore k x).ctx j = s.ctx j := rfl
@[simp] theorem State.cluster_setCore (s : State) (k : Nat) (x : Core) (j : Nat) : (s.setCore k x).cluster j = s.cluster j := rfl
@[simp] theorem State.port_setCore (s : State) (k : Nat) (x : Core) (j : Nat) : (s.setCore k x).port j = s.port j := rfl
@[simp] theorem State.graph_setCore (s : State) (k : Nat) (x : Core) (j : Nat) : (s.setCore k x).graph j = s.graph j := rfl
@[simp] theorem State.queue_setCore (s : State) (k : Nat) (x : Core) (j : Nat) : (s.setCore k x).queue j = s.queue j := rfl

@[simp] theorem State.cluster_setCluster_same (s : State) (k : Nat) (x : Cluster) : (s.setCluster k x).cluster k = x :=
  Sparse.get_put_same ..
theorem State.cluster_setCluster_other (s : State) {k j : Nat} (x : Cluster) (h : j ≠ k) : (s.setCluster k x).cluster j = s.cluster j :=
  Sparse.get_put_other _ _ h
@[simp] theorem State.gang_setCluster (s : State) (k : Nat) (x : Cluster) (q : GangRef) : (s.setCluster k x).gang q = s.gang q := rfl
@[simp] theorem State.group_setCluster (s : State) (k : Nat) (x : Cluster) (j : Nat) : (s.setCluster k x).group j = s.group j := rfl
@[simp] theorem State.grid_setCluster (s : State) (k : Nat) (x : Cluster) (j : Nat) : (s.setCluster k x).grid j = s.grid j := rfl
@[simp] theorem State.ctx_setCluster (s : State) (k : Nat) (x : Cluster) (j : Nat) : (s.setCluster k x).ctx j = s.ctx j := rfl
@[simp] theorem State.core_setCluster (s : State) (k : Nat) (x : Cluster) (j : Nat) : (s.setCluster k x).core j = s.core j := rfl
@[simp] theorem State.port_setCluster (s : State) (k : Nat) (x : Cluster) (j : Nat) : (s.setCluster k x).port j = s.port j := rfl
@[simp] theorem State.graph_setCluster (s : State) (k : Nat) (x : Cluster) (j : Nat) : (s.setCluster k x).graph j = s.graph j := rfl
@[simp] theorem State.queue_setCluster (s : State) (k : Nat) (x : Cluster) (j : Nat) : (s.setCluster k x).queue j = s.queue j := rfl

@[simp] theorem State.port_setPort_same (s : State) (k : Nat) (x : Port) : (s.setPort k x).port k = x :=
  Sparse.get_put_same ..
theorem State.port_setPort_other (s : State) {k j : Nat} (x : Port) (h : j ≠ k) : (s.setPort k x).port j = s.port j :=
  Sparse.get_put_other _ _ h
@[simp] theorem State.gang_setPort (s : State) (k : Nat) (x : Port) (q : GangRef) : (s.setPort k x).gang q = s.gang q := rfl
@[simp] theorem State.group_setPort (s : State) (k : Nat) (x : Port) (j : Nat) : (s.setPort k x).group j = s.group j := rfl
@[simp] theorem State.grid_setPort (s : State) (k : Nat) (x : Port) (j : Nat) : (s.setPort k x).grid j = s.grid j := rfl
@[simp] theorem State.ctx_setPort (s : State) (k : Nat) (x : Port) (j : Nat) : (s.setPort k x).ctx j = s.ctx j := rfl
@[simp] theorem State.core_setPort (s : State) (k : Nat) (x : Port) (j : Nat) : (s.setPort k x).core j = s.core j := rfl
@[simp] theorem State.cluster_setPort (s : State) (k : Nat) (x : Port) (j : Nat) : (s.setPort k x).cluster j = s.cluster j := rfl
@[simp] theorem State.graph_setPort (s : State) (k : Nat) (x : Port) (j : Nat) : (s.setPort k x).graph j = s.graph j := rfl
@[simp] theorem State.queue_setPort (s : State) (k : Nat) (x : Port) (j : Nat) : (s.setPort k x).queue j = s.queue j := rfl

@[simp] theorem State.graph_setGraph_same (s : State) (k : Nat) (x : Graph) : (s.setGraph k x).graph k = x :=
  Sparse.get_put_same ..
theorem State.graph_setGraph_other (s : State) {k j : Nat} (x : Graph) (h : j ≠ k) : (s.setGraph k x).graph j = s.graph j :=
  Sparse.get_put_other _ _ h
@[simp] theorem State.gang_setGraph (s : State) (k : Nat) (x : Graph) (q : GangRef) : (s.setGraph k x).gang q = s.gang q := rfl
@[simp] theorem State.group_setGraph (s : State) (k : Nat) (x : Graph) (j : Nat) : (s.setGraph k x).group j = s.group j := rfl
@[simp] theorem State.grid_setGraph (s : State) (k : Nat) (x : Graph) (j : Nat) : (s.setGraph k x).grid j = s.grid j := rfl
@[simp] theorem State.ctx_setGraph (s : State) (k : Nat) (x : Graph) (j : Nat) : (s.setGraph k x).ctx j = s.ctx j := rfl
@[simp] theorem State.core_setGraph (s : State) (k : Nat) (x : Graph) (j : Nat) : (s.setGraph k x).core j = s.core j := rfl
@[simp] theorem State.cluster_setGraph (s : State) (k : Nat) (x : Graph) (j : Nat) : (s.setGraph k x).cluster j = s.cluster j := rfl
@[simp] theorem State.port_setGraph (s : State) (k : Nat) (x : Graph) (j : Nat) : (s.setGraph k x).port j = s.port j := rfl
@[simp] theorem State.queue_setGraph (s : State) (k : Nat) (x : Graph) (j : Nat) : (s.setGraph k x).queue j = s.queue j := rfl

@[simp] theorem State.queue_setQueue_same (s : State) (k : Nat) (x : Queue) : (s.setQueue k x).queue k = x :=
  Sparse.get_put_same ..
theorem State.queue_setQueue_other (s : State) {k j : Nat} (x : Queue) (h : j ≠ k) : (s.setQueue k x).queue j = s.queue j :=
  Sparse.get_put_other _ _ h
@[simp] theorem State.gang_setQueue (s : State) (k : Nat) (x : Queue) (q : GangRef) : (s.setQueue k x).gang q = s.gang q := rfl
@[simp] theorem State.group_setQueue (s : State) (k : Nat) (x : Queue) (j : Nat) : (s.setQueue k x).group j = s.group j := rfl
@[simp] theorem State.grid_setQueue (s : State) (k : Nat) (x : Queue) (j : Nat) : (s.setQueue k x).grid j = s.grid j := rfl
@[simp] theorem State.ctx_setQueue (s : State) (k : Nat) (x : Queue) (j : Nat) : (s.setQueue k x).ctx j = s.ctx j := rfl
@[simp] theorem State.core_setQueue (s : State) (k : Nat) (x : Queue) (j : Nat) : (s.setQueue k x).core j = s.core j := rfl
@[simp] theorem State.cluster_setQueue (s : State) (k : Nat) (x : Queue) (j : Nat) : (s.setQueue k x).cluster j = s.cluster j := rfl
@[simp] theorem State.port_setQueue (s : State) (k : Nat) (x : Queue) (j : Nat) : (s.setQueue k x).port j = s.port j := rfl
@[simp] theorem State.graph_setQueue (s : State) (k : Nat) (x : Queue) (j : Nat) : (s.setQueue k x).graph j = s.graph j := rfl

end Sys2Proof.Machine
end

