-- ==== Sys2Proof/Laws/Lines.lean ====
section
/-!
SUPPORT. What memory writes, reports to firmware and lines that come back leave as it was, and what the lines that an instruction touches leave
of its context.
-/
namespace Sys2Proof.Machine

/-! ### What lines that come back leave alone -/

theorem sameButLines.refl (s : State) : sameButLines s s := ⟨fun _ => rfl, rfl⟩

theorem sameButLines.trans {s t u : State} (h : sameButLines s t) (k : sameButLines t u) : sameButLines s u := by
  refine ⟨fun q => ?_, ?_⟩
  · calc { u.gang q with lines := (s.gang q).lines, v := (s.gang q).v } =
          { ({ u.gang q with lines := (t.gang q).lines, v := (t.gang q).v } : Gang) with
            lines := (s.gang q).lines, v := (s.gang q).v } := rfl
      _ = _ := by rw [k.1 q, h.1 q]
  · calc ({ u with gangs := s.gangs, ctxs := s.ctxs, mem := s.mem, hostMem := s.hostMem, spoiled := s.spoiled, hostWr := s.hostWr, events := s.events,
                   dropped := s.dropped, err := s.err } : State) =
          { ({ u with gangs := t.gangs, ctxs := t.ctxs, mem := t.mem, hostMem := t.hostMem, spoiled := t.spoiled, hostWr := t.hostWr, events := t.events,
                      dropped := t.dropped, err := t.err } : State) with
            gangs := s.gangs, ctxs := s.ctxs, mem := s.mem, hostMem := s.hostMem, spoiled := s.spoiled, hostWr := s.hostWr, events := s.events,
            dropped := s.dropped, err := s.err } := rfl
      _ = _ := by rw [k.2, h.2]

theorem sameButLines_setGang {s : State} {r : GangRef} {g : Gang} (h : { g with lines := (s.gang r).lines, v := (s.gang r).v } = s.gang r) :
    sameButLines s (s.setGang r g) := by
  refine ⟨fun q => ?_, rfl⟩
  by_cases e : gkey q = gkey r
  · have e1 : (s.setGang r g).gang q = g := by simp only [State.gang, e]; exact Sparse.get_put_same ..
    have e2 : s.gang q = s.gang r := by simp only [State.gang, e]
    rw [e1, e2, h]
  · rw [State.gang_setGang_other _ _ e]

theorem sameButLines_setCtx (s : State) (k : Nat) (x : Ctx) : sameButLines s (s.setCtx k x) := ⟨fun _ => rfl, rfl⟩

theorem sameButLines_of {s t : State} (hg : t.gangs = s.gangs)
    (h : { t with ctxs := s.ctxs, mem := s.mem, hostMem := s.hostMem, spoiled := s.spoiled, hostWr := s.hostWr, events := s.events, dropped := s.dropped,
                  err := s.err } = s) : sameButLines s t := by
  refine ⟨fun q => ?_, ?_⟩
  · have : t.gang q = s.gang q := by simp only [State.gang, hg]
    rw [this]
  · rw [← hg]
    exact h

theorem wrLoc_gangs (s : State) (l : Loc) (n x : Nat) : (s.wrLoc l n x).gangs = s.gangs := by
  unfold State.wrLoc; split <;> rfl

theorem putAt_only (s : State) (ctx : Nat) (prv : Bool) (va n x : Nat) :
    { s.putAt ctx prv va n x with mem := s.mem, hostMem := s.hostMem, spoiled := s.spoiled, hostWr := s.hostWr } = s := by
  unfold State.putAt State.wrLoc
  split
  · split <;> rfl
  · rfl

/-- Operations that write memory only. -/
def memOnly (s t : State) : Prop := { t with mem := s.mem, hostMem := s.hostMem, spoiled := s.spoiled, hostWr := s.hostWr } = s

theorem memOnly.gangs {s t : State} (h : memOnly s t) : t.gangs = s.gangs := by have := congrArg State.gangs h; exact this

theorem memOnly.trans {s t u : State} (h : memOnly s t) (k : memOnly t u) : memOnly s u := by
  unfold memOnly at *
  calc ({ u with mem := s.mem, hostMem := s.hostMem, spoiled := s.spoiled, hostWr := s.hostWr } : State) =
        { ({ u with mem := t.mem, hostMem := t.hostMem, spoiled := t.spoiled, hostWr := t.hostWr } : State) with
          mem := s.mem, hostMem := s.hostMem, spoiled := s.spoiled, hostWr := s.hostWr } := rfl
    _ = _ := by rw [k, h]

theorem memOnly_foldl {α : Type} {f : State → α → State} (hf : ∀ s x, memOnly s (f s x)) (l : List α) (s : State) :
    memOnly s (l.foldl f s) := by
  induction l generalizing s with
  | nil => rfl
  | cons x l ih => exact (hf s x).trans (ih _)

theorem imageLine_only (s : State) (r : GangRef) (key : Nat) : memOnly s (s.imageLine r key) :=
  memOnly_foldl (fun _ _ => putAt_only ..) _ _

theorem mirror_only (c : Cx) (s : State) : memOnly s (c.mirror s) := by
  unfold Cx.mirror
  split
  · rfl
  · exact memOnly_foldl (fun s k => by split; exact imageLine_only ..; rfl) _ _

theorem sameButLines_memOnly {s t : State} (h : memOnly s t) : sameButLines s t := by
  refine sameButLines_of h.gangs ?_
  unfold memOnly at h
  calc ({ t with ctxs := s.ctxs, mem := s.mem, hostMem := s.hostMem, spoiled := s.spoiled, hostWr := s.hostWr, events := s.events, dropped := s.dropped,
                 err := s.err } : State) =
        { ({ t with mem := s.mem, hostMem := s.hostMem, spoiled := s.spoiled, hostWr := s.hostWr } : State) with
          ctxs := s.ctxs, events := s.events, dropped := s.dropped, err := s.err } := rfl
    _ = _ := by rw [h]

/-- Operations that tell firmware something: its events, the error rings, interrupts. -/
def toldOnly (s t : State) : Prop := { t with hostMem := s.hostMem, events := s.events, dropped := s.dropped, err := s.err } = s

theorem toldOnly.trans {s t u : State} (h : toldOnly s t) (k : toldOnly t u) : toldOnly s u := by
  unfold toldOnly at *
  calc ({ u with hostMem := s.hostMem, events := s.events, dropped := s.dropped, err := s.err } : State) =
        { ({ u with hostMem := t.hostMem, events := t.events, dropped := t.dropped, err := t.err } : State) with
          hostMem := s.hostMem, events := s.events, dropped := s.dropped, err := s.err } := rfl
    _ = _ := by rw [k, h]

theorem sendInt_only (s : State) (v : Nat) : toldOnly s (s.sendInt v) := by
  unfold State.sendInt
  split
  · rfl
  · dsimp only
    split <;> rfl

theorem errPut_only (s : State) (part : Nat) (a b c d : W64) : toldOnly s (s.errPut part a b c d) :=
  toldOnly.trans (by exact rfl) (sendInt_only _ _)

theorem errRecord_only (s : State) (part : Nat) (w0 w1 w2 w3 : W64) : toldOnly s (s.errRecord part w0 w1 w2 w3) := by
  unfold State.errRecord
  dsimp only
  split
  · rfl
  · split
    · rfl
    · split
      · exact errPut_only ..
      · have h : ∀ e, toldOnly s (({ s with err := e } : State).errPut part 0x12
            (BitVec.ofNat 64 (Sparse.get ({} : ErrRing) s.err part).dropped) 0) :=
          fun e => toldOnly.trans (t := { s with err := e }) rfl (errPut_only ..)
        split
        · exact (h _).trans rfl
        · exact (h _).trans (errPut_only ..)

theorem report_only (s : State) (code detail ctx gang part : Nat) (w1 w2 w3 : W64) :
    toldOnly s (s.report code detail ctx gang part w1 w2 w3) := by
  have h : ∀ e, toldOnly s (s.event e) := fun e => by unfold State.event; split <;> rfl
  exact (h _).trans (errRecord_only ..)

theorem sameButLines_told {s t : State} (h : toldOnly s t) : sameButLines s t := by
  have hg : t.gangs = s.gangs := by have := congrArg State.gangs h; exact this
  refine sameButLines_of hg ?_
  unfold toldOnly at h
  calc ({ t with ctxs := s.ctxs, mem := s.mem, hostMem := s.hostMem, spoiled := s.spoiled, hostWr := s.hostWr, events := s.events, dropped := s.dropped,
                 err := s.err } : State) =
        { ({ t with hostMem := s.hostMem, events := s.events, dropped := s.dropped, err := s.err } : State) with
          ctxs := s.ctxs, mem := s.mem, spoiled := s.spoiled, hostWr := s.hostWr } := rfl
    _ = _ := by rw [h]

theorem imgFault_lines (s : State) (grid lin addr : Nat) : sameButLines s (s.imgFault grid lin addr) :=
  (sameButLines_setCtx ..).trans (sameButLines_told (report_only ..))

theorem sameButLines_setLine (s : State) (r : GangRef) (key : Nat) (f : Line → Line) :
    sameButLines s (s.setGang r ((s.gang r).setLine key f)) := sameButLines_setGang rfl

theorem evictLine_lines (s : State) (r : GangRef) (key : Nat) : sameButLines s (s.evictLine r key) := by
  unfold State.evictLine
  dsimp only
  split
  · exact (sameButLines_setLine ..).trans (imgFault_lines ..)
  · have h : sameButLines s (s.writeLine r key) := (sameButLines_memOnly (imageLine_only ..)).trans (sameButLines_setCtx ..)
    exact h.trans (sameButLines_setLine ..)

theorem sendLine_lines (s : State) (r : GangRef) (key : Nat) : sameButLines s (s.sendLine r key) := by
  unfold State.sendLine
  split
  · exact sameButLines_setLine ..
  · exact evictLine_lines ..

theorem evictDue_lines (s : State) (r : GangRef) (key : Nat) : sameButLines s (s.evictDue r key) := by
  unfold State.evictDue
  split
  · exact evictLine_lines ..
  · exact .refl _

theorem makeRoom_lines (s : State) (r : GangRef) (key : Nat) : sameButLines s (s.makeRoom r key) := by
  unfold State.makeRoom
  dsimp only
  split
  · split
    · exact sendLine_lines ..
    · exact .refl _
  · split
    · exact sendLine_lines ..
    · exact .refl _

theorem writeV_rest {α : Type} (g : Gang) (l : List α) (a b : α → Nat) (x : α → W32) :
    { g.writeRegs (l.map fun k => .v (a k) (b k) (x k)) with v := g.v } = g := by
  induction l generalizing g with
  | nil => rfl
  | cons k l ih =>
    have h := ih ((RegWrite.v (a k) (b k) (x k)).apply g)
    calc { g.writeRegs ((k :: l).map fun k => .v (a k) (b k) (x k)) with v := g.v } =
          { ({ ((RegWrite.v (a k) (b k) (x k)).apply g).writeRegs (l.map fun k => .v (a k) (b k) (x k)) with
                v := ((RegWrite.v (a k) (b k) (x k)).apply g).v } : Gang) with v := g.v } := rfl
      _ = _ := by rw [h]; rfl

theorem loadLine_rest (s : State) (r : GangRef) (key : Nat) : { s.loadLine r key with v := (s.gang r).v } = s.gang r := writeV_rest ..

theorem refill_lines {s t : State} {r : GangRef} {key : Nat} (h : s.refill r key = .ok t) : sameButLines s t := by
  unfold State.refill at h
  dsimp only at h
  split at h
  · cases h; exact .refl _
  · split at h
    · cases h
    · cases h
      refine sameButLines.trans (sameButLines_setGang ?_) (makeRoom_lines ..)
      split
      · rfl
      · have e := loadLine_rest s r key
        calc { (s.loadLine r key).setLine key (fun l => { l with out := false }) with
                lines := (s.gang r).lines, v := (s.gang r).v } =
              { ({ s.loadLine r key with v := (s.gang r).v } : Gang) with lines := (s.gang r).lines } := rfl
          _ = _ := by rw [e]

/-! ### The lines an instruction touches -/

theorem touch_of_linesIn {c : Cx} (h : c.linesIn = true) : c.touch = .ok c.onLines := by simp [Cx.touch, h, Cx.onLines]

/-- What the lines an instruction touches leave of its context, when they are held at last. -/
theorem touch_spec {c d : Cx} (h : c.touch = .ok d) (hs : c.s.gang c.r = c.g) (hg : c.grp = c.s.group c.r.group) :
    ∃ s, d = { c with s := s, g := s.gang c.r } ∧ sameButLines c.s s := by
  have h0 : sameButLines c.s (c.s.setGang c.r c.stamped) := sameButLines_setGang (by rw [hs]; rfl)
  unfold Cx.touch at h
  dsimp only at h
  split at h
  · cases h
    exact ⟨_, by simp, h0⟩
  · split at h
    · cases h
    · next s he =>
      cases h
      have hf : ∀ (l : List Nat) (o : Except Nat State) (t : State),
          l.foldl (fun (o : Except Nat State) k => match o with
            | .ok s => s.refill c.r k
            | .error a => .error a) o = .ok t → ∃ u, o = .ok u ∧ sameButLines u t := by
        intro l
        induction l with
        | nil => intro o t h; exact ⟨t, h, .refl _⟩
        | cons k l ih =>
          intro o t h
          obtain ⟨u, hu, hl⟩ := ih _ _ h
          cases o with
          | error a => cases hu
          | ok v => exact ⟨v, rfl, (refill_lines hu).trans hl⟩
      obtain ⟨u, hu, hl⟩ := hf _ _ _ he
      cases hu
      have hk := h0.trans hl
      refine ⟨s, ?_, hk⟩
      have : s.group c.r.group = c.grp := by
        have e : s.groups = c.s.groups := by have := congrArg State.groups hk.2; exact this
        rw [hg]; simp only [State.group, e]
      rw [this]
end Sys2Proof.Machine
end

