-- ==== Sys2Proof/Laws/Issue.lean ====
section
/-!
SUPPORT. What issuing does, once for every gang instruction: an instruction that `runs` has its own effect, and what an effect that only
writes registers leaves unchanged.
-/
namespace Sys2Proof.Machine

/-! ### Issuing -/

theorem issue_of_runs {i : Instr} {s : State} {c : Cx} (h : runs i s = some c) (body : Cx → Act) :
    issue i s body = .next (c.finish s (body c)) := by
  unfold runs at h
  cases hc : cxOf i s with
  | none => simp [hc] at h
  | some c0 =>
    simp only [hc] at h
    split at h
    · next hcl =>
      simp only [Cx.clear, Bool.and_eq_true, Bool.not_eq_true', Option.isNone_iff_eq_none] at hcl
      obtain ⟨⟨⟨⟨⟨⟨h1, h2⟩, h3⟩, h4⟩, h5⟩, h6⟩, h7⟩ := hcl
      have h1' : c0.g.trapReq.isSome = false := by simp [h1]
      cases ht : c0.touch with
      | error a => simp [ht, Except.toOption] at h
      | ok c1 =>
        have e : c1 = c := by simpa [ht, Except.toOption] using h
        subst e
        simp [issue, hc, h1', h2, h3, h4, h5, h6, h7, ht]
    · cases h

/-- What the context of an instruction that runs is. -/
theorem runs_cx {i : Instr} {s : State} {c : Cx} (h : runs i s = some c) :
    ∃ c0, cxOf i s = some c0 ∧ c0.clear = true ∧ c0.touch = .ok c := by
  unfold runs at h
  cases hc : cxOf i s with
  | none => simp [hc] at h
  | some c0 =>
    simp only [hc] at h
    split at h
    · next hcl =>
      cases ht : c0.touch with
      | error a => simp [ht, Except.toOption] at h
      | ok c1 => exact ⟨c0, rfl, hcl, by simpa [ht, Except.toOption] using h⟩
    · cases h

theorem cxOf_spec {i : Instr} {s : State} {c : Cx} (h : cxOf i s = some c) :
    c.s = s ∧ c.r = s.cur ∧ c.i = i ∧ c.g = s.gang s.cur ∧ c.g.run = some c.sp ∧ c.grp = s.group s.cur.group ∧
    c.grd = s.grid (s.group s.cur.group).grid := by
  unfold cxOf at h
  cases hr : (s.gang s.cur).run with
  | none => simp [hr] at h
  | some sp =>
    simp only [hr] at h
    split at h
    · simp only [Option.some.injEq] at h
      subst h
      exact ⟨rfl, rfl, rfl, rfl, hr, rfl, rfl⟩
    · cases h

theorem runs_spec {i : Instr} {s : State} {c : Cx} (h : runs i s = some c) :
    sameButLines s c.s ∧ c.s.gang c.r = c.g ∧ c.r = s.cur ∧ c.i = i ∧ c.g.run = some c.sp ∧
    { c.g with lines := (s.gang s.cur).lines, v := (s.gang s.cur).v } = s.gang s.cur ∧
    c.grp = s.group s.cur.group ∧ c.grd = s.grid (s.group s.cur.group).grid := by
  obtain ⟨c0, h0, -, ht⟩ := runs_cx h
  obtain ⟨hs, hr, hi, hg, hrun, hgrp, hgrd⟩ := cxOf_spec h0
  obtain ⟨u, rfl, hu⟩ := touch_spec ht (by rw [hs, hr, hg]) (by rw [hs, hr, hgrp])
  rw [hs] at hu
  have hq := hu.1 s.cur
  refine ⟨hu, rfl, hr, hi, ?_, by rw [← hr] at hq ⊢; exact hq, hgrp, hgrd⟩
  have e : (u.gang s.cur).run = (s.gang s.cur).run := by have := congrArg Gang.run hq; exact this
  have : (u.gang c0.r).run = some c0.sp := by rw [hr, e, ← hg, hrun]
  exact this

/-- Lines that were all held stay so, and nothing but their last access changes. -/
theorem runs_held {i : Instr} {s : State} {c c0 : Cx} (h : runs i s = some c) (h0 : cxOf i s = some c0) (hl : c0.linesIn = true) :
    c = c0.onLines := by
  obtain ⟨c1, h1, -, ht⟩ := runs_cx h
  rw [h0] at h1
  cases h1
  rw [touch_of_linesIn hl] at ht
  cases ht
  rfl

/-! ### Registers -/

/-- Whether a write names a vector register of a lane. -/
def RegWrite.isV (L n : Nat) : RegWrite → Bool
  | .v l k _ => l * 256 + k == L * 256 + n
  | _ => false
def RegWrite.isS (sl n : Nat) : RegWrite → Bool
  | .s l k _ => l * 64 + k == sl * 64 + n
  | _ => false
def RegWrite.isP (L n : Nat) : RegWrite → Bool
  | .p l k _ => l * 8 + k == L * 8 + n
  | _ => false

theorem vreg_apply_other (g : Gang) (w : RegWrite) {L n : Nat} (h : w.isV L n = false) : (w.apply g).vreg L n = g.vreg L n := by
  cases w with
  | v l k x =>
    have hne : L * 256 + n ≠ l * 256 + k := fun e => by simp [RegWrite.isV, e] at h
    exact Sparse.get_set_other _ _ _ hne
  | s l k x => rfl
  | p l k x => rfl

theorem sreg_apply_other (g : Gang) (w : RegWrite) {sl n : Nat} (h : w.isS sl n = false) : (w.apply g).sreg sl n = g.sreg sl n := by
  cases w with
  | s l k x =>
    have hne : sl * 64 + n ≠ l * 64 + k := fun e => by simp [RegWrite.isS, e] at h
    exact Sparse.get_set_other _ _ _ hne
  | v l k x => rfl
  | p l k x => rfl

theorem preg_apply_other (g : Gang) (w : RegWrite) {L n : Nat} (h : w.isP L n = false) : (w.apply g).preg L n = g.preg L n := by
  cases w with
  | p l k x =>
    have hne : L * 8 + n ≠ l * 8 + k := fun e => by simp [RegWrite.isP, e] at h
    exact Sparse.get_set_other _ _ _ hne
  | v l k x => rfl
  | s l k x => rfl

/-- Registers that no write names keep their values. -/
theorem vreg_writeRegs_other (g : Gang) (ws : List RegWrite) {L n : Nat} (h : ∀ w ∈ ws, w.isV L n = false) :
    (g.writeRegs ws).vreg L n = g.vreg L n := by
  induction ws generalizing g with
  | nil => rfl
  | cons w ws ih =>
    simp only [Gang.writeRegs, List.foldl_cons] at ih ⊢
    rw [ih _ fun x hx => h x (List.mem_cons_of_mem _ hx), vreg_apply_other _ _ (h w List.mem_cons_self)]

theorem sreg_writeRegs_other (g : Gang) (ws : List RegWrite) {sl n : Nat} (h : ∀ w ∈ ws, w.isS sl n = false) :
    (g.writeRegs ws).sreg sl n = g.sreg sl n := by
  induction ws generalizing g with
  | nil => rfl
  | cons w ws ih =>
    simp only [Gang.writeRegs, List.foldl_cons] at ih ⊢
    rw [ih _ fun x hx => h x (List.mem_cons_of_mem _ hx), sreg_apply_other _ _ (h w List.mem_cons_self)]

theorem preg_writeRegs_other (g : Gang) (ws : List RegWrite) {L n : Nat} (h : ∀ w ∈ ws, w.isP L n = false) :
    (g.writeRegs ws).preg L n = g.preg L n := by
  induction ws generalizing g with
  | nil => rfl
  | cons w ws ih =>
    simp only [Gang.writeRegs, List.foldl_cons] at ih ⊢
    rw [ih _ fun x hx => h x (List.mem_cons_of_mem _ hx), preg_apply_other _ _ (h w List.mem_cons_self)]

/-- The last write to a vector register is what it reads. -/
theorem vreg_writeRegs_last (g : Gang) (ws vs : List RegWrite) (L n : Nat) (x : W32) (h : ∀ w ∈ vs, w.isV L n = false) :
    (g.writeRegs (ws ++ .v L n x :: vs)).vreg L n = x := by
  simp only [Gang.writeRegs, List.foldl_append, List.foldl_cons]
  rw [show (List.foldl RegWrite.apply ((RegWrite.v L n x).apply (List.foldl RegWrite.apply g ws)) vs) =
    Gang.writeRegs ((RegWrite.v L n x).apply (List.foldl RegWrite.apply g ws)) vs from rfl, vreg_writeRegs_other _ _ h]
  exact Sparse.get_set_same ..

theorem sreg_writeRegs_last (g : Gang) (ws vs : List RegWrite) (sl n : Nat) (x : W64) (h : ∀ w ∈ vs, w.isS sl n = false) :
    (g.writeRegs (ws ++ .s sl n x :: vs)).sreg sl n = x := by
  simp only [Gang.writeRegs, List.foldl_append, List.foldl_cons]
  rw [show (List.foldl RegWrite.apply ((RegWrite.s sl n x).apply (List.foldl RegWrite.apply g ws)) vs) =
    Gang.writeRegs ((RegWrite.s sl n x).apply (List.foldl RegWrite.apply g ws)) vs from rfl, sreg_writeRegs_other _ _ h]
  exact Sparse.get_set_same ..

theorem preg_writeRegs_last (g : Gang) (ws vs : List RegWrite) (L n : Nat) (x : Bool) (h : ∀ w ∈ vs, w.isP L n = false) :
    (g.writeRegs (ws ++ .p L n x :: vs)).preg L n = x := by
  simp only [Gang.writeRegs, List.foldl_append, List.foldl_cons]
  rw [show (List.foldl RegWrite.apply ((RegWrite.p L n x).apply (List.foldl RegWrite.apply g ws)) vs) =
    Gang.writeRegs ((RegWrite.p L n x).apply (List.foldl RegWrite.apply g ws)) vs from rfl, preg_writeRegs_other _ _ h]
  exact Sparse.get_set_same ..

/-- Writing registers leaves the rest of a gang alone. -/
theorem writeRegs_rest (g : Gang) (ws : List RegWrite) : { g.writeRegs ws with v := g.v, s := g.s, p := g.p } = g := by
  induction ws generalizing g with
  | nil => rfl
  | cons w ws ih =>
    have h := ih (w.apply g)
    have e : ∀ g' : Gang, { g' with v := g.v, s := g.s, p := g.p } =
        { ({ g' with v := (w.apply g).v, s := (w.apply g).s, p := (w.apply g).p } : Gang) with v := g.v, s := g.s, p := g.p } :=
      fun _ => rfl
    rw [Gang.writeRegs, List.foldl_cons, e]
    simp only [Gang.writeRegs] at h
    rw [h]
    cases w <;> rfl

@[simp] theorem writeRegs_run (g : Gang) (ws : List RegWrite) : (g.writeRegs ws).run = g.run := by
  have h := congrArg Gang.run (writeRegs_rest g ws); exact h
@[simp] theorem writeRegs_infl (g : Gang) (ws : List RegWrite) : (g.writeRegs ws).infl = g.infl := by
  have h := congrArg Gang.infl (writeRegs_rest g ws); exact h
@[simp] theorem writeRegs_fstat (g : Gang) (ws : List RegWrite) : (g.writeRegs ws).fstat = g.fstat := by
  have h := congrArg Gang.fstat (writeRegs_rest g ws); exact h

/-! ### Effects -/

theorem finish_writes (c : Cx) (s : State) (ws : List RegWrite) (k : BitVec 6) : c.finish s (c.writes ws k) = c.after ws k := rfl

/-- A long-latency instruction writes no line as it issues. -/
theorem mirror_long {c : Cx} (h : (longLA c.i).isSome = true) (s : State) : c.mirror s = s := by
  have e : c.writeKeys = [] := by
    have : ∀ l : List Nat, l.flatMap (fun _ => ([] : List Nat)) = [] := fun l => by induction l <;> simp_all
    have n : c.writesNow = [] := by
      unfold Cx.writesNow
      split
      · rfl
      · rfl
      · simp only [h, if_true]
    simp only [Cx.writeKeys, Cx.keysOf, n, List.filterMap_nil, this]
    rfl
  unfold Cx.mirror
  simp [e]

theorem finish_enter {c : Cx} (h : (longLA c.i).isSome = true) (s : State) (e : Entry) : c.finish s (c.enter e) = c.entered c.s e := by
  simp only [Cx.finish, Cx.enter, State.fresh, mirror_long h]
  rfl

theorem finish_later {c : Cx} (h : (longLA c.i).isSome = true) (s : State) (ws : List RegWrite) (k : BitVec 6) :
    c.finish s (c.later ws k) = c.entered c.s { id := 0, kind := .alu, rw := ws, sticky := k, long := true } := finish_enter h ..

theorem gang_of_gangs {s t : State} (h : t.gangs = s.gangs) (q : GangRef) : t.gang q = s.gang q := by simp only [State.gang, h]

/-- Register-writing instructions: the gang after. -/
theorem after_gang {i : Instr} {s : State} {c : Cx} (h : runs i s = some c) (ws : List RegWrite) (k : BitVec 6) :
    (c.after ws k).gang c.r =
      { ((c.g.writeRegs ws).sticky k).issuedAt s.tick with run := some (c.stepped ((c.g.writeRegs ws).sticky k) c.sp 0) } := by
  obtain ⟨hs, hg, -, -, hrun, -, -, -⟩ := runs_spec h
  have e : ((c.g.writeRegs ws).sticky k).run = some c.sp := by simp [Gang.sticky, hrun]
  have m := mirror_only c (c.s.setGang c.r ((c.g.writeRegs ws).sticky k))
  have eg : (c.mirror (c.s.setGang c.r ((c.g.writeRegs ws).sticky k))).gang c.r = (c.g.writeRegs ws).sticky k := by
    rw [gang_of_gangs m.gangs]; simp
  have et : (c.mirror (c.s.setGang c.r ((c.g.writeRegs ws).sticky k))).tick = s.tick := by
    have h1 := congrArg State.tick m
    have h2 := congrArg State.tick hs.2
    exact h1.trans h2
  simp only [Cx.after, Cx.retire, eg, e, State.gang_setGang_same, et]

/-- Register-writing instructions: everything outside the gang. -/
theorem after_elsewhere {i : Instr} {s : State} {c : Cx} (h : runs i s = some c) (ws : List RegWrite) (k : BitVec 6) :
    c.elsewhere (c.after ws k) := by
  obtain ⟨hs, hg, -, -, hrun, -, -, -⟩ := runs_spec h
  let g := (c.g.writeRegs ws).sticky k
  have e : g.run = some c.sp := by simp [g, Gang.sticky, hrun]
  let u := c.mirror (c.s.setGang c.r g)
  have m : memOnly (c.s.setGang c.r g) u := mirror_only c _
  have eg : u.gang c.r = g := by rw [gang_of_gangs m.gangs]; simp
  have ha : c.after ws k = u.setGang c.r { g.issuedAt u.tick with run := some (c.stepped g c.sp 0) } := by
    show c.retire u 0 = _
    simp only [Cx.retire, eg, e]
  refine ⟨fun q hq => ?_, ?_, fun hl => ?_, g, ?_, ?_, ?_⟩
  · rw [ha, State.gang_setGang_other _ _ hq, gang_of_gangs m.gangs, State.gang_setGang_other _ _ hq]
  · rw [ha]
    calc ({ u.setGang c.r _ with gangs := c.s.gangs, mem := c.s.mem, hostMem := c.s.hostMem, spoiled := c.s.spoiled, hostWr := c.s.hostWr } : State) =
          { ({ u with mem := c.s.mem, hostMem := c.s.hostMem, spoiled := c.s.spoiled, hostWr := c.s.hostWr } : State) with gangs := c.s.gangs } := rfl
      _ = { c.s.setGang c.r g with gangs := c.s.gangs } := by
        have := m; unfold memOnly at this
        rw [show ({ u with mem := c.s.mem, hostMem := c.s.hostMem, spoiled := c.s.spoiled, hostWr := c.s.hostWr } : State) = c.s.setGang c.r g from this]
      _ = c.s := rfl
  · have hm : u = c.s.setGang c.r g := by show c.mirror _ = _; simp [Cx.mirror, hl]
    rw [ha, hm]
    exact ⟨rfl, rfl, rfl⟩
  · rw [ha]; simp [Gang.issuedAt]
  · rw [ha]; simp [Gang.issuedAt]
  · rw [ha]
    exact ⟨rfl, rfl, rfl⟩

end Sys2Proof.Machine
end

