-- ==== Sys2Proof/Laws/Memory.lean ====
section
/-!
SUPPORT. Every operation over the package's memory and the host's keeps their canonical form (`State.ok`), and the small ones change
nothing else.
-/
namespace Sys2Proof.Machine

/-! ### The small operations -/

theorem ok_of_same {s t : State} (hm : t.mem = s.mem) (hh : t.hostMem = s.hostMem) (h : s.ok) : t.ok := by
  unfold State.ok at *
  rw [hm, hh]
  exact h

theorem ok_reset : State.reset.ok := ⟨rfl, rfl⟩

theorem ok_setGang {s : State} (r : GangRef) (g : Gang) (h : s.ok) : (s.setGang r g).ok := ok_of_same rfl rfl h
theorem ok_setGroup {s : State} (k : Nat) (g : Group) (h : s.ok) : (s.setGroup k g).ok := ok_of_same rfl rfl h
theorem ok_setGrid {s : State} (k : Nat) (g : Grid) (h : s.ok) : (s.setGrid k g).ok := ok_of_same rfl rfl h
theorem ok_setCtx {s : State} (k : Nat) (x : Ctx) (h : s.ok) : (s.setCtx k x).ok := ok_of_same rfl rfl h

theorem ok_wrLoc {s : State} (l : Loc) (n x : Nat) (h : s.ok) : (s.wrLoc l n x).ok := by
  unfold State.wrLoc
  split
  · exact ⟨h.1, memWf_wrLE _ _ _ h.2⟩
  · exact ⟨memWf_wrLE _ _ _ h.1, h.2⟩

/-- A located write changes memory only, and notes a write to a suspended group's words. -/
theorem wrLoc_only (s : State) (l : Loc) (n x : Nat) :
    { s.wrLoc l n x with mem := s.mem, hostMem := s.hostMem, spoiled := s.spoiled, hostWr := s.hostWr } = s := by
  unfold State.wrLoc
  split <;> rfl

/-- What was written at a place is read there, modulo its width. -/
theorem rdLoc_wrLoc_same (s : State) (l : Loc) (n x : Nat) : (s.wrLoc l n x).rdLoc l n = x % 256 ^ n := by
  unfold State.wrLoc State.rdLoc
  cases l.host <;> simp [rdLE_wrLE_same]

/-- Every byte outside the bytes written is as it was. -/
theorem byte_wrLoc_other (s : State) (l : Loc) (n x a : Nat) (host : Bool) (h : host ≠ l.host ∨ a < l.key ∨ l.key + n ≤ a) :
    (s.wrLoc l n x).byteAt host a = s.byteAt host a := by
  unfold State.wrLoc State.byteAt
  cases hl : l.host <;> cases host <;> simp_all [rdByte_wrLE_other]

theorem ok_putAt {s : State} (ctx : Nat) (prv : Bool) (va n x : Nat) (h : s.ok) : (s.putAt ctx prv va n x).ok := by
  unfold State.putAt
  split
  · exact ok_wrLoc _ _ _ h
  · exact h

theorem ok_vaWrite {s : State} (ctx va n x : Nat) (h : s.ok) : (s.vaWrite ctx va n x).ok := ok_putAt _ _ _ _ _ h
theorem ok_imgWrite {s : State} (ctx va n x : Nat) (h : s.ok) : (s.imgWrite ctx va n x).ok := ok_putAt _ _ _ _ _ h

theorem vaWrite_only (s : State) (ctx va n x : Nat) :
    { s.vaWrite ctx va n x with mem := s.mem, hostMem := s.hostMem, spoiled := s.spoiled, hostWr := s.hostWr } = s := by
  unfold State.vaWrite State.putAt
  split
  · exact wrLoc_only ..
  · rfl

theorem ok_event {s : State} (e : FwEvent) (h : s.ok) : (s.event e).ok := by
  unfold State.event
  split <;> exact h

theorem ok_sendInt {s : State} (v : Nat) (h : s.ok) : (s.sendInt v).ok := by
  unfold State.sendInt
  split
  · exact h
  · simp only
    split
    · exact h
    · exact ⟨h.1, memWf_wrLE _ _ _ h.2⟩

theorem ok_errPut {s : State} (part : Nat) (a b c d : W64) (h : s.ok) : (s.errPut part a b c d).ok :=
  ok_sendInt _ ⟨h.1, memWf_wrLE _ _ _ (memWf_wrLE _ _ _ (memWf_wrLE _ _ _ (memWf_wrLE _ _ _ h.2)))⟩

theorem ok_errRecord {s : State} (part : Nat) (w0 w1 w2 w3 : W64) (h : s.ok) : (s.errRecord part w0 w1 w2 w3).ok := by
  unfold State.errRecord
  simp only
  split
  · exact h
  · split
    · exact h
    · split
      · exact ok_errPut _ _ _ _ _ h
      · have h1 : ∀ e, (({ s with err := e } : State).errPut part 0x12
            (BitVec.ofNat 64 (Sparse.get ({} : ErrRing) s.err part).dropped) 0).ok := fun e => ok_errPut _ _ _ _ _ h
        split
        · exact h1 _
        · exact ok_errPut _ _ _ _ _ (h1 _)

theorem ok_report {s : State} (code detail ctx gang part : Nat) (w1 w2 w3 : W64) (h : s.ok) :
    (s.report code detail ctx gang part w1 w2 w3).ok := ok_errRecord _ _ _ _ _ (ok_event _ h)

theorem ok_imgFault {s : State} (grid lin addr : Nat) (h : s.ok) : (s.imgFault grid lin addr).ok :=
  ok_report _ _ _ _ _ _ _ _ (ok_setCtx _ _ h)

/-! ### Operations that write several times -/

/-- What keeps the form once keeps it over a list. -/
theorem ok_foldl {α : Type} {f : State → α → State} (hf : ∀ s x, s.ok → (f s x).ok) (l : List α) {s : State} (h : s.ok) :
    (l.foldl f s).ok := by
  induction l generalizing s with
  | nil => exact h
  | cons x l ih => exact ih (hf s x h)

theorem ok_vaStore {s : State} (ctx a : Nat) (ws : List W64) (h : s.ok) : (s.vaStore ctx a ws).ok := by
  induction ws generalizing s a with
  | nil => exact h
  | cons w ws ih => exact ih _ (ok_vaWrite _ _ _ _ h)

theorem ok_vaCopy {s : State} (ctx src dst n : Nat) (h : s.ok) : (s.vaCopy ctx src dst n).ok := by
  induction n generalizing s src dst with
  | zero => exact h
  | succ n ih => exact ih _ _ (ok_vaWrite _ _ _ _ h)

theorem ok_saveScr {s : State} (grp : Group) (g : Grid) (o n : Nat) (h : s.ok) : (s.saveScr grp g o n).ok := by
  induction n generalizing s o with
  | zero => exact h
  | succ n ih => exact ih _ (ok_imgWrite _ _ _ _ h)

theorem ok_wrScr {s : State} (k o : Nat) (x : Byte) (h : s.ok) : (s.wrScr k o x).ok := by
  unfold State.wrScr
  dsimp only
  split
  · exact ok_imgFault _ _ _ (ok_setGroup _ _ h)
  · split
    · exact ok_setCtx _ _ (ok_imgWrite _ _ _ _ (ok_setGroup _ _ h))
    · exact ok_setGroup _ _ h

theorem ok_wrPlace {s : State} (p : Place) (i : Nat) (x : Byte) (h : s.ok) : (s.wrPlace p i x).ok := by
  cases p with
  | mem l => exact ok_wrLoc _ _ _ h
  | scr k o => exact ok_wrScr _ _ _ h
  | lst r o => exact ok_setGang _ _ h

theorem ok_wrBytes {s : State} (p : Place) (x : W64) (is : List Nat) (h : s.ok) : (s.wrBytes p x is).ok := by
  induction is generalizing s with
  | nil => exact h
  | cons i is ih => exact ih (ok_wrPlace _ _ _ h)

theorem ok_usePage {s : State} (k p : Nat) (h : s.ok) : (s.usePage k p).ok := ok_setGroup _ _ h

theorem ok_touchPage {s t : State} (k o : Nat) (rd : Bool) (h : s.ok) (e : s.touchPage k o rd = .ok t) : t.ok := by
  unfold State.touchPage at e
  dsimp only at e
  split at e
  · cases e; exact ok_usePage _ _ h
  · split at e
    · split at e
      · cases e
      · cases e; exact h
    · split at e
      · cases e
      · split at e
        · cases e; exact ok_setGroup _ _ h
        · split at e
          · cases e; exact ok_imgFault _ _ _ (ok_setGroup _ _ h)
          · simp only [Except.ok.injEq] at e
            subst e
            apply ok_setGroup
            apply ok_setCtx
            exact ok_saveScr _ _ _ _ (ok_setGroup _ _ h)

theorem ok_imageLine {s : State} (r : GangRef) (key : Nat) (h : s.ok) : (s.imageLine r key).ok :=
  ok_foldl (fun _ _ h => ok_imgWrite _ _ _ _ h) _ h

theorem ok_writeLine {s : State} (r : GangRef) (key : Nat) (h : s.ok) : (s.writeLine r key).ok := ok_setCtx _ _ (ok_imageLine _ _ h)

theorem ok_landOut {s : State} (r : GangRef) (lane n : Nat) (x : W32) (h : s.ok) : (s.landOut r lane n x).ok := by
  unfold State.landOut
  dsimp only
  split
  · exact ok_imgWrite _ _ _ _ h
  · exact ok_imgFault _ _ _ (ok_setGang _ _ h)

theorem ok_land {s : State} (r : GangRef) (ws : List RegWrite) (h : s.ok) : (s.land r ws).ok := by
  unfold State.land
  refine ok_foldl (fun s w h => ?_) _ (ok_setGang _ _ h)
  cases w
  · simp only
    split
    · exact ok_landOut _ _ _ _ h
    · exact h
  · exact h
  · exact h

/-! ### Engines, the fabric and the host -/

theorem ok_wrHost {s : State} (l : Loc) (n x : Nat) (h : s.ok) : (s.wrHost l n x).ok := ok_wrLoc _ _ _ h

theorem ok_engWrite {s t : State} (grid a : Nat) (bs : List Byte) (h : s.ok) (e : s.engWrite grid a bs = .ok t) : t.ok := by
  induction bs generalizing s a with
  | nil => simp only [State.engWrite, Except.ok.injEq] at e; exact e ▸ h
  | cons b bs ih =>
    simp only [State.engWrite] at e
    split at e
    · cases e
    · exact ih _ (ok_wrLoc _ _ _ h) e

theorem ok_remoteWrite {s t : State} (part a : Nat) (bs : List Byte) (h : s.ok) (e : s.remoteWrite part a bs = some t) : t.ok := by
  induction bs generalizing s a with
  | nil => simp only [State.remoteWrite, Option.some.injEq] at e; exact e ▸ h
  | cons b bs ih =>
    simp only [State.remoteWrite] at e
    split at e
    · cases e
    · exact ih _ (ok_wrLoc _ _ _ h) e

theorem ok_applyPkt {s t : State} (p : Packet) (v : W64) (h : s.ok) (e : s.applyPkt p = some (t, v)) : t.ok := by
  unfold State.applyPkt at e
  cases hp : p.op <;> simp only [hp, Option.map_eq_some_iff, Option.bind_eq_some_iff] at e
  · obtain ⟨u, hu, e⟩ := e
    cases e
    exact ok_remoteWrite _ _ _ h hu
  · obtain ⟨l, -, e⟩ := e
    cases e
    exact h
  · obtain ⟨l, -, e⟩ := e
    split at e
    · cases e; exact h
    · obtain ⟨l, -, e⟩ := Option.map_eq_some_iff.mp e
      cases e
      exact ok_wrLoc _ _ _ h

theorem ok_copyByte {s t : State} (o : Op) (k : CopyKind) (dst src i : Nat) (h : s.ok) (e : s.copyByte o k dst src i = .ok t) :
    t.ok := by
  unfold State.copyByte at e
  split at e
  · next p q _ _ =>
    split at e
    · cases e
    · next u hu =>
      have hu' : u.ok := by
        split at hu
        · exact ok_touchPage _ _ _ h hu
        · cases hu; exact h
      cases e
      refine ok_wrPlace _ _ _ ?_
      split
      · exact ok_usePage _ _ hu'
      · exact hu'
  · cases e
  · cases e

theorem ok_pvElem {s t : State} (o : Op) (op : PvOp) (ty : Ty) (dst : Nat) (src : Option Nat) (const : W64) (i : Nat) (h : s.ok)
    (e : s.pvElem o op ty dst src const i = .ok t) : t.ok := by
  unfold State.pvElem at e
  dsimp only at e
  split at e
  · cases e
  · split at e
    · simp only [Except.ok.injEq] at e; exact e ▸ ok_wrLoc _ _ _ h
    · split at e
      · cases e
      · simp only [Except.ok.injEq] at e; exact e ▸ ok_wrLoc _ _ _ h

theorem ok_moveAll {s t : State} {f : State → Nat → Except (Nat × Nat) State} (hf : ∀ s i t, s.ok → f s i = .ok t → t.ok)
    (is : List Nat) (h : s.ok) (e : State.moveAll f s is = .ok t) : t.ok := by
  induction is generalizing s with
  | nil => simp only [State.moveAll, Except.ok.injEq] at e; exact e ▸ h
  | cons i is ih =>
    simp only [State.moveAll] at e
    split at e
    · cases e
    · next u hu => exact ih (hf _ _ _ h hu) e

theorem ok_dmaMove {s : State} (ctx : Nat) (out : Bool) (va ha n : Nat) (h : s.ok) : (s.dmaMove ctx out va ha n).ok := by
  induction n generalizing s va ha with
  | zero => exact h
  | succ n ih =>
    simp only [State.dmaMove]
    apply ih
    split
    · exact h
    · split <;> exact ok_wrHost _ _ _ h

end Sys2Proof.Machine
end

