-- ==== Sys2Proof/Laws/Results.lean ====
section
/-!
SUPPORT. What the register writes of an instruction leave: the results at each place where it acts, and every other register as it was.
-/
namespace Sys2Proof.Machine

/-! ### Places -/

theorem lanesOf_nodup (m : W32) : (lanesOf m).Nodup := List.Pairwise.filter _ List.nodup_range
theorem slicesOf_nodup (m : W32) : (slicesOf m).Nodup := List.Pairwise.filter _ List.nodup_range
theorem lanesOf_lt {m : W32} {L : Nat} (h : L ∈ lanesOf m) : L < 32 := by
  simp only [lanesOf, List.mem_filter, List.mem_range] at h; exact h.1
theorem slicesOf_lt {m : W32} {sl : Nat} (h : sl ∈ slicesOf m) : sl < 8 := by
  simp only [slicesOf, List.mem_filter, List.mem_range] at h; exact h.1

/-! ### One write per lane or slice -/

/-- What a list of writes, one block for each member of a list without repeats, leaves in a register that only one block names. -/
theorem vreg_flatMap (g : Gang) (ls : List Nat) (hn : ls.Nodup) (f : Nat → List RegWrite) {L n : Nat} (hL : L ∈ ls)
    (ho : ∀ M ∈ ls, M ≠ L → ∀ w ∈ f M, w.isV L n = false) :
    ∃ g', (g.writeRegs (ls.flatMap f)).vreg L n = (Gang.writeRegs g' (f L)).vreg L n := by
  induction ls generalizing g with
  | nil => cases hL
  | cons M ls ih =>
    rw [List.flatMap_cons, Gang.writeRegs, List.foldl_append]
    rcases List.mem_cons.mp hL with rfl | hL'
    · refine ⟨g, ?_⟩
      refine vreg_writeRegs_other _ _ fun w hw => ?_
      obtain ⟨N, hN, hw⟩ := List.mem_flatMap.mp hw
      exact ho N (List.mem_cons_of_mem _ hN) (fun e => (List.nodup_cons.mp hn).1 (e ▸ hN)) w hw
    · exact ih _ (List.nodup_cons.mp hn).2 hL' fun N hN => ho N (List.mem_cons_of_mem _ hN)

theorem sreg_flatMap (g : Gang) (ls : List Nat) (hn : ls.Nodup) (f : Nat → List RegWrite) {L n : Nat} (hL : L ∈ ls)
    (ho : ∀ M ∈ ls, M ≠ L → ∀ w ∈ f M, w.isS L n = false) :
    ∃ g', (g.writeRegs (ls.flatMap f)).sreg L n = (Gang.writeRegs g' (f L)).sreg L n := by
  induction ls generalizing g with
  | nil => cases hL
  | cons M ls ih =>
    rw [List.flatMap_cons, Gang.writeRegs, List.foldl_append]
    rcases List.mem_cons.mp hL with rfl | hL'
    · refine ⟨g, ?_⟩
      refine sreg_writeRegs_other _ _ fun w hw => ?_
      obtain ⟨N, hN, hw⟩ := List.mem_flatMap.mp hw
      exact ho N (List.mem_cons_of_mem _ hN) (fun e => (List.nodup_cons.mp hn).1 (e ▸ hN)) w hw
    · exact ih _ (List.nodup_cons.mp hn).2 hL' fun N hN => ho N (List.mem_cons_of_mem _ hN)

theorem preg_flatMap (g : Gang) (ls : List Nat) (hn : ls.Nodup) (f : Nat → List RegWrite) {L n : Nat} (hL : L ∈ ls)
    (ho : ∀ M ∈ ls, M ≠ L → ∀ w ∈ f M, w.isP L n = false) :
    ∃ g', (g.writeRegs (ls.flatMap f)).preg L n = (Gang.writeRegs g' (f L)).preg L n := by
  induction ls generalizing g with
  | nil => cases hL
  | cons M ls ih =>
    rw [List.flatMap_cons, Gang.writeRegs, List.foldl_append]
    rcases List.mem_cons.mp hL with rfl | hL'
    · refine ⟨g, ?_⟩
      refine preg_writeRegs_other _ _ fun w hw => ?_
      obtain ⟨N, hN, hw⟩ := List.mem_flatMap.mp hw
      exact ho N (List.mem_cons_of_mem _ hN) (fun e => (List.nodup_cons.mp hn).1 (e ▸ hN)) w hw
    · exact ih _ (List.nodup_cons.mp hn).2 hL' fun N hN => ho N (List.mem_cons_of_mem _ hN)

/-! ### Vector results -/

theorem wrV_isV_other {wide : Bool} {M L n : Nat} {d : VReg} {x : W64} (hd : d.toNat + 1 < 256 ∨ wide = false) (hn : n < 256)
    (h : M ≠ L) : ∀ w ∈ wrV wide M d x, w.isV L n = false := by
  have := d.isLt
  intro w hw
  cases wide
  · simp only [wrV, Bool.false_eq_true, if_false, List.mem_singleton] at hw
    subst hw
    simp only [RegWrite.isV, beq_eq_false_iff_ne, ne_eq]; omega
  · simp only [wrV, if_true, List.mem_cons, List.not_mem_nil, or_false] at hw
    have hd : d.toNat + 1 < 256 := by simpa using hd
    rcases hw with rfl | rfl <;> simp only [RegWrite.isV, beq_eq_false_iff_ne, ne_eq] <;> omega

theorem vreg_wrV (g : Gang) (wide : Bool) (L : Nat) (d : VReg) (x : W64) : (g.writeRegs (wrV wide L d x)).vreg L d.toNat = lo32 x := by
  cases wide
  · exact vreg_writeRegs_last g [] [] L d.toNat (lo32 x) (by simp)
  · exact vreg_writeRegs_last g [] [.v L (d.toNat + 1) (hi32 x)] L d.toNat (lo32 x) (by simp [RegWrite.isV])

theorem vreg_wrV_hi (g : Gang) (L : Nat) (d : VReg) (x : W64) : (g.writeRegs (wrV true L d x)).vreg L (d.toNat + 1) = hi32 x :=
  vreg_writeRegs_last g [.v L d.toNat (lo32 x)] [] L (d.toNat + 1) (hi32 x) (by simp)

/-- A vector result in each of some lanes: register, and pair. -/
theorem vreg_lanes (g : Gang) (ls : List Nat) (hn : ls.Nodup) (wide : Bool) (d : VReg) (x : Nat → W64)
    (hd : d.toNat + 1 < 256 ∨ wide = false) {L : Nat} (hL : L ∈ ls) :
    (g.writeRegs (ls.flatMap fun L => wrV wide L d (x L))).vreg L d.toNat = lo32 (x L) := by
  obtain ⟨g', h⟩ := vreg_flatMap g ls hn (fun L => wrV wide L d (x L)) (n := d.toNat) hL
    fun M _ hM => wrV_isV_other hd d.isLt hM
  rw [h, vreg_wrV]

theorem vreg_lanes_hi (g : Gang) (ls : List Nat) (hn : ls.Nodup) (d : VReg) (x : Nat → W64)
    (hd : d.toNat + 1 < 256) {L : Nat} (hL : L ∈ ls) :
    (g.writeRegs (ls.flatMap fun L => wrV true L d (x L))).vreg L (d.toNat + 1) = hi32 (x L) := by
  obtain ⟨g', h⟩ := vreg_flatMap g ls hn (fun L => wrV true L d (x L)) (n := d.toNat + 1) hL
    fun M _ hM => wrV_isV_other (.inl hd) hd hM
  rw [h, vreg_wrV_hi]

theorem pair_lo_hi (x : W64) : pair64 (lo32 x) (hi32 x) = x := by
  apply BitVec.eq_of_getLsbD_eq
  intro i hi
  simp only [pair64, BitVec.getLsbD_append, lo32, hi32, BitVec.getLsbD_setWidth, BitVec.getLsbD_ushiftRight]
  by_cases h : i < 32
  · simp [h]
  · simp [h]
    have : i - 32 < 32 := by omega
    simp [this, show 32 + (i - 32) = i by omega]

theorem vpair_lanes (g : Gang) (ls : List Nat) (hn : ls.Nodup) (d : VReg) (x : Nat → W64)
    (hd : d.toNat + 1 < 256) {L : Nat} (hL : L ∈ ls) :
    (g.writeRegs (ls.flatMap fun L => wrV true L d (x L))).vpair L d.toNat = x L := by
  simp only [Gang.vpair, vreg_lanes g ls hn true d x (.inl hd) hL, vreg_lanes_hi g ls hn d x hd hL, pair_lo_hi]

/-! ### The cap (R75 check 4) -/

theorem dCap_le (d : List W64) : dCap d ≤ 256 := by
  have : dfield d 0x008 4 0 < 2 ^ 5 := by simp only [dfield, bitsOf]; exact Nat.mod_lt _ (by decide)
  simp only [dCap]; omega

/-- A vector register that an instruction that runs names is below the cap. -/
theorem named_lt {i : Instr} {s : State} {c : Cx} (h : runs i s = some c) {n : Nat} (hn : Reg.v n ∈ named c.W i) : n < c.grd.cap := by
  obtain ⟨c0, h0, hc, ht⟩ := runs_cx h
  obtain ⟨hs, hr, he, hg, -, hgrp, -⟩ := cxOf_spec h0
  obtain ⟨u, rfl, -⟩ := touch_spec ht (by rw [hs, hr, hg]) (by rw [hs, hr, hgrp])
  simp only [Cx.clear, Bool.and_eq_true, Option.isNone_iff_eq_none] at hc
  have hk : c0.check = none := hc.1.1.1.1.1.2
  have hb : c0.capBad = false := by
    unfold Cx.check at hk
    split at hk
    · cases hk
    · split at hk
      · cases hk
      · split at hk
        · cases hk
        · next hb => simpa using hb
  rw [Cx.capBad, List.any_eq_false] at hb
  have := hb (.v n) (List.mem_append.mpr (.inl (by rw [he]; exact hn)))
  exact Nat.lt_of_not_le fun hle => this (decide_eq_true hle)

theorem named_lt_256 {i : Instr} {s : State} {c : Cx} (h : runs i s = some c) {n : Nat} (hn : Reg.v n ∈ named c.W i) : n < 256 :=
  Nat.lt_of_lt_of_le (named_lt h hn) (dCap_le _)

/-! ### Whole effects -/

/-- A write that the instruction may make: of a register it writes, at a place where it acts. -/
def Cx.allows (c : Cx) : RegWrite → Prop
  | .v L n _ => L ∈ c.vis ∧ Reg.v n ∈ Sys2Proof.Machine.writes c.W c.i ∧ n < 256
  | .s sl n _ => sl ∈ c.sls ∧ Reg.s n ∈ Sys2Proof.Machine.writes c.W c.i ∧ n < 64
  | .p L n _ => L ∈ c.vis ∧ Reg.p n ∈ Sys2Proof.Machine.writes c.W c.i ∧ n < 8

theorem onlyWrites_of_allows {c : Cx} (g : Gang) {ws : List RegWrite} (h : ∀ w ∈ ws, c.allows w) : c.onlyWrites g (g.writeRegs ws) := by
  refine ⟨fun L n hn hf => vreg_writeRegs_other _ _ fun w hw => ?_, fun L n hn hf => sreg_writeRegs_other _ _ fun w hw => ?_,
    fun L n hn hf => preg_writeRegs_other _ _ fun w hw => ?_⟩
  all_goals
    have ha := h w hw
    cases w with
    | v l k x =>
      first
      | rfl
      | obtain ⟨h1, h2, h3⟩ := ha
        simp only [RegWrite.isV, beq_eq_false_iff_ne, ne_eq]
        intro e
        have : l = L ∧ k = n := by omega
        obtain ⟨rfl, rfl⟩ := this
        simp [h1, h2] at hf
    | s l k x =>
      first
      | rfl
      | obtain ⟨h1, h2, h3⟩ := ha
        simp only [RegWrite.isS, beq_eq_false_iff_ne, ne_eq]
        intro e
        have : l = L ∧ k = n := by omega
        obtain ⟨rfl, rfl⟩ := this
        simp [h1, h2] at hf
    | p l k x =>
      first
      | rfl
      | obtain ⟨h1, h2, h3⟩ := ha
        simp only [RegWrite.isP, beq_eq_false_iff_ne, ne_eq]
        intro e
        have : l = L ∧ k = n := by omega
        obtain ⟨rfl, rfl⟩ := this
        simp [h1, h2] at hf

/-- A property of a gang that only its registers decide. -/
def regsOnly (P : Gang → Prop) : Prop := ∀ g g' : Gang, g'.v = g.v → g'.s = g.s → g'.p = g.p → P g → P g'

theorem writeRegs_eq (g : Gang) (ws : List RegWrite) : ∃ v s p, g.writeRegs ws = { g with v := v, s := s, p := p } := by
  refine ⟨(g.writeRegs ws).v, (g.writeRegs ws).s, (g.writeRegs ws).p, ?_⟩
  have h := writeRegs_rest g ws
  calc g.writeRegs ws = { ({ g.writeRegs ws with v := g.v, s := g.s, p := g.p } : Gang) with
          v := (g.writeRegs ws).v, s := (g.writeRegs ws).s, p := (g.writeRegs ws).p } := rfl
    _ = _ := by rw [h]

/-- The gang of the context of an instruction that runs is that of the state, but for its lines and the registers that came back with them. -/
theorem runs_gang {i : Instr} {s : State} {c : Cx} (h : runs i s = some c) : ∃ ls v, c.g = { s.gang c.r with lines := ls, v := v } := by
  obtain ⟨-, -, hcr, -, -, hl, -, -⟩ := runs_spec h
  refine ⟨c.g.lines, c.g.v, ?_⟩
  calc c.g = { ({ c.g with lines := (s.gang s.cur).lines, v := (s.gang s.cur).v } : Gang) with lines := c.g.lines, v := c.g.v } := rfl
    _ = _ := by rw [hl, hcr]

/-- An instruction that completes with register writes it may make has just that effect. -/
theorem puts_of_after {i : Instr} {s : State} {c : Cx} (h : runs i s = some c) {ws : List RegWrite} {k : BitVec 6} {P : Gang → Prop}
    (he : exec i s = .next (c.after ws k)) (hw : ∀ w ∈ ws, c.allows w) (hr : regsOnly P) (hP : P (c.g.writeRegs ws)) : c.puts i s k P := by
  have hg := after_gang h ws k
  refine ⟨_, he, ?_, ?_, ?_, ?_, ?_, after_elsewhere h ws k⟩
  · exact hr (c.g.writeRegs ws) _ (by rw [hg]; rfl) (by rw [hg]; rfl) (by rw [hg]; rfl) hP
  · have := onlyWrites_of_allows c.g hw
    rw [hg]
    exact this
  · obtain ⟨v, sr, p, e⟩ := writeRegs_eq c.g ws
    obtain ⟨ls, w, e'⟩ := runs_gang h
    rw [hg, e, e']
    rfl
  · rw [hg]
    show ((c.g.writeRegs ws).sticky k).fstat = _
    simp [Gang.sticky]
  · rw [hg]; rfl

/-! ### Integer results (R79) -/

theorem low_lt (w : Nat) (x : Int) : low w x < 2 ^ w := by
  have h : (0 : Int) < 2 ^ w := by exact_mod_cast Nat.two_pow_pos w
  have h1 := Int.emod_lt_of_pos x h
  have h2 := Int.emod_nonneg x (Int.ne_of_gt h)
  have e : ((2 ^ w : Nat) : Int) = 2 ^ w := by simp
  simp only [low]; omega

theorem low_cast (w : Nat) (x : Int) : ((low w x : Nat) : Int) = x % 2 ^ w := by
  have h : (0 : Int) < 2 ^ w := by exact_mod_cast Nat.two_pow_pos w
  have h2 := Int.emod_nonneg x (Int.ne_of_gt h)
  simp only [low]; omega

theorem toNat_extV_unsigned {t : Ty} (x : Int) (h : (t.signed && decide (t.width < 32)) = false) (hw : t.width ≤ 64) :
    ((extV t x).toNat : Int) = x % 2 ^ t.width := by
  have := low_lt t.width x
  have hp : 2 ^ t.width ≤ 2 ^ 64 := Nat.pow_le_pow_right (by decide) hw
  simp only [extV, h, Bool.false_and, Bool.false_eq_true, if_false, BitVec.toNat_ofNat]
  rw [Nat.mod_eq_of_lt (by omega), low_cast]

theorem width_le (t : Ty) : t.width ≤ 64 := by cases t <;> decide

/-- A w-bit pattern with its sign copied to 64 bits reads as the balanced remainder. -/
theorem bmod_signed {w : Nat} (x : Int) (h0 : 0 < w) (h1 : w ≤ 64) :
    (if 2 ^ (w - 1) ≤ low w x then BitVec.ofInt 64 ((low w x : Nat) - 2 ^ w) else BitVec.ofNat 64 (low w x)).toInt = x.bmod (2 ^ w) := by
  have e := low_cast w x
  have l := low_lt w x
  obtain ⟨k, rfl⟩ : ∃ k, w = k + 1 := ⟨w - 1, by omega⟩
  have hk : 2 ^ (k + 1) = 2 * 2 ^ k := by rw [Nat.pow_succ]; omega
  have hp : 2 ^ k ≤ 2 ^ 63 := Nat.pow_le_pow_right (by decide) (by omega)
  have hc : ((2 ^ (k + 1) : Nat) : Int) = 2 ^ (k + 1) := by simp
  rw [Int.bmod_def, hc, ← e]
  simp only [Nat.add_sub_cancel]
  have e64 : (((2 : Nat) ^ 64 : Nat) : Int) = 18446744073709551616 := rfl
  have e63 : (2 : Nat) ^ 63 = 9223372036854775808 := rfl
  rw [e63] at hp
  by_cases hs : 2 ^ k ≤ low (k + 1) x
  · rw [if_pos hs, BitVec.toInt_ofInt, Int.bmod_def, e64, ← hc]
    generalize low (k + 1) x = u at *
    generalize 2 ^ k = q at *
    rw [hk] at l ⊢
    omega
  · have ei : (BitVec.ofNat 64 (low (k + 1) x)).toInt = (low (k + 1) x : Int).bmod (2 ^ 64) := by
      rw [BitVec.toInt_eq_toNat_bmod, BitVec.toNat_ofNat, Int.natCast_emod, Int.emod_bmod]
    rw [if_neg hs, ei, Int.bmod_def, e64, ← hc]
    generalize low (k + 1) x = u at *
    generalize 2 ^ k = q at *
    rw [hk] at l ⊢
    omega

theorem bmod_wide {w : Nat} (x : Int) (h0 : 0 < w) (h1 : w < 32) : (x.bmod (2 ^ w)).bmod (2 ^ 32) = x.bmod (2 ^ w) := by
  have hp : 2 ^ w ≤ 2 ^ 31 := Nat.pow_le_pow_right (by decide) (by omega)
  have h2 : 0 < 2 ^ w := Nat.two_pow_pos w
  have e32 : (((2 : Nat) ^ 32 : Nat) : Int) = 4294967296 := rfl
  have e31 : (2 : Nat) ^ 31 = 2147483648 := rfl
  rw [Int.bmod_def (x.bmod _), Int.bmod_def x, e32]
  rw [e31] at hp
  generalize 2 ^ w = q at *
  have := Int.emod_lt_of_pos x (b := (q : Int)) (by omega)
  have := Int.emod_nonneg x (b := (q : Int)) (by omega)
  generalize x % (q : Int) = y at *
  omega

theorem lo32_toInt (x : W64) : (lo32 x).toInt = x.toInt.bmod (2 ^ 32) := by
  simp only [lo32, BitVec.toInt_setWidth]
  rw [BitVec.toInt_eq_toNat_bmod, Int.bmod_bmod_of_dvd (by decide)]

/-- A vector register after a result narrower than 64 bits. -/
theorem holds_v {g : Gang} {t : Ty} {L : Nat} {r : VReg} {x : Int} (ht : t.is64 = false)
    (h : g.vreg L r.toNat = lo32 (extV t x)) : holds g t (.lane L) (.v r) x := by
  simp only [holds, ht, Bool.false_eq_true, if_false]
  rw [h]
  have h1 := low_lt t.width x
  have h2 := low_cast t.width x
  by_cases hs : (t.signed && decide (t.width < 32)) = true
  · rw [if_pos hs]
    simp only [extV, hs, Bool.true_and, decide_eq_true_eq, lo32_toInt]
    rw [bmod_signed x (by cases t <;> simp [Ty.width]) (width_le t)]
    cases t <;> simp only [Ty.signed, Ty.width, Bool.false_and, Bool.false_eq_true, decide_false, Bool.and_false,
      Nat.reduceLT] at hs ⊢ <;> exact bmod_wide _ (by decide) (by decide)
  · rw [if_neg hs]
    have e := toNat_extV_unsigned (t := t) x (by simpa using hs) (width_le t)
    have hw : t.width ≤ 32 := by cases t <;> simp_all [Ty.is64, Ty.width]
    have hp : 2 ^ t.width ≤ 2 ^ 32 := Nat.pow_le_pow_right (by decide) hw
    simp only [lo32, BitVec.toNat_setWidth]
    rw [Nat.mod_eq_of_lt (by omega), e]

/-- A pair after a 64-bit result. -/
theorem holds_pair {g : Gang} {t : Ty} {L : Nat} {r : VReg} {x : Int} (ht : t.is64 = true)
    (h : g.vpair L r.toNat = extV t x) : holds g t (.lane L) (.v r) x := by
  simp only [holds, ht, if_true]
  rw [h, toNat_extV_unsigned x (by cases t <;> simp_all [Ty.is64, Ty.width]) (width_le t)]
  cases t <;> simp_all [Ty.is64, Ty.width]

/-- A scalar register after a result. -/
theorem holds_s {g : Gang} {t : Ty} {p : At} {r : SReg} {x : Int} (h : g.sreg p.slice_ r.toNat = extS t x) : holds g t p (.s r) x := by
  have e : holds g t p (.s r) x = (if t.signed then (g.sreg p.slice_ r.toNat).toInt = x.bmod (2 ^ t.width)
    else ((g.sreg p.slice_ r.toNat).toNat : Int) = x % 2 ^ t.width) := by cases p <;> rfl
  rw [e, h]
  have h1 := low_lt t.width x
  have h2 := low_cast t.width x
  cases hs : t.signed
  · have hp : 2 ^ t.width ≤ 2 ^ 64 := Nat.pow_le_pow_right (by decide) (width_le t)
    simp only [Bool.false_eq_true, if_false, extS, hs, Bool.false_and, BitVec.toNat_ofNat]
    rw [Nat.mod_eq_of_lt (by omega), h2]
  · simp only [if_true, extS, hs, Bool.true_and, decide_eq_true_eq]
    rw [bmod_signed x (by cases t <;> simp [Ty.width]) (width_le t)]

/-- Only the result modulo 2^w counts. -/
theorem holds_congr {g : Gang} {t : Ty} {p : At} {d : Dst} {x y : Int} (h : x % 2 ^ t.width = y % 2 ^ t.width) :
    holds g t p d x ↔ holds g t p d y := by
  have hb : x.bmod (2 ^ t.width) = y.bmod (2 ^ t.width) := by
    rw [Int.bmod_def, Int.bmod_def]; push_cast; rw [h]
  cases d with
  | v r =>
    cases p with
    | lane L =>
      simp only [holds]
      by_cases h64 : t.is64 = true
      · have : x % 2 ^ 64 = y % 2 ^ 64 := by cases t <;> simp_all [Ty.is64, Ty.width]
        simp only [h64, if_true, this]
      · simp only [h64, Bool.false_eq_true, if_false, hb, h]
    | slice sl => simp [holds]
  | s r => cases p <;> simp only [holds, hb, h]

theorem regsOnly_holds (t : Ty) (ps : List At) (d : Dst) (f : At → Int) : regsOnly fun g => ∀ p ∈ ps, holds g t p d (f p) := by
  intro g g' hv hs hp h p hm
  have := h p hm
  have e1 : ∀ L n, g'.vreg L n = g.vreg L n := fun L n => by simp only [Gang.vreg, hv]
  have e2 : ∀ L n, g'.sreg L n = g.sreg L n := fun L n => by simp only [Gang.sreg, hs]
  cases d <;> cases p <;> simp only [holds, Gang.vpair, e1, e2] at this ⊢ <;> exact this

/-- Integer results written at every place where the instruction acts. -/
theorem holds_each (c : Cx) (g : Gang) (t : Ty) (d : Dst) (f : At → Int) (hd : ∀ r, d = .v r → t.is64 = true → r.toNat + 1 < 256) :
    ∀ p ∈ c.places d.scalar, holds (g.writeRegs (c.each d.scalar fun p => wrInt t p d (f p))) t p d (f p) := by
  cases d with
  | v r =>
    intro p hp
    simp only [Cx.places, Dst.scalar, Bool.false_eq_true, if_false, List.mem_map] at hp
    obtain ⟨L, hL, rfl⟩ := hp
    have e : (c.each (Dst.v r).scalar fun p => wrInt t p (.v r) (f p)) =
        c.vis.flatMap fun L => wrV t.is64 L r (extV t (f (.lane L))) := by
      simp [Cx.each, Cx.places, Dst.scalar, List.flatMap_map, wrInt]
    rw [e]
    cases h64 : t.is64
    · exact holds_v h64 (vreg_lanes g c.vis (lanesOf_nodup _) false r (fun L => extV t (f (.lane L))) (.inr rfl) hL)
    · exact holds_pair h64 (vpair_lanes g c.vis (lanesOf_nodup _) r (fun L => extV t (f (.lane L))) (hd r rfl h64) hL)
  | s r =>
    intro p hp
    simp only [Cx.places, Dst.scalar, if_true, List.mem_map] at hp
    obtain ⟨sl, hsl, rfl⟩ := hp
    have e : (c.each (Dst.s r).scalar fun p => wrInt t p (.s r) (f p)) =
        c.sls.flatMap fun sl => [RegWrite.s sl r.toNat (extS t (f (.slice sl)))] := by
      simp [Cx.each, Cx.places, Dst.scalar, List.flatMap_map, wrInt, At.slice_]
    rw [e]
    apply holds_s
    obtain ⟨g', h⟩ := sreg_flatMap g c.sls (slicesOf_nodup _) (fun sl => [RegWrite.s sl r.toNat (extS t (f (.slice sl)))])
      (n := r.toNat) hsl fun M _ hM w hw => by
        have := r.isLt
        simp only [List.mem_singleton] at hw
        subst hw
        simp only [RegWrite.isS, beq_eq_false_iff_ne, ne_eq]; omega
    simp only [At.slice_]
    rw [h]
    exact sreg_writeRegs_last g' [] [] sl r.toNat _ (by simp)

theorem mem_vReg {wide : Bool} {r : VReg} {n : Nat} :
    Reg.v n ∈ vReg wide r ↔ n = r.toNat ∨ (wide = true ∧ n = r.toNat + 1) := by
  cases wide <;> simp [vReg, vRange, List.range_succ]

/-- Such writes are of the destination, at the places where the instruction acts. -/
theorem allows_each (c : Cx) (t : Ty) (d : Dst) (f : At → Int) (hw : ∀ r ∈ Dst.regs t.is64 d, r ∈ Sys2Proof.Machine.writes c.W c.i)
    (hd : ∀ r, d = .v r → t.is64 = true → r.toNat + 1 < 256) :
    ∀ w ∈ c.each d.scalar (fun p => wrInt t p d (f p)), c.allows w := by
  intro w hm
  obtain ⟨p, hp, hm⟩ := List.mem_flatMap.mp hm
  cases d with
  | v r =>
    simp only [Cx.places, Dst.scalar, Bool.false_eq_true, if_false, List.mem_map] at hp
    obtain ⟨L, hL, rfl⟩ := hp
    have h0 := hw (.v r.toNat) (mem_vReg.mpr (.inl rfl))
    simp only [wrInt, wrV] at hm
    cases h64 : t.is64
    · simp only [h64, Bool.false_eq_true, if_false, List.mem_singleton] at hm
      subst hm
      exact ⟨hL, h0, r.isLt⟩
    · have h1 := hw (.v (r.toNat + 1)) (mem_vReg.mpr (.inr ⟨h64, rfl⟩))
      simp only [h64, if_true, List.mem_cons, List.not_mem_nil, or_false] at hm
      rcases hm with rfl | rfl
      · exact ⟨hL, h0, r.isLt⟩
      · exact ⟨hL, h1, hd r rfl h64⟩
  | s r =>
    simp only [Cx.places, Dst.scalar, if_true, List.mem_map] at hp
    obtain ⟨sl, hsl, rfl⟩ := hp
    have h0 := hw (.s r.toNat) (by simp [Dst.regs])
    have hm : w = .s sl r.toNat (extS t (f (.slice sl))) := by simpa [wrInt, At.slice_] using hm
    subst hm
    exact ⟨hsl, h0, r.isLt⟩

/-- An integer instruction's effect, from its meaning. -/
theorem puts_each {i : Instr} {s : State} {c : Cx} (h : runs i s = some c) {t : Ty} {d : Dst} {f : At → Int}
    (hw : ∀ r ∈ Dst.regs t.is64 d, r ∈ Sys2Proof.Machine.writes c.W i)
    (he : exec i s = .next (c.after (c.each d.scalar fun p => wrInt t p d (f p)) 0)) :
    c.puts i s 0 fun g => ∀ p ∈ c.places d.scalar, holds g t p d (f p) := by
  have hci := (runs_spec h).2.2.2.1
  have hd : ∀ r, d = .v r → t.is64 = true → r.toNat + 1 < 256 := by
    rintro r rfl h64
    exact named_lt_256 h (List.mem_append.mpr (.inr (hw _ (mem_vReg.mpr (.inr ⟨h64, rfl⟩)))))
  exact puts_of_after h he (allows_each c t d f (by rw [hci]; exact hw) hd) (regsOnly_holds t _ d f) (holds_each c c.g t d f hd)

end Sys2Proof.Machine
end

