-- ==== Sys2Proof/Tests/Slice0.lean ====
section
/-!
SUPPORT. Tests: words written out from the manual's encoding tables, ill-formed terms, single steps with results worked out by hand from the
rules, and for each statement's hypotheses a state that meets them.
-/
namespace Sys2Proof.Tests
open Sys2Proof Sys2Proof.Machine
set_option Elab.async false

/-! ### Words (R58 to R62, R72, R74 and the entries), read by the decoder -/

def readsAll (l : List (List W32 × Instr)) : Bool := l.all fun x => match decode 32 false x.1 with
  | .ok (i, rest) => decide (i = x.2) && rest.isEmpty
  | .error _ => false
def readsBatten (l : List (W32 × Instr)) : Bool := l.all fun x => decide (decodeBatten x.1 = some x.2)


/-- Opcodes 0x00 to 0x0F (R80). -/
def wordsControl : List (List W32 × Instr) := [
  ([0x00000000, 0x00000000], .nop),
  ([0x02030004, 0x00000005], .pb 3 2 5),
  ([0x00008009, 0x00000000, 0xFFFFFFF0], .bra true 0xFFFFFFF0),
  ([0x0600000D, 0x00000000, 0x00000040], .brp false 6 64),
  ([0x0900C011, 0x3043000A, 0x00000020], .brs true .gt .s64 9 10 32),
  ([0x09004012, 0x50300000, 0x00000007, 0x00000080], .brsImm false .le .n32 9 7 128),
  ([0x07008014, 0x00000000], .brx true (.v 7)),
  ([0x00000019, 0x00000000, 0x00001000], .call 4096),
  ([0x1400001C, 0x10000000], .callx 20),
  ([0x00000020, 0x00000000], .ret),
  ([0x21000024, 0x10000000], .regang 33),
  ([0x00000028, 0x00000000], .yield),
  ([0x0000002C, 0x00000000], .exit),
  ([0x00000030, 0x8000C800], .trap 200),
  ([0x00000034, 0x80000100], .brk 1),
  ([0x00000038, 0x80000400], .enter 4),
  ([0x0000003C, 0x8000FF00], .leave 255)]
theorem test_words_control : readsAll wordsControl = true := by decide

/-- Opcodes 0x10 to 0x1F (R87). -/
def wordsInteger : List (List W32 × Instr) := [
  ([0x01FF0040, 0x00000002], .add .n32 (.v 255) (.v 1) (.v 2)),
  ([0x06054044, 0x30030007], .sub .s64 (.s 5) (.s 6) (.s 7)),
  ([0x06050049, 0x40080000, 0x0000004D], .mul .n16 (.v 5) (.v 6) (.imm 77)),
  ([0x0604004C, 0x00020008], .mulhi .n64 (.v 4) (.v 6) (.v 8)),
  ([0x05040050, 0x800B0906], .mad .s8 (.v 4) (.v 5) (.v 6) (.imm 9)),
  ([0x05040054, 0x00010807], .madw .s32 (.v 4) (.v 5) (.v 7) (.v 8)),
  ([0x05043C58, 0x00010006], .div 15 .s32 (.v 4) (.v 5) (.v 6)),
  ([0x0504045C, 0x100A0006], .rem 1 .n8 (.v 4) (.s 5) (.v 6)),
  ([0x05040060, 0x00090006], .min .s16 (.v 4) (.v 5) (.v 6)),
  ([0x05040064, 0x20000006], .max .n32 (.v 4) (.v 5) (.s 6)),
  ([0x05040068, 0x00010000], .abs .s32 (.v 4) (.v 5)),
  ([0x0504406C, 0x10000000], .neg .n32 (.s 4) (.s 5)),
  ([0x05040070, 0x00000706], .addc .n32 4 (.v 5) (.v 6) 7),
  ([0x06040074, 0x00020108], .subb .n64 4 (.v 6) (.v 8) 1),
  ([0x06050078, 0x00020000], .clz .n64 (.v 5) (.v 6)),
  ([0x0705007C, 0x000E0000], .popc .b32 (.v 5) (.v 7))]
theorem test_words_integer : readsAll wordsInteger = true := by decide

/-- Opcodes 0x20 to 0x2F (R88, R94). -/
def wordsLogic : List (List W32 × Instr) := [
  ([0x02010080, 0x000E0003], .and .b32 (.v 1) (.v 2) (.v 3)),
  ([0x02010085, 0x40000000, 0xFFFF0000], .or .n32 (.v 1) (.v 2) (.imm 0xFFFF0000)),
  ([0x02010088, 0x00000003], .xor .n32 (.v 1) (.v 2) (.v 3)),
  ([0x0201008C, 0x00000000], .not .n32 (.v 1) (.v 2)),
  ([0x04020090, 0x00020006], .andn .n64 (.v 2) (.v 4) (.v 6)),
  ([0x04020094, 0x00020007], .shl .n64 (.v 2) (.v 4) (.v 7)),
  ([0x02010098, 0x000A0003], .shr .n8 (.v 1) (.v 2) (.v 3)),
  ([0x0201009C, 0x00010003], .sar .s32 (.v 1) (.v 2) (.v 3)),
  ([0x020100A0, 0x001E0003], .rot true .b32 (.v 1) (.v 2) (.v 3)),
  ([0x020100A4, 0x80010803], .bfx .s32 (.v 1) (.v 2) (.v 3) (.imm 8)),
  ([0x020100A8, 0x00000803], .bfi .n32 (.v 1) (.v 2) (.v 3) (.v 8)),
  ([0x020100AC, 0x000E0000], .brev .b32 (.v 1) (.v 2)),
  ([0x020100B0, 0x00000503], .sel .n32 1 (.v 2) (.v 3) 5),
  ([0x020140B4, 0x10000000], .mov .n32 (.s 1) (.s 2)),
  ([0x000900B9, 0x40010000, 0xFFFFFFFF], .movi .s32 (.v 9) 0xFFFFFFFF),
  ([0x000800BA, 0x40020000, 0x89ABCDEF, 0x01234567], .moviWide .n64 (.v 8) 0x0123456789ABCDEF),
  ([0x0A0800BC, 0x8002030C], .lea .n64 (.v 8) (.v 10) (.v 12) 3)]
theorem test_words_logic : readsAll wordsLogic = true := by decide

/-- Opcodes 0x30 to 0x3A (R95 to R98, R134). -/
def wordsPredicate : List (List W32 × Instr) := [
  ([0x010200C0, 0x00210003], .cmp .lt .s32 2 (.v 1) (.v 3)),
  ([0x010200C4, 0x00640003], .cmpf .un .rne .f32 2 (.v 1) (.v 3)),
  ([0x020100C8, 0x00000003], .pand 1 2 3),
  ([0x020100CC, 0x00000003], .por 1 2 3),
  ([0x020100D0, 0x00000003], .pxor 1 2 3),
  ([0x020100D4, 0x00000000], .pnot 1 2),
  ([0x006400D8, 0x00000000], .ppack 100),
  ([0x640000DC, 0x00000000], .punpk 100),
  ([0x033200E0, 0x00300000], .vote .ballot 50 3),
  ([0x000800E4, 0x80022300], .gsr .n64 (.v 8) 0x23),
  ([0x050000E8, 0x80002000], .ssr 0x20 (.v 5))]
theorem test_words_predicate : readsAll wordsPredicate = true := by decide

/-- Opcodes 0x40 to 0x52 (R128). -/
def wordsFloat : List (List W32 × Instr) := [
  ([0x02010100, 0x04040003], .fadd .rna .f32 1 (.v 2) (.v 3)),
  ([0x04020104, 0x01050006], .fsub .rz .f64 2 (.v 4) (.v 6)),
  ([0x02010109, 0x40060000, 0x00003C00], .fmul .rne .f16 1 (.v 2) (.imm 0x3C00)),
  ([0x0201010C, 0x020D0403], .fma .rp .bf16x2 1 (.v 2) (.v 3) 4),
  ([0x02010110, 0x00140003], .fmin true .rne .f32 1 (.v 2) (.v 3)),
  ([0x02010114, 0x030C0003], .fmax false .rm .f16x2 1 (.v 2) (.v 3)),
  ([0x02010118, 0x00040000], .fabs .rne .f32 1 (.v 2)),
  ([0x0201011C, 0x00070000], .fneg .rne .bf16 1 (.v 2)),
  ([0x02010920, 0x00040003], .fdiv 2 .rne .f32 1 (.v 2) (.v 3)),
  ([0x02010D24, 0x00040000], .fsqrt 3 .rne .f32 1 (.v 2)),
  ([0x02010128, 0x10040000], .frcp 0 .rne .f32 1 (.s 2)),
  ([0x0201012C, 0x01040000], .frsq 0 .rz .f32 1 (.v 2)),
  ([0x02011130, 0x00040000], .fex2 4 .rne .f32 1 (.v 2)),
  ([0x04021134, 0x00050000], .flg2 4 .rne .f64 2 (.v 4)),
  ([0x02010138, 0x03040000], .frnd .rm .f32 1 (.v 2)),
  ([0x0201013C, 0x00040000], .fclass .rne .f32 1 (.v 2)),
  ([0x02010140, 0x000C0403], .fdot2 .rne .f16x2 1 (.v 2) (.v 3) 4),
  ([0x02010144, 0x00040003], .fscale .rne .f32 1 (.v 2) (.v 3)),
  ([0x02010148, 0x00040003], .fsgn .rne .f32 1 (.v 2) (.v 3))]
theorem test_words_float : readsAll wordsFloat = true := by decide

/-- Opcodes 0x60 to 0x66 (R136 to R142). -/
def wordsConvert : List (List W32 × Instr) := [
  ([0x02030180, 0x01410000], .cvt .rz .f32 .s32 3 (.v 2)),
  ([0x02030184, 0x00140004], .cvt8 .inf .rne .f32 3 (.v 2) (.v 4)),
  ([0x02030188, 0x80160700], .cvt4 (.dec 7) .rne .f16 3 (.v 2)),
  ([0x0203018C, 0x002E0504], .pk (.b (.v 4) (.v 5)) 3 (.v 2)),
  ([0x02030190, 0x801B0300], .upk (.b true 3) 3 (.v 2)),
  ([0x02030194, 0x80140700], .bscl (.fit 7) .f32 3 (.v 2)),
  ([0x02030199, 0x40010000, 0x0000000C], .sext .s32 3 (.v 2) (.imm 12))]
theorem test_words_convert : readsAll wordsConvert = true := by decide

/-- Opcodes 0x70 to 0x79 (R101, R143 to R147). -/
def wordsCrossLane : List (List W32 × Instr) := [
  ([0x020101C0, 0x00000003], .shfl .n32 1 2 (.v 3)),
  ([0x020101C4, 0x20000003], .shup .n32 1 2 (.s 3)),
  ([0x040201C9, 0x40020000, 0x00000001], .shdn .n64 2 4 (.imm 1)),
  ([0x020101CD, 0x400E0000, 0x00000010], .shxor .b32 1 2 (.imm 16)),
  ([0x020101D1, 0x40000000, 0x00000000], .bcast .n32 1 2 (.imm 0)),
  ([0x020109D4, 0x00110000], .redg 2 .min .rne .s32 1 2),
  ([0x020101D8, 0x02840000], .scang 0 true .add .rp .f32 1 2),
  ([0x020405DC, 0x00070003], .mxix 1 .bf16 4 2 (.v 3)),
  ([0x020401E0, 0x00000000], .sieve 0 4 2),
  ([0x000401E4, 0x00000000], .elect 4)]
theorem test_words_cross_lane : readsAll wordsCrossLane = true := by decide

/-- Opcodes 0x80 to 0x8D and 0xA0 to 0xA2 (R164, R169 to R171, R178, R248). -/
def wordsMemory : List (List W32 × Instr) := [
  ([0x06040601, 0x45020000, 0x00000010], .ld 1 .acq .die .n64 4 (.v 6) (.imm 16)),
  ([0x0A000204, 0x1E000704], .st .rel .sys .n32 (.s 10) (.v 4) (.v 7)),
  ([0x06040208, 0x000B0005], .lds 0 .rlx .group .s8 4 (.v 6) (.v 5)),
  ([0x0600020D, 0xC000FF00, 0x00000008], .sts .rlx .group .n32 (.v 6) (.imm 8) (.imm 255)),
  ([0x06040211, 0x40000000, 0x00000004], .ldl 0 .rlx .group .n32 4 (.v 6) (.imm 4)),
  ([0x06000215, 0x40000900, 0x00000004], .stl .rlx .group .n32 (.v 6) (.imm 4) (.v 9)),
  ([0x08144219, 0x50020000, 0x00000020], .sld 0 .rlx .group .n64 20 8 (.imm 32)),
  ([0x0800421D, 0x50020A00, 0x00000060], .sst .rlx .group .n64 8 (.imm 96) (.s 10)),
  ([0x08000221, 0x58000000, 0x00000040], .pf .dev (.s 8) (.imm 64)),
  ([0x08100225, 0xD0000800, 0x00000000], .ldm 0 .rlx .group 16 (.s 8) (.imm 0) 8),
  ([0x08200228, 0x30001009], .stm .rlx .group (.s 8) (.s 9) 16 32),
  ([0x0301022D, 0x40000700, 0x00000005], .sti .rlx .group 1 (.v 3) (.imm 5) 7),
  ([0x00000230, 0x0F000000], .fence .ar .sys),
  ([0x00004234, 0x80400300], .waitc .net (.imm 3)),
  ([0x08060A80, 0x10700401], .atom 2 .cas .rlx .group .n32 (.v 6) (.s 8) (.v 1) (.v 4)),
  ([0x13004285, 0x56000F00, 0x00000000], .red true .add .rel .die .n32 (.s 19) (.imm 0) (.s 15)),
  ([0x0B0D4289, 0x50000C00, 0x00000064], .pvop .add .rlx .group .n32 13 11 (.imm 100) (.s 12))]
theorem test_words_memory : readsAll wordsMemory = true := by decide

/-- Opcodes 0xB0 to 0xB7 (R239, R240, R252). -/
def wordsSync : List (List W32 × Instr) := [
  ([0x000002C0, 0x80000F00], .bar 15 none),
  ([0x001442C4, 0xA0100209], .arrive 20 2 (some 9)),
  ([0x140002C8, 0x90000200], .bwait 2 20),
  ([0x0A1442CC, 0xB0101009], .copy .gs 20 10 9 (.imm 16)),
  ([0x140202D0, 0x10000000], .wtl 2 20),
  ([0x150302D4, 0x10000000], .tst 3 21),
  ([0x160402D8, 0x10000000], .cancel 4 22),
  ([0x000002DC, 0x00000000], .trig)]
theorem test_words_sync : readsAll wordsSync = true := by decide

/-- Opcodes 0xC0 to 0xC4 (13, 15). -/
def wordsMatrix : List (List W32 × Instr) := [
  ([0x00200300, 0x00060000], .mmx .f16 32 0),
  ([0x00200300, 0x2010000C], .mmxNar 32 0 12),
  ([0x10031704, 0x80000700], .bpub 5 3 16 7),
  ([0x00140308, 0x00000000], .mfence 20),
  ([0x00E0030C, 0x00000000], .mzero 224),
  ([0x20000310, 0x000E0000], .mtr .b32 0 32)]
theorem test_words_matrix : readsAll wordsMatrix = true := by decide

/-- Opcodes 0xD0 to 0xD6 (R335, R200). -/
def wordsLaunchNetwork : List (List W32 × Instr) := [
  ([0x08144340, 0x10000000], .launch 20 8),
  ([0x14020344, 0x10000000], .gwait 2 20),
  ([0x08010348, 0x30000009], .gcond 1 8 9),
  ([0x0814434D, 0x3E000A09, 0x80000100], .nput true .rel .sys 20 8 9 10 256),
  ([0x08144750, 0x30020009], .nget 1 .rlx .group .n64 20 8 9),
  ([0x08144354, 0xB0620509], .natm 0 .exch .rlx .group .n64 20 8 9 (.imm 5)),
  ([0x0B104358, 0x10240000], .ncoll .agath .rlx .group .f32 16 11)]
theorem test_words_launch_network : readsAll wordsLaunchNetwork = true := by decide

/-- Opcodes 0xE0 to 0xE9 (19). -/
def wordsSystem : List (List W32 × Instr) := [
  ([0x00000380, 0x00000000], .rft),
  ([0x05144385, 0x50120000, 0x00000010], .psr .n64 (.s 20) 0x010 (.s 5)),
  ([0x14004389, 0x50020000, 0x00003004], .pwr 4 (.imm 3) 20),
  ([0x0814438C, 0x10000000], .tlbgen 20 8),
  ([0x08004390, 0x10000000], .sqz 8),
  ([0x08004394, 0x10000000], .xpand 8),
  ([0x08144398, 0x10000000], .imgsv 20 8),
  ([0x0814439C, 0x10000000], .imgld 20 8),
  ([0x081443A0, 0x30000009], .digcGang 20 8 9),
  ([0x083E43A0, 0x10100000], .digcTask 62 8),
  ([0x083D43A4, 0x10000000], .wfe 61 8)]
theorem test_words_system : readsAll wordsSystem = true := by decide

/-- Batten instructions (R339). -/
def wordsBatten : List (W32 × Instr) := [
  (0x00000080, .battenHalt 0x80),
  (0x04000000, .battenDone),
  (0x0981FFFF, .battenLi 3 0x1FFFF),
  (0x0D800007, .battenLdp 3 7),
  (0x1180001F, .battenLdq 3 31),
  (0x14300002, .battenStq 3 2),
  (0x18A10008, .battenLdw 1 2 1 8),
  (0x1C260018, .battenStw 2 3 0 24),
  (0x20A60000, .battenAdd 1 2 3),
  (0x24A60000, .battenSub 1 2 3),
  (0x28A60000, .battenAnd 1 2 3),
  (0x2CA60000, .battenOr 1 2 3),
  (0x30A60000, .battenXor 1 2 3),
  (0x34A60000, .battenShl 1 2 3),
  (0x38A60000, .battenShr 1 2 3),
  (0x3FE00005, .battenAddi 7 6 5),
  (0x40140003, .battenBeq 1 2 3),
  (0x441403FF, .battenBne 1 2 1023),
  (0x48000142, .battenRpt 5 2),
  (0x4C400000, .battenSubm 4),
  (0x504A0000, .battenSgr 4 5),
  (0x544A0000, .battenWgeq 4 5),
  (0x58000000, .battenFnc),
  (0x5C4A0001, .battenSig 4 5 1)]
theorem test_words_batten : readsBatten wordsBatten = true := by decide

/-! ### Ill-formed terms, one for each check of `WellFormed` -/

def refusesAll (l : List Instr) : Bool := l.all fun i => !WellFormed 32 i

/-- Branch offsets (R57), the length of a predicate block (R65), types (R62). -/
theorem test_illformed_control : refusesAll [
  .bra false 2, .brp false 0 1, .call 3, .brs false .eq .n8 1 2 4, .brs false .eq .n32 1 2 6, .brsImm false .eq .f32 1 2 4,
  .brsImm false .eq .n32 1 2 5, .pb 0 1 4] = true := by decide
/-- Types, odd pairs, and scalar destinations with vector sources (R60, R62, R87 to R95). -/
theorem test_illformed_integer : refusesAll [
  .add .f32 (.v 1) (.v 2) (.v 3), .add .n64 (.v 1) (.v 2) (.v 4), .sub .n64 (.v 2) (.v 3) (.v 4), .mul .n64 (.v 2) (.v 4) (.v 5),
  .min .n32 (.s 1) (.v 2) (.s 3), .max .n32 (.s 1) (.s 2) (.v 3), .div 0 .b32 (.v 1) (.v 2) (.v 3), .mulhi .n16 (.v 1) (.v 2) (.v 3),
  .mad .n64 (.v 2) (.v 4) (.v 6) (.v 7), .mad .n32 (.v 1) (.v 2) (.v 3) (.s 4), .madw .n64 (.v 2) (.v 4) (.v 6) (.v 8),
  .madw .n32 (.v 1) (.v 2) (.v 3) (.v 4), .madw .n32 (.v 2) (.v 2) (.v 3) (.v 5), .abs .n32 (.v 1) (.v 2), .neg .b32 (.v 1) (.v 2),
  .addc .s32 1 (.v 2) (.v 3) 0, .clz .n64 (.v 1) (.v 3), .popc .n16 (.v 1) (.v 2)] = true := by decide
theorem test_illformed_logic : refusesAll [
  .and .s32 (.v 1) (.v 2) (.v 3), .not .n8 (.v 1) (.v 2), .shl .n64 (.v 1) (.v 2) (.v 3), .rot false .s32 (.v 1) (.v 2) (.v 3),
  .bfx .b32 (.v 1) (.v 2) (.v 3) (.imm 1), .bfi .n32 (.v 1) (.v 2) (.v 3) (.s 1), .sel .s32 1 (.v 2) (.v 3) 0,
  .movi .f64 (.v 2) 0, .movi .n64 (.v 1) 0, .moviWide .n32 (.v 2) 0, .moviWide .f64 (.v 3) 0, .lea .s64 (.v 2) (.v 4) (.v 5) 0,
  .cmp .eq .b32 0 (.v 1) (.v 2), .cmp .eq .n64 0 (.v 1) (.v 2), .vote .all 8 0, .gsr .s32 (.v 1) 0, .gsr .n64 (.v 1) 0, .gsr .n32 (.v 1) 0x0C,
  .ssr 0x30 (.v 1)] = true := by decide
/-- Floating types, pairs and rounding codes (R128, R134 to R143). -/
theorem test_illformed_float : refusesAll [
  .fadd .rne .n32 1 (.v 2) (.v 3), .fma .rne .f64 2 (.v 4) (.v 6) 9, .fabs .rne .f64 1 (.v 2), .fclass .rne .b32 1 (.v 2),
  .fdot2 .rne .f16 1 (.v 2) (.v 3) 4, .fscale .rne .f64 2 (.v 3) (.v 4), .cmpf .eq .rne .f16x2 0 (.v 1) (.v 2), .cvt .rne .f16x2 .f32 1 (.v 2),
  .cvt .rne .f32 .b32 1 (.v 2), .cvt .rne .f32 .f32 1 (.v 2), .cvt .rne .f32 .f64 1 (.v 2), .cvt .rz .n32 .s8 1 (.v 2),
  .cvt8 .sat .rne .f64 1 (.v 2) (.v 3), .cvt4 (.dec 0) .rne .f64 1 (.v 2), .pk (.cvt .rne .f16 (.v 1)) 1 (.v 2),
  .pk (.b (.v 1) (.s 2)) 1 (.v 2), .upk (.cvt .rne .f32 0) 1 (.v 2), .bscl (.fit 2) .f64 1 (.v 2), .sext .n32 1 (.v 2) (.v 3),
  .shfl .s32 1 2 (.v 3), .shfl .n64 1 2 (.v 3), .shup .n32 1 2 (.v 3), .redg 0 .and .rne .f16x2 1 2, .redg 0 .add .rz .n32 1 2,
  .scang 0 false .add .rne .f64 1 2, .mxix 0 .f32 2 3 (.v 4), .mxix 0 .f16 3 4 (.v 5)] = true := by decide
/-- Orders (R63), address pairs (R104), ranges (R248), minors' types (R172, R178), `cas` operands (R171). -/
theorem test_illformed_memory : refusesAll [
  .ld 0 .rel .group .n32 1 (.s 2) (.imm 0), .ld 0 .rlx .group .n64 1 (.s 2) (.imm 0), .ld 0 .rlx .group .n32 1 (.v 3) (.imm 0),
  .st .acq .group .n32 (.s 2) (.imm 0) (.v 1), .st .rlx .group .n32 (.s 2) (.imm 0) (.s 1), .st .rlx .group .f64 (.s 2) (.imm 0) (.v 1),
  .lds 0 .ar .group .n32 1 (.v 2) (.imm 0), .sts .acq .group .n32 (.v 2) (.imm 0) (.v 1), .sld 0 .rlx .group .n64 1 2 (.v 3),
  .sst .rlx .group .n64 1 (.imm 0) (.v 3), .sst .rlx .group .n64 1 (.v 3) (.s 3), .pf .group (.v 3) (.imm 0),
  .ldm 0 .rlx .group 1 (.s 2) (.imm 0) 0, .ldm 0 .rlx .group 1 (.s 2) (.imm 0) 33, .ldm 0 .rlx .group 250 (.s 2) (.imm 0) 8,
  .stm .rlx .group (.s 2) (.imm 0) 230 32, .sti .acq .group 0 (.v 1) (.v 2) 3, .fence .rlx .sys,
  .atom 0 .add .rlx .group .n16 (.v 1) (.s 2) (.imm 0) (.v 3), .atom 0 .mxi .rlx .group .n32 (.v 1) (.s 2) (.imm 0) (.v 3),
  .atom 0 .cas .rlx .group .n32 (.v 1) (.s 2) (.imm 0) (.imm 3), .atom 0 .cas .rlx .group .n32 (.v 1) (.s 2) (.imm 0) (.v 255),
  .atom 0 .add .rlx .group .n32 (.s 1) (.v 2) (.imm 0) (.s 3), .red false .add .acq .group .n32 (.s 2) (.imm 0) (.v 3),
  .red true .cas .rlx .group .n32 (.s 2) (.imm 0) (.s 63), .red true .add .rlx .group .n32 (.v 2) (.imm 0) (.s 3),
  .red false .add .rlx .group .n32 (.s 2) (.imm 0) (.s 3), .pvop .mul .acq .group .n32 1 2 (.s 3) (.s 4),
  .pvop .mov .rlx .group .f32 1 2 (.s 3) (.s 4), .pvop .add .rlx .group .n32 1 2 (.v 3) (.s 4), .pvop .add .rlx .group .n32 1 2 (.s 3) (.v 4),
  .copy .gg 1 2 3 (.v 4)] = true := by decide
/-- Matrix ranges (R206, R243 to R247), network and privileged operands (R200, R297, R298), batten immediates (R339). -/
theorem test_illformed_system : refusesAll [
  .mmx .f32 0 64, .mmx .f16 225 0, .mmx .f16 0 241, .mmx .f16 0 31, .mmx .f64 1 64, .mmxNar 225 0 1, .mmxNar 0 241 1, .mmxNar 16 40 1,
  .bpub 0 0 253 0, .mzero 225, .mtr .n64 0 32, .mtr .n32 230 0, .mtr .n32 0 230, .nput false .acq .sys 1 2 3 4 8,
  .nget 0 .rel .sys .n64 1 2 3, .nget 0 .rlx .sys .s64 1 2 3, .nget 0 .rlx .sys .n64 63 2 3, .natm 0 .add .rlx .sys .f16x2 1 2 3 (.s 4),
  .natm 0 .add .rlx .sys .n64 1 2 3 (.v 4), .natm 0 .add .rlx .sys .n64 63 2 3 (.s 4), .ncoll .pbar .rlx .sys .n64 1 2,
  .ncoll .ared .rlx .sys .f16x2 1 2, .psr .n32 (.s 1) 0 (.imm 0), .psr .n64 (.v 1) 0 (.imm 0), .psr .n64 (.s 1) 0x0A (.imm 0),
  .psr .n64 (.s 1) 0 (.imm 64), .psr .n64 (.s 1) 6 (.imm 1), .psr .n64 (.s 1) 6 (.s 1), .pwr 7 (.imm 0) 1, .pwr 5 (.imm 0) 1, .digcGang 63 1 2,
  .digcTask 63 1, .wfe 62 1, .battenHalt 0x7F, .battenLdq 0 32, .battenStq 0 3, .battenBeq 0 0 0, .battenBne 0 0 1024] = true := by decide

/-- Words with a value that a form does not list: a type of `pf` (R164), a function of `sext` (R135), an unused field of `nop` (R73). -/
theorem test_refused_words :
    let no (l : List W32) (n : Nat) : Bool := match decode 32 false l with
      | .error e => e.subcause == n
      | .ok _ => false
    no [0x08000221, 0x58010000, 0x00000040] 3 ∧ no [0x02030199, 0x40110000, 0x0000000C] 3 ∧ no [0x00000000, 0x00000001] 4 := by decide

/-! ### A small state: one gang of two live lanes in slice 0, of context 0, whose tables map 1 GiB for reading, writing and fetching -/

/-- Root and second-level tables of contexts 0 and 1, and of context 0's plate region (R343 to R346), byte by byte: pointers 0x40001,
0x80001 and 0x40001 at 0, 8 and 16; leaf 0x40000183 at 0x40008; pointer 0xC0001 at 0x80000; leaf 0x83 at 0xC0000. -/
def tables : List Host.Cell :=
  [(0, 0x01), (2, 0x04), (8, 0x01), (10, 0x08), (16, 0x01), (18, 0x04), (0x40008, 0x83), (0x40009, 0x01), (0x4000B, 0x40), (0x80000, 0x01),
   (0x80002, 0x0C), (0xC0000, 0x83)]

/-- v1 = 7, −5; v2 = 3, 2; v4:v5 = 2^32 + 1, 0; v6 = −2^31, v7 = −1; p1 true in lane 0; s8, s9 data addresses, s10 = 64, s11 = 1, s12 a plate
address, s21 = 2^32 − 1, s61 a code address, s62 and s63 as at dispatch (R293). -/
def gang0 : Gang :=
  { run := some { pc := BitVec.ofNat 64 fetchVa, mask := 3 }, live := 3, held := [0, 1, 2, 3, 4, 5, 6, 7],
    v := [(1, 7), (2, 3), (4, 1), (5, 1), (6, 0x80000000), (7, 0xFFFFFFFF), (257, 0xFFFFFFFB), (258, 2)],
    s := [(8, 0x40001000), (9, 0x40002000), (10, 64), (11, 1), (12, 0x200000000000), (21, 0xFFFFFFFF), (61, 0x40000040), (62, 0x40100000),
          (63, 0x40200000)],
    p := [(1, true)], slim := [(0, 0x400FF000)] }

/-- A launch of one gang of 32 lanes, 256 registers, 2,048 bytes of lane store, 1,024 of scratch, 2,048 of stack a slice, and two leases. -/
def desc0 : List W64 := [BitVec.ofNat 64 fetchVa, 0x80000000019F, 0x80000000400, 0x100000001, 1] ++ List.replicate 22 0 ++ [2] ++
  List.replicate 16 0 ++ [0x40000000, 0x40000000, 0x200000000000, 0x200000] ++ List.replicate 32 0
def grid0 : Grid := { fetchGrid with d := desc0, nx := 1, elems := [{}] }

def s0 : State :=
  { mem := tables, gangs := [(0, gang0)], groups := [(0, { st := .resident, img := 0x40300000, stk := 0x40400000 })],
    grids := [(0, grid0)], ctxs := [(0, { tabs := tables })], cur := ⟨0, 0⟩ }

/-- s0 with its gang changed. -/
def s0g (f : Gang → Gang) : State := { s0 with gangs := [(0, f gang0)] }
/-- s0 with the running split changed. -/
def s0x (f : Split → Split) : State := s0g fun g => { g with run := g.run.map f }
/-- s0 with words of code at its pc. -/
def s0m (w : Nat) : State := { s0 with mem := wrLE tables 0x40000000 w 32, agenda := [.issue 0 0] }

/-- The instruction comes to its own effect in a state, in a context of which p holds. -/
def comes (i : Instr) (s : State) (p : Cx → Bool := fun _ => true) : Bool := (runs i s).any p
def allCome (l : List Instr) (s : State) (p : Instr → Cx → Bool := fun _ _ => true) : Bool := l.all fun i => comes i s (p i)
/-- The step or instruction answers a next state of which p holds. -/
def nextIs (o : Out) (p : State → Bool := fun _ => true) : Bool := match o with
  | .next t => p t
  | _ => false
def okIs {ε α : Type} (x : Except ε α) (p : α → Bool := fun _ => true) : Bool := match x with
  | .ok y => p y
  | .error _ => false

/-- Every gang instruction written out above completes, waits, traps or goes into flight by its own effect in s0 (`bwait` needs its phase
passed: s21 is no phase of a fresh unit). -/
theorem test_all_come : (wordsControl ++ wordsInteger ++ wordsLogic ++ wordsPredicate ++ wordsFloat ++ wordsConvert ++ wordsCrossLane ++
    wordsMemory ++ wordsSync ++ wordsMatrix ++ wordsLaunchNetwork ++ wordsSystem).all (fun x =>
      comes (match x.2 with
        | .bwait k _ => .bwait k 21
        | i => i) s0) = true := by decide +kernel


/-! ### States that meet the hypotheses of the statements

`wit_<statement>`: for each clause with hypotheses, values at which all of them hold. -/

theorem wit_BattenRoundTrip : encodeBatten (.battenAdd 1 2 3) = some 0x20A60000 ∧ decodeBatten 0x20A60000 = some (.battenAdd 1 2 3) := by
  decide +kernel
theorem wit_GangRoundTrip : ∀ b, (fieldsOf (.add .n32 (.v 8) (.v 8) (.v 12))).isSome = true ∧
    WellFormed 32 (.add .n32 (.v 8) (.v 8) (.v 12)) = true ∧ (b && slotIllegal (.add .n32 (.v 8) (.v 8) (.v 12))) = false := by decide +kernel

/-- At the block's last parcel: a pad, then a word of LEN 3 that is no pad, then `nop` in the next block. -/
def padAt : State := { s0 with mem := wrLE tables 0x4000001C 0xFFFFFFFF 4 }
theorem wit_PadParcels :
    (okIs (padAt.xlate 0 true .fetch 0x4000001C) fun l => padAt.parcels l 1 == [0xFFFFFFFF]) ∧
    (okIs ((s0m 0xFFFFFFFB).xlate 0 true .fetch 0x40000000) fun l => (s0m 0xFFFFFFFB).parcels l 1 == [0xFFFFFFFB]) ∧
    (let s := { padAt with gangs := [(0, { gang0 with run := some { pc := 0x4000001C, mask := 3 } })] }
     ((s.settle ⟨0, 0⟩).gang ⟨0, 0⟩).trapReq = none ∧ ({ s.settle ⟨0, 0⟩ with cur := ⟨0, 0⟩ }.noticeReady ⟨0, 0⟩) = false ∧
     { s.settle ⟨0, 0⟩ with cur := ⟨0, 0⟩ }.nextInstr ⟨0, 0⟩ { pc := 0x4000001C, mask := 3 } = .ok 0x40000020 .nop) := by
  decide +kernel
/-- The longest instruction that fits at the end of a block, and the shortest that does not. -/
theorem wit_FetchBoundary :
    (okIs (s0.xlate 0 true .fetch 0x4000001C) fun l => s0.parcels l 1 == [0]) ∧ 32 - 0x4000001C % 32 < 4 * (0 % 4 + 2) ∧
    s0.fetchAt 0 32 false 1 0x40000018 = .ok 0x40000018 .nop := by decide +kernel

theorem wit_StepTakesATurn : State.reset.agenda = [] ∧ (s0m 0).agenda = .issue 0 0 :: [] ∧ Instr.isEvent .tsync = true := by decide +kernel
/-- A quadrant's turn at `add v8, v8, v12`. -/
def sAdd : State := s0m 0x0000000C08080040
theorem wit_StepRunsGangInstruction :
    let s1 := ({ sAdd with agenda := [], tick := sAdd.tick + 1 }.rotateCore 0).chooseDet 0
    let naps := (s1.gangsOf 0).filter fun q => q.gang % 4 == 0 && !(s1.gridRef q).det && (s1.gang q).napping
    let s2 := (s1.wake (naps.filter fun q => q != ⟨0, 0⟩) .none).settle ⟨0, 0⟩
    s1.pickGang 0 0 = some ⟨0, 0⟩ ∧ (s2.gang ⟨0, 0⟩).trapReq = none ∧ { s2 with cur := ⟨0, 0⟩ }.noticeReady ⟨0, 0⟩ = false ∧
    (s2.gang ⟨0, 0⟩).run.map Split.pc = some 0x40000000 ∧
    (okIs (s2.xlate 0 true .fetch 0x40000000) fun l => s2.parcels l 1 == [0x08080040] && s2.parcels l 2 == [0x08080040, 0x0000000C]) ∧
    encode (.add .n32 (.v 8) (.v 8) (.v 12)) = [0x08080040, 0x0000000C] ∧
    (okIs (decode 32 false [0x08080040, 0x0000000C]) fun x => decide (x = (.add .n32 (.v 8) (.v 8) (.v 12), []))) := by decide +kernel
/-- A queue at work on a batten instruction, on a standard packet, and with no packet; one whose context is not its partition's. -/
theorem wit_StepRunsBattenInstruction :
    (let s := State.reset.withFetchWord 32 0x20A60000
     s.agenda = [.queue 0 0] ∧ s.ownsCtx 0 (s.queue 0).ctx = true ∧ State.reset.ownsCtx 0 1 = false ∧ (s.queue 0).it = some {} ∧ (s.queue 0).working = true ∧
      decodeBatten ((s.queue 0).prog.getD 0 0) = some (.battenAdd 1 2 3)) ∧
    (let q : Queue := { qst := 2, it := some { std := true, words := [0x104, 0x40001000, 5] } }
     q.working = true ∧ stdPacket [0x104, 0x40001000, 5] = some (.waitv 0x40001000 5)) ∧ ({} : Queue).it = none := by decide +kernel

theorem wit_StepKeepsMemory : State.ok sAdd ∧ nextIs (step sAdd) := ⟨⟨by decide +kernel, by decide +kernel⟩, by decide +kernel⟩
theorem wit_StepKeepsRanges : State.legal s0 ∧ nextIs (step sAdd) := ⟨by unfold State.legal; decide +kernel, by decide +kernel⟩
theorem wit_ResetValues : 0x048 ∈ [0x000, 0x001, 0x002, 0x003, 0x004, 0x005, 0x010, 0x048] ∧ (31 : Nat) < 32 := by decide +kernel

/-! #### Integer, logic, predicates -/

theorem wit_IntegerResults : allCome [.add .n32 (.s 8) (.s 8) (.imm 5), .sub .s64 (.v 8) (.v 4) (.v 6), .mul .n16 (.v 8) (.v 1) (.v 2),
    .mulhi .s32 (.v 8) (.v 6) (.v 7), .mad .s8 (.v 8) (.v 1) (.v 2) (.imm 9), .madw .s32 (.v 8) (.v 1) (.v 2) (.v 4),
    .min .s32 (.v 8) (.v 1) (.v 2), .max .n32 (.v 8) (.v 1) (.v 2), .abs .s32 (.v 8) (.v 6), .neg .s8 (.v 8) (.v 1),
    .clz .b32 (.v 8) (.v 1), .popc .n64 (.v 8) (.v 4), .and .b32 (.v 8) (.v 1) (.v 2), .or .n64 (.v 8) (.v 4) (.v 6),
    .xor .n32 (.v 8) (.v 1) (.v 2), .not .n32 (.v 8) (.v 1), .andn .n32 (.v 8) (.v 1) (.v 2), .brev .b32 (.v 8) (.v 1),
    .mov .n32 (.s 8) (.s 9), .movi .s32 (.v 8) 0xFFFFFFFF, .moviWide .n64 (.v 8) 1, .lea .n64 (.v 8) (.s 8) (.v 1) 2] s0
    (fun i c => (intResult c i).isSome) = true := by decide +kernel
theorem wit_IntegerResults_counts : (0 < 2 ^ 32 ∧ 2 ^ 32 - 1 < 2 ^ 32 ∧ 1 ≠ 0) ∧ (31 : Nat) < 32 := by decide +kernel
/-- Operands of the exponential and the logarithm, as numbers: 1, 65,536 and its negative, 1/2, 4 = 2^2, 3. -/
theorem wit_ExponentialAndLogarithm :
    let at_ (a : Nat) (q : Rat) : Bool := match fval .f32 a with
      | .num n p e => (FV.num n p e).rat == q
      | _ => false
    Ty.floating .f32 = true ∧ at_ 0x3F800000 1 ∧ at_ 0x47800000 (2 ^ 16) ∧ at_ 0xC7800000 (-2 ^ 16) ∧ at_ 0x3F000000 (1 / 2) ∧ at_ 0x40800000 4 ∧
    at_ 0x40400000 3 := by decide +kernel
theorem wit_WordArithmetic : allCome [.add .n32 (.v 8) (.v 1) (.v 2), .sub .n32 (.v 8) (.v 1) (.v 2), .mul .n32 (.v 8) (.v 1) (.v 2),
    .and .n32 (.v 8) (.v 1) (.v 2), .or .n32 (.v 8) (.v 1) (.v 2), .xor .n32 (.v 8) (.v 1) (.v 2), .andn .n32 (.v 8) (.v 1) (.v 2),
    .not .n32 (.v 8) (.v 1), .neg .n32 (.v 8) (.v 1), .mov .n32 (.v 8) (.v 1)] s0 (fun _ c => c.vis == [0, 1]) = true := by decide +kernel
theorem wit_CarryChain : allCome [.addc .n32 8 (.v 7) (.v 1) 1, .subb .n64 8 (.v 4) (.v 6) 1] s0 = true := by decide +kernel
/-- A divisor of 0, the one overflow, and an ordinary quotient; vector and scalar. -/
theorem wit_Division :
    comes (.div 0 .s32 (.v 8) (.v 1) (.v 3)) s0 (fun c => c.opB .s32 (.lane 0) (.v 3) == 0) ∧
    comes (.rem 0 .s32 (.v 8) (.v 6) (.v 7)) s0 (fun c => c.opA .s32 (.lane 0) (.v 6) == -2 ^ 31 && c.opB .s32 (.lane 0) (.v 7) == -1) ∧
    comes (.div 3 .n32 (.v 8) (.v 1) (.v 2)) s0 (fun c => c.opB .n32 (.lane 0) (.v 2) == 3) ∧
    comes (.rem 0 .n64 (.s 20) (.s 8) (.s 10)) s0 := by decide +kernel
/-- Counts one below the width, at it, and 255. -/
theorem wit_Shifts : [.imm 31, .imm 32, .imm 255].all (fun b : SrcB =>
    allCome [.shl .n32 (.v 8) (.v 1) b, .shr .s32 (.v 8) (.v 1) b, .sar .s32 (.v 8) (.v 6) b, .rot false .b32 (.v 8) (.v 1) b,
      .rot true .n32 (.v 8) (.v 1) b] s0) ∧
    comes (.shl .n32 (.v 8) (.v 1) (.imm 31)) s0 (fun c => c.count (.lane 0) (.imm 31) == 31) ∧
    comes (.sar .s8 (.s 20) (.s 8) (.s 10)) s0 (fun c => c.count (.slice 0) (.s 10) == 64) := by decide +kernel
/-- Fields that end at the width, start at it, and are empty. -/
theorem wit_BitFields : [((.imm 28 : SrcB), (.imm 8 : SrcC)), (.imm 32, .imm 8), (.imm 4, .imm 0)].all (fun x =>
    allCome [.bfx .s32 (.v 8) (.v 1) x.1 x.2, .bfi .n32 (.v 8) (.v 1) x.1 x.2, .bfx .n64 (.s 20) (.s 8) x.1 x.2] s0) = true := by decide +kernel
theorem wit_SelectAndExtend : comes (.sel .n32 8 (.v 1) (.v 2) 1) s0 ∧
    [.imm 0, .imm 31, .imm 32].all (fun b : SrcB => comes (.sext .s32 8 (.v 1) b) s0) := by decide +kernel
theorem wit_Predicates : allCome [.cmp .eq .n32 2 (.v 1) (.v 2), .cmp .ne .s64 2 (.v 4) (.v 6), .cmp .lt .s8 2 (.v 1) (.v 2),
    .cmp .le .n32 2 (.v 1) (.imm 7), .cmp .gt .n16 2 (.v 1) (.s 10), .cmp .ge .s32 2 (.s 10) (.v 1), .pand 1 1 2, .por 0 1 2, .pxor 2 1 1,
    .pnot 1 1, .ppack 8, .punpk 1] s0 = true := by decide +kernel
theorem wit_Votes : allCome [.vote .all 0 1, .vote .any 0 1, .vote .uni 0 1, .vote .ballot 8 1] s0 = true := by decide +kernel


/-! #### Floating point -/

/-- v1 = 1.0, v2 = −1.0, v3 = 0, v4 an sNaN, v5 a quiet NaN (f32); v6 two halves 1.0; v8:v9 = 1.0 (f64). -/
def sF : State := s0g fun g => { g with v := [(1, 0x3F800000), (2, 0xBF800000), (4, 0x7F800001), (5, 0x7FC00000), (6, 0x3C003C00),
  (9, 0x3FF00000)] }
theorem wit_FloatResults : allCome [.fadd .rne .f32 10 (.v 1) (.v 2), .fsub .rz .f64 10 (.v 8) (.imm 0), .fmul .rp .f16x2 10 (.v 6) (.v 6),
    .fma .rm .f32 10 (.v 1) (.v 2) 3, .fmin false .rne .f32 10 (.v 4) (.v 5), .fmax true .rne .f16 10 (.v 6) (.v 3), .frnd .rna .f32 10 (.v 1),
    .fclass .rne .f32 10 (.v 4), .fscale .rne .f32 10 (.v 1) (.imm 3), .fdot2 .rne .f16x2 10 (.v 6) (.v 6) 1, .cvt .rz .f32 .s32 10 (.v 5),
    .cvt8 .sat .rne .f32 10 (.v 1) (.imm 4), .cvt4 (.enc (.v 2)) .rne .f32 10 (.v 1), .cvt4 (.dec 7) .rne .f16 10 (.v 1),
    .pk (.cvt .rne .f16x2 (.v 2)) 10 (.v 1), .upk (.cvt .rne .f16x2 1) 10 (.v 6), .bscl (.apply .rne (.imm 127)) .f32 10 (.v 1)] sF
    (fun i c => (fltResult c i).isSome && formatsValid c i) = true := by decide +kernel
/-- The values of the tables' rows: both NaNs, both infinities, both zeros, a subnormal, a whole number of 65 bits; an invalid product; codes. -/
theorem wit_FloatResults_values :
    fval .f32 0x7F800001 = .nan true ∧ fval .f32 0x7FC00000 = .nan false ∧ fval .f32 0xFF800000 = .inf true ∧ fval .f32 0x7F800000 = .inf false ∧
    fval .f32 0x80000000 = .num true 0 (-149) ∧ (fval .f32 1).finite = true ∧ (fval .f32 0xC0200000).rat = -(5 / 2) ∧
    (fval .f32 0x5F800000).rat = 2 ^ 64 ∧ fprod (fval .f16 0x7C00) (fval .f16 0) = none ∧ FV.inf true ∈ [fval .f16 0xFC00, fval .f16 0x7C00] ∧
    (2 : Rat) ^ (1 : Int) ≤ |(fval .f32 0xC0200000).rat| ∧ |(fval .f32 0xC0200000).rat| < (2 : Rat) ^ (2 : Int) ∧
    (b8Of 4).isSome ∧ Ty.signed .s8 = true ∧ Ty.width .s8 < 32 ∧ (255 : Nat) < 256 ∧
    comes (.cvt8 .sat .rne .f32 10 (.v 1) (.imm 32)) sF (fun c => c.vis.all fun L => decide (c.byteB L (.imm 32) / 32 ≠ 0)) := by decide +kernel
theorem wit_FloatLateResults : allCome [.fdiv 0 .rne .f32 10 (.v 1) (.v 3), .fsqrt 0 .rne .f32 10 (.v 2), .frcp 0 .rz .f64 10 (.v 8),
    .frsq 1 .rne .f32 10 (.v 1), .fex2 2 .rne .f16x2 10 (.v 6), .flg2 15 .rne .f32 10 (.v 3)] sF
    (fun i c => (fltLate c i).isSome) = true := by decide +kernel
/-- Numbers, and an sNaN as the first source. -/
theorem wit_FloatLateResults_values : (fval .f32 0xBF800000).finite = true ∧ (fval .f32 0xBF800000).rat = -1 ∧
    (fval .f32 0x40000000).rat = 2 ∧ fval .f32 0 = .num false 0 (-149) := by decide +kernel
theorem wit_FloatSigns : Ty.floating .f32 = true ∧ allCome [.fabs .rne .f32 10 (.v 4), .fneg .rna .f16x2 10 (.v 6),
    .fsgn .rne .f32 10 (.v 1) (.v 2), .fsgn .rne .f32 10 (.v 4) (.v 2)] sF ∧ (fval .f32 0x7F800001).isNan = true := by decide +kernel
theorem wit_FloatCompare : comes (.cmpf .lt .rne .f32 2 (.v 1) (.v 5)) sF ∧ (fval .f32 0x80000000).finite = true ∧
    (fval .f32 0x3F800000).finite = true ∧ (fval .f32 0x7FC00000).isNan = true ∧ (fval .f16 0x7C01).isSig = true := by decide +kernel
theorem wit_Rounding : Ty.floating .bf16 = true ∧ (1 : Nat) ≠ 0 := by decide +kernel
/-- 1.0, −1.0, 0, and infinities make every clause's conditions true in turn. -/
theorem wit_FloatArithmetic :
    (fval .f32 0x3F800000).finite = true ∧ (fval .f32 0xBF800000).finite = true ∧ (fval .f32 0).finite = true ∧
    fval .f32 0x7F800000 = .inf false ∧ fval .f32 0xFF800000 = .inf true ∧
    (fval .f32 0x7FC00000).isNan = true ∧ (∃ p, fprod (fval .f32 0x3F800000) (fval .f32 0) = some p) ∧ fval .f32 0x3F800000 = .num false 8388608 (-23) ∧
    fval .f32 0xBF800000 = .num true 8388608 (-23) ∧ fval .f32 0 = .num false 0 (-149) :=
  ⟨by decide +kernel, by decide +kernel, by decide +kernel, by decide +kernel, by decide +kernel, by decide +kernel, ⟨_, rfl⟩, by decide +kernel,
   by decide +kernel, by decide +kernel⟩

/-! #### Lanes, special registers -/

/-- Indices inside the gang, below 0 and beyond its width. -/
theorem wit_Shuffles : allCome [.shfl .n32 10 1 (.v 1), .shup .n64 10 4 (.imm 1), .shdn .n32 10 1 (.imm 31), .shdn .n32 10 1 (.imm 32),
    .shxor .b32 10 1 (.s 10), .bcast .n32 10 1 (.imm 255)] s0 (fun _ c => c.W == 32) = true := by decide +kernel
theorem wit_Reductions : allCome [.redg 0 .add .rne .s32 10 1, .redg 2 .max .rz .f32 10 1, .scang 0 false .xor .rne .b32 10 1,
    .scang 1 true .min .rne .n64 10 4] s0 ∧ Ty.floating .s8 = false ∧ [some 1, none, some 255, none].length = 4 * 2 ^ 0 := by decide +kernel
/-- With a survivor area and without one. -/
theorem wit_KeysSievesElection : allCome [.mxix 0 .bf16 10 1 (.v 2), .elect 4, .sieve 0 10 1] s0 (fun _ c => c.grd.survArea == 0) ∧
    comes (.sieve 0 10 1) { s0 with grids := [(0, { grid0 with d := grid0.d.set 6 0x40500000 })] } (fun c => c.grd.survArea != 0) := by
  decide +kernel
/-- An unfinished long-latency computation, as `div` leaves it. -/
def eAlu : Entry := { id := 5, kind := .alu, rw := [.v 0 10 3], sticky := 1, long := true }
theorem wit_LongLatencyLands : ((s0g fun g => { g with infl := [eAlu] }).gang ⟨0, 0⟩).entry? 5 = some eAlu ∧ eAlu.kind = .alu ∧
    eAlu.long = true ∧ eAlu.done = false := by decide +kernel
theorem wit_SpecialRegisters : allCome [.gsr .n64 (.v 10) 0x23, .gsr .n32 (.s 20) 0x00, .ssr 0x20 (.v 1), .ssr 0x00 (.s 8)] s0 = true ∧
    grid0.elems.length ≤ 8 ∧ grid0.elems ≠ [] ∧ (grid0.elems[0]?).isSome ∧ (s0.cluster 31).pwr ≠ .gated := by decide +kernel

/-! #### Issuing and control -/

/-- A split in a block, an unprivileged gang, a cap, a window followed, a window stood in, a locked range, a slot with no lane, a wait. -/
theorem wit_IssueOrder :
    let blk : Option Blk := some ⟨3, 1, 0, 0⟩
    let at_ (i : Instr) (s : State) (p : Cx → Bool) : Bool := (cxOf i s).any fun c => c.g.trapReq.isNone && p c
    let fine (c : Cx) : Bool := !(c.sp.blk.isSome && slotIllegal c.i) && !(privileged c.i && !c.priv && !(c.i == .rft && c.g.trapMode))
    at_ (.bra false 4) (s0x fun x => { x with blk := blk }) (fun c => c.sp.blk.isSome && slotIllegal c.i) ∧
    at_ .rft { s0 with grids := [(0, { grid0 with ctx := 1 })] } (fun c => !c.sp.blk.isSome && privileged c.i && !c.priv && !c.g.trapMode) ∧
    at_ (.mov .n32 (.v 16) (.v 1)) { s0 with grids := [(0, { grid0 with d := grid0.d.set 1 0x800000000181 })] } (fun c => fine c && c.capBad) ∧
    at_ .nop (s0g fun g => { g with infl := [eAlu], run := some { pc := 0, mask := 3, wins := [⟨5, 0, [.v 10]⟩] } })
      (fun c => fine c && !c.capBad && c.g.winHolds c.sp) ∧
    at_ (.mov .n32 (.v 8) (.v 10)) (s0g fun g => { g with infl := [eAlu], run := some { pc := 0, mask := 3, wins := [⟨5, 1, [.v 10]⟩] } })
      (fun c => fine c && !c.capBad && !c.g.winHolds c.sp && c.breach) ∧
    at_ (.mov .n32 (.v 63) (.v 1)) (s0g fun g => { g with closed := [⟨1, [(32, 32)]⟩] })
      (fun c => fine c && !c.capBad && !c.g.winHolds c.sp && !c.breach && c.locked) ∧
    at_ .nop (s0x fun x => { x with blk := some ⟨3, 0, 0, 0⟩ })
      (fun c => fine c && !c.capBad && !c.g.winHolds c.sp && !c.breach && !c.locked && c.vis.isEmpty) ∧
    at_ (.bwait 2 11) s0 (fun c => fine c && !c.capBad && !c.g.winHolds c.sp && !c.breach && !c.locked && !c.vis.isEmpty && c.waits) := by
  decide +kernel
/-- Lines held and one not named; a line that is out, whose image reads, and one whose image does not (which one of the two values of the free bit
makes the end of the task). -/
def sOut : State := s0g fun g => { g with lines := [(0, { last := 1, out := true }), (2, { last := 2, out := true }), (3, { last := 3 })] }
theorem wit_IssueOrder_lines :
    (cxOf (.add .n32 (.v 8) (.v 1) (.v 2)) s0).any (fun c => okIs c.touch && c.linesIn && c.lineKeys.contains 0 && !c.lineKeys.contains 1) ∧
    (sOut.gang ⟨0, 0⟩).isOut 0 = true ∧ sOut.imgReads 0 (sOut.lineVa ⟨0, 0⟩ 0) = true ∧ sOut.imgWrites 0 (sOut.lineVa ⟨0, 0⟩ 3) = true ∧
    (let s : State := { sOut with groups := [(0, { st := .resident, img := 0x90000000 })] }
     s.imgReads 0 (s.lineVa ⟨0, 0⟩ 0) = false ∧ s.imgWrites 0 (s.lineVa ⟨0, 0⟩ 3) = false ∧
     (cxOf (.add .n32 (.v 8) (.v 1) (.v 2)) s).any fun c => c.clear && !c.linesIn) := by decide +kernel
/-- A slice above its entitlement at regs level 1, and one within it; a launch in which less than one line of a slice stays at level 0. -/
theorem wit_IssueOrder_room :
    (let s : State := { s0 with groups := [(0, { st := .resident, img := 0x40300000, regsLv := 1 })] }
     let g := s.gang ⟨0, 0⟩
     let d := s.grid 0
     let most := linesAt d.slices d.cap 1
     most / d.slices ≠ 0 ∧ most / d.slices < (g.heldLines d.cap 0).length ∧ 0 ∈ g.heldLines d.cap 0 ∧ s.pinned ⟨0, 0⟩ 0 = false) ∧
    linesAt 8 16 0 / 8 = 0 := by decide +kernel
theorem wit_OnlyPassed : allCome [.nop, .pf .group (.s 8) (.imm 0), .waitc .glob (.imm 0), .bwait 2 21, .fence .ar .sys, .rft] s0
    (fun _ c => c.settled && (c.fenceSync .ar .sys).isEmpty && !c.g.trapMode) = true := by decide +kernel
/-- `pb`, and the second of two and the last slot of its block. -/
theorem wit_PredicateBlocks : comes (.pb 1 1 2) s0 ∧
    comes .nop (s0x fun x => { x with blk := some ⟨1, 2, 1, 0⟩ }) (fun c => c.sp.blk == some ⟨1, 2, 1, 0⟩ && c.vis == [1]) ∧
    comes .nop (s0x fun x => { x with blk := some ⟨1, 2, 1, 1⟩ }) (fun c => c.sp.blk == some ⟨1, 2, 1, 1⟩ && c.vis == [0]) := by decide +kernel
/-- Lanes that all take a branch, that none takes, and that differ. -/
theorem wit_Branches : comes (.bra false 16) s0 ∧
    comes (.brp true 0 16) s0 (fun c => c.vis.all fun L => !c.g.preg L 0) ∧
    comes (.brp false 1 16) s0 (fun c => c.vis == [0, 1] && c.g.preg 0 1 && !c.g.preg 1 1 && decide (c.g.inTable.length < 16)) ∧
    comes (.brs true .eq .n64 10 10 16) s0 (fun c => c.vis.all fun L => condHolds .eq (tyVal .n64 (c.g.sreg (L / 4) 10)) (tyVal .n64 (c.g.sreg (L / 4) 10))) ∧
    comes (.brsImm false .gt .s32 10 64 16) s0 := by decide +kernel
/-- Targets that agree, that differ (v1 = 8 and 16), and one that is no multiple of 4. -/
theorem wit_FarBranches :
    let s := s0g fun g => { g with v := [(1, 8), (257, 16), (2, 8), (258, 6), (3, 8), (259, 8)] }
    let tgt (c : Cx) (n L : Nat) : W64 := c.sp.pc + sext64 (lo32 (c.g.src false (.lane L) (.v (BitVec.ofNat 8 n))))
    comes (.brx true (.v 1)) s (fun c => tgt c 1 0 != tgt c 1 1 && c.vis.all (fun L => (tgt c 1 L).toNat % 4 == 0) &&
      decide (c.g.inTable.length + c.vis.length ≤ 17)) ∧
    comes (.brx false (.v 2)) s (fun c => (tgt c 2 1).toNat % 4 != 0) ∧ comes (.brx false (.v 3)) s (fun c => tgt c 3 0 == tgt c 3 1) ∧
    allCome [.call 64, .callx 8, .ret] s = true := by decide +kernel
/-- A lone split at its cover; one that waits for another; the last of two to arrive; the last split to exit. -/
theorem wit_SplitsEnd :
    let other : Split := { pc := 0x40000100, mask := 2 }
    let half (p k : List Split) : State :=
      s0g fun g => { g with run := some { pc := 0x40000000, mask := 1 }, pend := p, parked := k, s := [(20, 3)] }
    let me (c : Cx) : Split := { c.sp with cover := (c.sAct 20).setWidth 32 &&& widthMask c.W &&& c.g.live }
    let met (c : Cx) : Bool := (c.g.parkedAt c.sp.pc ++ [me c]).all fun x => contains (maskUnion (c.g.parkedAt c.sp.pc ++ [me c])) (x.cover &&& c.g.live)
    comes .yield s0 ∧ comes (.regang 21) s0 (fun c => c.g.nsplits == 1 && contains c.sp.mask ((c.sAct 21).setWidth 32 &&& widthMask c.W &&& c.g.live)) ∧
    comes (.regang 20) (half [other] []) (fun c => !met c && !c.g.pend.isEmpty) ∧
    comes (.regang 20) (half [] [{ pc := 0x40000000, mask := 2, cover := 3, born := 4 }]) (fun c => met c && decide (1 < c.g.nsplits)) ∧
    comes .exit s0 (fun c => c.g.others.isEmpty) := by decide +kernel
/-- 17 entries, the oldest with room on its slice's stack, without room, and on a stack that nothing maps; 16 entries. -/
theorem wit_Branches_spill :
    let x (k : Nat) : Split := { pc := 0x40000100, mask := 1, born := k }
    let many (n lim top : Nat) : State :=
      s0g fun g => { g with pend := (List.range n).map x, s := [(62, BitVec.ofNat 64 top)], slim := [(0, BitVec.ofNat 64 lim)] }
    let room (n lim top : Nat) : Bool := decide ((((many n lim top).gang ⟨0, 0⟩).slimOf 0).toNat + 16 * ((many n lim top).gang ⟨0, 0⟩).spilledIn 0 + 16 ≤
      (((many n lim top).gang ⟨0, 0⟩).sreg 0 62).toNat)
    let table (s : State) := ((s.gang ⟨0, 0⟩).pend ++ (s.gang ⟨0, 0⟩).parked).filter fun y => y.spill == none
    (table (many 17 0x400FF000 0x40100000)).length = 17 ∧ (table (many 16 0x400FF000 0x40100000)).length = 16 ∧
    ((table (many 17 0x400FF000 0x40100000)).all fun y => y == x 0 || decide (0 < y.born)) ∧ room 17 0x400FF000 0x400FF010 ∧
    !room 17 0x400FF000 0x400FF00F ∧ okIs (s0.xlate 0 true .write 0x400FF000) ∧ !okIs (s0.xlate 0 true .write 0x90000000) := by decide +kernel
/-- All parked with none that meets; exits beside splits that stay, that meet through the exit, and that are all parked. -/
theorem wit_SplitsEnd_parked :
    let half (p k : List Split) : State :=
      s0g fun g => { g with run := some { pc := 0x40000000, mask := 1 }, pend := p, parked := k, s := [(20, 3)] }
    let there (cover : W32) : Split := { pc := 0x40000100, mask := 2, cover := cover, born := 4 }
    let kept (c : Cx) : List Split := (c.g.parked.map fun x => { x with mask := x.mask &&& ~~~c.visMask, cover := x.cover &&& ~~~c.visMask }).filter
      fun x => x.mask != 0
    comes (.regang 20) (half [] [there 3]) (fun c => c.g.pend.isEmpty && decide (1 < c.g.nsplits) && (c.g.parked.filter fun x => x.pc != c.sp.pc).all
      (fun x => !c.g.meets x.pc) && c.sp.mask.getLsbD ((lanesOf c.g.live).headD 0) && (c.g.parked ++ [c.sp]).all (fun x => x.spill == none) &&
      c.g.parked.all fun x => !x.mask.getLsbD ((lanesOf c.g.live).headD 0)) ∧
    comes .exit (half [there 3] []) (fun c => (c.g.live &&& ~~~c.visMask) != 0 && (kept c).isEmpty && !c.g.pend.isEmpty) ∧
    comes .exit (half [] [there 3]) (fun c => (c.g.live &&& ~~~c.visMask) == 2 && (kept c).all fun x => contains x.mask (x.cover &&& 2)) ∧
    comes .exit (s0g fun g => { g with live := 7, run := some { pc := 0x40000000, mask := 1 }, trig := 1,
                                       parked := [there 6, { pc := 0x40000200, mask := 4, cover := 6, born := 5 }] })
      (fun c => (c.g.live &&& ~~~c.visMask) == 6 && c.grd.node.isNone && c.g.pend.isEmpty && c.g.trig &&& c.visMask == c.visMask &&
        ((kept c).all fun x => !contains x.mask (x.cover &&& 6)) && ((kept c).filter fun x => x.mask.getLsbD 1).length == 1) ∧
    (let s : State := s0g fun g => { g with run := none, pend := [there 3] }
     (s.gang ⟨0, 0⟩).mayRun (there 3) = true ∧ s.splitReady ⟨0, 0⟩ (there 3) = true) := by decide +kernel

/-! #### Stack frames and traps -/

theorem ok_of {ε α : Type} [DecidableEq α] {x : Except ε α} {l : α} (h : (okIs x fun y => decide (y = l)) = true) : x = .ok l := by
  cases x with
  | ok y => simp only [okIs, decide_eq_true_eq] at h; rw [h]
  | error e => simp [okIs] at h

/-- A frame that fits to the byte (s62 − limit = 4,096 = 16 × 256, so 255 fits), and one below a raised limit. -/
theorem wit_StackFrames : allCome [.enter 255, .leave 0] s0 ∧
    comes (.enter 1) (s0g fun g => { g with slim := [(0, 0x40100000)] }) (fun c => decide ((c.g.sreg 0 62 - 16).toNat < (c.g.slimOf 0).toNat)) := by
  decide +kernel

/-- s0 with a handler for its context. -/
def sT : State := { s0 with ctxs := [(0, { tvec := 0x40000100, noticeen := 4, tabs := tables })] }
/-- A notice due, with a handler. -/
def sN : State := { sT with gangs := [(0, { gang0 with due := [2] })] }
def split0 : Split := { pc := 0x40000000, mask := 3 }
def trap7 : TrapReq := ⟨0xA, 7, 0x40000008, 0, 3, encode (.trap 7)⟩
theorem wit_TrapEntry : canTrap sT ⟨0, 0⟩ split0 trap7 0x40000100 ⟨false, 0x40300A00⟩ ∧
    canTrap sN ⟨0, 0⟩ split0 ⟨0xC, 2, 0x40000000, 0, 3, []⟩ 0x40000100 ⟨false, 0x40300A00⟩ :=
  ⟨⟨by decide, by decide +kernel, by decide, by decide +kernel, by decide +kernel, ok_of (by decide +kernel)⟩,
   ⟨by decide, by decide +kernel, by decide, by decide +kernel, by decide +kernel, ok_of (by decide +kernel)⟩⟩
theorem wit_TrapEntry_instructions : allCome [.trap 7, .brk 255] sT ∧ (Instr.trap 7).bytes = 8 ∧
    ((s0g fun g => { g with infl := [eAlu], run := some { pc := 0, mask := 3, wins := [⟨5, 2, [.v 10]⟩] } }).gang ⟨0, 0⟩).openWins
      { pc := 0, mask := 3, wins := [⟨5, 2, [.v 10]⟩] } = true ∧
    ({ sT with gangs := [(0, { gang0 with trapReq := some trap7 })] }.gang ⟨0, 0⟩).trapReq = some trap7 ∧
    sN.noticeReady ⟨0, 0⟩ = true ∧ (sN.gang ⟨0, 0⟩).due = [2] := by decide +kernel
/-- No handler; trap mode; a frame whose pc is a multiple of 4, and one whose pc is not. -/
theorem wit_TrapReturn :
    let inTrap (pc : Nat) : State := { s0 with gangs := [(0, { gang0 with trapMode := true })], mem := wrLE tables 0x40300A08 pc 8 }
    let frame (pc : Nat) (c : Cx) : Bool := c.g.trapMode && !c.frameBusy &&
      okIs ((inTrap pc).xlate c.grd.ctx true .read (saveSlot c.grp c.grd c.r.gang)) fun l => (inTrap pc).rdLoc { l with key := l.key + 8 } 8 == pc
    (s0.ctx 0).handler = none ∧ ((inTrap 0).gang ⟨0, 0⟩).trapMode = true ∧ comes .rft (inTrap 0x40000040) (frame 0x40000040) ∧
    comes .rft (inTrap 0x40000042) (frame 0x40000042) := by decide +kernel

/-! #### Memory -/

/-- An access in flight that nothing has applied. -/
def eSt : Entry := { id := 5, path := some .glob, accs := [{ lane := 0, space := .glob, addr := 0x40001000, bytes := 4, op := .wr 7 }] }
/-- A descriptor of 4-byte elements in slot 1, tiles of 8 by 16. -/
def sImg : State := { s0 with grids := [(0, { grid0 with d := ((grid0.d.set 32 0x40010000).set 33 64).set 34 4 |>.set 35 0x3C070405 })] }
/-- Addresses that are fine, misaligned, out of bounds; a `fence` behind a store; an image that is absent, and one that is present. -/
theorem wit_MemoryIssue :
    allCome [.ld 1 .acq .die .n64 10 (.s 8) (.imm 16), .st .rel .sys .n32 (.s 8) (.s 10) (.v 1), .sld 0 .rlx .group .n64 20 8 (.imm 0),
        .sst .rlx .group .n8 8 (.imm 1) (.imm 255), .lds 0 .rlx .group .n32 10 (.v 3) (.imm 1020), .sts .rlx .group .s16 (.v 3) (.imm 1022) (.v 1),
        .ldl 0 .rlx .group .n8 10 (.v 3) (.imm 2047), .stl .rlx .group .n64 (.v 3) (.imm 8) (.v 4), .ldm 0 .rlx .group 16 (.s 8) (.imm 0) 32,
        .stm .rlx .group (.s 8) (.imm 4) 16 1, .atom 0 .cas .ar .dev .n32 (.v 10) (.s 8) (.imm 0) (.v 1),
        .red true .add .rel .die .n32 (.s 8) (.imm 0) (.s 10)] s0
      (fun i c => (memForm c i).any fun f => f.places.all fun p => decide (f.addr p % f.bytes = 0) && !f.bad.2.2 p) ∧
    comes (.ld 0 .rlx .group .n32 10 (.s 8) (.imm 2)) s0
      (fun c => (memForm c c.i).any fun f => f.places.any fun p => decide (f.addr p % f.bytes ≠ 0)) ∧
    comes (.lds 0 .rlx .group .n32 10 (.v 3) (.imm 1024)) s0 (fun c => (memForm c c.i).any fun f => f.places.any f.bad.2.2) ∧
    comes (.fence .ar .sys) (s0g fun g => { g with infl := [eSt], run := some { pc := 0, mask := 3, hist := [5] } }) (fun c => !c.settled) ∧
    comes (.sti .rlx .group 0 (.v 3) (.imm 5) 1) s0 (fun c => !(dImg c.grd.d 0).present) ∧
    comes (.sti .rlx .group 1 (.v 1) (.imm 15) 1) { sImg with gangs := [(0, { gang0 with run := some { pc := 0, mask := 1 } })] }
      (fun c => (dImg c.grd.d 1).present && (dImg c.grd.d 1).size == 4 && (dImg c.grd.d 1).th == 8 && (dImg c.grd.d 1).tw == 16) := by
  decide +kernel

/-- s0 with one entry of one access in flight. -/
def sAcc (a : Access) (long : Bool := true) : State := s0g fun g => { g with infl := [{ id := 5, accs := [a], long := long }] }
def aAt (sp : Space) (addr : Nat) (op : AccOp) : Access := { lane := 0, space := sp, addr := addr, bytes := 4, op := op }
/-- Such an access is the next thing that happens, where its place is p. -/
theorem applies (a : Access) (p : Place) (h1 : (sAcc a).mayApply ⟨0, 0⟩ { id := 5, accs := [a], long := true } a = true)
    (h2 : (sAcc a).place ⟨0, 0⟩ a = .ok p) : appliesAt (sAcc a) ⟨0, 0⟩ { id := 5, accs := [a], long := true } 5 0 a p :=
  ⟨rfl, rfl, rfl, rfl, h1, h2, rfl⟩
/-- A read and a write of memory, of the lane store, and of scratch; and a load whose accesses are all applied. -/
theorem wit_AccessesLand :
    let e (a : Access) : Entry := { id := 5, accs := [a], long := true }
    let at_ (a : Access) (p : Place) : Prop := appliesAt (sAcc a) ⟨0, 0⟩ (e a) 5 0 a p
    at_ (aAt .glob 0x40001000 .rd) (.mem ⟨false, 0x40001000⟩) ∧ at_ (aAt .glob 0x40001004 (.wr 7)) (.mem ⟨false, 0x40001004⟩) ∧
    at_ (aAt .lst 2044 (.wr 7)) (.lst ⟨0, 0⟩ 2044) ∧ at_ (aAt .scr 1020 (.wr 7)) (.scr 0 1020) ∧ ((sAcc (aAt .scr 1020 (.wr 7))).group 0).scrLv = 4 ∧
    (e { aAt .glob 0x40001000 .rd with done := true, val := 9, land := .v 0 10 .n32 }).accs.all (·.done) :=
  ⟨applies _ _ (by decide +kernel) (ok_of (by decide +kernel)), applies _ _ (by decide +kernel) (ok_of (by decide +kernel)),
   applies _ _ (by decide +kernel) (ok_of (by decide +kernel)), applies _ _ (by decide +kernel) (ok_of (by decide +kernel)),
   by decide +kernel, by decide +kernel⟩

/-- A second GiB, a D range, at 0x80000000; a reduction there, beside one that it combines with. -/
def sD : State := { s0 with
  mem := wrLE tables 0x40010 0x800001C3 8,
  ctxs := [(0, { tabs := wrLE tables 0x40010 0x800001C3 8 })],
  grids := [(0, { grid0 with d := grid0.d.set 45 0x80000000, dred := [⟨0, 0, 0, 0, 0x80000100, .add, .n32, 1, 0⟩] })],
  gangs := [(0, { gang0 with infl := [{ id := 5, accs := [aAt .glob 0x80000100 (.rmw .add .n32 2 0)] }] })] }
theorem wit_ReadModifyWrite :
    appliesAt (sAcc (aAt .glob 0x40001000 (.rmw .add .n32 2 0))) ⟨0, 0⟩ { id := 5, accs := [aAt .glob 0x40001000 (.rmw .add .n32 2 0)], long := true }
      5 0 (aAt .glob 0x40001000 (.rmw .add .n32 2 0)) (.mem ⟨false, 0x40001000⟩) ∧ s0.inD 0 0x40001000 = false ∧
    appliesAt sD ⟨0, 0⟩ { id := 5, accs := [aAt .glob 0x80000100 (.rmw .add .n32 2 0)] } 5 0 (aAt .glob 0x80000100 (.rmw .add .n32 2 0))
      (.mem ⟨false, 0x80000100⟩) ∧ sD.inD 0 0x80000100 = true ∧
    (let d := sD.grid 0
     (sD.setGrid 0 { d with dred := d.dred ++ [⟨0, 0, 0, 0, 0x80000100, .add, .n32, 2, 0⟩] }).ouaUsed 0 = sD.ouaUsed 0) ∧
    Ty.floating .n64 = false ∧ (2 ^ 64 - 1 : W64).toNat < 2 ^ Ty.width .n64 ∧ Ty.floating .f32 = true :=
  ⟨applies _ _ (by decide +kernel) (ok_of (by decide +kernel)), by decide +kernel,
   ⟨by decide +kernel, rfl, rfl, rfl, by decide +kernel, ok_of (by decide +kernel), by decide +kernel⟩,
   by decide +kernel, by decide +kernel, rfl, by decide +kernel, rfl⟩

/-! #### Barriers, tickets, engines -/

/-- Two gangs of four live, so that the first arrival waits. -/
def sB (bars : Sparse Bar) (w : Wait := .none) : State :=
  { s0 with groups := [(0, { st := .resident, bars := bars })], gangs := [(0, { gang0 with run := gang0.run.map fun x => { x with wait := w } }), (1, gang0)],
            grids := [(0, { grid0 with d := grid0.d.set 1 0x80000000099F })] }
/-- Misuse, a phase that has passed, an arrival that completes, one that waits; marks at once and later. -/
theorem wit_Barriers :
    allCome [.bar 3 none, .arrive 20 3 none] (sB []) (fun _ c => c.s.liveGangs 0 == [0, 1] && !(c.grp.bar 3).misused 0 none &&
      ((c.grp.bar 3).arrive [0, 1] 0 none).phase == (c.grp.bar 3).phase) ∧
    allCome [.bar 3 none, .arrive 20 3 none] (sB [(3, ⟨5, 1, 2, 0⟩)]) (fun _ c => ((c.grp.bar 3).arrive [0, 1] 0 none).phase == 6) ∧
    allCome [.bar 3 none, .arrive 20 3 none] (sB [(3, ⟨5, 2, 1, 2⟩)]) (fun _ c => (c.grp.bar 3).misused 0 none) ∧
    comes (.bar 3 (some 11)) (sB []) (fun c => ((c.grp.bar 3).arrive [0, 1] 0 (some 1)).phase == 1) ∧
    comes (.bar 3 none) (sB [(3, ⟨6, 0, 0, 0⟩)] (.phase 5)) (fun c => c.sp.wait == .phase 5) ∧
    comes .trig s0 (fun c => c.grd.node.isNone && c.g.trigWait.isEmpty && c.settled) ∧
    comes .trig (s0g fun g => { g with infl := [eSt], run := some { pc := 0, mask := 3, hist := [5] } }) (fun c => !c.settled) := by
  decide +kernel

/-- A copy queued as number 1, of 8 bytes. -/
def opCopy : Op := { kind := .copy .gg 0x40002000 0x40001000 8 }
/-- An element-wise operation queued as number 1, over one plate word. -/
def opPlate : Op := { kind := .pvop .add .rlx .n32 0x200000000000 none 5 1 }
def sOps : State := { s0 with ctxs := [(0, { tabs := tables, tl := [(1, 1), (4, 1)], ops := [(okey 1 1, opCopy), (okey 4 1, opPlate)] })] }
theorem wit_TicketsAndEngines :
    allCome [.wtl 2 8, .tst 2 8] s0 (fun _ c => c.sls.all fun sl => ((s0.ctx 0).ticket (c.g.sreg sl 8)).isNone) ∧
    allCome [.tst 2 22, .cancel 2 22] { sOps with gangs := [(0, { gang0 with s := [(22, 0x0100000000000001)] })] } (fun _ c => c.sls.all fun sl =>
      (sOps.ctx 0).ticket (c.g.sreg sl 22) == some (1, 1) && (sOps.ctx 0).opSt 1 1 == .queued) ∧
    comes (.wtl 2 22) { sOps with gangs := [(0, { gang0 with s := [(22, 0x0100000000000000)] })] } (fun c => (sOps.ctx 0).done (c.g.sreg 0 22)) ∧
    allCome [.copy .gg 20 8 9 (.imm 0), .copy .gs 20 10 8 (.imm 252), .pvop .mul .rlx .group .n32 20 12 (.imm 3) (.imm 255),
      .pvop .mov .rel .dev .n64 20 12 (.s 12) (.s 11)] s0 ∧
    (sOps.op 0 engCopy 1 = opCopy ∧ sOps.atWork opCopy = true ∧ opCopy.parts.isSome = true ∧
      okIs (sOps.moveAll (fun s i => s.copyByte opCopy .gg 0x40002000 0x40001000 i) opCopy.rest)) ∧
    (sOps.op 0 engPlate 1 = opPlate ∧ sOps.atWork opPlate = true ∧ opPlate.parts.isSome = true ∧
      okIs (sOps.moveAll (fun s i => s.pvElem opPlate .add .n32 0x200000000000 none 5 i) opPlate.rest)) ∧
    !okIs (s0.moveAll (fun s i => s.copyByte opCopy .gg 0x90000000 0x40001000 i) [0]) ∧
    okIs (s0.engLoc 0 .write 0x40002007 1) ∧ okIs (s0.engLoc 0 .read 0x40001007 1) ∧ okIs (s0.engLoc 0 .write 0x200000000000 4) ∧
    Ty.floating .s32 = false := by decide +kernel
/-- Copies and plate operations that are misaligned, or reach outside scratch or the plate; scratch on both sides. -/
theorem wit_TicketsAndEngines_traps :
    allCome [.copy .gg 20 8 9 (.imm 2), .copy .sg 20 8 11 (.imm 4), .copy .gs 20 10 8 (.imm 1024), .copy .ss 20 10 10 (.imm 964),
      .pvop .add .rlx .group .n32 20 11 (.imm 1) (.imm 1), .pvop .add .rlx .group .n32 20 8 (.imm 1) (.imm 1), .copy .ss 20 10 10 (.imm 960)] s0 ∧
    (let g := s0.group 0
     (Sparse.get {} g.pages 1 : Line).out = false) ∧ ¬(CopyKind.gs = CopyKind.gg ∨ CopyKind.gs = CopyKind.sg) := by decide +kernel


/-! #### The matrix extension, launches, the network -/

/-- A tile product of a batch, by rows of lane 0. -/
def mmx0 : Mmx := { ty := .f16, c := 64, rows := [(0, List.replicate 16 0x3C003C00)], b := List.replicate 512 0 }
/-- A batch queued as number 1. -/
def sBatch (o : Op := { kind := .batch [mmx0] }) : State := { s0 with ctxs := [(0, { tabs := tables, tl := [(3, 1)], ops := [(okey 3 1, o)] })] }
/-- The ridge's columns at 0 where the product of two ones has a 1. -/
def obsRidge : SliceObs := ⟨0, 0, 0, 0, true, false, 0, 0, false⟩
/-- mmx0 with ones in its B slots. -/
def mmxOnes : Mmx := { mmx0 with b := List.replicate 512 0x3C003C00 }
def landsAt (c : Cx) (a : W64) : Bool := okIs (c.s.place c.r (blockRead c.sp.hist a).2) fun p => match p with
  | .mem _ => true
  | _ => false
/-- Batches of none, of seven and of eight; a block that is mapped; columns that fit, to the last, and that do not. -/
theorem wit_MatrixInstructions :
    comes (.mmx .f16 32 0) s0 ∧ comes (.mmx .bf16 32 0) (s0g fun g => { g with batch := List.replicate 7 mmx0 }) (fun c => c.g.batch.length == 7) ∧
    allCome [.mmx .f16 32 0, .mmxNar 32 0 8] (s0g fun g => { g with batch := List.replicate 8 mmx0 }) (fun _ c => c.g.batch.length == 8) ∧
    comes (.mmxNar 32 0 8) s0 (fun c => (c.g.sreg c.sl0 8).toNat % 32 == 0 && landsAt c (c.g.sreg c.sl0 8) && c.g.infl.isEmpty &&
      (c.s.relsAt (c.s.where_ c.r (blockRead c.sp.hist (c.g.sreg c.sl0 8)).2) 32).isEmpty) ∧ comes (.mmxNar 32 0 11) s0 (fun c => (c.g.sreg c.sl0 11).toNat % 32 != 0) ∧
    comes (.bpub 5 3 16 0) s0 (fun c => c.W == 32) ∧ comes (.bpub 5 3 16 1) s0 (fun c => c.W == 32) ∧
    comes (.bpub 5 3 16 24) { s0 with grids := [(0, { grid0 with d := grid0.d.set 1 0x80000000009F })] } (fun c => c.W == 8) ∧
    (let e : Entry := { id := 5, kind := .bpub 3 16 0 3, long := true }
     ((s0g fun g => { g with infl := [e] }).gang ⟨0, 0⟩).entry? 5 = some e ∧ (s0.grid (s0.group 0).grid).node = none) ∧
    comes (.mfence 20) s0 (fun c => c.g.batch.isEmpty) ∧ comes (.mfence 20) (s0g fun g => { g with batch := [mmx0] }) (fun c => c.g.batch == [mmx0]) ∧
    allCome [.mzero 224, .mtr .b32 0 32] s0 = true := by decide +kernel
/-- Operand kinds: halves, doubles, INT8 and E2M1 with scales; scales that can be read, and that cannot. -/
theorem wit_TileKinds :
    let kind (b : Option (List W64)) (t : Ty) : Option MKind := ({ mmx0 with ty := t, block := b } : Mmx).fmt.map MFmt.kind
    kind none .f16 = some (.ieee .f16) ∧ kind none .f64 = some (.ieee .f64) ∧ (kind (some [0x11, 0, 0, 0]) .n32).isSome ∧
    kind (some [0x33, 0, 0, 0]) .n32 = some .e2 ∧ kind (some [0x0F, 0, 0, 0]) .n32 = none ∧
    (let f : MFmt := { kind := .e2, len := 16, scla := 0x40001000, sclb := 0x90000000 }
     0 < f.len ∧ f.len ∣ f.kind.k ∧ okIs (s0.scales 0 f f.scla 0) ∧ okIs (s0.scales 0 f f.sclb 0) = false ∧
     okIs (s0.engLoc 0 .read f.scla 1) ∧ okIs (s0.engLoc 0 .read f.sclb 1) = false ∧ fmtBlock [0x01000033, 0, 0x40001000, 0x90000000] = some f) := by decide +kernel
/-- A batch whose turn it is, without errors and with one that no repetition mends; tiles of a register block and of an unreadable scale. -/
theorem wit_BatchExecution :
    (sBatch.batchAt 0 1).isSome ∧ fatalAt 0 (formed [mmx0] []) = none ∧ fatalAt 0 (formed [mmxOnes] [obsRidge]) = some 0 ∧
    okIs (s0.tiles ⟨0, 0⟩ 0 0 (formed [mmx0] []) 0 [mmx0]) (·.2) ∧ mmx0.block = none ∧ (mmx0.rows.map Prod.fst).Nodup ∧ mmx0.c + 32 ≤ 256 := by
  decide +kernel

/-- A running graph of two nodes, the second a decision; s10 and s11 name nodes 64 and 1. -/
def sNode : State := { s0 with grids := [(0, { grid0 with node := some ⟨0, 0⟩ })],
                               graphs := [(0, { nn := 2, t := List.replicate 16 0 ++ [1] ++ List.replicate 7 0 })] }
theorem wit_Launches :
    comes (.launch 20 8) s0 (fun c => c.sp.wait == .none && decide ((c.s.ctx 0).unretired + c.sls.length ≤ 4096) && (c.s.ctx 0).children.isEmpty &&
      c.sls.all fun sl => (c.g.sreg sl 8).toNat % 64 == 0) ∧
    comes (.launch 20 11) s0 (fun c => c.sp.wait == .none && c.sls.any fun sl => (c.g.sreg sl 11).toNat % 64 != 0) ∧
    comes (.gwait 2 20) s0 ∧ comes (.gcond 1 8 9) s0 (fun c => c.grd.node.isNone) := by decide +kernel
/-- A posting to a decision node, and to a node that is none (64) or does not exist. -/
theorem wit_Posting : allCome [.gcond 1 11 9, .gcond 1 10 9] sNode (fun _ c => c.grd.node == some ⟨0, 0⟩) ∧
    nodeKind (sNode.graph 0).t 1 = 1 ∧ ((sNode.graph 0).node 1).decided = false := by decide +kernel
/-- An address that is no multiple of 4, a target that names no package, and counts out of range. -/
theorem wit_Network_traps :
    comes (.nput false .rlx .group 20 11 11 10 1) s0 (fun c => c.sls.any fun sl => (c.g.sreg sl 11).toNat % 4 != 0) ∧
    allCome [.nget 0 .rlx .group .n32 20 21 9, .natm 0 .add .rlx .group .n32 20 21 9 (.imm 1), .nput true .rlx .group 20 21 9 10 1] s0
      (fun _ c => c.sls.any fun sl => badTarget (c.g.sreg sl 21)) ∧
    allCome [.nput true .rlx .group 20 11 9 10 4097, .nput false .rlx .group 20 11 9 10 0] s0 := by decide +kernel
theorem wit_Network :
    let good (c : Cx) (r : Nat) : Bool := c.sls.all fun sl => !badTarget (c.g.sreg sl r)
    allCome [.nput true .rel .sys 20 11 9 10 4096, .nput false .rlx .sys 20 11 9 10 1] s0 (fun _ c => good c 11 && c.sls.all fun sl =>
      (c.g.sreg sl 9).toNat % 4 == 0 && (c.g.sreg sl 10).toNat % 4 == 0) ∧
    allCome [.nget 1 .rlx .group .n64 20 11 9, .natm 0 .cas .rlx .group .n64 20 11 9 (.s 5), .natm 0 .exch .ar .sys .b32 20 11 9 (.imm 5),
      .ncoll .agath .rlx .group .f32 16 8] s0 (fun _ c => good c 11) ∧
    badTarget 0x0000000000061A7F = false ∧ badTarget 0x0000000000061A80 = true ∧ badTarget 0x0000000000200000 = true ∧
    badTarget 0x00000000001E1A7F = false := by decide +kernel

/-! #### Privileged instructions -/

/-- `clkctl`: each ratio's ends are good, and one past each is not. -/
theorem wit_PrivilegedRegisters :
    allCome [.psr .n64 (.s 20) 0x010 (.s 5), .psr .n32 (.v 10) 0x006 (.imm 0), .psr .n64 (.v 10) 0x030 (.imm 31)] s0 ∧
    allCome [.pwr 4 (.imm 3) 20, .pwr 6 (.imm 0) 8, .pwr 0x030 (.imm 31) 8] s0 ∧ privHas 4 63 = true ∧ privHas 4 64 = false ∧ 4 ∈ plainRegs ∧
    privHas 0x005 1 = true ∧ privHas 0x010 0 = true ∧ privHas 0x030 31 = true ∧ privHas 0x032 0 = true ∧
    s0.hasGroups 0 = true ∧ s0.hasGroups 1 = false ∧
    (let good (x : Nat) : Bool := let rt := x % 4; let fq := x / 2 ^ 8 % 2 ^ 8
      rt == 0 && decide (22 ≤ fq) && decide (fq ≤ 34) || rt == 1 && decide (14 ≤ fq) && decide (fq ≤ 26) || rt == 2 && decide (8 ≤ fq) && decide (fq ≤ 18)
     [0x1600, 0x2200, 0x0E01, 0x1A01, 0x0802, 0x1202].all good ∧ [0x1500, 0x2300, 0x0D01, 0x1B01, 0x0702, 0x1302, 0x1603].all fun x => !good x) := by
  decide +kernel

/-- Ordered packets, one of this package's own and one from another. -/
def pkt (src : BitVec 19) (op : PktOp := .get 0x40001000 .n64) : Packet :=
  { stamp := ⟨100, src, 0⟩, pkg := 0, part := 0, src := src, ctx := 0, num := 1, op := op }
theorem wit_Ports :
    (({ s0 with ports := [(3, { enabled := true, inq := [pkt 7, pkt 0] })] }).port 3).fenced = false ∧
    (({ s0 with ports := [(11, { fenced := true })] }).port 11).fenced = true := by decide +kernel

/-- A grant that core 5 holds; contexts that are in, out and unassigned; a retired deterministic grid; a group of it; an event. -/
def sFw : State := { s0 with
  cores := [(5, { grants := [{ key := 0x40001000, slices := [1, 2] }] })],
  ctxs := [(0, { tabs := tables }), (1, { asg := true })], events := [⟨1, 2, 3⟩],
  grids := [(0, grid0), (1, { grid0 with ctx := 1, det := true, daddr := 0x40001000, st := .retired, tdig := 9, acc := 1 }),
            (2, { grid0 with ctx := 1, det := true, daddr := 0x40002000, st := .running, acc := 2 })],
  groups := [(0, { st := .resident }), (1, { st := .resident, grid := 2, lin := 1 })] }
theorem wit_FirmwareServices :
    let noReq (c : Cx) : Bool := match c.sp.wait with
      | .req _ => false
      | _ => true
    let waits (w : Wait) (s : State) : State := { s with gangs := [(0, { gang0 with run := gang0.run.map fun x => { x with wait := w } })] }
    comes (.tlbgen 20 8) sFw ∧ comes (.sqz 8) (waits (.req 3) sFw) (fun c => c.sp.wait == .req 3) ∧
    comes (.sqz 11) sFw (fun c => noReq c && (c.sAct 11).toNat % 8 != 0) ∧
    comes (.sqz 8) sFw (fun c => noReq c && (c.sAct 8).toNat % 8 == 0 && (List.range 4).all (fun k => landsAt c (c.sAct 8 + BitVec.ofNat 64 (8 * k))) && c.g.infl.isEmpty) ∧
    comes (.sqz 20) { sFw with gangs := [(0, { gang0 with s := [(20, 0x90000000)] })] } (fun c => noReq c && !landsAt c (c.sAct 20)) ∧
    comes (.xpand 8) (waits (.req 6) sFw) (fun c => c.sp.wait == .req 6) ∧
    comes (.xpand 9) sFw (fun c => (List.range 256).all fun k => (c.s.core k).grants.all fun g => g.key != c.sAct 9) ∧
    comes (.xpand 8) sFw (fun c => noReq c && ((c.s.core 5).grants.any fun g => g.key == c.sAct 8) && (List.range 5).all fun k =>
      (c.s.core k).grants.isEmpty) ∧
    comes (.imgsv 20 11) (waits (.req 3) sFw) (fun c => c.sp.wait == .req 3) ∧ comes (.imgsv 20 10) sFw (fun c => (c.sAct 10).toNat % 64 == 0) ∧
    comes (.imgsv 20 11) sFw (fun c => noReq c && (c.sAct 11).toNat % 64 == 1 && (c.s.ctx 1).asg && !(c.s.ctx 1).out) ∧
    comes (.imgld 20 11) sFw (fun c => !(c.s.ctx 1).out) ∧
    comes (.imgld 20 11) { sFw with ctxs := [(0, { tabs := tables }), (1, { asg := true, out := true })] } (fun c => (c.s.ctx 1).out) := by decide +kernel
theorem wit_DigestsAndEvents :
    let waits (w : Wait) (s : State) : State := { s with gangs := [(0, { gang0 with run := gang0.run.map fun x => { x with wait := w } })] }
    comes (.digcTask 62 8) sFw (fun c => (c.s.gridFrom c.grd.part (c.sAct 8)).any fun g => g.st == .retired && g.det) ∧
    comes (.digcTask 20 9) sFw (fun c => (c.s.gridFrom c.grd.part (c.sAct 9)).all fun g => g.st != .retired || !g.det) ∧
    comes (.digcTask 20 10) sFw (fun c => (c.s.gridFrom c.grd.part (c.sAct 10)).isNone) ∧
    comes (.digcGang 20 9 11) sFw (fun c => c.s.gridNo c.grd.part (c.sAct 9) == some 2 && (c.s.grid 2).det && (c.sAct 11).toNat / (c.s.grid 2).gangs == 1 &&
      (c.s.groups.filter fun y => y.2.grid == 2 && y.2.lin == 1).length == 1) ∧
    comes (.digcGang 20 8 11) sFw (fun c => c.s.gridNo c.grd.part (c.sAct 8) == some 1 && c.s.groups.all fun y => y.2.grid != 1) ∧
    comes (.wfe 61 8) (waits .finished sFw) (fun c => c.sp.wait == .finished) ∧
    comes (.wfe 61 8) sFw (fun c => c.sp.wait != .finished && (c.s.events[c.wfeRank]?).isSome) ∧
    comes (.wfe 61 8) s0 (fun c => c.s.events.isEmpty && c.sAct 8 != 0) ∧ comes (.wfe 61 20) s0 (fun c => c.s.events.isEmpty && c.sAct 20 == 0) ∧
    ((waits (.deadline 0 5) { s0 with now := 5 }).gang ⟨0, 0⟩).run.any (fun x => x.wait == .deadline 0 5) = true := by decide +kernel


/-! #### The squeeze controller -/

/-- A launch of one gang of 16 lanes and 16 registers of context 1, class 3, with its group on core 0. -/
def gridV : Grid := { grid0 with d := grid0.d.set 1 0x800000000101, ctx := 1, cls := 3, st := .running, dispatched := 1, next := 1 }
def gangV : Gang := { run := some { pc := 0x40000000, mask := 0xFFFF }, live := 0xFFFF, held := [0, 1, 2, 3], v := [(1, 7)] }
def groupV : Group := { st := .resident, grid := 1, seq := 3, img := 0x40300000, stk := 0x40400000 }
def sV (g : Group := groupV) (c : Core := {}) (x : Gang := gangV) : State :=
  { mem := tables, grids := [(1, gridV), (2, { grid0 with st := .running })], groups := [(1, g)], gangs := [(32, x)], cores := [(0, c)],
    ctxs := [(0, { tabs := tables }), (1, { asg := true, tabs := tables })] }
/-- Firmware asks for slices, at tick 5. -/
def reqV (n : Nat := 1) (ok : Bool := true) (by_ : ReqBy := .sqz 0x40001000 0) : Req :=
  { id := 7, by_ := by_, at_ := 5, nsl := n, qmask := 15, rpt := 0x40002000, valid := ok }
/-- A pool of as many slices as the group on core 0 holds: the only core that lacks something. -/
theorem wit_SqueezeRequest :
    let s := { sV with pool := some ⟨0, 0, 15, 4, 4096, 786432⟩ }
    (s.grid 2).req = none ∧ (s.grid 2).reqHold = false ∧ s.waitingGroup (s.grid 2) = some 0 ∧ s.fits 0 (s.grid 2) = false ∧
    s.victims 0 0 = [1] ∧ s.mode.hasDie 0 0 = true := by decide +kernel
/-- Freed resources that came no later; a request that is invalid, one whose key is held, and one with a victim. -/
theorem wit_RequestTaken :
    let s (c : Core) : State := sV groupV c
    let held : Core := { reqs := [reqV], grants := [{ key := 0x40001000, slices := [9] }] }
    ((s { reqs := [reqV], freed := true, freedAt := 5 }).core 0).freedAt ≤ reqV.at_ ∧
    (reqV.at_ < ((s { reqs := [reqV], freed := true, freedAt := 6 }).core 0).freedAt) ∧
    (reqV 1 false).valid = false ∧ (s held).grantClash 0 reqV = true ∧ (s { reqs := [reqV] }).grantClash 0 reqV = false ∧
    ((s { reqs := [reqV] }).planFor 0 reqV).plans.any (fun p => !p.done && p.group == 1 && p.lanes == 3) = true := by decide +kernel
/-- Two classes of victims, the lower of which the need does not reach. -/
theorem wit_Lowering :
    let vs : List Vic := [{ group := 1, cls := 3, lv := 4, amt := fun n => 2 * n }, { group := 2, cls := 2, lv := 4, amt := fun n => n },
      { group := 3, cls := 0, lv := 4, amt := fun n => n }]
    (lowerAll 0 9 vs).1.map Vic.lv = [0, 3, 4] ∧ (lowerAll 0 9 vs).2 = 0 ∧ (lowerAll 0 20 vs).2 = 8 := by decide +kernel

/-- Core 0 at work on a request with a plan for the group. -/
def taking (p : Plan) (by_ : ReqBy := .sqz 0x40001000 0) : Core := { taken := some { req := reqV 1 true by_, plans := [p] } }
theorem wit_Folds :
    let p : Plan := { group := 1, lanes := 3, regs := 2, scr := 4 }
    let s := sV groupV (taking p)
    let l := s.foldList 1 p
    s.planOf 1 = some ({ req := reqV, plans := [p] }, p) ∧ (l.any fun x => x.2.isNone) ∧ !(s.foldDue l).isEmpty ∧
    ((s.foldDue l).all fun x => s.imgWrites 1 (s.pickAddr 1 x)) = true := by decide +kernel
/-- The fold whose picks are all written, one of them since written to. -/
theorem wit_Folds_again :
    let ps : List (Pick × Option Nat) := (sV.linePicks 1 2).map fun x => (x, some 1)
    let p : Plan := { group := 1, lanes := 3, regs := 2, scr := 4, picks := some ps }
    let s := sV groupV (taking p) { gangV with lines := [(3, { wr := 2 })] }
    !ps.isEmpty ∧ ((s.foldList 1 p).all fun x => x.2.isSome) ∧ s.foldAgain 1 (s.foldList 1 p) = [.line ⟨1, 0⟩ 3] ∧
    s.imgWrites 1 (s.pickAddr 1 (.line ⟨1, 0⟩ 3)) = true := by decide +kernel
theorem wit_Suspensions :
    let p : Plan := { group := 1, suspend := true }
    let s := sV groupV (taking p)
    (s.nextSuspend 0).isSome ∧ ((sV groupV (taking p (.save 1))).nextSuspend 0).isSome ∧ s.quiet 1 = true ∧
    ((s.allPicks 1).all fun x => s.imgWrites 1 (s.pickAddr 1 x)) = true ∧ ((s.floorWords 1).all fun w => s.imgWrites 1 w.1) = true := by decide +kernel
/-- An image of which the first write fails, and one whose first bytes, written last, are not mapped. -/
theorem wit_ImageFaults :
    let p : Plan := { group := 1, suspend := true }
    let ws (img : W64) : List Bool := let s := sV { groupV with img := img } (taking p); (s.planWrites 1 p).map fun w => w.1.isNone
    (ws 0x90000000).head? = some false ∧ (ws 0x3FFFFC00).head? = some true ∧ (ws 0x3FFFFC00).contains false = true ∧
    (sV { groupV with img := 0x90000000 } (taking p)).events = [] := by decide +kernel
/-- A suspended or saved group on core 0, whose resources are free; its image as written, not mapped, and changed. -/
def sAway (g : Group := { groupV with st := .suspended, lanesLv := 0, regsLv := 0, scrLv := 0 }) : State :=
  { sV g { freed := true, freedAt := 5 } { gangV with held := [] } with grids := [(1, gridV)] }
theorem wit_Resumption :
    let next (s : State) : Bool := s.givesOut 0 && ((s.nextCand 0).map fun x => x.2) == some (.resume 1)
    let away : Group := { groupV with st := .suspended, lanesLv := 0, regsLv := 0, scrLv := 0, img := 0x90000000 }
    let changed : State := { sAway with spoiled := [(1, 0x40300000)] }
    next sAway = true ∧ sAway.tampered 1 = none ∧ (sAway.cluster 0).pwr = .powered ∧ next (sAway away) = true ∧ ((sAway away).unreadable 1).isSome ∧
    next changed = true ∧ changed.tampered 1 = some 0x40300000 ∧ next (sAway { groupV with st := .saved, queuedLd := true }) = true := by decide +kernel
theorem wit_Resumption_readable : sAway.unreadable 1 = none := by decide +kernel
theorem wit_Resumption_tampered : ({ sAway with spoiled := [(1, 0x40300000)] } : State).unreadable 1 = none := by decide +kernel

/-- Nothing to raise, and a group below its level. -/
theorem wit_Expansion :
    let s (g : Group) : State := { sV g { freed := true, freedAt := 5 } with grids := [(1, gridV)] }
    (s groupV).givesOut 0 = true ∧ (s groupV).nextCand 0 = none ∧
    (((s { groupV with regsLv := 2 }).nextCand 0).map fun x => x.2) = some (.raise 1) := by decide +kernel

theorem rdLE_congr (m m' : List Host.Cell) (n : Nat) : ∀ a, (∀ b, a ≤ b → b < a + n → rdByte m b = rdByte m' b) → rdLE m a n = rdLE m' a n := by
  induction n with
  | zero => intro a _; rfl
  | succ n ih =>
    intro a h
    simp only [rdLE]
    rw [h a (by omega) (by omega), ih (a + 1) fun b h1 h2 => h b (by omega) (by omega)]
/-- Tables with these two entries translate context 1's second GiB one to one, writable. -/
theorem walk_of (m : List Host.Cell) (dies : Nat → Bool) (off : Nat) (h0 : pte m 16 = 0x40001) (h1 : pte m 0x40008 = 0x40000183) (hd : dies 0 = true)
    (ho : 0x40000000 ≤ off ∧ off < 0x80000000) :
    walkIn m dies 1 0 off false = some ⟨⟨false, 0x40000000⟩, 2 ^ 30, false, false, true, true, false⟩ := by
  have hb : bitsOf off 44 30 = 1 := by simp [bitsOf, Nat.shiftRight_eq_div_pow]; omega
  have hp : ptrOf dies (2 ^ 18) 0x40001 = some 0x40000 := by simp [ptrOf, bitsOf, hd, Config.hbmBytes]
  unfold walkIn
  rw [show 0 * 2 ^ 38 + 8 * (2 * 1 + flag false) = 16 from rfl, h0, hp]
  dsimp only
  rw [hb, show 0x40000 + 8 * 1 = 0x40008 from rfl, h1, if_pos (by decide)]
  decide +kernel
/-- So every write of context 1 there lands at the address itself. -/
theorem xlate_of (u : State) (va : Nat) (hc : u.ctx 1 = { asg := true, tabs := tables }) (hm : u.mode = .whole)
    (h0 : pte u.mem 16 = 0x40001) (h1 : pte u.mem 0x40008 = 0x40000183) (hv : 0x40000000 ≤ va ∧ va < 0x80000000) :
    u.xlate 1 true .write va = .ok ⟨false, va⟩ := by
  have hd : u.ctxDie 1 0 = true := by simp [State.ctxDie, hc, hm]; decide
  have go (m : List Host.Cell) (p0 : pte m 16 = 0x40001) (p1 : pte m 0x40008 = 0x40000183) :
      u.leafIn m 1 va = some ⟨⟨false, 0x40000000⟩, 2 ^ 30, false, false, true, true, false⟩ := by
    have e1 : bitsOf va 47 46 = 0 := by simp [bitsOf, Nat.shiftRight_eq_div_pow]; omega
    have e2 : bitsOf va 45 45 = 0 := by simp [bitsOf, Nat.shiftRight_eq_div_pow]; omega
    have e3 : bitsOf va 44 0 = va := by simp [bitsOf]; omega
    have lt : va < 281474976710656 := by omega
    simp [State.leafIn, e1, e2, e3, hd, walk_of m (u.ctxDie 1) va p0 p1 hd hv, lt]
  have hl : u.leaf 1 va = some ⟨⟨false, 0x40000000⟩, 2 ^ 30, false, false, true, true, false⟩ := by
    simp [State.leaf, State.genLeaf, State.newLeaf, go u.mem h0 h1, hc, go tables (by decide +kernel) (by decide +kernel)]
  simp [State.xlate, hl, Leaf.at_]; omega
/-- A state that differs only above the tables has them too. -/
theorem pte_of (s u : State) (p : Nat) (h : ∀ b, p ≤ b → b < p + 8 → u.byteAt false b = s.byteAt false b) : pte u.mem p = pte s.mem p :=
  rdLE_congr _ _ _ _ fun b hb hb' => by simpa [State.byteAt] using h b hb hb'
theorem steady_of (s : State) (a n : Nat) (hc : s.ctx 1 = { asg := true, tabs := tables }) (hm : s.mode = .whole)
    (h0 : pte s.mem 16 = 0x40001) (h1 : pte s.mem 0x40008 = 0x40000183) (ha : 0x40000000 ≤ a ∧ a + n ≤ 0x80000000) :
    s.steady 1 a n fun j => ⟨false, a + j⟩ := by
  refine ⟨fun i j _ _ h => by simpa using h, fun j _ => by simp; omega, fun u uc um _ h j hj => ?_⟩
  have hk (p : Nat) (hp : p + 8 ≤ 0x40000000) : pte u.mem p = pte s.mem p := pte_of s u p fun b _ hb => by
    rcases h false b with ⟨i, _, hi⟩ | h
    · simp at hi; omega
    · exact h
  exact xlate_of u (a + j) (by simpa [State.ctx, uc] using hc) (um.trans hm) ((hk 16 (by decide)).trans h0) ((hk 0x40008 (by decide)).trans h1)
    ⟨by omega, by omega⟩
/-- Lines, pages and words of the image lie in that GiB. -/
theorem wit_ImageWrites :
    (sV.steady 1 (sV.lineVa ⟨1, 0⟩ 0) 64 fun j => ⟨false, sV.lineVa ⟨1, 0⟩ 0 + j⟩) ∧
    (sV.steady 1 (sV.scrVa 1 256) 256 fun j => ⟨false, sV.scrVa 1 256 + j⟩) ∧ (sV.grid (sV.group 1).grid).ctx = 1 :=
  ⟨steady_of sV _ 64 (by decide +kernel) rfl (by decide +kernel) (by decide +kernel) (by decide +kernel),
   steady_of sV _ 256 (by decide +kernel) rfl (by decide +kernel) (by decide +kernel) (by decide +kernel), by decide +kernel⟩
theorem wit_ImageWords :
    let f (i j : Nat) : Loc := ⟨false, 0x40300000 + 8 * i + j⟩
    (∀ i, i < 2 → ∀ u : State, u.ctxs = sV.ctxs → u.mode = sV.mode → u.tick = sV.tick →
      (∀ h b, (∃ i j, i < 2 ∧ j < 8 ∧ f i j = ⟨h, b⟩) ∨ u.byteAt h b = sV.byteAt h b) →
      ∀ j, j < 8 → u.xlate 1 true .write (0x40300000 + 8 * i + j) = .ok (f i j)) ∧
    (∀ i j, i < 2 → j < 8 → f i j = { f i 0 with key := (f i 0).key + j }) ∧
    ∀ i j i' j', i < 2 → j < 8 → i' < 2 → j' < 8 → f i j = f i' j' → i = i' ∧ j = j' := by
  refine ⟨fun i hi u uc um _ h j hj => ?_, fun i j _ _ => by simp, fun i j i' j' _ _ _ _ h => by simp at h; omega⟩
  have hk (p : Nat) (hp : p + 8 ≤ 0x40000000) : pte u.mem p = pte sV.mem p := pte_of sV u p fun b _ hb => by
    rcases h false b with ⟨i, j, _, _, hi⟩ | h
    · simp at hi; omega
    · exact h
  exact xlate_of u _ (by simp only [State.ctx, uc]; decide +kernel) um ((hk 16 (by decide)).trans (by decide +kernel))
    ((hk 0x40008 (by decide)).trans (by decide +kernel)) ⟨by omega, by omega⟩

/-- Amounts that grow with the level; a request without `susp` that folds alone can meet. -/
theorem wit_Lowering_amounts :
    let vs : List Vic := [{ group := 1, cls := 3, lv := 4, amt := fun n => 2 * n }]
    ∀ v ∈ vs, v.lv ≤ 4 ∧ ∀ a b, a ≤ b → v.amt a ≤ v.amt b := by
  simp
theorem wit_Lowering_plan : reqV.susp = false ∧ sV.victims 0 0 = [1] ∧ (sV.lowered reqV (1, 0, 0) [1]).2 = (0, 0, 0) ∧
    (let cs := (List.range (sV.grid 1).gangs).flatMap fun j => sV.carried 1 j
     (cs.map Prod.fst).Nodup ∧ cs.all (fun x => decide (x.1 < 32) && x.2.all fun j => decide (j < 1024)) = true ∧ cs ≠ []) := by decide +kernel
/-- A line that has gone out and is named again by a load; a suspension whose image is not mapped; a word of the image that must not change. -/
theorem wit_Folds_pinned :
    let p : Plan := { group := 1, lanes := 3, regs := 2, scr := 4, picks := some ((sV.linePicks 1 2).map fun x => (x, some 1)) }
    let run : Split := { pc := 0x40000000, mask := 0xFFFF, wins := [⟨5, 0, [.v 12]⟩] }
    let s := sV groupV (taking p) { gangV with lines := [(3, { wr := 2 })], infl := [eAlu], run := some run }
    ((s.foldList 1 p).all fun x => x.2.isSome) ∧ (s.foldAgain 1 (s.foldList 1 p)).any s.pickPinned = true ∧ s.planWrites 1 p = [] ∧
    (let s := sV { groupV with img := 0x90000000 } (taking { group := 1, suspend := true })
     (s.nextSuspend 0).isSome ∧ s.quiet 1 = true ∧ (s.allPicks 1).any (fun x => (s.pickBad 1 x).isSome) = true) ∧
    (1, ⟨false, 0x40300000⟩, 0x40300000) ∈ ({ sV with watched := [(1, ⟨false, 0x40300000⟩, 0x40300000)] } : State).watched ∧
    (sAway.grid 1).gangs ≤ 32 ∧ (sAway.group 1).floor = [] := by decide +kernel


/-! #### The front end -/

/-- A launch with one lease of one page, of one gang of 16 lanes and 16 registers. -/
def desc1 : List W64 := ((desc0.set 1 0x800000000101).set 27 1).set 45 0x10000
def sub1 : Sub := { daddr := 0x40008000, ctx := 0, part := 0 }
/-- That descriptor submitted behind one whose `launch` an earlier store holds back. -/
def sSub (d : List W64 := desc1) : State := { s0 with
  mem := d.zipIdx.foldl (fun m x => wrLE m (0x40008000 + 8 * x.2) x.1.toNat 8) tables,
  gangs := [(0, { gang0 with infl := [eSt] })], subs := [{ sub1 with daddr := 0x40009000, before := [5] }, sub1] }
theorem wit_TaskEnd : (s0.group (⟨0, 0⟩ : GangRef).group).st = .resident ∧ Sparse.has s0.grids 0 = true ∧ (s0.grid 0).st = .running ∧ s0.events = [] ∧ 0 < s0.uid := by
  decide +kernel
/-- A launch accepted, and one refused: class 4. -/
theorem wit_LaunchAcceptance :
    let good (s : State) : Bool := ((s.subs.take 1).all fun x => !s.subReady x) && s.subReady sub1 && sub1.node.isNone && s.subs.length == 2
    let code (s : State) : Nat := let s1 : State := { s with subs := s.subs.take 1 }; s1.refusal sub1 (s1.gridOf sub1)
    good sSub = true ∧ code sSub = 0 ∧ good (sSub (desc1.set 1 0x800000040101)) = true ∧ code (sSub (desc1.set 1 0x800000040101)) = 1 := by decide +kernel
/-- Fields at the ends of what each reason takes: class 3, a reserved field, a second quartet of 32 lanes; a parent, an indirect extent. -/
theorem wit_Refusals :
    let code (d : List W64) : Nat := s0.refusal sub1 { d := d, nx := 1, elems := [{}] }
    code desc1 = 0 ∧ code (desc1.set 1 0x800000030101) = 0 ∧ code (desc1.set 9 1) = 2 ∧ code (desc1.set 1 0x80000000219F) = 3 ∧
    code (desc1.set 1 0x80000000199F) = 0 ∧ ({ sub1 with parent := some 0 } : Sub).parent = some 0 ∧
    dfield ((desc1.set 1 0x800000800101).set 4 0x300000001) 0x008 23 23 = 1 ∧ dfield ((desc1.set 1 0x800000800101).set 4 0x300000001) 0x020 47 32 = 3 := by
  decide +kernel

/-- Pages that are there, one that is being moved, and one that is not mapped; a stack area of the right size, and none. -/
theorem wit_Residency :
    let m := wrLE tables 0x40010 0x80000583 8
    let s (a : W64) : State := { s0 with mem := m, ctxs := [(0, { tabs := m })], grids := [(0, { grid0 with d := desc1.set 44 a, st := .waiting })] }
    let stks : List (Nat × Nat) := [(0x40500000, 8192)]
    let ls (a : W64) : List (Option Leaf) := (((dLeases ((s a).grid 0).d).map id ++
      [(((s a).ctx 0).imgbase.toNat, ((s a).ctx 0).imgsz.toNat)] ++ stks).flatMap fun l => pagesOf l.1 l.2).map fun x => (s a).genLeaf 0 x
    ((s 0x40000000).grid 0).st = .waiting ∧ (s 0x40000000).stksGood ((s 0x40000000).grid 0) stks = true ∧
    (s 0x40000000).stksGood ((s 0x40000000).grid 0) [] = false ∧ (ls 0x40000000).map (fun l => l.map Leaf.m) = [some false, some false] ∧
    (ls 0x80000000).map (fun l => l.map Leaf.m) = [some true, some false] ∧ (ls 0x90000000000).head? = some none ∧
    ((s 0x90000000000).grid 0).node = none ∧ ((s 0x90000000000).grid 0).handle = none := by decide +kernel
/-- A grid of one group whose groups have ended, and one whose group has not; no survivor map. -/
theorem wit_GroupsDone : ({ grid0 with ended := [0] } : Grid).ended.length = grid0.count ∧ grid0.ended.length ≠ grid0.count ∧ grid0.survArea = 0 := by
  decide +kernel

/-- A running grid with a group to dispatch, to core 0, whose cluster has its power. -/
def sDisp : State := { s0 with gangs := [], groups := [], grids := [(0, { grid0 with d := desc1, det := true, stks := [(0x40500000, 8192)] })],
                               ctxs := [(0, { tabs := tables, imgbase := 0x40300000, imgsz := 0x100000 })] }
theorem wit_GroupDispatch : sDisp.waitingGroup (sDisp.grid 0) = some 0 ∧
    sDisp.mayDispatch 0 0 [[0, 1, 2, 3]] 0x40300000 0x40500000 = true ∧ (sDisp.cluster 0).pwr = .powered ∧
    ({ sDisp with clusters := [(0, { pwr := .gated })] } : State).mayDispatch 0 0 [[0, 1, 2, 3]] 0x40300000 0x40500000 = true := by decide +kernel
/-- A group whose lanes have all exited; a grid whose one group has ended. -/
theorem wit_Ends :
    (s0g fun g => { g with live := 0, run := none }).groupOver 0 = true ∧ ((s0g fun g => { g with live := 0, run := none }).grid 0).node = none ∧
    (let s : State := { s0 with grids := [(0, { grid0 with ended := [0], handle := some 3, parent := some 1, det := true }), (1, { det := true })] }
     s.gridOver 0 = true ∧ (s.grid 0).node = none) ∧
    (let ds : List DRed := [⟨0, 0, 0, 0, 0x80000100, .add, .n32, 1, 0⟩, ⟨0, 0, 0, 1, 0x80000100, .add, .n32, 2, 0⟩]
     ds.Perm ds.reverse ∧ (ds.map DRed.key).Nodup) := by decide +kernel

/-- A running graph that waits for a log segment, before and at its patience (1 in the table's bits 31:16); one halted at node 1. -/
def sLog (now : Nat) (ls : LogSt) : State := { s0 with
  now := now, graphs := [(0, { nn := 2, t := 0x10002 :: List.replicate 23 0, seg := 0x40005000, log0 := 0x40005000, ls := ls, bad := some (1, false),
                               nodes := [(1, { st := 1, grid := some 0 })] })] }
theorem wit_ProofRuns :
    (let s := sLog 1000 (.waiting 0)
     s.nodeRuns (s.graph 0) 1 = true ∧ (s.graph 0).ls = .waiting 0 ∧ ((List.range 2).all fun j => !((s.graph 0).node j).held) ∧ ((s.graph 0).node 1).st = 1 ∧
     0 + 1000 * (((s.graph 0).t.getD 0 0).toNat / 2 ^ 16 % 2 ^ 16) = 1000) ∧
    (let s := sLog 999 (.waiting 0); s.now < 0 + 1000 * (((s.graph 0).t.getD 0 0).toNat / 2 ^ 16 % 2 ^ 16)) ∧
    (let g := (sLog 0 .halted).graph 0; g.ls = .halted ∧ g.bad = some (1, false) ∧ g.redo = none ∧ (g.node 1).grid = some 0 ∧ ((g.nodes.map fun x => x.2.digest).all (·.isNone))) := by decide +kernel
/-- Re-executions of a halted graph's node 1 that run, that have ended without a digest, and that agree with a log that holds none. -/
theorem wit_ReExecution :
    let s (x : Redo) : State := { sLog 0 .halted with graphs := (sLog 0 .halted).graphs.map fun y => (y.1, { y.2 with redo := some x }) }
    let idle (x : Redo) : Bool := x.grid.isNone && x.todo.isEmpty
    idle { todo := [], got := [(1, none)] } ∧ (s { todo := [], got := [(1, none)] }).agrees 0 1 false [(1, none)] = false ∧
    (s { todo := [] }).agrees 0 1 false [(1, some 9)] = true ∧ (({ todo := [], grid := some 7 } : Redo).grid ≠ none) ∧
    ((s { todo := [] }).node 0 1).grid = some 0 ∧ ((s { todo := [] }).graph 0).redo = some { todo := [] } := by decide +kernel

/-- A graph of a launch with a tile-mapped edge into node 1, a launch with a full edge to node 2 and an early edge to node 3, a decision, and a
plain node; grid 0 runs node 0, grid 1 node 1. -/
def graphT : List W64 := List.replicate 8 0 ++ [0x10000, 0x40008000, 1, 1, 0, 0, 0, 0] ++ [0x20100, 0x40008000, 0x302, 8, 0, 0, 0, 0] ++
  [0x101, 0x40003000, 0, 0, 0, 0, 0, 0] ++ [0x102, 0, 0, 0, 0, 0, 0, 0]
def sGr (ls : LogSt := .off) (ns : Sparse Node := []) (m : List Host.Cell := tables) (a b : Grid := grid0) (failed : Bool := false) : State := { s0 with
  mem := m, grids := [(0, { a with node := some ⟨0, 0⟩ }), (1, { b with node := some ⟨0, 1⟩ })],
  graphs := [(0, { table := 0x40007000, t := graphT, nn := 4, seg := 0x40005000, log0 := 0x40005000, ls := ls, nodes := ns, failed := failed })] }
/-- A log of one entry: kind, node, value. -/
def logMem (kind node value : Nat) : List Host.Cell :=
  wrLE (wrLE (wrLE tables 0x40005010 1 4) 0x40005040 (node + kind * 2 ^ 56) 8) 0x40005048 value 8
/-- Nodes' kinds and edges; nodes that wait for a log entry that is reserved, that the log holds, or holds otherwise, or lacks. -/
theorem wit_NodesDone :
    (List.range 4).map (nodeKind graphT) = [0, 0, 1, 2] ∧ (nodeEdges graphT 1).map Edge.dest = [2, 3] ∧ (nodeEdges graphT 1).map Edge.kind = [0, 2] ∧
    ((sGr .recording [(1, { st := 1, grid := some 1, reserved := true })]).node 0 1).reserved = true ∧
    (sGr .checking [] (logMem 1 1 9)).findEntry 0 1 1 0x40005000 segFuel = .value 9 ∧
    (sGr .checking [] (logMem 1 2 9)).findEntry 0 1 1 0x40005000 segFuel = .none ∧ ((sGr .checking).graph 0).failed = false := by decide +kernel
/-- Decisions: by a word that reads 0, behind a release, by the log; launches: of a deterministic node, with room in the log and without. -/
theorem wit_Releases :
    let rel : Rel := { r := ⟨0, 0⟩, scope := .dev, at_ := (0, 0, 0x40003000), bytes := 4, ids := [5] }
    let behind : State := { sGr with gangs := [(0, { gang0 with infl := [eSt] })], rels := [rel] }
    let det (m : List Host.Cell) : Bool := bitsOf ((sGr .off [] m).vaRead 0 0x40008008 8) 22 22 == 1
    let m := wrLE tables 0x40008008 0x400000 8
    ((sGr .halted).graph 0).stopped = true ∧ (sGr.graph 0).stopped = false ∧ sGr.mayDecide 0 2 = true ∧ behind.mayDecide 0 2 = false ∧
    ((sGr.node 0 2).posted = none ∧ sGr.vaRead 0 (nodeAddr graphT 2) 4 = 0 ∧ sGr.choice 0 2 = 0) ∧
    ((sGr .off [(2, { posts := [(1, 5)] })]).node 0 2).posted = some 5 ∧
    ((sGr .recording).reserve 0 2).1 = false ∧ ((sGr .recording [] (wrLE tables 0x40005018 4 4)).reserve 0 2).1 = true ∧
    (sGr .checking [] (logMem 2 2 0)).findEntry 0 2 2 0x40005000 segFuel = .value 0 ∧ (sGr .checking [] (logMem 2 2 1)).findEntry 0 2 2 0x40005000 segFuel = .value 1 ∧
    (sGr .checking).findEntry 0 2 2 0x40005000 segFuel = .none ∧
    det tables = false ∧ det m = true ∧ ((sGr .recording [] m).reserve 0 1).1 = false ∧ ((sGr .recording [] (wrLE m 0x40005018 4 4)).reserve 0 1).1 = true ∧
    (sGr .checking [] m).snapSize 0 1 ≤ ((sGr .checking [] m).graph 0).snapN := by decide +kernel
/-- Node 1 waits for a group of node 0's grid; both done; node 0 failed, with and without a log; graphs that have quit. -/
theorem wit_GraphEnds :
    let run : Sparse Node := [(0, { st := 1, grid := some 0 }), (1, { st := 1, grid := some 1 })]
    let at_ (a b c d : Nat) : Sparse Node := [(0, { st := a }), (1, { st := b }), (2, { st := c }), (3, { st := d })]
    let quits (s : State) : Bool := !(s.graph 0).finished && (List.range 4).all fun k => !s.nodeRuns (s.graph 0) k
    let fed := sGr .off run
    ((fed.graph 0).node 0).st ≠ 3 ∧ ((fed.graph 0).node 0).grid = some 0 ∧ (List.range 3).all (fun m => decide (0 < (fed.grid 0).extent m)) = true ∧
    fed.boxDone (fed.graph 0) 1 0 (fed.grid 1) 0 = false ∧ (sGr .off run tables { grid0 with ended := [0] }).boxDone (fed.graph 0) 1 0 (fed.grid 1) 0 = true ∧
    (let s := sGr .off [(0, { st := 4 }), (1, { st := 1, grid := some 1 })]
     let s1 : State := { s with groups := [] }
     (s1.graph 0).starved 1 = true ∧ s1.dispatchedAll (s1.graph 0) 1 = false ∧ s1.gridLive 1 = false ∧ 0 < (s1.graph 0).nn) ∧
    fed.gridLive 0 = true ∧ (fed.node 0 0).st = 1 ∧
    quits (sGr (.ended 4) (at_ 2 2 0 0)) = true ∧ quits (sGr .recording (at_ 2 2 2 3)) = true ∧ quits (sGr .checking (at_ 2 2 2 2)) = true ∧
    quits (sGr .off (at_ 2 0 0 0)) = true ∧ quits (sGr .off (at_ 2 5 4 0) tables grid0 grid0 true) = true ∧
    ((sGr .off (at_ 2 5 4 0) tables grid0 grid0 true).node 0 1).st = 5 := by decide +kernel
/-- Grids of nodes that are over, as such and as run again; an early edge that fires, of a launch and of a node; maps that are written. -/
theorem wit_NodeGrids :
    let done (redo : Bool) : State := sGr .off [(0, { st := 1, grid := some 0 })] tables { grid0 with ended := [0], redo := redo }
    let fires (s : State) : Bool := !(s.grid 0).edge && (s.grid 0).st == .running && decide ((s.grid 0).issued ≤ (s.grid 0).dispatched) &&
      decide ((s.grid 0).issued * (s.grid 0).gangs * (s.grid 0).w ≤ s.marksOf 0)
    (done false).gridOver 0 = true ∧ (done true).gridOver 0 = true ∧ ((done false).grid 0).redo = false ∧ ((done true).grid 0).redo = true ∧
    ((done false).grid 0).node = some ⟨0, 0⟩ ∧ ((done false).grid 0).parent = none ∧
    fires (sGr .off [] tables { grid0 with dispatched := 1, marked := 32 }) = true ∧ fires { s0 with grids := [(0, { grid0 with dispatched := 1, marked := 32 })] } = true ∧
    fires s0 = false ∧
    (let g : Grid := { grid0 with d := grid0.d.set 6 0x40010000, surv := [(1, [3]), (0, [1, 2])] }
     g.survArea ≠ 0 ∧ [(0, [1, 2]), (1, [3])].Perm g.surv ∧ [(0, [1, 2]), (1, [3])].Pairwise fun (x y : Nat × List Nat) => x.1 < y.1) ∧
    ((sGr .off [(0, { bmp := some (0, 1) })]).node 0 0).bmp = some (0, 1) ∧ (sGr.node 0 0).bmp = none := by decide +kernel

/-! #### The fabric and its ends -/

/-- Port 3 in the ordered class, following port 2. -/
def sFab (p : Port := { enabled := true }) : State := { s0 with tsrc := 2, now := 20000000, ftime := 5000, ports := [(3, p)] }
theorem wit_Fabric :
    sFab.tsrc ≠ 15 ∧ sFab.tsyncTx + 100000 ≤ sFab.now ∧ sFab.tsrc.toNat < 12 ∧
    ({ sFab with tsync := ⟨0, 0, 0, true⟩ } : State).tsync.open_ = true ∧ sFab.holdover = false ∧ sFab.tsyncAt + 10000000 ≤ sFab.now ∧ sFab.events = [] ∧
    (sFab.port 3).enabled = true ∧ (sFab.port 3).sentAt + 1000 ≤ sFab.now ∧ (sFab.port 3).quietTo ≤ sFab.now ∧
    3 ∈ sFab.orderedPorts ∧ (sFab.port 3).stalled = false ∧
    (sFab.port 3).wmAt + 1000 * sFab.fstall.toNat ≤ sFab.now ∧ (sFab.port 3).lanes = 4 := by decide +kernel
/-- Beacons 2^46 ns away, on either side, one nanosecond less, and 2^47 ns away; ports that send none yet: off, or having just sent, or silent. -/
theorem wit_Beacons :
    let far (t : BitVec 48) : Bool := decide (2 ^ 46 ≤ ((5000 : BitVec 48) - t).toNat ∧ 2 ^ 46 ≤ (t - (5000 : BitVec 48)).toNat)
    far (5000 - 2 ^ 46) = true ∧ far (5000 + 2 ^ 46) = true ∧ far (5001 - 2 ^ 46) = false ∧ far (4999 + 2 ^ 46) = false ∧ far (5000 + 2 ^ 47) = true ∧
    ((sFab {}).port 3).enabled = false ∧ (sFab {}).now < ((sFab { sentAt := 19999001 }).port 3).sentAt + 1000 ∧
    (sFab {}).now < ((sFab { quietTo := 20000001 }).port 3).quietTo := by decide +kernel
/-- An offset below −1 µs, and −1 µs itself. -/
theorem wit_TimeExchange : ((1001 : BitVec 48) - 3003).toInt - ((0 : BitVec 48) - 0).toInt = -2002 ∧
    ((1000 : BitVec 48) - 3000).toInt - ((0 : BitVec 48) - 0).toInt = -2000 := by decide
/-- An ordered packet that is in time, one 2^46 ns old (late), one below a readmitted port's floor, and one at a fenced port. -/
theorem wit_OrderedArrival :
    let age (p : Packet) : Nat := ((5000 : BitVec 48) - p.stamp.t).toNat
    ¬2 ^ 46 ≤ age (pkt 7) ∧ age { pkt 7 with stamp := ⟨5000 - 2 ^ 46, 7, 0⟩ } = 2 ^ 46 ∧ age { pkt 7 with stamp := ⟨5001 - 2 ^ 46, 7, 0⟩ } = 2 ^ 46 - 1 ∧
    Stamp.before (pkt 7).stamp ⟨101, 0, 0⟩ = true ∧ ((sFab { fenced := true }).port 3).fenced = true ∧ (pkt 7).src ≠ sFab.srcid ∧
    (pkt 0).src = sFab.srcid := by decide +kernel
/-- The head of port 3 is the bound, behind no equal stamp at a lower port; a packet for another package. -/
theorem wit_OrderedDelivery :
    let s := sFab { enabled := true, inq := [pkt 7] }
    s.collBefore s.boundM = false ∧ s.localq.head? = none ∧ 3 ∈ s.orderedPorts ∧ (s.port 3).inq = pkt 7 :: [] ∧ (pkt 7).stamp = s.boundM ∧ (s.orderedPorts.all fun j => decide (3 ≤ j)) = true ∧
    (pkt 7).pkg = s.srcid ∧ ({ pkt 7 with pkg := 9 } : Packet).pkg ≠ s.srcid := by decide +kernel

/-- The descriptor of an ordered collective of two members. -/
def ordDesc (rank : W64) : List W64 := [0x40001000, 0x40002000, 1, 0, 2 + 0x100000000 * rank, 0x10, 0x40003000, 0]
/-- An ordered collective with a stamp below every other, whose members are in this package: it comes before any packet. An own packet first. -/
theorem wit_OrderedDelivery_first :
    (let o (rank : W64) : Op := { st := .running, stamp := some ⟨5, 0, 0⟩,
                                  kind := .coll .agath .n32 0x40009000 (ordDesc rank) [0, 0] [1, 0, 0, 0] }
     let s := { sFab { enabled := true, inq := [pkt 7] } with ctxs := [(0, { ops := [(okey engColl 1, o 0), (okey engColl 2, o 1)] })] }
     s.collBefore s.boundM = true) ∧
    (let s : State := { s0 with localq := [pkt 0] }
     s.collBefore s.boundM = false ∧ (pkt 0).stamp = s.boundM) := by decide +kernel

/-- s0 with a window of context 1, assigned to partition 0, exported by it. -/
def sWin : State := { s0 with ctxs := [(0, { tabs := tables }), (1, { asg := true, tabs := tables })], exported := [(0, 1, 0x40001000, 8)] }
/-- Packets rejected (outside the window, to its last byte; a partition that does not exist), and accepted. -/
theorem wit_PacketsAtTheirTarget :
    let ok (p : Packet) : Bool := (sWin.applyPkt p).isSome
    let loc (n : Need) (a k : Nat) : Bool := (sWin.remoteLoc 0 n a k).any fun l => l == ⟨false, a⟩
    (pkt 7).pkg = sWin.srcid ∧ (pkt 7).src ≠ sWin.srcid ∧ ok (pkt 7) = true ∧ ok (pkt 7 (.get 0x40001004 .n64)) = false ∧ ok (pkt 7 (.put 0x40001008 [1])) = false ∧
    ok { pkt 7 with part := 1 } = false ∧ ok (pkt 7 (.atom .add .n64 0x40001000 1 0)) = true ∧
    amoNew .cas .n64 5 6 7 = none ∧ amoNew .add .n64 5 6 7 = some 11 ∧ loc .read 0x40001000 8 = true ∧ loc .write 0x40001004 4 = true ∧ loc .write 0x40001007 1 = true := by decide +kernel
/-- Bytes to write: the window's last, and the first beyond it. -/
theorem wit_Payloads : (sWin.remoteLoc 0 .write 0x40001007 1).isSome ∧ sWin.remoteLoc 0 .write 0x40001008 1 = none ∧
    (pkt 7 (.put 0x40001007 [1, 2])).op = .put 0x40001007 [1, 2] ∧ (pkt 7 (.put 0x40001007 [])).op = .put 0x40001007 [] := by decide +kernel
/-- An own packet that waits to leave; operations in flight: refused, acknowledged, timed out at 10 ms, not yet. -/
theorem wit_NetworkOperations :
    let s (o : Op) (now : Nat) : State := { s0 with ctxs := [(0, { tabs := tables, tl := [(5, 1)], ops := [(okey engNet 1, o)] })], now := now, outbox := [pkt 0] }
    let o : Op := { st := .running, kind := .get 7 0x40001000 .n64, pos := 8 }
    pkt 0 ∈ (s o 0).outbox ∧ ((s o 0).op 0 engNet 1).st = .running ∧ o.pos ≠ 0 ∧ o.sent = true ∧ tgtPkg o.kind.target ≠ (s o 0).srcid ∧
    o.t0 + 1000 * (s o 10000000).ntmo.toNat ≤ (s o 10000000).now ∧ (s o 9999999).now < o.t0 + 1000 * (s o 9999999).ntmo.toNat := by decide +kernel

/-- A collective of two members at this one, rank 0, of one 4-byte element; with the skew asked for. -/
def collDesc (w5 : W64 := 0) : List W64 := [0x40001000, 0x40002000, 1, 0, 2, w5, 0x40003000, 0]
theorem wit_Collectives :
    let o (w5 : W64) : Op := { st := .running, kind := .coll .agath .n32 0x40009000 (collDesc w5) [0, 3] [1, 0, 0, 0], stamp := some ⟨5, 0, 0⟩ }
    let s (w5 : W64) (now : Nat) : State := { s0 with ctxs := [(0, { tabs := tables, tl := [(6, 1)], ops := [(okey engColl 1, o w5)] })], now := now }
    let c : Contrib := ⟨1, ⟨9, 3, 0⟩, [2, 0, 0, 0], true⟩
    let writes (w5 : W64) (data skew : List Byte) : Bool := okIs ((s w5 0).engWrite 0 0x40002000 data) fun s1 => okIs (s1.engWrite 0 0x40003000 skew)
    ((s 0 0).op 0 engColl 1).st = .running ∧ (s 0 0).collLocal (o 0) = [] ∧ (s 0 0).collHere [0, 3] 1 = none ∧
    collWhole .agath .n32 (collDesc 0) [c] = true ∧ collWhole .agath .n32 (collDesc 0) [] = false ∧
    collOrd (collDesc 0) = false ∧ writes 0 (collResult .agath .n32 (collDesc 0) [[1, 0, 0, 0], [2, 0, 0, 0]]) [] = true ∧
    collSk (collDesc 0x20) = true ∧ writes 0x20 (collResult .agath .n32 (collDesc 0x20) [[1, 0, 0, 0], [2, 0, 0, 0]]) (leBytes 4 8) = true ∧
    ({ c with agrees := false } : Contrib).agrees = false ∧ 0 + 1000 * (s 0 1000000000).ctmo.toNat ≤ (s 0 1000000000).now ∧
    (s 0 999999999).now < 0 + 1000 * (s 0 999999999).ctmo.toNat := by decide +kernel
/-- Two members in this package: each finds the other's contribution. -/
theorem wit_Collectives_local :
    let o (rank : W64) (x : Byte) : Op := { st := .running, stamp := some ⟨5, 0, 0⟩,
                                            kind := .coll .agath .n32 0x40009000 ((collDesc 0).set 4 (2 + 0x100000000 * rank)) [0, 0] [x, 0, 0, 0] }
    let s : State := { s0 with ctxs := [(0, { tl := [(6, 2)], ops := [(okey engColl 1, o 0 1), (okey engColl 2, o 1 2)] })] }
    !(s.collLocal (o 0 1)).isEmpty ∧ (s.collStamp (o 0 1)).isSome := by decide +kernel
/-- An ordered collective after a delivery above its stamp, and after none; one with the other member's contribution noted; a buffer that is not
mapped; and one of a member that never comes. -/
theorem wit_Collectives_order :
    let o : Op := { st := .running, kind := .coll .agath .n32 0x40009000 (ordDesc 0) [0, 3] [1, 0, 0, 0], stamp := some ⟨5, 0, 0⟩ }
    let c : Contrib := ⟨1, ⟨9, 3, 0⟩, [2, 0, 0, 0], true⟩
    let s (o : Op) (d : Option Stamp) : State := { sFab { enabled := true, inq := [pkt 7] } with ctxs := [(0, { tabs := tables, tl := [(6, 1)], ops := [(okey engColl 1, o)] })], lastDel := d }
    collOrd (ordDesc 0) = true ∧ (s o none).lastDel = none ∧ Stamp.before c.stamp ⟨10, 0, 0⟩ = true ∧ (s o none).collHere [0, 3] 1 = none ∧
    collFits .agath .n32 (ordDesc 0) c = true ∧ Stamp.before (s o none).boundM ⟨9, 3, 0⟩ = false ∧ ((s { o with heard := [c] } none).collStamp { o with heard := [c] }).isSome ∧
    (s o none).collStamp o = none ∧ okIs ((s o none).engWrite 0 0x90000000 [1]) = false := by decide +kernel

/-! #### Power -/

/-- A cluster between ratios: told to go from (2, 18) up to (0, 30), by its own target and by the ceiling; one gated, one that is not. -/
def sPow (c : Cluster) (ceil : Nat := 34) : State := { State.reset with clusters := [(31, c)], ceil := ceil, now := 100000 }
theorem wit_Frequencies :
    let up : Cluster := { r := 2, f := 8, rt := 0, fq := 30 }
    ((sPow up).cluster 31).pwr ≠ .gated ∧ up.fq ≤ (sPow up).ceil ∧ ¬up.fq ≤ (sPow up 29).ceil ∧ up.r ≠ 0 ∧ (14 ≤ ({ up with f := 14 } : Cluster).f) ∧
    ({ up with f := 18 } : Cluster).f ≤ 18 ∧ ({ up with r := 0, f := 22 } : Cluster).r = 0 := by decide
/-- Draws above, at and below the limit of 480 W, with the ceiling being lowered and not. -/
theorem wit_PowerWindow :
    let s : State := sPow { fq := 34 } 20
    s.pwAt + 10000 ≤ s.now ∧ min s.pwrlim.toNat s.board.toNat = 4800 ∧ 4800 < 4801 ∧ 20 * 4559 < 19 * 4800 ∧ ¬20 * 4560 < 19 * 4800 ∧
    (s.clusters.any fun x => decide (s.ceil < x.2.fq)) = true ∧ s.energyAt + 1000 ≤ s.now ∧ (s.cluster 31).stallAt + 10000 ≤ s.now := by decide
/-- A fall of more than a quarter, and of a quarter with a step's part; filler that runs; a cluster idle for 50 µs, on intent, and waking. -/
theorem wit_FillerAndGating :
    (sPow {}).clusterBusy 31 = false ∧ ((sPow {}).cluster 31).gate = true ∧ ((sPow {}).cluster 31).pwr = .powered ∧
    ((sPow {}).cluster 31).idleAt + 50000 ≤ (sPow {}).now ∧ (sPow {}).now < ((sPow { idleAt := 50001 }).cluster 31).idleAt + 50000 ∧
    4 * (700 + 49) < 3 * 1000 ∧ ¬4 * (700 + 50) < 3 * 1000 ∧ ((sPow { stepAt := some 99500 }).cluster 31).stepAt = some 99500 ∧ 100000 < 99500 + 1000 ∧ ((sPow { filler := some 5 }).cluster 31).filler.isSome ∧
    ((sPow { pwr := .intent 99000 }).cluster 31).pwr = .intent 99000 ∧ 99000 + 1000 ≤ (sPow {}).now ∧ (sPow {}).now < 99001 + 1000 ∧
    ((sPow { pwr := .waking 90000 }).cluster 31).pwr = .waking 90000 ∧ 90000 + 10000 ≤ (sPow {}).now ∧ (sPow {}).now < 90001 + 10000 ∧
    (let s : State := { sPow { pwr := .waking 90000 } with groups := [(5, { st := .landing, core := 248 })] }
     (s.group 5).st = .landing ∧ (s.group 5).core / 8 = 31) := by decide
/-- Slices of two contexts in one cluster; a gang that waits for memory. -/
theorem wit_ChargesAndSamples :
    s0.clusterSlices 0 ≠ [] ∧ s0.clusterSlices 1 = [] ∧ (s0.clusterGangs 0).length = 1 ∧ s0.clusterGangs 1 = [] ∧ ({ paid := [2] } : Group).paid = [2] ∧ (s0.group 0).paid = [] ∧ s0.clusterBusy 0 = true ∧ s0.clusterBusy 1 = false ∧
    ((sPow { pwr := .gated }).cluster 31).pwr = .gated := by
  decide +kernel


/-! #### Queues, packets, battens -/

/-- The read-only half of a queue of context 1, of 16 slots at 0x40006000, with windows of 16 bytes and of none. -/
def ro0 : List W64 := [0x40006000, 0x104, 0, 0x20001, 0x40001000, 16, 0, 0, 0] ++ List.replicate 7 0
/-- Queue 63 of partition 3, or queue 0 of partition 0, over a ring whose first packets are given by their headers. -/
def sQ (q : Queue) (hdr : Nat := 0) (k : Nat := 0) : State :=
  { State.reset with mem := wrLE tables 0x40006000 hdr 8, queues := [(k, q)], ctxs := [(0, { tabs := tables }), (1, { asg := true, tabs := tables })], link := .up, bst := 3 }
/-- Kicks of one place, of the most and of one more; a running queue's, by a ring and by one slot more; a stopped queue. -/
theorem wit_Kicks :
    let d (q : Queue) (w : W32) : Nat := (w - q.cur).toNat
    d { qst := 1, cur := 5 } 6 = 1 ∧ d { qst := 1, cur := 5 } 0x80000004 = 2 ^ 31 - 1 ∧ d { qst := 1, cur := 5 } 0x80000005 = 2 ^ 31 ∧
    d { qst := 1, cur := 5 } 5 = 0 ∧ ((sQ { qst := 5 } 0 255).queue (qkey 3 63)).qst = 5 ∧
    (let q : Queue := { qst := 2, ro := ro0, wr := 1, cur := 1 }
     q.it = none ∧ ¬2 ^ q.lsz < ((16 : W32) - q.rd).toNat ∧ 2 ^ q.lsz < ((17 : W32) - q.rd).toNat) := by decide +kernel
/-- A packet that is fine; an opcode that is undefined; a reserved flag; a size of two slots for one; an index beyond the ring. -/
theorem wit_PacketStart :
    let q : Queue := { qst := 2, ro := ro0, wr := 1, std := true, table := stdTable }
    let sorts (hdr : Nat) (q : Queue) : Bool × Bool × Bool × Bool :=
      let h := ((sQ q hdr).packetWords q 1).getD 0 0
      let e := (q.table.getD (h.toNat % 64) 0).toNat
      (q.tooFar, e % 2 ^ 16 == 0xFFFF, (h.toNat / 2 ^ 8 % 2 ^ 24) &&& (e / 2 ^ 32 % 2 ^ 24) != 0, h.toNat / 2 ^ 6 % 4 + 1 != e / 2 ^ 16 % 4 + 1)
    (sQ q).nextQueue 0 = some 0 ∧ (sQ q).ownsCtx 0 q.ctx = true ∧ q.kick = none ∧ (sQ { q with wr := 0 }).nextQueue 0 = none ∧ sorts 1 q = (false, false, false, false) ∧ sorts 6 q = (false, true, false, false) ∧
    sorts 0x201 q = (false, false, true, false) ∧ sorts 0x41 q = (false, false, false, true) ∧ (sorts 1 { q with wr := 17 }).1 = true ∧
    (sorts 1 { q with wr := 16 }).1 = false := by decide +kernel

/-- A packet at work, of the standard program or of another. -/
def it0 : Interp := { words := [0, 5, 6, 7, 8, 0, 0, 0], b := [0, 8, 0x40001000, 16, 9, 3, 2, 0x80] }
def qWork (it : Interp := it0) : Queue := { qst := 2, ro := ro0, wr := 1, it := some it }
theorem wit_AtWork : atWork (sQ (qWork { it0 with std := true })) (qWork { it0 with std := true }) { it0 with std := true } ∧
    atWork (sQ (qWork { it0 with left := 1 })) (qWork { it0 with left := 1 }) { it0 with left := 1 } :=
  ⟨⟨rfl, rfl, rfl, .inl rfl⟩, ⟨rfl, rfl, rfl, .inr (by decide)⟩⟩
/-- A launch of the queue that has not ended; values waited for that stand and that do not; a graph of no nodes. -/
theorem wit_Packets :
    let s := sQ (qWork { it0 with std := true })
    let busy : State := { s with subs := [{ daddr := 0, ctx := 1, part := 0, queue := some (0, 0) }] }
    s.queueLaunches (0, 0) = false ∧ s.queueDrained (0, 0) = true ∧ busy.queueLaunches (0, 0) = true ∧ busy.queueDrained (0, 0) = false ∧
    s.vaRead 1 0x40001000 8 = 0 ∧ graphBad 0x40007000 (s.vaWords 1 0x40007000 8) = true := by decide +kernel
/-- Window accesses at its last word, past its end and misaligned; branches taken and not; repeats that go on, end and stand in none. -/
theorem wit_Battens :
    let q := qWork
    let ok (a : BitVec 3) (o w : Nat) : Bool := let off := (it0.reg a + BitVec.ofNat 64 o).toNat; decide (off < (q.win w).2.toNat ∧ off % 8 = 0)
    ok 1 0 0 = true ∧ ok 1 8 0 = false ∧ ok 0 4 0 = false ∧ ok 0 0 1 = false ∧ it0.reg 0 ≠ it0.reg 1 ∧ it0.words.length = 8 ∧ it0.b.length = 8 ∧
    (it0.reg 6).toNat = 2 ∧ (it0.reg 5).toNat = 3 ∧ (sQ q).vaRead q.ctx (it0.reg 2).toNat 8 = 0 ∧ (sQ q).queueDrained (0, 0) = true ∧
    (({ it0 with pc := 4, rpt := [(3, 5, 1)] } : Interp).rpt = [(3, 5, 1)]) ∧
    (let i : Interp := { it0 with left := 0 }
     (sQ (qWork i)).queue (qkey (sQ (qWork i)).curQ.1 (sQ (qWork i)).curQ.2) = qWork i ∧ (qWork i).working = true ∧ i.std = false) := by decide +kernel

/-! #### The host link -/

/-- A window of 64 KiB at offset 0x10000 onto context 1's 0x40000000, that may be written; one at 0x20000 that may not. -/
def sHost (o : State := sQ {}) : State := { o with
  win := [(0, { hoff := 0x10000, vbase := 0x40000000, len := 0x10000, ctl := 0x301 }), (1, { hoff := 0x20000, vbase := 0x40000000, len := 0x10000, ctl := 0x101 })],
  ctxs := [(0, { tabs := tables }), (1, { asg := true, tabs := tables })] }
theorem wit_HostAccess :
    let reads (o : Nat) : Option Nat := (sHost.winLoc o false).map Loc.key
    let writes (o : Nat) : Option Nat := (sHost.winLoc o true).map Loc.key
    sHost.link = .up ∧ ({ sHost with link := .failed } : State).link ≠ .up ∧ sHost.buffer 0x10000 = false ∧ reads 0x10000 = some 0x40000000 ∧
    reads 0x1FFF8 = some 0x4000FFF8 ∧ writes 0x1FFFC = some 0x4000FFFC ∧ writes 0x20000 = none ∧ reads 0x30000 = none := by decide +kernel
/-- The download buffer's last word, while an image is awaited and verified; an error ring, with records dropped and with none, and one not set. -/
theorem wit_HostFailures :
    ({ sHost with bst := 1 } : State).buffer 0x3FFFFFF = true ∧ ({ sHost with bst := 2 } : State).buffer 0x3FFFFF8 = true ∧
    ({ sHost with bst := 1 } : State).buffer 0x4000000 = false ∧ sHost.winFor 0x30000 = none ∧ (sHost.winFor 0x10000).isSome ∧
    (let s (n : Nat) : State := { sHost with err := [(0, { set := true, base := 0x2000, lsz := 4, dropped := n })] }
     ((Sparse.get {} (s 0).err 0 : ErrRing).set = true ∧ (Sparse.get {} (s 0).err 0 : ErrRing).dropped = 0 ∧ (s 0).errFull 0 = false) ∧
     (Sparse.get {} (s 2).err 0 : ErrRing).dropped ≠ 0) ∧ (Sparse.get {} sHost.err 0 : ErrRing).set = false := by decide +kernel
/-- Control words of each kind, at their ends: kept ones, the command word while a command runs and while none does, read-only ones. -/
theorem wit_ControlWords :
    let kept (o : Nat) : Bool := decide ((0x208 ≤ o ∧ o < 0x240) ∨ (0x5000 ≤ o ∧ o < 0x5800) ∨ (0x6000 ≤ o ∧ o < 0x7000) ∨
      (0x8000 ≤ o ∧ o < 0x8200 ∧ (o % 64 = 0 ∨ o % 64 = 4)))
    ([0x208, 0x23C, 0x5000, 0x57FC, 0x6000, 0x6FFC, 0x8000, 0x81C4].all kept) = true ∧ ([0x204, 0x240, 0x5800, 0x7000, 0x8008, 0x8200].all fun o => !kept o) = true ∧
    sHost.mbCmd = 0 ∧ ({ sHost with mbCmd := 3 } : State).mbCmd ≠ 0 ∧ 0x10FC = 0x1000 * (0 + 1) + 4 * 63 := by decide +kernel

/-- A channel with one descriptor of eight bytes in its ring: out of the package, and into it. -/
def sDma (ctl : Nat) : State := { sHost with
  dma := [(7, { ring := 0x1000, lsz := 4, tail := 1 })], hostMem := wrLE (wrLE (wrLE (wrLE [] 0x1000 0x9000 8) 0x1008 0x40001000 8) 0x1010 8 8) 0x1018 ctl 4 }
theorem wit_Dma :
    let word (ctl k n : Nat) : Nat := rdLE (sDma ctl).hostMem (0x1000 + 32 * (((Sparse.get {} (sDma ctl).dma 7 : Dma).head).toNat % 2 ^ 4) + k) n
    let all (ctl : Nat) (n : Need) : Bool := (List.range 8).all fun i => ((sDma ctl).hostLoc 1 n (word ctl 8 8 + i)).any fun l => l == ⟨false, 0x40001000 + i⟩
    word 0x41 16 8 = 8 ∧ word 0x41 24 4 / 2 ^ 6 % 2 = 1 ∧ word 0x41 24 4 % 2 ^ 6 = 1 ∧ all 0x41 .read = true ∧ word 0x01 24 4 / 2 ^ 6 % 2 = 0 ∧
    all 0x01 .write = true ∧ word 0x41 24 4 / 2 ^ 7 % 2 = 0 ∧ (Sparse.get {} (sDma 0).dma 7 : Dma).head ≠ (Sparse.get {} (sDma 0).dma 7 : Dma).tail := by
  decide +kernel
/-- Lengths at the ends of what an image may have; the states of the boot ROM. -/
theorem wit_BootStates :
    let s (b : Nat) : State := { State.reset with link := .up, bst := b }
    (s 1).bst = 1 ∧ (4096 : W32).toNat = 4096 ∧ (67108864 : W32).toNat = 67108864 ∧ ¬(4096 ≤ (4095 : W32).toNat) ∧ ¬(67108865 : W32).toNat ≤ 67108864 ∧
    (s 2).bst = 2 ∧ (s 3).bst = 3 ∧ (s 0).linkLog = false ∧ State.reset.link ≠ .up := by decide +kernel
theorem rdLE_nil (a n : Nat) : rdLE [] a n = 0 := by
  induction n generalizing a with
  | zero => rfl
  | succ n ih => simp [rdLE, rdByte, ih, Sparse.get]
/-- An image whose first word is wrong. (One that passes every check would have a hash that the part's fuses hold and a signature that
verifies: what they are the manual does not give, so no image in a test can have them; log entry 9.) -/
theorem wit_BootFails : ({ State.reset with bst := 2 } : State).imageReason = 1 := by
  simp [State.imageReason, State.reset, rdLE_nil]

/-- A command in the mailbox, with its arguments. -/
def sMb (cmd : W32) (args : List W64) (s : State := sHost) : State := { s with mbCmd := cmd, mbArg := args.zipIdx.map fun x => (x.2, x.1) }
theorem wit_Mailbox :
    let busy : State := { sMb 1 [0] with subs := [sub1] }
    (sMb 1 [2]).idle = true ∧ busy.idle = false ∧ (sMb 1 [3]).arg 0 = 3 ∧ (sMb 2 [63, 0]).mode.hasPart 0 = true ∧ (sMb 2 [1, 1]).mode.hasPart 1 = false ∧
    (sMb 2 [63, 0]).hasGroups 63 = false ∧
    ({ sMb 2 [1, 0] with groups := [(0, { st := .resident })], grids := [(0, { ctx := 1 })] } : State).hasGroups 1 = true ∧
    (sMb 4 [0, 0] (sHost (sQ qWork))).bst = 3 ∧ ((sMb 4 [0, 0] (sHost (sQ qWork))).queue (qkey 0 0)).working = true ∧
    ((sMb 4 [0, 1]).queue (qkey 0 1)).working = false ∧ (sMb 5 [0, 0x9000, 12, 65535]).arg 3 = 65535 ∧ (6 : W32).toNat > 5 := by decide +kernel
/-- Control blocks that enable: of the standard program, of a program with no fault and of one with an undefined word; a ring that
is too small, and one of another partition. -/
theorem wit_EnableQueue :
    let s (prog : Nat) (w1 : Nat) (code : Nat) : State := sMb 3 [0, 1, 0x40005000] { sHost with
      mem := wrLE (wrLE (wrLE (wrLE tables 0x40005000 0x40006000 8) 0x40005008 w1 8) 0x40005010 prog 8) 0x40009200 code 4, stdProg := 0x40009400 }
    let ro (x : State) : List W64 := x.vaWords 0 0x40005000 16
    let bad (x : State) : Option Nat := (x.enabling (qkey 0 1) 0x40005000 (ro x)).2
    (s 0x40009400 0x104 0).enableFails 0 1 (ro (s 0x40009400 0x104 0)) = false ∧ (s 0x40009400 0x104 0).stdProg = (ro (s 0x40009400 0x104 0)).getD 2 0 ∧
    bad (s 0x40009400 0x104 0) = none ∧ (s 0x40009400 0x102 0).enableFails 0 1 (ro (s 0x40009400 0x102 0)) = true ∧
    (s 0x40009400 0x4104 0).enableFails 0 1 (ro (s 0x40009400 0x4104 0)) = true ∧
    (bad (s 0x40009000 0x104 0xFC000000)).isSome = true := by decide +kernel


/-! ### Single steps, with results worked out by hand from the entries: v1 = 7, −5; v2 = 3, 2; v4:v5 = 2^32 + 1, 0; p1 true in lane 0 -/

/-- The instruction leaves those values in v10 of lanes 0 and 1. -/
def v10 (s : State) (x : Instr × W32 × W32) : Bool :=
  nextIs (exec x.1 s) fun t => (t.gang ⟨0, 0⟩).vreg 0 10 == x.2.1 && (t.gang ⟨0, 0⟩).vreg 1 10 == x.2.2
theorem test_integer : ([
    (.add .n32 (.v 10) (.v 1) (.v 2), 10, 0xFFFFFFFD), (.sub .s32 (.v 10) (.v 1) (.v 2), 4, 0xFFFFFFF9), (.mul .n32 (.v 10) (.v 1) (.v 2), 21, 0xFFFFFFF6),
    (.mulhi .s32 (.v 10) (.v 1) (.v 2), 0, 0xFFFFFFFF), (.mulhi .n32 (.v 10) (.v 1) (.v 2), 0, 1), (.mad .s8 (.v 10) (.v 1) (.v 2) (.imm 9), 30, 0xFFFFFFFF),
    (.madw .s32 (.v 10) (.v 1) (.v 2) (.v 4), 22, 0xFFFFFFF6), (.min .s32 (.v 10) (.v 1) (.v 2), 3, 0xFFFFFFFB), (.max .n32 (.v 10) (.v 1) (.v 2), 7, 0xFFFFFFFB),
    (.abs .s32 (.v 10) (.v 1), 7, 5), (.abs .s32 (.v 10) (.v 6), 0x80000000, 0), (.neg .n32 (.v 10) (.v 1), 0xFFFFFFF9, 5), (.clz .n32 (.v 10) (.v 1), 29, 0),
    (.popc .b32 (.v 10) (.v 1), 3, 31), (.add .n32 (.v 10) (.v 7) (.imm 1), 0, 1)] : List (Instr × W32 × W32)).all (v10 s0) = true := by decide +kernel
/-- The high word of `madw`, a carry out of `addc`, and what a division will write. -/
theorem test_wide_integer :
    nextIs (exec (.madw .s32 (.v 10) (.v 1) (.v 2) (.v 4)) s0) (fun t => (t.gang ⟨0, 0⟩).vreg 0 11 == 1 && (t.gang ⟨0, 0⟩).vreg 1 11 == 0xFFFFFFFF) ∧
    nextIs (exec (.addc .n32 10 (.v 7) (.v 2) 1) s0) (fun t => (t.gang ⟨0, 0⟩).vreg 0 10 == 3 && (t.gang ⟨0, 0⟩).preg 0 1 && !(t.gang ⟨0, 0⟩).preg 1 1) ∧
    nextIs (exec (.div 0 .s32 (.v 10) (.v 1) (.v 2)) s0) (fun t => (t.gang ⟨0, 0⟩).infl.any fun e => e.rw == [.v 0 10 2, .v 1 10 0xFFFFFFFE]) ∧
    nextIs (exec (.rem 0 .s32 (.v 10) (.v 1) (.v 2)) s0) (fun t => (t.gang ⟨0, 0⟩).infl.any fun e => e.rw == [.v 0 10 1, .v 1 10 0xFFFFFFFF]) := by
  decide +kernel
theorem test_logic : ([
    (.and .n32 (.v 10) (.v 1) (.v 2), 3, 2), (.or .n32 (.v 10) (.v 1) (.v 2), 7, 0xFFFFFFFB), (.xor .n32 (.v 10) (.v 1) (.v 2), 4, 0xFFFFFFF9),
    (.not .n32 (.v 10) (.v 1), 0xFFFFFFF8, 4), (.andn .n32 (.v 10) (.v 1) (.v 2), 4, 0xFFFFFFF9), (.shl .n32 (.v 10) (.v 1) (.v 2), 56, 0xFFFFFFEC),
    (.shr .n32 (.v 10) (.v 1) (.v 2), 0, 0x3FFFFFFE), (.sar .s32 (.v 10) (.v 1) (.v 2), 0, 0xFFFFFFFE), (.rot true .b32 (.v 10) (.v 1) (.v 2), 0xE0000000, 0xFFFFFFFE),
    (.rot false .b32 (.v 10) (.v 1) (.v 2), 56, 0xFFFFFFEF), (.brev .b32 (.v 10) (.v 1), 0xE0000000, 0xDFFFFFFF), (.sel .n32 10 (.v 1) (.v 2) 1, 7, 2),
    (.bfx .s32 (.v 10) (.v 1) (.imm 1) (.imm 2), 0xFFFFFFFF, 1), (.lea .n64 (.v 10) (.v 4) (.v 2) 3, 25, 16), (.movi .s32 (.v 10) 0xFFFFFFFE, 0xFFFFFFFE, 0xFFFFFFFE),
    (.sext .s32 10 (.v 1) (.imm 3), 0xFFFFFFFF, 3), (.ppack 10, 2, 0), (.vote .ballot 10 1, 1, 1)] : List (Instr × W32 × W32)).all (v10 s0) = true := by
  decide +kernel
/-- v1 = 1.0, v2 = −1.0, v5 a quiet NaN, v6 two halves 1.0 (f32 and f16): sums, products, a step of `fma`, conversions. -/
theorem test_float : ([
    (.fadd .rne .f32 10 (.v 1) (.v 1), 0x40000000, 0), (.fsub .rne .f32 10 (.v 1) (.v 2), 0x40000000, 0), (.fmul .rne .f32 10 (.v 2) (.v 2), 0x3F800000, 0),
    (.fma .rne .f32 10 (.v 1) (.v 2) 1, 0, 0), (.fadd .rne .f16x2 10 (.v 6) (.v 6), 0x40004000, 0), (.fneg .rne .f32 10 (.v 1), 0xBF800000, 0x80000000),
    (.fabs .rne .f32 10 (.v 2), 0x3F800000, 0), (.fmin false .rne .f32 10 (.v 1) (.v 2), 0xBF800000, 0), (.cvt .rz .f32 .s32 10 (.v 2), 0xFFFFFFFF, 0),
    (.cvt .rne .s32 .f32 10 (.v 1), 0x4E7E0000, 0)] : List (Instr × W32 × W32)).all (v10 sF) = true := by decide +kernel
theorem test_cross_lane : ([
    (.shxor .b32 10 1 (.imm 1), 0xFFFFFFFB, 7), (.bcast .n32 10 1 (.imm 0), 7, 7), (.shfl .n32 10 1 (.imm 1), 0xFFFFFFFB, 0xFFFFFFFB)] :
      List (Instr × W32 × W32)).all (v10 s0) = true := by decide +kernel
/-- Comparisons, signed and unsigned, and predicate logic. -/
theorem test_predicates :
    let p (i : Instr) (a b : Bool) : Bool := nextIs (exec i s0) fun t => (t.gang ⟨0, 0⟩).preg 0 2 == a && (t.gang ⟨0, 0⟩).preg 1 2 == b
    p (.cmp .lt .s32 2 (.v 1) (.v 2)) false true ∧ p (.cmp .lt .n32 2 (.v 1) (.v 2)) false false ∧ p (.pnot 2 1) false true ∧ p (.pand 2 1 0) false false ∧
    p (.por 2 1 0) true false ∧ p (.pxor 2 1 1) false false := by decide +kernel
/-- Where the split goes: by 4 to the next parcels, to a target from the instruction's own address, and to a callee, with the return address. -/
theorem test_control :
    let pc (o : Out) : Option W64 := match o with
      | .next t => (t.gang ⟨0, 0⟩).run.map Split.pc
      | _ => none
    pc (exec .nop s0) = some 0x40000008 ∧ pc (exec (.bra false 64) s0) = some 0x40000040 ∧ pc (exec (.movi .n32 (.v 10) 5) s0) = some 0x4000000C ∧
    pc (exec (.call 4096) s0) = some 0x40001000 ∧ pc (exec .ret s0) = some 0x40000040 ∧
    nextIs (exec (.call 4096) s0) (fun t => (t.gang ⟨0, 0⟩).sreg 0 61 == 0x4000000C) := by decide +kernel
/-- A store of an immediate, which is sign-extended, taken to memory; an addition made by a fabric packet. -/
theorem test_memory :
    let after (i : Instr) (s : State) : Out := match exec i s with
      | .next t => match (t.gang ⟨0, 0⟩).infl with
        | e :: _ => exec (.accessApplied ⟨0, 0⟩ e.id 0) t
        | [] => .next t
      | o => o
    nextIs (after (.sst .rlx .group .n32 8 (.imm 4) (.imm 255)) s0) (fun t => rdLE t.mem 0x40001004 4 == 0xFFFFFFFF && rdLE t.mem 0x40001000 4 == 0) ∧
    nextIs (exec (.unorderedPacketArrival (pkt 7 (.atom .add .n64 0x40001000 5 0))) sWin) (fun t => rdLE t.mem 0x40001000 8 == 5) := by decide +kernel
/-- One step of the machine on a word at its pc, and on a batten word. -/
theorem test_steps :
    nextIs (step (State.reset.withFetchWord 64 0x0000000201050040)) (fun t => (t.gang ⟨0, 0⟩).run.any fun x => x.pc == 0x40000008) ∧
    nextIs (step (State.reset.withFetchWord 32 0x0981FFFF)) (fun t => (t.queue 0).it.any fun x => x.reg 3 == 0xFFFFFFFFFFFFFFFF) := by decide +kernel
/-- An FN field that no entry of the opcode uses is the illegal encoding 0x0004 (R58). -/
theorem test_unused_fn : decode 32 false [0x0800030C, 0x00100000] = .error .notZero := by decide +kernel
/-- The first 64 bytes of SHAKE256 of nothing, as FIPS 202's test vector has them, the first byte lowest. -/
theorem test_shake256 : shake256 [] =
    0xBEC4B7B3AC2E294086B49A47491C82FCF692B5679D0105CB00F2C0D8DDC45DD72F76D56E64270CB5821BB862EA52CD3F24EB3E74EB3F3B23138DA80B2BDDB946 := by
  decide +kernel

end Sys2Proof.Tests
end

section
/-!
PROOFS. Fetch (R54 to R56): one rule for each thing that fetch can meet at an address, what it means that fetch finds an instruction, and the
statements O4 and O5.
-/
namespace Sys2Proof.Machine

/-! ### The first parcel and its LEN field (R54) -/

/-- The LEN field, bits [1:0], as a remainder. -/
theorem bitsOf_low_two (x : Nat) : bitsOf x 1 0 = x % 4 := by simp [bitsOf]

theorem parcelCount_eq (p : W32) : parcelCount p = p.toNat % 4 + 2 := by simp [parcelCount, bitsOf_low_two]

/-- One parcel at a location is a list of one. -/
theorem State.parcels_one (s : State) (l : Loc) : ∃ p, s.parcels l 1 = [p] := ⟨_, rfl⟩

/-! ### An instruction's parcels in one block -/

/-- What fetch makes of the parcels of an instruction that lies in one block: `fetchAt`'s last branch. -/
def decodedAt (W : Nat) (b : Bool) (pc : W64) (ps : List W32) : Fetched :=
  match decode W b ps with
  | .ok x => .ok pc x.1
  | .error e => .trap pc 1 e.subcause ps

/-- An instruction is found at the address of its parcels. -/
theorem pc_of_decodedAt_ok {W : Nat} {b : Bool} {pc pc' : W64} {ps : List W32} {i : Instr} (h : decodedAt W b pc ps = .ok pc' i) : pc' = pc := by
  unfold decodedAt at h
  split at h
  · injection h with hpc _
    exact hpc.symm
  · cases h

/-! ### What fetch does at an address: one rule for each case -/

section Rules
variable {s : State} {ctx : Nat} {pc : W64} {l : Loc} {p : W32}

/-- Fetch at an address that translates, by the first parcel there: the checks in the order of R75. -/
theorem State.fetchAt_succ (W n : Nat) (b : Bool) (hl : s.xlate ctx (ctx == 0) .fetch pc.toNat = .ok l) (hp : s.parcels l 1 = [p]) :
    s.fetchAt ctx W b (n + 1) pc =
      if p = 0xFFFFFFFF then s.fetchAt ctx W b n (BitVec.ofNat 64 ((pc.toNat / 32 + 1) * 32))
      else if p.toNat % 4 = 3 then .trap pc 1 2 [p]
      else if 8 - pc.toNat % 32 / 4 < p.toNat % 4 + 2 then .trap pc 2 0 (s.parcels l (8 - pc.toNat % 32 / 4))
      else decodedAt W b pc (s.parcels l (p.toNat % 4 + 2)) := by
  simp only [State.fetchAt, hl, hp, List.getD_cons_zero, bitsOf_low_two, parcelCount_eq]
  rfl

theorem State.fetchAt_error (W n : Nat) (b : Bool) {c : Nat} (hl : s.xlate ctx (ctx == 0) .fetch pc.toNat = .error c) :
    s.fetchAt ctx W b (n + 1) pc = .task c pc := by simp only [State.fetchAt, hl]

theorem State.fetchAt_pad (W n : Nat) (b : Bool) (hl : s.xlate ctx (ctx == 0) .fetch pc.toNat = .ok l) (hp : s.parcels l 1 = [0xFFFFFFFF]) :
    s.fetchAt ctx W b (n + 1) pc = s.fetchAt ctx W b n (BitVec.ofNat 64 ((pc.toNat / 32 + 1) * 32)) := by
  rw [State.fetchAt_succ W n b hl hp, if_pos rfl]

theorem State.fetchAt_badPad (W n : Nat) (b : Bool) (hl : s.xlate ctx (ctx == 0) .fetch pc.toNat = .ok l) (hp : s.parcels l 1 = [p])
    (h3 : p.toNat % 4 = 3) (hpad : p ≠ 0xFFFFFFFF) : s.fetchAt ctx W b (n + 1) pc = .trap pc 1 2 [p] := by
  rw [State.fetchAt_succ W n b hl hp, if_neg hpad, if_pos h3]

/-- A pad parcel has LEN 3. -/
theorem ne_pad_of_len {p : W32} (h3 : p.toNat % 4 ≠ 3) : p ≠ 0xFFFFFFFF := by
  rintro rfl
  exact h3 rfl

theorem State.fetchAt_crosses (W n : Nat) (b : Bool) (hl : s.xlate ctx (ctx == 0) .fetch pc.toNat = .ok l) (hp : s.parcels l 1 = [p])
    (h3 : p.toNat % 4 ≠ 3) (hroom : 8 - pc.toNat % 32 / 4 < p.toNat % 4 + 2) :
    s.fetchAt ctx W b (n + 1) pc = .trap pc 2 0 (s.parcels l (8 - pc.toNat % 32 / 4)) := by
  rw [State.fetchAt_succ W n b hl hp, if_neg (ne_pad_of_len h3), if_neg h3, if_pos hroom]

end Rules

/-! ### Where fetch finds an instruction (R56) -/

/-- Fetch in this context meets at `pc` a first parcel that is no pad, and the parcels that its LEN names lie in one 32-byte block. -/
def State.FitsBlock (s : State) (ctx : Nat) (pc : W64) : Prop :=
  ∃ l p, s.xlate ctx (ctx == 0) .fetch pc.toNat = .ok l ∧ s.parcels l 1 = [p] ∧ p.toNat % 4 ≠ 3 ∧
    p.toNat % 4 + 2 ≤ 8 - pc.toNat % 32 / 4

/-- An instruction that fetch finds stands at the address itself, in one block, or beyond the pad parcel there. -/
theorem State.fetchAt_succ_ok {s : State} {ctx W n : Nat} {b : Bool} {pc pc' : W64} {i : Instr}
    (h : s.fetchAt ctx W b (n + 1) pc = .ok pc' i) :
    (pc' = pc ∧ s.FitsBlock ctx pc) ∨ s.fetchAt ctx W b n (BitVec.ofNat 64 ((pc.toNat / 32 + 1) * 32)) = .ok pc' i := by
  cases hl : s.xlate ctx (ctx == 0) .fetch pc.toNat with
  | error c => simp [State.fetchAt_error W n b hl] at h
  | ok l =>
    obtain ⟨p, hp⟩ := s.parcels_one l
    rw [State.fetchAt_succ W n b hl hp] at h
    split_ifs at h with hpad h3 hroom
    · exact .inr h
    · exact .inl ⟨pc_of_decodedAt_ok h, l, p, hl, hp, h3, Nat.le_of_not_lt hroom⟩

/-- The next 32-byte boundary is aligned to a parcel, also where the address wraps. -/
theorem nextBlock_aligned (x : Nat) : (BitVec.ofNat 64 ((x / 32 + 1) * 32)).toNat % 4 = 0 := by
  rw [BitVec.toNat_ofNat]
  omega

/-- From an aligned address, over any number of pads, fetch finds an instruction only at an aligned address and in one block. -/
theorem State.fetchAt_ok_fits {s : State} {ctx W : Nat} {b : Bool} {pc' : W64} {i : Instr} (n : Nat) (pc : W64) (hal : pc.toNat % 4 = 0)
    (h : s.fetchAt ctx W b n pc = .ok pc' i) : pc'.toNat % 4 = 0 ∧ s.FitsBlock ctx pc' := by
  induction n generalizing pc with
  | zero => cases h
  | succ n ih =>
    obtain ⟨rfl, hfits⟩ | hnext := State.fetchAt_succ_ok h
    · exact ⟨hal, hfits⟩
    · exact ih _ (nextBlock_aligned _) hnext

/-! ### The instruction that fetch finds issues -/

/-- With no trap or notice before it, the instruction found runs on the gang's split, moved to its address and otherwise as it was. -/
theorem State.issueGang_of_nextInstr_ok {s : State} {r : GangRef} {x : Split} {pc : W64} {i : Instr}
    (hrun : ((s.settle r).gang r).run = some x) (htrap : ((s.settle r).gang r).trapReq = none)
    (hnotice : { s.settle r with cur := r }.noticeReady r = false) (hfetch : { s.settle r with cur := r }.nextInstr r x = .ok pc i) :
    s.issueGang r = exec i ({ s.settle r with cur := r }.runAs r { x with pc := pc }) := by
  have hrun' : ({ s.settle r with cur := r }.gang r).run = some x := hrun
  have htrap' : ({ s.settle r with cur := r }.gang r).trapReq = none := htrap
  simp [State.issueGang, hrun', htrap', hnotice, hfetch]

/-! ### The statements -/

/-- Settles O4, by the rule for a pad parcel, the rule for a malformed one, and the issue of the instruction found. -/
theorem padParcels : Obligations.PadParcels :=
  ⟨fun _ _ W n b _ _ hl hp => State.fetchAt_pad W n b hl hp,
   fun _ _ W n b _ _ _ hl hp h3 hpad => State.fetchAt_badPad W n b hl hp h3 hpad,
   fun _ _ _ _ _ hrun htrap hnotice hfetch => State.issueGang_of_nextInstr_ok hrun htrap hnotice hfetch⟩

/-- Settles O5, by the rule for an instruction that crosses, and by induction on the pads that fetch follows: what it finds fits its block. -/
theorem fetchBoundary : Obligations.FetchBoundary := by
  refine ⟨fun s ctx W n b pc l p hl hp h3 hal hroom => ⟨_, State.fetchAt_crosses W n b hl hp h3 (by omega)⟩, ?_⟩
  intro s ctx W n b pc pc' i hal h
  obtain ⟨hal', l, p, hl, hp, h3, hfit⟩ := State.fetchAt_ok_fits n pc hal h
  exact ⟨l, p, hl, hp, h3, hal', by omega⟩

end Sys2Proof.Machine
end

section
/-!
PROOFS. Carries, division and shuffles (R90, R93, R101, R102): from the meaning of an instruction that runs to the register writes that it makes,
from those to what the registers hold, and the statements O17, O18 and O30.
-/
namespace Sys2Proof.Machine

/-! ### Properties that only the registers decide -/

theorem regsOnly_and {P Q : Gang → Prop} (hP : regsOnly P) (hQ : regsOnly Q) : regsOnly fun g => P g ∧ Q g :=
  fun g g' hv hs hp h => ⟨hP g g' hv hs hp h.1, hQ g g' hv hs hp h.2⟩

theorem regsOnly_forall_mem {α : Type} {l : List α} {P : α → Gang → Prop} (h : ∀ x, regsOnly (P x)) : regsOnly fun g => ∀ x ∈ l, P x g :=
  fun g g' hv hs hp hg x hx => h x g g' hv hs hp (hg x hx)

theorem vreg_of_v_eq {g g' : Gang} (h : g'.v = g.v) (L n : Nat) : g'.vreg L n = g.vreg L n := by simp only [Gang.vreg, h]

theorem vpair_of_v_eq {g g' : Gang} (h : g'.v = g.v) (L n : Nat) : g'.vpair L n = g.vpair L n := by simp only [Gang.vpair, vreg_of_v_eq h]

/-- A vector destination of a lane holds its result by the vector registers alone. -/
theorem holds_of_v_eq {g g' : Gang} {t : Ty} {L : Nat} {d : VReg} {x : Int} (hv : g'.v = g.v) (h : holds g t (.lane L) (.v d) x) :
    holds g' t (.lane L) (.v d) x := by
  simpa only [holds, vreg_of_v_eq hv, vpair_of_v_eq hv] using h

theorem holdsF_of_v_eq {g g' : Gang} {t : Ty} {L : Nat} {d : VReg} {x : W64} (hv : g'.v = g.v) (h : holdsF g t L d x) : holdsF g' t L d x := by
  simpa only [holdsF, vreg_of_v_eq hv, vpair_of_v_eq hv] using h

theorem regsOnly_preg (L n : Nat) (b : Bool) : regsOnly fun g => g.preg L n = b := by
  intro g g' _ _ hp h
  simpa only [Gang.preg, hp] using h

/-! ### Results in vector registers -/

/-- The upper register of a pair that an instruction writes exists: it is below the cap (R75 check 4). -/
theorem pair_lt_256 {i : Instr} {s : State} {c : Cx} (h : runs i s = some c) {wide : Bool} {d : VReg}
    (hw : ∀ r ∈ vReg wide d, r ∈ Sys2Proof.Machine.writes c.W i) (h64 : wide = true) : d.toNat + 1 < 256 :=
  named_lt_256 h (List.mem_append.mpr (.inr (hw _ (mem_vReg.mpr (.inr ⟨h64, rfl⟩)))))

theorem mem_wrV {wide : Bool} {L : Nat} {d : VReg} {x : W64} {w : RegWrite} :
    w ∈ wrV wide L d x ↔ w = .v L d.toNat (lo32 x) ∨ (wide = true ∧ w = .v L (d.toNat + 1) (hi32 x)) := by
  cases wide <;> simp [wrV]

/-- A write of a vector result in a visited lane is one that the instruction may make. -/
theorem allows_wrV {c : Cx} {wide : Bool} {d : VReg} {L : Nat} (x : W64) (hL : L ∈ c.vis)
    (hw : ∀ r ∈ vReg wide d, r ∈ Sys2Proof.Machine.writes c.W c.i) (hd : wide = true → d.toNat + 1 < 256) :
    ∀ w ∈ wrV wide L d x, c.allows w := by
  intro w hm
  obtain rfl | ⟨h64, rfl⟩ := mem_wrV.mp hm
  · exact ⟨hL, hw _ (mem_vReg.mpr (.inl rfl)), d.isLt⟩
  · exact ⟨hL, hw _ (mem_vReg.mpr (.inr ⟨h64, rfl⟩)), hd h64⟩

/-- Integer results written in each of some lanes. -/
theorem holds_lanes (g : Gang) {ls : List Nat} (hn : ls.Nodup) {t : Ty} {d : VReg} (x : Nat → Int) (hd : t.is64 = true → d.toNat + 1 < 256)
    {L : Nat} (hL : L ∈ ls) : holds (g.writeRegs (ls.flatMap fun L => wrV t.is64 L d (extV t (x L)))) t (.lane L) (.v d) (x L) := by
  cases h64 : t.is64 with
  | false => exact holds_v h64 (vreg_lanes g ls hn false d (fun L => extV t (x L)) (.inr rfl) hL)
  | true => exact holds_pair h64 (vpair_lanes g ls hn d (fun L => extV t (x L)) (hd h64) hL)

/-- Patterns written in each of some lanes. -/
theorem holdsF_lanes (g : Gang) {ls : List Nat} (hn : ls.Nodup) {t : Ty} {d : VReg} (x : Nat → W64) (hd : t.is64 = true → d.toNat + 1 < 256)
    {L : Nat} (hL : L ∈ ls) : holdsF (g.writeRegs (ls.flatMap fun L => wrV t.is64 L d (x L))) t L d (x L) := by
  unfold holdsF
  cases h64 : t.is64 with
  | false => exact vreg_lanes g ls hn false d x (.inr rfl) hL
  | true => exact vpair_lanes g ls hn d x (hd h64) hL

/-! ### Whole effects -/

/-- An instruction whose meaning is to write registers completes with those writes. -/
theorem after_of_issue {i : Instr} {s : State} {c : Cx} (h : runs i s = some c) {ws : Cx → List RegWrite} {k : Cx → BitVec 6}
    (he : exec i s = issue i s fun c => c.writes (ws c) (k c)) : exec i s = .next (c.after (ws c) (k c)) := by
  rw [he, issue_of_runs h, finish_writes]

/-- A long-latency computation goes into flight with its writes and sticky bits. -/
theorem entered_of_issue {i : Instr} {s : State} {c : Cx} (h : runs i s = some c) (hl : (longLA i).isSome = true) {ws : Cx → List RegWrite}
    {k : Cx → BitVec 6} (he : exec i s = issue i s fun c => c.later (ws c) (k c)) :
    exec i s = .next (c.entered c.s { id := 0, kind := .alu, rw := ws c, sticky := k c, long := true }) := by
  obtain ⟨-, -, -, hi, -⟩ := runs_spec h
  rw [he, issue_of_runs h, finish_later (by rw [hi]; exact hl)]

/-- An instruction that writes a pattern in its vector destination, and nothing else, in every visited lane. -/
theorem puts_lanes {i : Instr} {s : State} {c : Cx} (h : runs i s = some c) {t : Ty} {d : VReg} {x : Nat → W64}
    (hw : ∀ r ∈ vReg t.is64 d, r ∈ Sys2Proof.Machine.writes c.W i)
    (he : exec i s = .next (c.after (c.vis.flatMap fun L => wrV t.is64 L d (x L)) 0)) :
    c.puts i s 0 fun g => ∀ L ∈ c.vis, holdsF g t L d (x L) := by
  obtain ⟨-, -, -, hi, -⟩ := runs_spec h
  refine puts_of_after h he ?_ (regsOnly_forall_mem fun L _ _ hv _ _ => holdsF_of_v_eq hv)
    fun L hL => holdsF_lanes _ (lanesOf_nodup _) x (pair_lt_256 h hw) hL
  intro w hm
  obtain ⟨L, hL, hm⟩ := List.mem_flatMap.mp hm
  exact allows_wrV _ hL (by rw [hi]; exact hw) (pair_lt_256 h hw) w hm

/-- An instruction that goes into flight with integer results for every place where it acts. -/
theorem putsLater_each {i : Instr} {s : State} {c : Cx} (h : runs i s = some c) {t : Ty} {d : Dst} {f : At → Int} {k : BitVec 6}
    (hw : ∀ r ∈ Dst.regs t.is64 d, r ∈ Sys2Proof.Machine.writes c.W i)
    (he : exec i s = .next (c.entered c.s
      { id := 0, kind := .alu, rw := c.each d.scalar fun p => wrInt t p d (f p), sticky := k, long := true })) :
    c.putsLater i s k fun g => ∀ p ∈ c.places d.scalar, holds g t p d (f p) := by
  obtain ⟨-, -, -, hi, -⟩ := runs_spec h
  have hd : ∀ r, d = .v r → t.is64 = true → r.toNat + 1 < 256 := by
    rintro r rfl
    exact pair_lt_256 h hw
  exact ⟨_, he, fun g => ⟨holds_each c g t d f hd, onlyWrites_of_allows g (allows_each c t d f (by rw [hi]; exact hw) hd)⟩⟩

/-- What is known of the results may be said in other words. -/
theorem Cx.putsLater_mono {c : Cx} {i : Instr} {s : State} {k : BitVec 6} {P Q : Gang → Prop} (hPQ : ∀ g, P g → Q g)
    (h : c.putsLater i s k P) : c.putsLater i s k Q := by
  obtain ⟨ws, he, hg⟩ := h
  exact ⟨ws, he, fun g => ⟨hPQ _ (hg g).1, (hg g).2⟩⟩

/-! ### Results with a carry (R93) -/

/-- Whether a write names a vector register. -/
def RegWrite.isVec : RegWrite → Bool
  | .v .. => true
  | _ => false

/-- Writes of other registers leave the vector registers as the vector writes alone leave them. -/
theorem v_writeRegs_filter {g g' : Gang} (hv : g.v = g'.v) (ws : List RegWrite) :
    (g.writeRegs ws).v = (g'.writeRegs (ws.filter RegWrite.isVec)).v := by
  induction ws generalizing g g' with
  | nil => exact hv
  | cons w ws ih =>
    cases w with
    | v L n x => exact ih (g := (RegWrite.v L n x).apply g) (g' := (RegWrite.v L n x).apply g') (by simp only [RegWrite.apply, hv])
    | s sl n x => exact ih (g := (RegWrite.s sl n x).apply g) hv
    | p L n x => exact ih (g := (RegWrite.p L n x).apply g) hv

theorem isVec_of_mem_wrV {wide : Bool} {L : Nat} {d : VReg} {x : W64} {w : RegWrite} (h : w ∈ wrV wide L d x) : w.isVec = true := by
  obtain rfl | ⟨-, rfl⟩ := mem_wrV.mp h
  · rfl
  · rfl

theorem isP_of_isVec {w : RegWrite} (h : w.isVec = true) (L n : Nat) : w.isP L n = false := by
  cases w with
  | v => rfl
  | s => cases h
  | p => cases h

/-- What `addc` and `subb` write in a lane: an integer result, and the carry out of it in predicate q. -/
def wrCarried (t : Ty) (d : VReg) (q : PReg) (x : Int) (out : Bool) (L : Nat) : List RegWrite :=
  wrV t.is64 L d (extV t x) ++ [.p L q.toNat out]

theorem filter_isVec_wrCarried (t : Ty) (d : VReg) (q : PReg) (x : Int) (out : Bool) (L : Nat) :
    (wrCarried t d q x out L).filter RegWrite.isVec = wrV t.is64 L d (extV t x) := by
  rw [wrCarried, List.filter_append, List.filter_eq_self.mpr fun _ => isVec_of_mem_wrV]
  exact List.append_nil _

theorem isP_wrCarried_other {t : Ty} {d : VReg} {q : PReg} {x : Int} {out : Bool} {L M : Nat} (hM : M ≠ L) :
    ∀ w ∈ wrCarried t d q x out M, w.isP L q.toNat = false := by
  intro w hw
  rcases List.mem_append.mp hw with hw | hw
  · exact isP_of_isVec (isVec_of_mem_wrV hw) ..
  · obtain rfl := List.mem_singleton.mp hw
    simp only [RegWrite.isP, beq_eq_false_iff_ne, ne_eq]
    omega

/-- In each of some lanes the destination holds the lane's result, and the predicate its carry. -/
theorem carried_lanes (g : Gang) {ls : List Nat} (hn : ls.Nodup) {t : Ty} {d : VReg} (q : PReg) (x : Nat → Int) (out : Nat → Bool)
    (hd : t.is64 = true → d.toNat + 1 < 256) {L : Nat} (hL : L ∈ ls) :
    let g' := g.writeRegs (ls.flatMap fun L => wrCarried t d q (x L) (out L) L)
    holds g' t (.lane L) (.v d) (x L) ∧ g'.preg L q.toNat = out L := by
  constructor
  · refine holds_of_v_eq (v_writeRegs_filter rfl _) ?_
    simp only [List.filter_flatMap, filter_isVec_wrCarried]
    exact holds_lanes g hn x hd hL
  · obtain ⟨g', h⟩ := preg_flatMap g ls hn (fun L => wrCarried t d q (x L) (out L) L) hL fun M _ hM => isP_wrCarried_other hM
    rw [h]
    exact preg_writeRegs_last g' _ [] L q.toNat (out L) (by simp)

/-- An instruction that writes a result and its carry in every visited lane. -/
theorem puts_carried {i : Instr} {s : State} {c : Cx} (h : runs i s = some c) {t : Ty} {d : VReg} {q : PReg} {x : Nat → Int}
    {out : Nat → Bool} (hw : Sys2Proof.Machine.writes c.W i = vReg t.is64 d ++ pR q)
    (he : exec i s = .next (c.after (c.vis.flatMap fun L => wrCarried t d q (x L) (out L) L) 0)) :
    c.puts i s 0 fun g => ∀ L ∈ c.vis, holds g t (.lane L) (.v d) (x L) ∧ g.preg L q.toNat = out L := by
  obtain ⟨-, -, -, hi, -⟩ := runs_spec h
  have hreg : ∀ r ∈ vReg t.is64 d, r ∈ Sys2Proof.Machine.writes c.W i := fun r hr => hw ▸ List.mem_append.mpr (.inl hr)
  refine puts_of_after h he ?_
    (regsOnly_forall_mem fun L => regsOnly_and (fun _ _ hv _ _ => holds_of_v_eq hv) (regsOnly_preg L q.toNat (out L)))
    fun L hL => carried_lanes _ (lanesOf_nodup _) q x out (pair_lt_256 h hreg) hL
  intro w hm
  obtain ⟨L, hL, hm⟩ := List.mem_flatMap.mp hm
  rcases List.mem_append.mp hm with hm | hm
  · exact allows_wrV _ hL (by rw [hi]; exact hreg) (pair_lt_256 h hreg) w hm
  · obtain rfl := List.mem_singleton.mp hm
    exact ⟨hL, by rw [hi, hw]; exact List.mem_append.mpr (.inr (List.mem_singleton.mpr rfl)), q.isLt⟩

/-- The carry into a lane is 1 where its predicate is set. -/
theorem Cx.carry_eq (c : Cx) (L : Nat) (q : PReg) : c.carry L q = if c.g.preg L q.toNat then 1 else 0 := by
  unfold Cx.carry flag
  cases c.g.preg L q.toNat <;> rfl

/-! ### Quotients and remainders (R90) -/

theorem divRem_zero (t : Ty) (a : Int) : divRem t a 0 = (2 ^ t.width - 1, a, true) := by simp [divRem]

/-- The one overflow: the most negative value divided by −1. -/
def overflows (t : Ty) (a b : Int) : Prop := t.signed = true ∧ a = -2 ^ (t.width - 1) ∧ b = -1

theorem divRem_of_overflows {t : Ty} {a b : Int} (h : overflows t a b) : divRem t a b = (a, 0, false) := by
  obtain ⟨hs, rfl, rfl⟩ := h
  simp [divRem, hs]

theorem divRem_ordinary {t : Ty} {a b : Int} (hb : b ≠ 0) (ho : ¬overflows t a b) : divRem t a b = (a.tdiv b, a.tmod b, false) := by
  rw [divRem, if_neg hb, if_neg]
  simpa only [overflows, Bool.and_eq_true, decide_eq_true_eq, and_assoc] using ho

theorem divRem_quotient (t : Ty) (a b : Int) :
    (b = 0 → (divRem t a b).1 = 2 ^ t.width - 1) ∧ (overflows t a b → (divRem t a b).1 = a) ∧
    (b ≠ 0 → ¬overflows t a b → (divRem t a b).1 = a.tdiv b) := by
  refine ⟨?_, fun ho => by rw [divRem_of_overflows ho], fun h0 ho => by rw [divRem_ordinary h0 ho]⟩
  rintro rfl
  rw [divRem_zero]

theorem divRem_remainder (t : Ty) (a b : Int) :
    (b = 0 → (divRem t a b).2.1 = a) ∧ (overflows t a b → (divRem t a b).2.1 = 0) ∧
    (b ≠ 0 → ¬overflows t a b → (divRem t a b).2.1 = a - b * a.tdiv b) := by
  refine ⟨?_, fun ho => by rw [divRem_of_overflows ho], fun h0 ho => by rw [divRem_ordinary h0 ho, Int.tmod_def]⟩
  rintro rfl
  rw [divRem_zero]

/-! ### Shuffles (R101, R102) -/

/-- A shuffle that runs: every visited lane receives the register of its source lane. -/
theorem puts_shuffle {i : Instr} {s : State} {c : Cx} (h : runs i s = some c) {t : Ty} {d a : VReg} {j : Nat → Int}
    (hj : ∀ L, c.g.shufLane c.W i L = shufIndex c.W (j L) L) (hw : Sys2Proof.Machine.writes c.W i = vReg t.is64 d)
    (he : exec i s = issue i s fun c => c.shuffle t d a) :
    c.puts i s 0 fun g => ∀ L ∈ c.vis, holdsF g t L d (c.g.src t.is64 (.lane (shufIndex c.W (j L) L)) (.v a)) := by
  obtain ⟨-, -, -, hi, -⟩ := runs_spec h
  have ha := after_of_issue h he
  simp only [hi, hj] at ha
  exact puts_lanes h (fun r hr => hw ▸ hr) ha

/-! ### The statements -/

/-- Settles O17, by what the writes of a result and its carry leave in every visited lane. -/
theorem carryChain : Obligations.CarryChain := by
  constructor
  · intro t d a b q s c h
    have he := after_of_issue h (i := .addc t d a b q) rfl
    simp only [Cx.carry_eq] at he
    exact puts_carried h rfl he
  · intro t d a b q s c h
    have he := after_of_issue h (i := .subb t d a b q) rfl
    simp only [Cx.carry_eq] at he
    exact puts_carried h rfl he

/-- Settles O18, by what the writes in flight leave at every place, and the three cases of R90. -/
theorem division : Obligations.Division := fun _ t d a b _ c =>
  ⟨fun h => Cx.putsLater_mono (fun _ hg p hp => ⟨_, hg p hp, divRem_quotient t (c.opA t p a) (c.opB t p b)⟩)
    (putsLater_each h (d := d) (fun _ hr => hr) (entered_of_issue h rfl rfl)),
   fun h => Cx.putsLater_mono (fun _ hg p hp => ⟨_, hg p hp, divRem_remainder t (c.opA t p a) (c.opB t p b)⟩)
    (putsLater_each h (d := d) (fun _ hr => hr) (entered_of_issue h rfl rfl))⟩

/-- Settles O30: the writes of a shuffle take the source lane of R101, clipped to the gang. -/
theorem shuffles : Obligations.Shuffles := fun _ _ _ _ _ _ =>
  ⟨fun h => puts_shuffle h (fun _ => rfl) rfl rfl, fun h => puts_shuffle h (fun _ => rfl) rfl rfl,
   fun h => puts_shuffle h (fun _ => rfl) rfl rfl, fun h => puts_shuffle h (fun _ => rfl) rfl rfl,
   fun h => puts_shuffle h (fun _ => rfl) rfl rfl⟩

end Sys2Proof.Machine
end

section
/-!
PROOFS. Sign bits (R132): from a floating instruction that raises nothing to the patterns that it leaves, from a pattern to its elements (R111),
from an element to its bits, and the statement O26.
-/
namespace Sys2Proof.Machine

/-! ### Whole effects -/

theorem Cx.puts_mono {c : Cx} {i : Instr} {s : State} {k : BitVec 6} {P Q : Gang → Prop} (hPQ : ∀ g, P g → Q g) (h : c.puts i s k P) :
    c.puts i s k Q := by
  obtain ⟨t, he, hP, hrest⟩ := h
  exact ⟨t, he, hPQ _ hP, hrest⟩

theorem orBits_eq_zero {l : List (BitVec 6)} (h : ∀ x ∈ l, x = 0) : orBits l = 0 := by
  induction l with
  | nil => rfl
  | cons x l ih =>
    obtain ⟨rfl, hl⟩ := List.forall_mem_cons.mp h
    exact ih hl

/-- A floating result written at once, as register writes. -/
theorem Cx.fltNow_eq (c : Cx) (t : Ty) (d : VReg) (f : Nat → W64 × BitVec 6) :
    c.fltNow t d f = c.writes (c.vis.flatMap fun L => wrV t.is64 L d (f L).1) (orBits (c.vis.map fun L => (f L).2)) := by
  simp only [Cx.fltNow, Cx.flt, List.flatMap_map, List.map_map, Function.comp_def]

/-- A floating instruction that raises nothing leaves its pattern in every visited lane. -/
theorem puts_fltNow {i : Instr} {s : State} {c : Cx} (h : runs i s = some c) {t : Ty} {d : VReg} {f : Cx → Nat → W64 × BitVec 6}
    (hw : Sys2Proof.Machine.writes c.W i = vReg t.is64 d) (he : exec i s = issue i s fun c => c.fltNow t d (f c))
    (hz : ∀ L, (f c L).2 = 0) : c.puts i s 0 fun g => ∀ L ∈ c.vis, holdsF g t L d (f c L).1 := by
  simp only [Cx.fltNow_eq] at he
  have ha := after_of_issue h he
  rw [orBits_eq_zero (List.forall_mem_map.mpr fun L _ => hz L)] at ha
  exact puts_lanes h (fun r hr => hw ▸ hr) ha

/-- The same, with the pattern of each lane told bit by bit within the width of the type. -/
theorem puts_bits {i : Instr} {s : State} {c : Cx} (h : runs i s = some c) {t : Ty} {d : VReg} {f : Cx → Nat → W64 × BitVec 6}
    (hw : Sys2Proof.Machine.writes c.W i = vReg t.is64 d) (he : exec i s = issue i s fun c => c.fltNow t d (f c))
    (hz : ∀ L, (f c L).2 = 0) {p : Nat → Nat → Bool}
    (hb : ∀ L j, j < 64 → (f c L).1.getLsbD j = (decide (j < t.width) && p L j)) :
    c.puts i s 0 fun g => ∀ L ∈ c.vis, ∃ x, holdsF g t L d x ∧ ∀ j, j < 64 → x.getLsbD j = (decide (j < t.width) && p L j) :=
  Cx.puts_mono (fun _ hg L hL => ⟨_, hg L hL, hb L⟩) (puts_fltNow h hw he hz)

/-! ### The elements of a floating pattern (R111, R128) -/

/-- Element k of a pattern of a floating type. -/
def elemAt (t : Ty) (x : W64) (k : Nat) : Nat := x.toNat / 2 ^ (k * fwidth t) % 2 ^ fwidth t

/-- How many elements a value of a floating type has. -/
def elemCount (t : Ty) : Nat := t.width / fwidth t

/-- A scalar type fills its width with one element, a paired type with two of 16 bits. -/
theorem floating_shape {t : Ty} (ht : t.floating = true) :
    (t.width = fwidth t ∧ elemCount t = 1) ∨ (t.width = 32 ∧ fwidth t = 16 ∧ elemCount t = 2) := by
  cases t <;> simp_all [Ty.floating, Ty.width, fwidth, elemCount]

theorem fwidth_pos (t : Ty) : 0 < fwidth t := by
  unfold fwidth
  split <;> decide

theorem elems_eq {t : Ty} (ht : t.floating = true) (x : W64) : elems t x = (List.range (elemCount t)).map (elemAt t x) := by
  cases t <;> simp_all [Ty.floating, Ty.width, fwidth, elemCount, elems, elemAt, List.range_succ]

theorem elemAt_lt (t : Ty) (x : W64) (k : Nat) : elemAt t x k < 2 ^ fwidth t := Nat.mod_lt _ (Nat.two_pow_pos _)

/-- Bit j of a pattern is a bit of the element that holds it. -/
theorem testBit_elemAt (t : Ty) (x : W64) (j : Nat) : (elemAt t x (j / fwidth t)).testBit (j % fwidth t) = x.getLsbD j := by
  simp only [elemAt, Nat.testBit_mod_two_pow, Nat.mod_lt j (fwidth_pos t), decide_true, Bool.true_and, Nat.testBit_div_two_pow,
    Nat.mod_add_div', BitVec.getLsbD]

theorem elem1_fst {t : Ty} (ht : t.floating = true) (f : Nat → Nat × BitVec 6) (a : W64) :
    (elem1 t f a).1 = packElems ((List.range (elemCount t)).map fun k => (f (elemAt t a k)).1) := by
  simp only [elem1, perElem, elems_eq ht, List.map_map, Function.comp_def]

theorem elem2_fst {t : Ty} (ht : t.floating = true) (f : Nat → Nat → Nat × BitVec 6) (a b : W64) :
    (elem2 t f a b).1 = packElems ((List.range (elemCount t)).map fun k => (f (elemAt t a k) (elemAt t b k)).1) := by
  simp only [elem2, perElem, elems_eq ht, List.zipWith_map, List.zipWith_self, List.map_map, Function.comp_def]

/-- Operations that raise nothing on any element raise nothing on a pattern. -/
theorem elem1_snd {t : Ty} {f : Nat → Nat × BitVec 6} (hf : ∀ x, (f x).2 = 0) (a : W64) : (elem1 t f a).2 = 0 :=
  orBits_eq_zero (by simp [hf])

theorem elem2_snd {t : Ty} (ht : t.floating = true) {f : Nat → Nat → Nat × BitVec 6} (hf : ∀ x y, (f x y).2 = 0) (a b : W64) :
    (elem2 t f a b).2 = 0 := by
  simp only [elem2, perElem, elems_eq ht, List.zipWith_map, List.zipWith_self]
  exact orBits_eq_zero (by simp [hf])

/-- A bit of elements packed again is a bit of the element at its place; nothing stands above the width of the type. -/
theorem getLsbD_packElems {t : Ty} (ht : t.floating = true) {r : Nat → Nat} (hr : ∀ k, r k < 2 ^ fwidth t) {j : Nat} (hj : j < 64) :
    (packElems ((List.range (elemCount t)).map r)).getLsbD j = (decide (j < t.width) && (r (j / fwidth t)).testBit (j % fwidth t)) := by
  obtain ⟨hw, hn⟩ | ⟨hw, hf, hn⟩ := floating_shape ht
  · have hp : packElems ((List.range (elemCount t)).map r) = BitVec.ofNat 64 (r 0) := by simp [hn, packElems]
    rw [hp, hw, BitVec.getLsbD_ofNat]
    by_cases hlt : j < fwidth t
    · simp [hj, hlt, Nat.div_eq_of_lt hlt, Nat.mod_eq_of_lt hlt]
    · simp [hlt, Nat.testBit_lt_two_pow ((hr 0).trans_le (Nat.pow_le_pow_right two_pos (not_lt.mp hlt)))]
  · rw [hf] at hr ⊢
    have hp : packElems ((List.range (elemCount t)).map r) = BitVec.ofNat 64 (2 ^ 16 * r 1 + r 0) := by
      simp [hn, packElems, List.range_succ, Nat.add_comm]
    rw [hp, hw, BitVec.getLsbD_ofNat, Nat.testBit_two_pow_mul_add _ (hr 0)]
    by_cases hlo : j < 16
    · have hlt : j < 32 := by omega
      simp [hj, hlo, hlt, Nat.div_eq_of_lt hlo, Nat.mod_eq_of_lt hlo]
    · by_cases hhi : j < 32
      · have hq : j / 16 = 1 := by omega
        have hm : j % 16 = j - 16 := by omega
        simp [hj, hlo, hhi, hq, hm]
      · simp [hlo, hhi, Nat.testBit_lt_two_pow ((hr 1).trans_le (Nat.pow_le_pow_right two_pos (show 16 ≤ j - 16 by omega)))]

/-- A bit of an operation on each element. -/
theorem getLsbD_elem1 {t : Ty} (ht : t.floating = true) {f : Nat → Nat × BitVec 6} {a : W64}
    (hf : ∀ x, x < 2 ^ fwidth t → (f x).1 < 2 ^ fwidth t) {j : Nat} (hj : j < 64) :
    (elem1 t f a).1.getLsbD j = (decide (j < t.width) && (f (elemAt t a (j / fwidth t))).1.testBit (j % fwidth t)) := by
  rw [elem1_fst ht, getLsbD_packElems ht (fun k => hf _ (elemAt_lt t a k)) hj]

theorem getLsbD_elem2 {t : Ty} (ht : t.floating = true) {f : Nat → Nat → Nat × BitVec 6} {a b : W64} (hf : ∀ x y, (f x y).1 < 2 ^ fwidth t)
    {j : Nat} (hj : j < 64) : (elem2 t f a b).1.getLsbD j =
      (decide (j < t.width) && (f (elemAt t a (j / fwidth t)) (elemAt t b (j / fwidth t))).1.testBit (j % fwidth t)) := by
  rw [elem2_fst ht, getLsbD_packElems ht (fun k => hf _ _) hj]

/-! ### Sign bits (R132) -/

/-- `fabs` on an element: every bit stays but the sign bit, the topmost, which is cleared. -/
theorem testBit_clearSign {w : Nat} (x : Nat) {i : Nat} (hi : i < w) : (x % 2 ^ (w - 1)).testBit i = (!(i == w - 1) && x.testBit i) := by
  have hs : decide (i < w - 1) = !(i == w - 1) := by grind
  rw [Nat.testBit_mod_two_pow, hs]

/-- `fneg` on an element: every bit stays but the sign bit, which is inverted. -/
theorem testBit_flipSign (w x i : Nat) : (x ^^^ 2 ^ (w - 1)).testBit i = (i == w - 1 ^^ x.testBit i) := by
  have hs : decide (w - 1 = i) = (i == w - 1) := by grind
  rw [Nat.testBit_xor, Nat.testBit_two_pow, hs, Bool.xor_comm]

/-- The magnitude of a below the sign of b, as `fsgn` puts them together. -/
theorem testBit_copySign {w : Nat} (a b : Nat) {i : Nat} (hi : i < w) :
    (a % 2 ^ (w - 1) + b / 2 ^ (w - 1) % 2 * 2 ^ (w - 1)).testBit i = if i == w - 1 then b.testBit i else a.testBit i := by
  rw [Nat.add_comm, Nat.mul_comm, Nat.testBit_two_pow_mul_add _ (Nat.mod_lt a (Nat.two_pow_pos _))]
  by_cases hs : i = w - 1
  · subst hs
    simp [Nat.testBit_eq_decide_div_mod_eq]
  · have hlt : i < w - 1 := by omega
    simp [hs, hlt, Nat.testBit_mod_two_pow]

theorem copySign_lt {w : Nat} (hw : 0 < w) (a b : Nat) : a % 2 ^ (w - 1) + b / 2 ^ (w - 1) % 2 * 2 ^ (w - 1) < 2 ^ w := by
  have h2 : 2 ^ w = 2 * 2 ^ (w - 1) := by rw [← pow_succ', Nat.sub_add_cancel hw]
  have ha := Nat.mod_lt a (Nat.two_pow_pos (w - 1))
  calc a % 2 ^ (w - 1) + b / 2 ^ (w - 1) % 2 * 2 ^ (w - 1)
      < 2 ^ (w - 1) + 1 * 2 ^ (w - 1) :=
        Nat.add_lt_add_of_lt_of_le ha (Nat.mul_le_mul_right _ (Nat.le_of_lt_succ (Nat.mod_lt _ two_pos)))
    _ = 2 ^ w := by omega

theorem clearSign_lt {w : Nat} (x : Nat) : x % 2 ^ (w - 1) < 2 ^ w :=
  (Nat.mod_lt x (Nat.two_pow_pos _)).trans_le (Nat.pow_le_pow_right two_pos (Nat.sub_le w 1))

theorem flipSign_lt {w x : Nat} (hw : 0 < w) (hx : x < 2 ^ w) : x ^^^ 2 ^ (w - 1) < 2 ^ w :=
  Nat.xor_lt_two_pow hx (Nat.pow_lt_pow_right one_lt_two (Nat.sub_lt hw one_pos))

theorem canonNan_lt (t : Ty) : canonNan t < 2 ^ fwidth t := by cases t <;> decide

theorem fsgnv_lt (t : Ty) (a b : Nat) : fsgnv t a b < 2 ^ fwidth t := by
  unfold fsgnv
  split
  · exact canonNan_lt t
  · exact copySign_lt (fwidth_pos t) a b

theorem testBit_fsgnv {t : Ty} (a b : Nat) {i : Nat} (hi : i < fwidth t) : (fsgnv t a b).testBit i =
    if (fval t a).isNan then (canonNan t).testBit i else if i == fwidth t - 1 then b.testBit i else a.testBit i := by
  unfold fsgnv
  split
  · rfl
  · exact testBit_copySign a b hi

/-! ### The statement -/

/-- Settles O26, by what each operation leaves of the bits of an element, and the place of a bit among the elements. -/
theorem floatSigns : Obligations.FloatSigns := by
  intro m t d a b s c ht
  have hi (j : Nat) : j % fwidth t < fwidth t := Nat.mod_lt j (fwidth_pos t)
  refine ⟨fun h => puts_bits h rfl rfl (fun L => elem1_snd (fun _ => rfl) _) fun L j hj => ?_,
    fun h => puts_bits h rfl rfl (fun L => elem1_snd (fun _ => rfl) _) fun L j hj => ?_,
    fun h => puts_bits h rfl rfl (fun L => elem2_snd ht (fun _ _ => rfl) _ _) fun L j hj => ?_⟩
  · rw [getLsbD_elem1 ht (fun x _ => clearSign_lt x) hj, testBit_clearSign _ (hi j), testBit_elemAt]
  · rw [getLsbD_elem1 ht (fun x => flipSign_lt (fwidth_pos t)) hj, testBit_flipSign, testBit_elemAt]
  · rw [getLsbD_elem2 ht (fsgnv_lt t) hj, testBit_fsgnv _ _ (hi j), testBit_elemAt, testBit_elemAt]
    rfl

end Sys2Proof.Machine
end
